-- ==== Sys2Proof/Word.lean ====
section
/-! DEFINITION. The words of the part: bytes, 16-bit references and values, 160-bit voice blocks, and the
numbers of lines, bearers and ring phases. Times are natural numbers of microseconds. -/

namespace Sys2Proof

/-- A byte of a record (08, R138). -/
abbrev Byte := BitVec 8

/-- A two-byte field of a record: a call reference, a value, a quality (08, R139 and R140). -/
abbrev Word := BitVec 16

/-- A 160-bit voice block, which is also one payload unit: 20 bytes, the first byte uppermost (05, R90). -/
abbrev Block := BitVec 160

/-- The number of a line, 0-23 (00, Conventions). -/
abbrev LineNo := Fin 24

/-- The number of a bearer, 0-7 (00, Conventions). -/
abbrev BearerNo := Fin 8

/-- The number of a ring phase, 0-2 (00, Conventions). -/
abbrev PhaseNo := Fin 3

/-- A time of the part's own time base, in microseconds since power-on reset (01, R8; 04, R75; log 1). -/
abbrev Time := Nat

/-- One voice block for each line's slot on the highway (00, External connections). -/
abbrev Voice := Vector Block 24

end Sys2Proof
end

