-- ==== Sys2Proof/Config.lean ====
section
/-! DEFINITION. The constants the spec fixes for the part, and the free values it leaves open (opaque, without a body). -/

namespace Sys2Proof

/-- A part of a tone that sounds: 400 Hz, 800 Hz or 1600 Hz (01, R7). -/
inductive Sound where
  | hz400
  | hz800
  | hz1600
  deriving DecidableEq, Repr

namespace Config

/-- FREE VALUE. The block of a sounding tone: R7 of 01 gives its frequency and level, not its bytes (log 19). -/
opaque soundBlock : Sound → Nat → Block

/-- FREE VALUE. What stands for the payload unit of a bearer that a received frame does not carry (05, R104; log 18). -/
opaque absentUnit : Time → BearerNo → Block

/-- FREE VALUE. Whether a SEIZE_IN that names a HELD_IN, ACTIVE, GUARD or BLOCKED bearer at or above K' in COUNTDOWN is refused with
RETIRING, as R133 of 07 says, or with BEARER_BUSY, as R32 of 02 and R71 of 04 say (log 44). -/
opaque seizeRetiring : Time → BearerNo → Bool

/-- The silence pattern: 20 bytes of value 0xD5 (05, R101). -/
def silenceBlock : Block := 0xD5D5D5D5D5D5D5D5D5D5D5D5D5D5D5D5D5D5D5D5

/-- The idle pattern: 20 bytes of value 0x55 (02, R45). -/
def idleBlock : Block := 0x5555555555555555555555555555555555555555

/-- The alignment word (05, R96). -/
def alignmentWord : Word := 0xD35A

/-- The revision code that UNIT_REPORT carries (08, R141). -/
def revision : Byte := 0x21

/-- The most records either transmit queue holds (08, R147 and R148). -/
def queueCapacity : Nat := 16

/-- The most entries the demand test list holds (10, R164). -/
def demandCapacity : Nat := 4

/-- The coded bits of a frame at every rate (05, R90). -/
def codedBits : Nat := 1920

end Config

end Sys2Proof
end

