-- ==== Sys2Proof/Syntax.lean ====
section
/-! DEFINITION. The commands of the part: one constructor of Instr for each row of spec/opcode_table.json, in the
table's order, with the row's operands. Every command but POWER_ON_RESET carries the time t at which it is taken
(log 1). The fields of a message record are the bytes received, before any test of their range (08, R142). -/

namespace Sys2Proof

/-- The two ports that records use: the link's message slot and the local serial port (08, R142). -/
inductive Port where
  | link
  | localPort
  deriving DecidableEq, Repr

/-- The level of a line's loop (01, R1 and R8). -/
inductive Loop where
  | opened
  | closed
  deriving DecidableEq, Repr

/-- Bytes 0-6 of a record; byte 7 is the check byte that R138 of 08 computes from them. -/
structure Record where
  kind : Byte
  b1 : Byte
  b2 : Byte
  b3 : Byte
  b4 : Byte
  b5 : Byte
  b6 : Byte
  deriving DecidableEq, Repr

/-- The fields of a received audit record whose check byte matched (08, R140 and R143). -/
structure AuditSlot where
  index : Byte
  view : Byte
  line : Byte
  reference : Word
  quality : Word
  deriving DecidableEq, Repr

/-- A received frame: its decoded info bits, the first received uppermost and not yet descrambled, the hard decisions
of its coded bits in the order received, the first uppermost, and the six decoded bits before it, bit 0 the latest
(05, R92, R94 and R98). At a rate with fewer info bits only the first of the 1440 bits are the frame's (log 28). -/
structure RxFrame where
  bits : BitVec 1440
  hard : BitVec 1920
  before : BitVec 6
  deriving DecidableEq, Repr

/-- A strap of a fitted group is moved: the time, and the levels of the three straps from then on (01, R20; log 7). -/
structure StrapMove where
  time : Time
  levels : BitVec 3
  deriving DecidableEq, Repr

/-- The strap inputs from a power-on reset on: their levels at the reset, bit 0 for lines 0-7, and the moves after it in the order of
their times (01, R20; log 7). -/
structure Straps where
  levels : BitVec 3
  moves : List StrapMove
  deriving DecidableEq, Repr

/-- What ends synchronism: the frame arrival or the window end that brings its count to the limit (06, R114). -/
inductive SyncSign where
  | frame (f : RxFrame)
  | window (bits renormalizations : Nat)
  deriving DecidableEq, Repr

/-- Where a record whose check byte does not match was received: R174 of 11 codes it in the error's detail. -/
inductive Source where
  | linkMessage
  | localPort
  | linkAudit
  deriving DecidableEq, Repr

/-- The commands. -/
inductive Instr where
  /-- POWER_ON_RESET (R171), with the strap inputs from this reset on (log 7). -/
  | powerOnReset (straps : Straps)
  /-- END_OF_START (R172). -/
  | endOfStart (t : Time)
  /-- ACCEPTED_TRANSITION (R8): the loop sample that completes a run. -/
  | acceptedTransition (t : Time) (l : LineNo) (level : Loop)
  /-- DIGIT_END (R13): the loop sample at which a closed interval reaches 250 ms. -/
  | digitEnd (t : Time) (l : LineNo) (level : Loop)
  /-- DISCONNECT (R12): the loop sample at which a CONNECTED line's open interval reaches 800 ms. -/
  | disconnect (t : Time) (l : LineNo) (level : Loop)
  /-- ON_HOOK (R16): the loop sample at which another line's open interval reaches 800 ms. -/
  | onHook (t : Time) (l : LineNo) (level : Loop)
  /-- RING_TRIP (R19): a sample that shows ring-trip asserted. -/
  | ringTrip (t : Time) (l : LineNo)
  /-- TONE_BLOCK (R6). -/
  | toneBlock (t : Time)
  /-- RESERVATION_TIMER_EXPIRY (R62). -/
  | reservationTimerExpiry (t : Time) (b : BearerNo)
  /-- GUARD_TIMER_EXPIRY (R38). -/
  | guardTimerExpiry (t : Time) (b : BearerNo)
  /-- WAIT_LIMIT_EXPIRY (R56). -/
  | waitLimitExpiry (t : Time) (l : LineNo)
  /-- SEIZE_IN (R71), a record of kind 0x11. -/
  | seizeIn (t : Time) (p : Port) (line bearer : Byte) (reference : Word)
  /-- ACCEPT (R60), a record of kind 0x12. -/
  | accept (t : Time) (p : Port) (b1 bearer : Byte) (reference : Word)
  /-- RELEASE (R59), a record of kind 0x14. -/
  | release (t : Time) (p : Port) (b1 bearer : Byte) (reference cause : Word)
  /-- REFUSE (R59), a record of kind 0x15. -/
  | refuse (t : Time) (p : Port) (b1 bearer : Byte) (reference cause : Word)
  /-- LOCKOUT (R69), a record of kind 0x16. -/
  | lockout (t : Time) (p : Port) (b1 bearer : Byte) (reference : Word)
  /-- EMPTY (R142), a record of kind 0x00. -/
  | empty (t : Time) (p : Port)
  /-- NOT_LISTED_KIND (R142), with the record received (log 23). -/
  | notListedKind (t : Time) (p : Port) (r : Record)
  /-- AUDIT_RECORD (R154). -/
  | auditRecord (t : Time) (a : AuditSlot)
  /-- PROVISION_LINE (R21), a record of kind 0x20. -/
  | provisionLine (t : Time) (p : Port) (line inService cls : Byte)
  /-- BLOCK_BEARER (R40), a record of kind 0x21. -/
  | blockBearer (t : Time) (p : Port) (bearer : Byte)
  /-- UNBLOCK_BEARER (R41), a record of kind 0x22. -/
  | unblockBearer (t : Time) (p : Port) (bearer : Byte)
  /-- SET_PARAM (R151), a record of kind 0x23. -/
  | setParam (t : Time) (p : Port) (ident : Byte) (value : Word)
  /-- TEST_LINE (R164), a record of kind 0x24. -/
  | testLine (t : Time) (p : Port) (line : Byte)
  /-- RESUME_TESTS (R168), a record of kind 0x25. -/
  | resumeTests (t : Time) (p : Port) (b1 : Byte)
  /-- SET_RATE_MODE with mode AUTO (R136), a record of kind 0x26. -/
  | setRateModeAuto (t : Time) (p : Port) (b1 : Byte)
  /-- SET_RATE_MODE with mode FIXED (R136), a record of kind 0x26. -/
  | setRateModeFixed (t : Time) (p : Port) (b1 rate : Byte)
  /-- LINK_CONTROL with action ENABLE (R118), a record of kind 0x27. -/
  | linkControlEnable (t : Time) (p : Port) (b1 : Byte)
  /-- LINK_CONTROL with action DISABLE (R118), a record of kind 0x27. -/
  | linkControlDisable (t : Time) (p : Port) (b1 : Byte)
  /-- LINK_CONTROL with action RESTART (R118), a record of kind 0x27. -/
  | linkControlRestart (t : Time) (p : Port) (b1 : Byte)
  /-- RESTART_UNIT (R177), a record of kind 0x28. -/
  | restartUnit (t : Time) (p : Port) (b1 : Byte)
  /-- CLEAR_ERRORS (R179), a record of kind 0x29. -/
  | clearErrors (t : Time) (p : Port) (b1 : Byte)
  /-- QUERY with subject LINE (R150). -/
  | queryLine (t : Time) (p : Port) (index : Byte)
  /-- QUERY with subject BEARER (R50). -/
  | queryBearer (t : Time) (p : Port) (index : Byte)
  /-- QUERY with subject LINK (R119). -/
  | queryLink (t : Time) (p : Port) (index : Byte)
  /-- QUERY with subject QUEUE (R58). -/
  | queryQueue (t : Time) (p : Port) (index : Byte)
  /-- QUERY with subject ERRORS (R150). -/
  | queryErrors (t : Time) (p : Port) (index : Byte)
  /-- QUERY with subject PARAM (R150). -/
  | queryParam (t : Time) (p : Port) (index : Byte)
  /-- QUERY with subject UNIT (R173). -/
  | queryUnit (t : Time) (p : Port) (index : Byte)
  /-- STOP_BIT_ERROR (R144). -/
  | stopBitError (t : Time)
  /-- FRAMING_TIMEOUT (R144). -/
  | framingTimeout (t : Time)
  /-- LOCAL_TRANSMIT (R145). -/
  | localTransmit (t : Time)
  /-- FRAME_ASSEMBLY (R95), with the latest upstream block of every line. -/
  | frameAssembly (t : Time) (voice : Voice)
  /-- TRANSMIT_SWITCH_FRAME (R103), with the latest upstream block of every line. -/
  | transmitSwitchFrame (t : Time) (voice : Voice)
  /-- FRAME_ARRIVAL (R98). -/
  | frameArrival (t : Time) (f : RxFrame)
  /-- RECEIVE_SWITCH (R102): the frame arrival at which the receive rate changes. -/
  | receiveSwitch (t : Time) (f : RxFrame)
  /-- SYNC_LOSS (R115): the frame arrival or window end that loses synchronism. -/
  | syncLoss (t : Time) (sign : SyncSign)
  /-- NORMALIZATION_WINDOW_END (R109), with the window's decoded bits and its renormalization count. -/
  | normalizationWindowEnd (t : Time) (bits renormalizations : Nat)
  /-- VERIFY_GIVE_UP (R112), with the bits decoded since the search began. -/
  | verifyGiveUp (t : Time) (bits : Nat)
  /-- ENTERING_UP (R113): the third confirmation of a trial, by the word at decoded-bit position x. -/
  | enteringUp (t : Time) (x : Nat)
  /-- LINK_FAILURE (R117). -/
  | linkFailure (t : Time)
  /-- BER_WINDOW_END (R123): the frame arrival that completes a BER window. -/
  | berWindowEnd (t : Time) (f : RxFrame)
  /-- DRAIN_TIMER_EXPIRY (R131). -/
  | drainTimerExpiry (t : Time)
  /-- ON_INTERVAL_START (R75). -/
  | onIntervalStart (t : Time) (p : PhaseNo)
  /-- ON_INTERVAL_END (R75). -/
  | onIntervalEnd (t : Time) (p : PhaseNo)
  /-- DOWNGRADE (R86): the supply sample that accepts a lower state, with the levels of the two lines. -/
  | downgrade (t : Time) (first second : Bool)
  /-- UPGRADE (R87): the supply sample that accepts a higher state. -/
  | upgrade (t : Time) (first second : Bool)
  /-- TEST_DUE (R163). -/
  | testDue (t : Time) (l : LineNo)
  /-- SETTLE_END (R165). -/
  | settleEnd (t : Time)
  /-- MEASUREMENT (R167): loop resistance in ohms, insulation in ohms, foreign voltage in millivolts (log 27). -/
  | measurement (t : Time) (ohms insulationOhms millivolts : Nat)
  /-- HEAD_TIMEOUT (R168). -/
  | headTimeout (t : Time)
  /-- SEIZURE_INDICATION (R169). -/
  | seizureIndication (t : Time)
  /-- LOOP_SAMPLE (R8). -/
  | loopSample (t : Time) (l : LineNo) (level : Loop)
  /-- SUPPLY_SAMPLE (R85), with the levels of the two lines. -/
  | supplySample (t : Time) (first second : Bool)
  /-- ALIGNMENT_WORD_FOUND (R112): the 16 bits w that begin at decoded-bit position x of the search. -/
  | alignmentWordFound (t : Time) (x : Nat) (w : Word)
  /-- BYTE_COMPLETED (R144). -/
  | byteCompleted (t : Time) (byte : Byte)
  /-- CHECK_BYTE_MISMATCH (R142, R143), with the place and the byte 0 of the record received. -/
  | checkByteMismatch (t : Time) (source : Source) (kind : Byte)
  deriving DecidableEq, Repr

end Sys2Proof
end

