-- ==== Sys2Proof/Decode.lean ====
section
/-! DEFINITION. The words of the opcode table. The part is a block: spec/opcode_table.json gives no bits for any of
its rows, so no word spells a command. Message records on the ports are decoded by Machine/Message.lean. -/

namespace Sys2Proof

/-- The command that a word spells by the table's bits: the table gives none, so none. -/
def decodeTableWord (_nbits _w : Nat) : Option Instr :=
  none

end Sys2Proof
end

