-- ==== Sys2Proof/Machine/Types.lean ====
section
/-! DEFINITION. The records the eight blocks keep, as plain data. A field that the spec makes present only in some
states stands inside those states' constructors, so that it cannot be present in another. -/

namespace Sys2Proof.Machine

open Sys2Proof

/-! ### Lines (01, section 1.1 and 1.2) -/

/-- R5 of 01. -/
inductive ParkCause where
  | unfitted
  | outOfService
  | fault
  deriving DecidableEq, Repr

/-- R4 of 01. -/
inductive LockoutCause where
  | congestion
  | withdrawn
  | refused
  | timeout
  | capacity
  | linkLost
  | restart
  | audit
  | farClear
  deriving DecidableEq, Repr

/-- The class of a line (00, Words used; R1 of 01). -/
inductive CallClass where
  | ordinary
  | priority
  deriving DecidableEq, Repr

/-- R3 of 01, with the bearer, lockout cause and park cause of R1 in the states that have them. A TESTING line that
entered from PARKED keeps its park cause; one that entered from IDLE has none. -/
inductive LineState where
  | parked (cause : ParkCause)
  | idle
  | waiting
  | originating (bearer : BearerNo)
  | ringing (bearer : BearerNo)
  | connected (bearer : BearerNo)
  | lockout (cause : LockoutCause)
  | testing (park : Option ParkCause)
  deriving DecidableEq, Repr

/-- R1 of 01; 10, R166-R169. -/
inductive TestOutcome where
  | good
  | marginal
  | faulty
  | aborted
  | headTimeout
  deriving DecidableEq, Repr

/-- The run of differing samples (01, R2): its length 0, 1 or 2, with its start while the length is above 0. -/
inductive Run where
  | zero
  | one (start : Time)
  | two (start : Time)
  deriving DecidableEq, Repr

/-- A line record with its supervision fields (01, R1 and R2). parityBad says that the stored parity does not match
what is stored; stuck that the record reads back wrong whatever is written (log 8). -/
structure LineRecord where
  state : LineState
  inService : Bool
  cls : CallClass
  loop : Loop
  digits : Nat
  lastOutcome : Option TestOutcome
  faultCount : Nat
  testDue : Time
  run : Run
  intervalStart : Time
  longOpen : Bool
  parityBad : Bool
  stuck : Bool
  deriving DecidableEq, Repr

/-- The tones of R7 of 01. -/
inductive Tone where
  | silence
  | hold
  | congestion
  | howler
  deriving DecidableEq, Repr

/-- What a line last heard in its downstream slot: a tone, and which block of the tone it was (01, R7). -/
structure Hearing where
  tone : Tone
  block : Nat
  deriving DecidableEq, Repr

/-! ### Bearers (02) -/

/-- R27 of 02: who originated the call. -/
inductive Direction where
  | outgoing
  | incoming
  deriving DecidableEq, Repr

/-- R27 of 02. -/
inductive BlockCause where
  | maintenance
  | far
  deriving DecidableEq, Repr

/-- What a bearer record holds of the call it carries or is claimed for (02, R27). -/
structure Call where
  line : LineNo
  reference : Word
  direction : Direction
  cls : CallClass
  target : Option BearerNo
  deriving DecidableEq, Repr

/-- R28 of 02, with the fields of R27 in the states that have them: the reservation timer and the request time
(03, R51) in HELD_OUT, the kept reference, the guard timer and a pending block in GUARD, a held block in UNAVAILABLE. -/
inductive BearerState where
  | unavailable (held : Bool)
  | free
  | heldOut (call : Call) (expiry requested : Time)
  | heldIn (call : Call)
  | heldMove
  | active (call : Call)
  | guarded (reference : Word) (expiry : Time) (pendingBlock : Bool)
  | blocked (cause : BlockCause)
  deriving DecidableEq, Repr

/-- A bearer record (02, R27). parityBad and stuck are as for a line record. -/
structure BearerRecord where
  state : BearerState
  entered : Time
  disagreements : Nat
  parityBad : Bool
  stuck : Bool
  deriving DecidableEq, Repr

/-- An entry of the waiting queue (03, R53). -/
structure WaitEntry where
  line : LineNo
  cls : CallClass
  joined : Time
  deriving DecidableEq, Repr

/-! ### The Ring Scheduler (04) -/

/-- An entry of a phase table (04, R74). -/
structure RingEntry where
  line : LineNo
  rings : Nat
  placed : Time
  relay : Bool
  deriving DecidableEq, Repr

/-- An entry of the ring queue (04, R74): it has no placement time and its relay is off. -/
structure RingWaiter where
  line : LineNo
  rings : Nat
  deriving DecidableEq, Repr

/-- R85 of 04. -/
inductive Supply where
  | normal
  | economy
  | reserve
  deriving DecidableEq, Repr

/-- The candidate of R85 of 04. -/
structure SupplyCandidate where
  state : Supply
  since : Time
  deriving DecidableEq, Repr

/-- The Ring Scheduler's state (04, R74 and R85); begun marks the phases whose on-interval has begun and not
ended (R75, R77). -/
structure Ring where
  phases : Vector (List RingEntry) 3
  begun : Vector Bool 3
  queue : List RingWaiter
  supply : Supply
  candidate : Option SupplyCandidate
  deriving DecidableEq, Repr

/-! ### The link (05, 06, 07) -/

/-- R30 of 02 and R90 of 05. -/
inductive Rate where
  | robust
  | standard
  | wide
  deriving DecidableEq, Repr

/-- A verification trial (06, R112). -/
structure Trial where
  position : Nat
  confirmations : Nat
  deriving DecidableEq, Repr

/-- The hunt episode's fields and the hold timer (06, R106). -/
structure Episode where
  cycle : Nat
  noSync : Bool
  hold : Option Time
  deriving DecidableEq, Repr

/-- R107 of 06, with the fields of R106 in the states that have them. -/
inductive LinkState where
  | disabled
  | hunt (episode : Episode)
  | verify (episode : Episode) (trials : List Trial)
  | up (badWindows damagedFrames : Nat)
  deriving DecidableEq, Repr

/-- The announcement (06, R106). -/
structure Announcement where
  next : Rate
  countdown : Nat
  deriving DecidableEq, Repr

/-- The link record (06, R106). switchDue is the announced rate between the frame that carried countdown 1 and the
transmit switch frame (05, R103; log 11); window is the length of the normalization window in progress (R109); carried is the
model's mark that this window began before a loss of sync, whose end then changes nothing (R114; log 31). -/
structure Link where
  state : LinkState
  rate : Rate
  candidate : Nat
  lastGood : Nat
  announcement : Option Announcement
  switchDue : Option Rate
  window : Option Nat
  carried : Bool
  deriving DecidableEq, Repr

/-- A relocation pair (07, R128). -/
structure Pair where
  source : BearerNo
  dest : BearerNo
  deriving DecidableEq, Repr

/-- The phase of a step plan (07, R128): the drain timer in DRAIN until the plan is first forced, the pairs in
COUNTDOWN. -/
inductive PlanPhase where
  | drain (timer : Option Time)
  | countdown (pairs : List Pair)
  deriving DecidableEq, Repr

/-- A step plan (07, R128); its target capacity is that of its target rate. -/
structure StepPlan where
  target : Rate
  phase : PlanPhase
  forced : Bool
  deriving DecidableEq, Repr

/-- A BER window (07, R122). -/
structure BerWindow where
  frames : Nat
  disagreements : Nat
  length : Nat
  deriving DecidableEq, Repr

/-- R136 of 07. -/
inductive RateMode where
  | auto
  | fixed (rate : Rate)
  deriving DecidableEq, Repr

/-- The quality record (07, R121). -/
structure Quality where
  window : Option BerWindow
  firstWindow : Bool
  estimate : Nat
  qNear : Nat
  qFar : Nat
  decision : Nat
  downRun : Nat
  upRun : Nat
  mode : RateMode
  plan : Option StepPlan
  deriving DecidableEq, Repr

/-- The receive countdown (05, R102). -/
structure RxCountdown where
  next : Rate
  count : Nat
  deriving DecidableEq, Repr

/-- The relocation pairs of one step-down that the Link Coder keeps (05, R104): the step-down's target rate, and whether the
transmit switch has been taken. -/
structure Relocation where
  pairs : List Pair
  target : Rate
  switched : Bool
  deriving DecidableEq, Repr

/-- A concealment record (05, R101). -/
structure Conceal where
  lastGood : Option Block
  run : Nat
  deriving DecidableEq, Repr

/-- A frame given to the modem (05, R90-R97): its info bytes before scrambling, and its coded bits in the order sent. -/
structure TxFrame where
  rate : Rate
  info : List Byte
  coded : List Bool
  deriving DecidableEq, Repr

/-- The Link Coder's state (05, R105). relocations holds the pairs of every step-down that has a switch to come, the newest first
(R104; log 17). sinceSwitch counts the frames assembled since the transmit switch while the
receive rate differs from the link record's (R102). -/
structure Coder where
  stages : BitVec 6
  txNumber : Byte
  rxRate : Rate
  rxCountdown : Option RxCountdown
  expected : Option Byte
  lastGoodNumber : Option Byte
  conceal : Vector (Option Conceal) 24
  relocations : List Relocation
  sinceSwitch : Option Nat
  deriving DecidableEq, Repr

/-! ### The Message Handler (08) -/

/-- The local receive assembler (08, R144). -/
inductive Assembler where
  | hunting
  | collecting (bytes : List Byte) (last : Time)
  deriving DecidableEq, Repr

/-- The record on the local line, the bytes in which it is sent, 0x7E and its 8 bytes, and when the line is free again (08, R145). -/
structure Sending where
  record : Record
  wire : List Byte
  until_ : Time
  deriving DecidableEq, Repr

/-- The Message Handler's state (08, R152). -/
structure Messages where
  linkQueue : List Record
  localQueue : List Record
  assembler : Assembler
  sending : Option Sending
  deriving DecidableEq, Repr

/-! ### The Test Sequencer (10) -/

/-- R162 of 10. -/
inductive TestKind where
  | routine
  | demand (port : Port)
  deriving DecidableEq, Repr

/-- R162 of 10. -/
inductive TestPhase where
  | settling
  | measuring
  deriving DecidableEq, Repr

/-- The test record (10, R162). The prior state is what the TESTING line keeps: PARKED if it keeps a park cause. -/
structure TestRecord where
  line : LineNo
  kind : TestKind
  phase : TestPhase
  timer : Time
  deriving DecidableEq, Repr

/-- An entry of the demand test list (10, R164). -/
structure DemandEntry where
  line : LineNo
  port : Port
  deriving DecidableEq, Repr

/-- The Test Sequencer's state (10, R162 and R164). -/
structure Testing where
  inService : Bool
  timeoutRun : Nat
  test : Option TestRecord
  demand : List DemandEntry
  deriving DecidableEq, Repr

/-! ### The Fault Recorder (11) -/

/-- The error kinds of R174 of 11, in the order of their codes. -/
inductive ErrorKind where
  | linkNoSync
  | linkLost
  | frameSlip
  | msgCheck
  | msgFormat
  | msgFraming
  | staleMessage
  | txOverflow
  | reservationTimeout
  | queueTimeout
  | auditConflict
  | capacityPreempt
  | testHead
  | lineFault
  | tableParity
  deriving DecidableEq, Repr

/-- The routings of R174 of 11, in their order. -/
inductive Routing where
  | count
  | report
  | restartLink
  | restartUnit
  deriving DecidableEq, Repr

/-- R171 of 11. -/
inductive UnitMode where
  | start
  | service
  | halted
  deriving DecidableEq, Repr

/-- The restart cause with the restart kind of cause ERROR (11, R171). -/
inductive RestartCause where
  | powerOn
  | requested
  | error (kind : ErrorKind)
  deriving DecidableEq, Repr

/-- The unit record (11, R171). startSteps is the model's mark that steps 1-3 of R172 have been taken since the
entry to START (log 6). -/
structure UnitRecord where
  mode : UnitMode
  cause : RestartCause
  startTime : Time
  strapMask : BitVec 3
  firstUpPending : Bool
  startSteps : Bool
  deriving DecidableEq, Repr

/-- An error as a block raises it; a field the block does not give is absent (11, R174 and R175). -/
structure ErrorEvent where
  kind : ErrorKind
  line : Option LineNo := none
  bearer : Option BearerNo := none
  frame : Option Byte := none
  detail : Option Word := none
  deriving DecidableEq, Repr

/-- The first-error record (11, R175): the error and the whole seconds from the start time to it. -/
structure FirstError where
  error : ErrorEvent
  seconds : Nat
  deriving DecidableEq, Repr

/-- The error records, counts and routings (11, R175 and R179), by the place of a kind in the order of codes. -/
structure Errors where
  first : Option FirstError
  next : Vector Bool 15
  counts : Vector Nat 15
  routings : Vector Routing 15
  deriving DecidableEq, Repr

/-- The parameters of ids 1-21 (08, R151), in the order of their ids. -/
inductive Param where
  | waitLimit
  | reservationTimeout
  | guardTime
  | ringLimit
  | holdTime
  | windowLength
  | thresholdRobust
  | thresholdStandard
  | thresholdWide
  | berWindow
  | downW
  | downS
  | upR
  | upS
  | downRunLength
  | upRunLength
  | critical
  | drainLimit
  | sweepPeriod
  | parkThreshold
  | headTimeout
  deriving DecidableEq, Repr

/-- What a line or bearer record is called where its parity is checked (01, R1; 02, R27). -/
inductive RecordId where
  | line (l : LineNo)
  | bearer (b : BearerNo)
  deriving DecidableEq, Repr

/-! ### The model's own -/

/-- A restart that an error's routing orders, taken after the event's whole effect (11, R177), with the ALARM that
follows it if one is called for (R176). -/
structure Ordered where
  unit : Bool
  kind : ErrorKind
  alarm : Option Record
  deriving DecidableEq, Repr

/-- What one event has set going and not yet settled (log 9): the records whose mismatch it has already recorded (log 8), a
waiting-queue service (02, R33), new counts for the step plan (R33), a choice of a test (10, R163), the reply (08, R149)
and the restarts ordered (11, R177). -/
structure Work where
  found : List RecordId := []
  serve : Bool := false
  counts : Bool := false
  choose : Bool := false
  reply : Option (Port × Record) := none
  ordered : List Ordered := []
  deriving DecidableEq, Repr

/-- The connections the model holds: the strap inputs from the last power-on reset on (log 7), the two sides of the voice highway, what each line's slot last
carried as a tone, and the frame last given to the modem (00, External connections). -/
structure Pins where
  straps : Straps
  voiceIn : Voice
  voiceOut : Voice
  hearing : Vector (Option Hearing) 24
  frame : Option TxFrame
  deriving DecidableEq, Repr

end Sys2Proof.Machine
end

