-- ==== Sys2Proof/Machine/Values.lean ====
section
/-! DEFINITION. The tables of constants and the power-on values of the blocks' records: times, capacities, parameters
with their defaults and ranges, routings, and the value each record takes at power-on reset. -/

namespace Sys2Proof.Machine

open Sys2Proof

/-- A number of milliseconds as a time. -/
def ms (n : Nat) : Time := 1000 * n

/-- A number of seconds as a time. -/
def sec (n : Nat) : Time := 1000000 * n

/-- A number of hours as a time. -/
def hours (n : Nat) : Time := sec (3600 * n)

/-- The 24 lines in order. -/
def allLines : List LineNo :=
  [0, 1, 2, 3, 4, 5, 6, 7, 8, 9, 10, 11, 12, 13, 14, 15, 16, 17, 18, 19, 20, 21, 22, 23]

/-- The 8 bearers in order. -/
def allBearers : List BearerNo := [0, 1, 2, 3, 4, 5, 6, 7]

/-- The 3 ring phases in order. -/
def allPhases : List PhaseNo := [0, 1, 2]

/-- The rate code (05, R90). -/
def Rate.code : Rate → Nat
  | .robust => 0
  | .standard => 1
  | .wide => 2

/-- The rate of a code; code 3 names no rate (05, R90). -/
def Rate.ofCode : Nat → Option Rate
  | 0 => some .robust
  | 1 => some .standard
  | 2 => some .wide
  | _ => none

/-- The capacity K (02, R30). -/
def Rate.capacity : Rate → Nat
  | .robust => 5
  | .standard => 7
  | .wide => 8

/-- The info bits of a frame (05, R90), which are also the frame spacing F (06, R112). -/
def Rate.infoBits : Rate → Nat
  | .robust => 960
  | .standard => 1280
  | .wide => 1440

/-- The puncture period P (05, R93). -/
def Rate.period : Rate → Nat
  | .robust => 1
  | .standard => 2
  | .wide => 3

/-- The candidate count: two phase senses for each puncture position (05, R94; 06, R106). -/
def Rate.candidates (r : Rate) : Nat := 2 * r.period

/-- The phase sense of a candidate: the coded bits passed over before the first coded bit of an input bit (05, R94). -/
abbrev phaseSense (candidate : Nat) : Nat := candidate % 2

/-- The puncture position of a candidate: the place in the pattern that the decoder gives to that input bit (05, R94). -/
abbrev puncturePosition (candidate : Nat) : Nat := candidate / 2

/-- The candidate of a phase sense and a puncture position (05, R94). -/
def candidateAt (sense position : Nat) : Nat := sense + 2 * position

/-- The ring capacity of a phase (04, R76). -/
def Supply.capacity : Supply → Nat
  | .normal => 4
  | .economy => 2
  | .reserve => 1

/-- The rank of a supply state: NORMAL above ECONOMY above RESERVE (04, R85). -/
def Supply.rank : Supply → Nat
  | .normal => 2
  | .economy => 1
  | .reserve => 0

/-- The place of a kind in the order of codes; its code is one more (11, R174). -/
def ErrorKind.index : ErrorKind → Fin 15
  | .linkNoSync => 0
  | .linkLost => 1
  | .frameSlip => 2
  | .msgCheck => 3
  | .msgFormat => 4
  | .msgFraming => 5
  | .staleMessage => 6
  | .txOverflow => 7
  | .reservationTimeout => 8
  | .queueTimeout => 9
  | .auditConflict => 10
  | .capacityPreempt => 11
  | .testHead => 12
  | .lineFault => 13
  | .tableParity => 14

/-- The code of a kind, 1-15 (11, R174). -/
def ErrorKind.code (k : ErrorKind) : Nat := k.index.val + 1

/-- The kinds in the order of their codes. -/
def allKinds : List ErrorKind :=
  [.linkNoSync, .linkLost, .frameSlip, .msgCheck, .msgFormat, .msgFraming, .staleMessage, .txOverflow,
    .reservationTimeout, .queueTimeout, .auditConflict, .capacityPreempt, .testHead, .lineFault, .tableParity]

/-- The kind of a code (11, R174). -/
def ErrorKind.ofCode (n : Nat) : Option ErrorKind :=
  allKinds.find? (fun k => k.code == n)

/-- The routing code (08, R141), which is also its place in the order of R174. -/
def Routing.code : Routing → Nat
  | .count => 0
  | .report => 1
  | .restartLink => 2
  | .restartUnit => 3

/-- The routing of a code after the clamp to 0-3 (08, R151). -/
def Routing.ofCode : Nat → Routing
  | 0 => .count
  | 1 => .report
  | 2 => .restartLink
  | _ => .restartUnit

/-- The default routing of a kind (11, R174). -/
def ErrorKind.defaultRouting : ErrorKind → Routing
  | .linkNoSync => .report
  | .linkLost => .report
  | .frameSlip => .count
  | .msgCheck => .count
  | .msgFormat => .count
  | .msgFraming => .count
  | .staleMessage => .count
  | .txOverflow => .report
  | .reservationTimeout => .report
  | .queueTimeout => .count
  | .auditConflict => .report
  | .capacityPreempt => .report
  | .testHead => .report
  | .lineFault => .report
  | .tableParity => .restartUnit

/-- The routings a kind may take, in their order (11, R174). -/
def ErrorKind.allowed : ErrorKind → List Routing
  | .linkLost => [.count, .report, .restartUnit]
  | .msgCheck => [.count, .report, .restartLink]
  | .auditConflict => [.count, .report, .restartLink]
  | .tableParity => [.report, .restartUnit]
  | .linkNoSync | .frameSlip | .msgFormat | .msgFraming | .staleMessage | .txOverflow | .reservationTimeout
  | .queueTimeout | .capacityPreempt | .testHead | .lineFault => [.count, .report]

/-- The distance between two routings in the order of R174. -/
def Routing.distance (a b : Routing) : Nat :=
  (a.code - b.code) + (b.code - a.code)

/-- The allowed routing nearest to the one asked for; of two equally near, the lower (11, R174). -/
def ErrorKind.nearestRouting (k : ErrorKind) (asked : Routing) : Routing :=
  match k.allowed with
  | [] => asked
  | r :: rest => rest.foldl (fun best c => if asked.distance c < asked.distance best then c else best) r

/-- The place of a parameter in the order of ids; its id is one more (08, R151). -/
def Param.index : Param → Fin 21
  | .waitLimit => 0
  | .reservationTimeout => 1
  | .guardTime => 2
  | .ringLimit => 3
  | .holdTime => 4
  | .windowLength => 5
  | .thresholdRobust => 6
  | .thresholdStandard => 7
  | .thresholdWide => 8
  | .berWindow => 9
  | .downW => 10
  | .downS => 11
  | .upR => 12
  | .upS => 13
  | .downRunLength => 14
  | .upRunLength => 15
  | .critical => 16
  | .drainLimit => 17
  | .sweepPeriod => 18
  | .parkThreshold => 19
  | .headTimeout => 20

/-- The default of a parameter (08, R151). -/
def Param.default : Param → Nat
  | .waitLimit => 30
  | .reservationTimeout => 4
  | .guardTime => 400
  | .ringLimit => 15
  | .holdTime => 5
  | .windowLength => 4096
  | .thresholdRobust => 40
  | .thresholdStandard => 60
  | .thresholdWide => 80
  | .berWindow => 100
  | .downW => 400
  | .downS => 1500
  | .upR => 200
  | .upS => 60
  | .downRunLength => 3
  | .upRunLength => 10
  | .critical => 8000
  | .drainLimit => 10
  | .sweepPeriod => 6
  | .parkThreshold => 2
  | .headTimeout => 3

/-- The range of a parameter (08, R151). -/
def Param.range : Param → Nat × Nat
  | .waitLimit => (5, 120)
  | .reservationTimeout => (1, 10)
  | .guardTime => (100, 2000)
  | .ringLimit => (3, 40)
  | .holdTime => (1, 30)
  | .windowLength => (1024, 16384)
  | .thresholdRobust => (1, 1000)
  | .thresholdStandard => (1, 1000)
  | .thresholdWide => (1, 1000)
  | .berWindow => (10, 1000)
  | .downW => (20, 20000)
  | .downS => (20, 20000)
  | .upR => (10, 19999)
  | .upS => (10, 19999)
  | .downRunLength => (1, 10)
  | .upRunLength => (1, 50)
  | .critical => (100, 65535)
  | .drainLimit => (0, 60)
  | .sweepPeriod => (1, 24)
  | .parkThreshold => (1, 5)
  | .headTimeout => (1, 10)

/-- The parameters in the order of their ids. -/
def allParams : List Param :=
  [.waitLimit, .reservationTimeout, .guardTime, .ringLimit, .holdTime, .windowLength, .thresholdRobust,
    .thresholdStandard, .thresholdWide, .berWindow, .downW, .downS, .upR, .upS, .downRunLength, .upRunLength,
    .critical, .drainLimit, .sweepPeriod, .parkThreshold, .headTimeout]

/-- The parameter defaults in the order of ids (08, R151). -/
def defaultParams : Vector Nat 21 :=
  ⟨(allParams.map Param.default).toArray, rfl⟩

/-- The routing defaults in the order of codes (11, R174). -/
def defaultRoutings : Vector Routing 15 :=
  ⟨(allKinds.map ErrorKind.defaultRouting).toArray, rfl⟩

/-! ### Power-on values -/

/-- A line record at power-on reset, with the time of reset 0 (01, R23). -/
def LineRecord.powerOn : LineRecord where
  state := .idle
  inService := true
  cls := .ordinary
  loop := .opened
  digits := 0
  lastOutcome := none
  faultCount := 0
  testDue := hours 6
  run := .zero
  intervalStart := 0
  longOpen := false
  parityBad := false
  stuck := false

/-- A bearer record at power-on reset, with the time of reset 0 (02, R48). -/
def BearerRecord.powerOn (b : BearerNo) : BearerRecord where
  state := if b.val < Rate.robust.capacity then .free else .unavailable false
  entered := 0
  disagreements := 0
  parityBad := false
  stuck := false

/-- The Ring Scheduler at power-on reset (04, R89). -/
def Ring.powerOn : Ring where
  phases := Vector.replicate 3 []
  begun := Vector.replicate 3 false
  queue := []
  supply := .normal
  candidate := none

/-- A hunt episode at its start (06, R106). -/
def Episode.fresh : Episode where
  cycle := 0
  noSync := false
  hold := none

/-- The link record at power-on reset (06, R120). The decoder is not run in START, so no window is in progress. -/
def Link.powerOn : Link where
  state := .hunt Episode.fresh
  rate := .robust
  candidate := 0
  lastGood := 0
  announcement := none
  switchDue := none
  window := none
  carried := false

/-- The quality record at power-on reset (07, R137). -/
def Quality.powerOn : Quality where
  window := none
  firstWindow := true
  estimate := 0
  qNear := 0
  qFar := 0
  decision := 0
  downRun := 0
  upRun := 0
  mode := .auto
  plan := none

/-- The Link Coder at power-on reset (05, R105). -/
def Coder.powerOn : Coder where
  stages := 0
  txNumber := 0
  rxRate := .robust
  rxCountdown := none
  expected := none
  lastGoodNumber := none
  conceal := Vector.replicate 24 none
  relocations := []
  sinceSwitch := none

/-- The Message Handler at power-on reset (08, R152). -/
def Messages.powerOn : Messages where
  linkQueue := []
  localQueue := []
  assembler := .hunting
  sending := none

/-- The Test Sequencer at power-on reset (10, R170). -/
def Testing.powerOn : Testing where
  inService := true
  timeoutRun := 0
  test := none
  demand := []

/-- The unit record at power-on reset, before the START sequence is taken (11, R179). -/
def UnitRecord.powerOn : UnitRecord where
  mode := .start
  cause := .powerOn
  startTime := 0
  strapMask := 0
  firstUpPending := false
  startSteps := false

/-- The error records at power-on reset (11, R179). -/
def Errors.powerOn : Errors where
  first := none
  next := Vector.replicate 15 false
  counts := Vector.replicate 15 0
  routings := defaultRoutings

/-- The connections at power-on reset (log 7, log 20). -/
def Pins.powerOn : Pins where
  straps := { levels := 0, moves := [] }
  voiceIn := Vector.replicate 24 0
  voiceOut := Vector.replicate 24 Config.silenceBlock
  hearing := Vector.replicate 24 none
  frame := none

/-- The line table at power-on reset (01, R23). -/
def linesPowerOn : Vector LineRecord 24 :=
  Vector.replicate 24 LineRecord.powerOn

/-- The bearer table at power-on reset (02, R48). -/
def bearersPowerOn : Vector BearerRecord 8 :=
  ⟨(allBearers.map BearerRecord.powerOn).toArray, rfl⟩

end Sys2Proof.Machine
end

