-- ==== Sys2Proof/Machine/State.lean ====
section
/-! DEFINITION. The state of the part, the reasons a step can stop, and the state right after power-on reset. -/

namespace Sys2Proof.Machine

open Sys2Proof

/-- Everything the part holds (INVENTORY.md, State), the queue of waiting commands, and the work of one event, which
is empty between commands. -/
structure State where
  now : Time
  unit : UnitRecord
  errors : Errors
  params : Vector Nat 21
  lines : Vector LineRecord 24
  bearers : Vector BearerRecord 8
  active : List BearerNo
  counter : Word
  waiting : List WaitEntry
  ring : Ring
  link : Link
  quality : Quality
  coder : Coder
  messages : Messages
  testing : Testing
  pins : Pins
  pending : List Instr
  work : Work
  deriving DecidableEq, Repr

/-- The part has no fault that stops a command: its errors are recorded and the machine goes on, and HALTED is a unit
state (11, R175 and R178). The type has no constructor; log 30. -/
inductive Fault where
  deriving DecidableEq, Repr

/-- The reasons to refuse a command. -/
inductive Refusal where
  /-- Raised by exec for a command that has no meaning yet; safe. No arm of exec answers with it. -/
  | notModelled (mnemonic : String)
  deriving DecidableEq, Repr

/-- The machine right after power-on reset: every block at its power-on values (01 R23, 02 R48, 03 R58, 04 R89, 05 R105,
06 R120, 07 R137, 08 R151 and R152, 10 R170, 11 R179), the START sequence of R172 not yet taken (log 6). -/
def State.reset : State where
  now := 0
  unit := UnitRecord.powerOn
  errors := Errors.powerOn
  params := defaultParams
  lines := linesPowerOn
  bearers := bearersPowerOn
  active := []
  counter := 1
  waiting := []
  ring := Ring.powerOn
  link := Link.powerOn
  quality := Quality.powerOn
  coder := Coder.powerOn
  messages := Messages.powerOn
  testing := Testing.powerOn
  pins := Pins.powerOn
  pending := []
  work := {}

end Sys2Proof.Machine
end

