-- ==== Sys2Proof/Machine/Operands.lean ====
section
/-! DEFINITION. The forms of the records: bytes and two-byte fields, the check byte, the range tests of inbound fields,
the codes of R141, and the records the part sends. -/

namespace Sys2Proof.Machine

open Sys2Proof

/-! ### Bytes and fields -/

/-- A number as a byte. -/
def byte (n : Nat) : Byte := BitVec.ofNat 8 n

/-- A number as a byte that holds at 255 (08, R141: a unit of time saturates at the byte's limit). -/
def byteSat (n : Nat) : Byte := byte (min n 255)

/-- The most significant byte of a field, sent first (00, Conventions). -/
def hiByte (w : Word) : Byte := w.extractLsb' 8 8

/-- The least significant byte of a field. -/
def loByte (w : Word) : Byte := w.extractLsb' 0 8

/-- A field of two bytes, the most significant first. -/
def toWord (hi lo : Byte) : Word := hi ++ lo

/-- Two four-bit values in one byte, the first in the high nibble. -/
def nibbles (hi lo : Nat) : Byte := byte (16 * (hi % 16) + lo % 16)

/-- A line number of a received field, when it lies in 0-23 (08, R139). -/
def lineOf (b : Byte) : Option LineNo :=
  if h : b.toNat < 24 then some ⟨b.toNat, h⟩ else none

/-- A bearer number of a received field, when it lies in 0-7 (08, R139). -/
def bearerOf (b : Byte) : Option BearerNo :=
  if h : b.toNat < 8 then some ⟨b.toNat, h⟩ else none

/-- A line as a byte. -/
def lineByte (l : LineNo) : Byte := byte l.val

/-- A bearer as a byte. -/
def bearerByte (b : BearerNo) : Byte := byte b.val

/-- A line as a byte, 0xFF for none (08, R141). -/
def lineByteOr (l : Option LineNo) : Byte := (l.map lineByte).getD 0xFF

/-- A bearer as a byte, 0xFF for none (08, R141). -/
def bearerByteOr (b : Option BearerNo) : Byte := (b.map bearerByte).getD 0xFF

/-- A truth value as 0 or 1. -/
def bit (b : Bool) : Nat := if b then 1 else 0

/-! ### The check byte (08, R138) -/

/-- The bits of a byte, the most significant first. -/
def byteBits (b : Byte) : List Bool :=
  [b.getMsbD 0, b.getMsbD 1, b.getMsbD 2, b.getMsbD 3, b.getMsbD 4, b.getMsbD 5, b.getMsbD 6, b.getMsbD 7]

/-- One step of the check register: the top bit is added to the incoming bit, the register is shifted toward its top,
and 0x07 is added if the sum was 1. -/
def checkStep (reg : Byte) (b : Bool) : Byte :=
  if reg.msb != b then (reg <<< 1) ^^^ 0x07 else reg <<< 1

/-- The check byte of bytes 0-6: generator x^8 + x^2 + x + 1, the register starting at 0. -/
def checkByte (bytes : List Byte) : Byte :=
  (bytes.flatMap byteBits).foldl checkStep 0

/-- Bytes 0-6 of a record. -/
def recordBytes (r : Record) : List Byte := [r.kind, r.b1, r.b2, r.b3, r.b4, r.b5, r.b6]

/-- The 8 bytes of a record as sent (08, R138). -/
def recordWire (r : Record) : List Byte := recordBytes r ++ [checkByte (recordBytes r)]

/-- The bytes of a record on the local line: 0x7E, then its 8 bytes (08, R144 and R145). -/
def localWire (r : Record) : List Byte := 0x7E :: recordWire r

/-! ### Kinds (08, R139) -/

/-- The report class, 0x30-0x3B. -/
def isReport (kind : Byte) : Bool := 0x30 ≤ kind && kind ≤ 0x3B

/-- Call control, 0x10-0x1A. -/
def isCallControl (kind : Byte) : Bool := 0x10 ≤ kind && kind ≤ 0x1A

/-- The record of kind EMPTY. -/
def emptyRecord : Record where
  kind := 0
  b1 := 0
  b2 := 0
  b3 := 0
  b4 := 0
  b5 := 0
  b6 := 0

/-- A record whose bytes 1-6 are a byte, a byte and two fields: the form of every call-control record (08, R139). -/
def callRecord (kind b1 b2 : Byte) (w1 w2 : Word) : Record where
  kind := kind
  b1 := b1
  b2 := b2
  b3 := hiByte w1
  b4 := loByte w1
  b5 := hiByte w2
  b6 := loByte w2

/-! ### Codes (08, R141) -/

/-- The class code of SEIZE_OUT, of a QUEUE_STATUS and of the PRIORITY bits. -/
def CallClass.code : CallClass → Nat
  | .ordinary => 0
  | .priority => 1

/-- The line state code. -/
def LineState.code : LineState → Nat
  | .parked _ => 0
  | .idle => 1
  | .waiting => 2
  | .originating _ => 3
  | .ringing _ => 4
  | .connected _ => 5
  | .lockout _ => 6
  | .testing _ => 7

/-- The park cause code. -/
def ParkCause.code : ParkCause → Nat
  | .unfitted => 1
  | .outOfService => 2
  | .fault => 3

/-- The lockout cause code. -/
def LockoutCause.code : LockoutCause → Nat
  | .congestion => 1
  | .withdrawn => 2
  | .refused => 3
  | .timeout => 4
  | .capacity => 5
  | .linkLost => 6
  | .restart => 7
  | .audit => 8
  | .farClear => 9

/-- The test outcome code; 0 is absent. -/
def TestOutcome.code : TestOutcome → Nat
  | .good => 1
  | .marginal => 2
  | .faulty => 3
  | .aborted => 4
  | .headTimeout => 5

/-- The bearer state code. -/
def BearerState.code : BearerState → Nat
  | .unavailable _ => 0
  | .free => 1
  | .heldOut _ _ _ => 2
  | .heldIn _ => 3
  | .heldMove => 4
  | .active _ => 5
  | .guarded _ _ _ => 6
  | .blocked _ => 7

/-- The link state code. -/
def LinkState.code : LinkState → Nat
  | .disabled => 0
  | .hunt _ => 1
  | .verify _ _ => 2
  | .up _ _ => 3

/-- The supply state code. -/
def Supply.code : Supply → Nat
  | .normal => 0
  | .economy => 1
  | .reserve => 2

/-- The unit state code of UNIT_REPORT. -/
def UnitMode.code : UnitMode → Nat
  | .start => 0
  | .service => 1
  | .halted => 2

/-- The restart cause code of UNIT_REPORT. -/
def RestartCause.code : RestartCause → Nat
  | .powerOn => 1
  | .requested => 2
  | .error _ => 3

/-- The restart kind of cause ERROR, 0 for the other causes. -/
def RestartCause.kindCode : RestartCause → Nat
  | .powerOn => 0
  | .requested => 0
  | .error k => k.code

/-- The causes of RELEASE and REFUSE. -/
inductive ClearCause where
  | subscriber
  | late
  | audit
  | capacity
  | bearerBusy
  | bearerUnavailable
  | retiring
  | lineBusy
  | lineParked
  | badReference
  deriving DecidableEq, Repr

/-- The cause code of RELEASE and REFUSE. -/
def ClearCause.code : ClearCause → Word
  | .subscriber => 1
  | .late => 2
  | .audit => 3
  | .capacity => 4
  | .bearerBusy => 5
  | .bearerUnavailable => 6
  | .retiring => 7
  | .lineBusy => 8
  | .lineParked => 9
  | .badReference => 10

/-- The causes of a refused request. -/
inductive ReplyCause where
  | format
  | wrongPort
  | starting
  | busy
  | unfitted
  | notBlocked
  | linkDisabled
  | duplicate
  | listFull
  | headOut
  deriving DecidableEq, Repr

/-- The REPLY cause code. -/
def ReplyCause.code : ReplyCause → Byte
  | .format => 16
  | .wrongPort => 17
  | .starting => 18
  | .busy => 19
  | .unfitted => 20
  | .notBlocked => 21
  | .linkDisabled => 22
  | .duplicate => 23
  | .listFull => 24
  | .headOut => 25

/-- The causes of LINK_STATE (06, R119). -/
inductive LinkCause where
  | found
  | recovered
  | lost
  | failed
  | disabled
  | enabled
  | restarted
  deriving DecidableEq, Repr

/-- The LINK_STATE cause code. -/
def LinkCause.code : LinkCause → Byte
  | .found => 1
  | .recovered => 2
  | .lost => 3
  | .failed => 4
  | .disabled => 5
  | .enabled => 6
  | .restarted => 7

/-- The source code of an error's detail (11, R174). -/
def Source.code : Source → Byte
  | .linkMessage => 0
  | .localPort => 1
  | .linkAudit => 2

/-- The source code of a record taken from a port (11, R174). -/
def portSource : Port → Source
  | .link => .linkMessage
  | .localPort => .localPort

/-! ### Records the part sends (08, R139 and R141) -/

/-- SEIZE_OUT: line, bearer, reference, class. -/
def seizeOutRecord (l : LineNo) (b : BearerNo) (reference : Word) (c : CallClass) : Record :=
  callRecord 0x10 (lineByte l) (bearerByte b) reference (BitVec.ofNat 16 c.code)

/-- ANSWER: line, bearer, reference. -/
def answerRecord (l : LineNo) (b : BearerNo) (reference : Word) : Record :=
  callRecord 0x13 (lineByte l) (bearerByte b) reference 0

/-- RELEASE: line or 0xFF, bearer, reference, cause. -/
def releaseRecord (l : Option LineNo) (b : BearerNo) (reference : Word) (c : ClearCause) : Record :=
  callRecord 0x14 (lineByteOr l) (bearerByte b) reference c.code

/-- REFUSE of a SEIZE_IN: its line, bearer and reference, and the cause of the failed test (04, R71). -/
def refuseRecord (l : LineNo) (b : BearerNo) (reference : Word) (c : ClearCause) : Record :=
  callRecord 0x15 (lineByte l) (bearerByte b) reference c.code

/-- DIGIT: line, bearer, reference, value. -/
def digitRecord (l : LineNo) (b : BearerNo) (reference : Word) (value : Nat) : Record :=
  callRecord 0x17 (lineByte l) (bearerByte b) reference (BitVec.ofNat 16 value)

/-- FLASH: line, bearer, reference. -/
def flashRecord (l : LineNo) (b : BearerNo) (reference : Word) : Record :=
  callRecord 0x18 (lineByte l) (bearerByte b) reference 0

/-- NO_ANSWER: line, bearer, reference. -/
def noAnswerRecord (l : LineNo) (b : BearerNo) (reference : Word) : Record :=
  callRecord 0x19 (lineByte l) (bearerByte b) reference 0

/-- MOVE: line, from-bearer, reference, to-bearer. -/
def moveRecord (l : LineNo) (source : BearerNo) (reference : Word) (dest : BearerNo) : Record :=
  callRecord 0x1A (lineByte l) (bearerByte source) reference (BitVec.ofNat 16 dest.val)

/-- The statuses of a REPLY. -/
inductive ReplyStatus where
  | done
  | clamped
  | refused (cause : ReplyCause)
  deriving DecidableEq, Repr

/-- The status code of a REPLY. -/
def ReplyStatus.code : ReplyStatus → Byte
  | .done => 0
  | .clamped => 1
  | .refused _ => 2

/-- The cause byte of a REPLY: the code, or 0. -/
def ReplyStatus.cause : ReplyStatus → Byte
  | .done => 0
  | .clamped => 0
  | .refused c => c.code

/-- REPLY: byte 1 of the request, its kind as received, the status, the cause, the value written. -/
def replyRecord (b1 kind : Byte) (st : ReplyStatus) (value : Word) : Record where
  kind := 0x30
  b1 := b1
  b2 := kind
  b3 := st.code
  b4 := st.cause
  b5 := hiByte value
  b6 := loByte value

/-- ALARM: kind, where it was placed (1 or 2), line, bearer, detail. -/
def alarmRecord (e : ErrorEvent) (placed : Byte) : Record where
  kind := 0x38
  b1 := byte e.kind.code
  b2 := placed
  b3 := lineByteOr e.line
  b4 := bearerByteOr e.bearer
  b5 := hiByte (e.detail.getD 0)
  b6 := loByte (e.detail.getD 0)

/-- TEST_RESULT: line, outcome, loop resistance, insulation, foreign voltage. -/
def testResultRecord (l : LineNo) (o : TestOutcome) (ohms insulation volts : Nat) : Record where
  kind := 0x39
  b1 := lineByte l
  b2 := byte o.code
  b3 := hiByte (BitVec.ofNat 16 ohms)
  b4 := loByte (BitVec.ofNat 16 ohms)
  b5 := byte insulation
  b6 := byte volts

/-- SUPPLY_STATE: the new accepted state, the state replaced, the ring capacity per phase (04, R88). -/
def supplyRecord (new old : Supply) : Record where
  kind := 0x3A
  b1 := 0xFF
  b2 := byte new.code
  b3 := byte old.code
  b4 := byte new.capacity
  b5 := 0
  b6 := 0

/-- The 8 bytes of an audit record (08, R140). -/
def auditBytes (index view line : Byte) (reference quality : Word) : List Byte :=
  let bytes := [index, view, line, hiByte reference, loByte reference, hiByte quality, loByte quality]
  bytes ++ [checkByte bytes]

end Sys2Proof.Machine
end

