-- ==== Sys2Proof/Machine/Ops.lean ====
section
/-! DEFINITION. The named operations every block uses: reading and writing line and bearer records, the queues of
outbound records, recording an error, and the reply of a request. -/

namespace Sys2Proof.Machine

open Sys2Proof

/-! ### Time -/

/-- A command is taken at its time; time never runs back (log 1). -/
def State.advance (s : State) (t : Time) : State :=
  { s with now := max s.now t }

/-- A timer that has run out. -/
def State.due (s : State) (expiry : Time) : Bool :=
  expiry ≤ s.now

/-- A time of the part's own time base that is a whole multiple of a period (01, R8; 05, R90). -/
def State.onGrid (s : State) (period : Time) : Bool :=
  s.now % period == 0

/-- The state with another account of what its event has left to do (log 9). -/
def State.withWork (s : State) (w : Work) : State := { s with work := w }

/-! ### Records of the two tables -/

/-- A line record. -/
def State.line (s : State) (l : LineNo) : LineRecord := s.lines[l.val]

/-- A bearer record. -/
def State.bearer (s : State) (b : BearerNo) : BearerRecord := s.bearers[b.val]

/-- The parity is written with every change of a record (02, R27); a record with a storage fault reads back wrong. -/
def LineRecord.sealed (r : LineRecord) : LineRecord := { r with parityBad := r.stuck }

/-- As for a line record. -/
def BearerRecord.sealed (r : BearerRecord) : BearerRecord := { r with parityBad := r.stuck }

/-- Write a line record. -/
def State.setLine (s : State) (l : LineNo) (r : LineRecord) : State :=
  { s with lines := s.lines.set l.val r.sealed }

/-- Change a line record. -/
def State.updLine (s : State) (l : LineNo) (f : LineRecord → LineRecord) : State :=
  s.setLine l (f (s.line l))

/-- Change the supervision fields that stand beside a line record (01, R2): the record and its parity are not written. -/
def State.updSupervision (s : State) (l : LineNo) (f : LineRecord → LineRecord) : State :=
  { s with lines := s.lines.set l.val (f (s.line l)) }

/-- Write a bearer record. -/
def State.setBearer (s : State) (b : BearerNo) (r : BearerRecord) : State :=
  { s with bearers := s.bearers.set b.val r.sealed }

/-- Change every line record. -/
def State.mapLines (s : State) (f : LineNo → LineRecord → LineRecord) : State :=
  { s with lines := Vector.ofFn (fun l => (f l (s.line l)).sealed) }

/-- Change every bearer record. -/
def State.mapBearers (s : State) (f : BearerNo → BearerRecord → BearerRecord) : State :=
  { s with bearers := Vector.ofFn (fun b => (f b (s.bearer b)).sealed) }

/-! ### Reading the state -/

/-- A parameter's value (08, R151). -/
def State.param (s : State) (p : Param) : Nat := s.params[p.index.val]

/-- The routing of a kind (11, R174). -/
def State.routing (s : State) (k : ErrorKind) : Routing := s.errors.routings[k.index.val]

/-- The link is UP (06, R107). -/
def LinkState.isUp : LinkState → Bool
  | .up _ _ => true
  | .disabled | .hunt _ | .verify _ _ => false

/-- The hunt episode of a link in HUNT or VERIFY (06, R106). -/
def LinkState.episode? : LinkState → Option Episode
  | .hunt e => some e
  | .verify e _ => some e
  | .disabled | .up _ _ => none

/-- The hold timer, if one exists (06, R106). -/
def LinkState.hold? (l : LinkState) : Option Time := l.episode?.bind (·.hold)

/-- The link is UP. -/
def State.isUp (s : State) : Bool := s.link.state.isUp

/-- The unit is in SERVICE (11, R171). -/
def State.inService (s : State) : Bool := s.unit.mode == .service

/-- The capacity K of the current rate (02, R30). -/
def State.capacity (s : State) : Nat := s.link.rate.capacity

/-- The admission limit: the target capacity K' while a step plan exists, K otherwise (02, R31). -/
def State.limit (s : State) : Nat :=
  match s.quality.plan with
  | some p => p.target.capacity
  | none => s.capacity

/-- The call of a bearer in HELD_OUT, HELD_IN or ACTIVE (02, R27). -/
def BearerState.call? : BearerState → Option Call
  | .heldOut c _ _ => some c
  | .heldIn c => some c
  | .active c => some c
  | .unavailable _ | .free | .heldMove | .guarded _ _ _ | .blocked _ => none

/-- The call reference a bearer holds: that of its call, or in GUARD of the call just ended (02, R34). -/
def BearerState.reference? : BearerState → Option Word
  | .heldOut c _ _ => some c.reference
  | .heldIn c => some c.reference
  | .active c => some c.reference
  | .guarded r _ _ => some r
  | .unavailable _ | .free | .heldMove | .blocked _ => none

/-- The bearer that holds a reference (02, R35: at most one does). -/
def State.holder (s : State) (reference : Word) : Option BearerNo :=
  allBearers.find? (fun b => (s.bearer b).state.reference? == some reference)

/-- The bearer a line names (01, R1). -/
def LineState.bearer? : LineState → Option BearerNo
  | .originating b => some b
  | .ringing b => some b
  | .connected b => some b
  | .parked _ | .idle | .waiting | .lockout _ | .testing _ => none

/-- A step plan is in COUNTDOWN (07, R133). -/
def State.inCountdown (s : State) : Bool :=
  match s.quality.plan with
  | some p =>
    match p.phase with
    | .countdown _ => true
    | .drain _ => false
  | none => false

/-- The lowest FREE bearer below the admission limit (02, R32). -/
def State.lowestFree (s : State) : Option BearerNo :=
  allBearers.find? (fun b => (s.bearer b).state == .free && decide (b.val < s.limit))

/-- A line's ring relay is driven (04, R74). -/
def State.ringRelay (s : State) (l : LineNo) : Bool :=
  allPhases.any (fun p => s.ring.phases[p.val].any (fun e => e.line == l && e.relay))

/-- A line's test relay is closed: for the line of the test record (10, R162). -/
def State.testRelay (s : State) (l : LineNo) : Bool :=
  match s.testing.test with
  | some r => r.line == l
  | none => false

/-- A line in TESTING (01, R3). -/
def LineState.isTesting : LineState → Bool
  | .testing _ => true
  | .parked _ | .idle | .waiting | .originating _ | .ringing _ | .connected _ | .lockout _ => false

/-- A line in CONNECTED (01, R3). -/
def LineState.isConnected : LineState → Bool
  | .connected _ => true
  | .parked _ | .idle | .waiting | .originating _ | .ringing _ | .lockout _ | .testing _ => false

/-- Sampling of a line is held while its ring relay is on and while it is TESTING (01, R9). -/
def State.samplingHeld (s : State) (l : LineNo) : Bool :=
  s.ringRelay l || (s.line l).state.isTesting

/-- The last good received frame number, given with an error at a record from the link (08, R142). -/
def State.frameNumber (s : State) : Option Byte := s.coder.lastGoodNumber

/-! ### Outbound records (08, R146-R148) -/

/-- Take the youngest report-class record out of a queue: the queue without it, and its kind. -/
def dropYoungestReport : List Record → Option (List Record × Byte)
  | [] => none
  | r :: rest =>
    match dropYoungestReport rest with
    | some (q, k) => some (r :: q, k)
    | none => if isReport r.kind then some (rest, r.kind) else none

/-- A record arrives at the link transmit queue (08, R147): the queue after it, and the kind of the record lost. -/
def pushLinkQueue (q : List Record) (r : Record) : List Record × Option Byte :=
  if q.length < Config.queueCapacity then (q ++ [r], none)
  else if isReport r.kind then (q, some r.kind)
  else
    match dropYoungestReport q with
    | some (rest, k) => (rest ++ [r], some k)
    | none => (q, some r.kind)

/-- A record arrives at the local transmit queue (08, R148). -/
def pushLocalQueue (q : List Record) (r : Record) : List Record × Option Byte :=
  if q.length < Config.queueCapacity then (q ++ [r], none) else (q, some r.kind)

/-- The TX_OVERFLOW error of a lost record: the queue (0 link, 1 local) and its kind (11, R174). -/
def overflowError (queue : Byte) (kind : Byte) : ErrorEvent where
  kind := .txOverflow
  detail := some (toWord queue kind)

/-- Place a record in the queue of a port; the TX_OVERFLOW error it raises, if a record is lost. -/
def State.push (s : State) (p : Port) (r : Record) : State × List ErrorEvent :=
  match p with
  | .link =>
    let q := pushLinkQueue s.messages.linkQueue r
    ({ s with messages := { s.messages with linkQueue := q.1 } }, (q.2.map (overflowError 0)).toList)
  | .localPort =>
    let q := pushLocalQueue s.messages.localQueue r
    ({ s with messages := { s.messages with localQueue := q.1 } }, (q.2.map (overflowError 1)).toList)

/-- Place a record in both queues (08, R146). That the loss of the link copy is taken before that of the local copy, where both are lost,
is the model's choice (log 50). -/
def State.pushBoth (s : State) (r : Record) : State × List ErrorEvent :=
  let a := s.push .link r
  let b := a.1.push .localPort r
  (b.1, a.2 ++ b.2)

/-! ### Recording an error (11, R175-R177) -/

/-- Where an error was placed: 1 the first-error record, 2 the next-error set (08, R141), and whether its kind was in
neither before (11, R176). -/
structure Placement where
  placed : Byte
  fresh : Bool

/-- Whether a kind is in the first-error record. -/
def State.isFirst (s : State) (k : ErrorKind) : Bool :=
  match s.errors.first with
  | some f => f.error.kind == k
  | none => false

/-- Whether a kind is in the next-error set. -/
def State.inNext (s : State) (k : ErrorKind) : Bool := s.errors.next[k.index.val]

/-- The count of a kind. -/
def State.count (s : State) (k : ErrorKind) : Nat := s.errors.counts[k.index.val]

/-- Step 1 of R175: the kind's count gains 1, staying at 255. -/
def State.countError (s : State) (k : ErrorKind) : State :=
  { s with errors := { s.errors with counts := s.errors.counts.set k.index.val (min 255 (s.count k + 1)) } }

/-- Step 2 of R175: fill an empty first-error record, or add the kind to the next-error set. -/
def State.placeError (s : State) (e : ErrorEvent) : State × Placement :=
  match s.errors.first with
  | none =>
    ({ s with errors := { s.errors with
        first := some { error := e, seconds := (s.now - s.unit.startTime) / sec 1 } } },
      { placed := 1, fresh := true })
  | some _ =>
    ({ s with errors := { s.errors with next := s.errors.next.set e.kind.index.val true } },
      { placed := 2, fresh := !(s.isFirst e.kind || s.inNext e.kind) })

/-- Steps 1 and 2 of R175. -/
def State.recordError (s : State) (e : ErrorEvent) : State × Placement :=
  (s.countError e.kind).placeError e

/-- The ALARM of R176, if it is called for: the routing is above COUNT and the kind is newly recorded. -/
def alarmFor (r : Routing) (e : ErrorEvent) (p : Placement) : Option Record :=
  if r ≠ .count ∧ p.fresh then some (alarmRecord e p.placed) else none

/-- One error is taken (11, R175). A restart routing is put by until the event's whole effect, with the ALARM that then
follows it (R176, R177). The errors that the ALARM's queueing raises are answered, to be taken next. -/
def State.takeError (s : State) (e : ErrorEvent) : State × List ErrorEvent :=
  let placed := s.recordError e
  let s' := placed.1
  let alarm := alarmFor (s.routing e.kind) e placed.2
  match s.routing e.kind with
  | .count => (s', [])
  | .report =>
    match alarm with
    | some a => s'.pushBoth a
    | none => (s', [])
  | .restartLink =>
    ({ s' with work := { s'.work with
        ordered := s'.work.ordered ++ [{ unit := false, kind := e.kind, alarm := alarm }] } }, [])
  | .restartUnit =>
    ({ s' with work := { s'.work with
        ordered := s'.work.ordered ++ [{ unit := true, kind := e.kind, alarm := alarm }] } }, [])

/-- Errors taken one after the other. -/
def State.takeErrors (s : State) (es : List ErrorEvent) : State × List ErrorEvent :=
  es.foldl (fun acc e => let r := acc.1.takeError e; (r.1, acc.2 ++ r.2)) (s, [])

/-- An error is raised. An error raised by queueing an ALARM is taken as a new error after the present one (11, R175):
at most TX_OVERFLOW, then TX_OVERFLOW again as a repeat, for which no ALARM is created (08, R148). -/
def State.raise (s : State) (e : ErrorEvent) : State :=
  let a := s.takeError e
  let b := a.1.takeErrors a.2
  (b.1.takeErrors b.2).1

/-- Errors raised one after the other. -/
def State.raiseAll (s : State) (es : List ErrorEvent) : State :=
  es.foldl State.raise s

/-! ### Sending (08, R146 and R147) -/

/-- A record is passed to one port. -/
def State.send (s : State) (p : Port) (r : Record) : State :=
  let q := s.push p r
  q.1.raiseAll q.2

/-- A record is passed to both ports: both copies are placed at once, each in its own queue, and the TX_OVERFLOW of a lost copy is
raised after that. The two copies succeed or fail independently. -/
def State.sendBoth (s : State) (r : Record) : State :=
  let q := s.pushBoth r
  q.1.raiseAll q.2

/-- A call-control record is queued for the link only while the link is UP and is discarded at its creation otherwise
(03, R70; 08, R147). -/
def State.sendCall (s : State) (r : Record) : State :=
  if s.isUp then s.send .link r else s

/-- The reply of the event, or the status record that answers a query, on the port the request came from; it is queued
after the owner's action (08, R149). -/
def State.replyWith (s : State) (p : Port) (r : Record) : State :=
  { s with work := { s.work with reply := some (p, r) } }

/-! ### Parity (01, R1; 02, R27) -/

/-- The parity of a record does not match. -/
def State.parityBad (s : State) : RecordId → Bool
  | .line l => (s.line l).parityBad
  | .bearer b => (s.bearer b).parityBad

/-- The TABLE_PARITY error of a record: line or bearer; detail the table and the index (11, R174). -/
def parityError : RecordId → ErrorEvent
  | .line l => { kind := .tableParity, line := some l, detail := some (toWord 0 (lineByte l)) }
  | .bearer b => { kind := .tableParity, bearer := some b, detail := some (toWord 1 (bearerByte b)) }

/-- A mismatch that this event has not recorded yet. -/
def State.newMismatch (s : State) (id : RecordId) : Bool := s.parityBad id && !s.work.found.contains id

/-- Records are read with their parity checked; the mismatches that the event has not found yet are marked, and the errors they give are
answered, to be raised (01, R1; 02, R27). -/
def State.readParity (s : State) (ids : List RecordId) : State × List ErrorEvent :=
  let bad := ids.filter s.newMismatch
  ({ s with work := { s.work with found := s.work.found ++ bad } }, bad.map parityError)

/-- The records an event reads have their parity checked; a mismatch is recorded, once in an event, and the event goes on with
the value read (01, R1; 02, R27; log 8). The mismatches of one read are taken in the order of the list, lines by their numbers before
bearers by theirs where it holds both: R175 of 11 allows either order, and this one is the model's choice (log 51). -/
def State.checkParity (s : State) (ids : List RecordId) : State :=
  let r := s.readParity ids
  r.1.raiseAll r.2

/-- Every bearer record. -/
def everyBearer : List RecordId := allBearers.map .bearer

/-- Every line record. -/
def everyLine : List RecordId := allLines.map .line

/-- Every record of the two tables. -/
def everyRecord : List RecordId := everyLine ++ everyBearer

/-! ### States of lines and bearers -/

/-- A line enters a state; the record is read and written. The digit accumulator is 0 outside CONNECTED and at its entry (01, R15); entering TESTING holds
sampling, which sets the run length to 0 (R9); the concealment record is made at the entry to CONNECTED and discarded when
the line leaves it (05, R101). -/
def State.putLine (s : State) (l : LineNo) (st : LineState) : State :=
  let s := (s.checkParity [.line l]).updLine l (fun r => { r with
    state := st, digits := 0, run := if st.isTesting then .zero else r.run })
  { s with coder := { s.coder with
    conceal := s.coder.conceal.set l.val (if st.isConnected then some { lastGood := none, run := 0 } else none) } }

/-- A bearer enters a state: the state-entry time is set and the disagreement count becomes 0 (02, R29). The step plan is to
be given the new counts, and a bearer that enters FREE below the admission limit while the link is UP calls for service
of the waiting queue (R33). -/
def State.putBearer (s : State) (b : BearerNo) (st : BearerState) : State :=
  let serve := st == .free && decide (b.val < s.limit) && s.isUp
  let s := s.setBearer b { s.bearer b with state := st, entered := s.now, disagreements := 0 }
  { s with work := { s.work with counts := true, serve := s.work.serve || serve } }

/-- A field of a bearer's state changes without an entry (02, R29). -/
def State.amendBearer (s : State) (b : BearerNo) (st : BearerState) : State :=
  s.setBearer b { s.bearer b with state := st }

/-- The disagreement count of a bearer (09, R155). -/
def State.setDisagreements (s : State) (b : BearerNo) (n : Nat) : State :=
  s.setBearer b { s.bearer b with disagreements := n }

end Sys2Proof.Machine
end

