-- ==== Sys2Proof/Machine/Ringing.lean ====
section
/-! DEFINITION. The Ring Scheduler's operations: placement in a phase, service of the ring queue, removal of an entry, and
the relays (04, sections 4.2 to 4.4). -/

namespace Sys2Proof.Machine

open Sys2Proof

/-- The length of a ring cycle, 3 s (04, R75). -/
def ringCycle : Time := sec 3

/-- The time into the present ring cycle; the first cycle began at power-on reset (04, R75). -/
def State.cycleTime (s : State) : Time := s.now % ringCycle

/-- A phase's table (04, R74). -/
def State.phase (s : State) (p : PhaseNo) : List RingEntry := s.ring.phases[p.val]

/-- Write a phase's table. -/
def State.setPhase (s : State) (p : PhaseNo) (es : List RingEntry) : State :=
  { s with ring := { s.ring with phases := s.ring.phases.set p.val es } }

/-- Whether a phase's on-interval has begun and not yet ended (04, R77). -/
def State.phaseBegun (s : State) (p : PhaseNo) : Bool := s.ring.begun[p.val]

/-- The time until a phase's next on-interval begins. A phase whose on-interval has begun but not ended counts its next
beginning as one cycle after the present one (04, R77). -/
def State.untilPhase (s : State) (p : PhaseNo) : Time :=
  let wait := (sec p.val + ringCycle - s.cycleTime) % ringCycle
  if s.phaseBegun p && wait == 0 then ringCycle else wait

/-- A phase that holds fewer entries than the ring capacity (04, R76). -/
def State.phaseHasRoom (s : State) (p : PhaseNo) : Bool :=
  decide ((s.phase p).length < s.ring.supply.capacity)

/-- A phase is preferred to another if it holds fewer entries, or as many and its next on-interval begins sooner
(04, R77). -/
def State.phaseBefore (s : State) (p q : PhaseNo) : Bool :=
  decide ((s.phase p).length < (s.phase q).length) ||
    ((s.phase p).length == (s.phase q).length && decide (s.untilPhase p < s.untilPhase q))

/-- The phase that placement chooses, among those below capacity (04, R77). -/
def State.choosePhase (s : State) : Option PhaseNo :=
  (allPhases.filter s.phaseHasRoom).foldl
    (fun best p =>
      match best with
      | none => some p
      | some q => if s.phaseBefore p q then some p else some q)
    none

/-- Place an entry at the end of a phase's table, with the relay off (04, R77). -/
def State.placeEntry (s : State) (p : PhaseNo) (l : LineNo) (rings : Nat) : State :=
  s.setPhase p (s.phase p ++ [{ line := l, rings := rings, placed := s.now, relay := false }])

/-- A line entering RINGING is placed in a phase that has room, and otherwise joins the back of the ring queue
(04, R72 and R77). -/
def State.ringLine (s : State) (l : LineNo) : State :=
  match s.choosePhase with
  | some p => s.placeEntry p l 0
  | none => { s with ring := { s.ring with queue := s.ring.queue ++ [{ line := l, rings := 0 }] } }

/-- Service of the ring queue, for at most n entries (04, R78). -/
def serveRingsUpTo : Nat → State → State
  | 0, s => s
  | n + 1, s =>
    match s.ring.queue, s.choosePhase with
    | w :: rest, some p =>
      serveRingsUpTo n ({ s with ring := { s.ring with queue := rest } }.placeEntry p w.line w.rings)
    | _, _ => s

/-- Service of the ring queue: its head entries are placed while a phase is below capacity (04, R78). -/
def State.serveRings (s : State) : State := serveRingsUpTo s.ring.queue.length s

/-- A line's entry leaves its phase table or the ring queue; its relay is thereby off (04, R75 and R81). -/
def State.removeRing (s : State) (l : LineNo) : State :=
  { s with ring := { s.ring with
    phases := Vector.ofFn (fun p : PhaseNo => (s.phase p).filter (fun e => e.line != l))
    queue := s.ring.queue.filter (fun w => w.line != l) } }

/-- An entry leaves and the ring queue is served (04, R78). -/
def State.stopRinging (s : State) (l : LineNo) : State := (s.removeRing l).serveRings

/-- The phase tables and the ring queue are emptied; every relay is off (04, R84 and R89). -/
def State.emptyRings (s : State) : State :=
  { s with ring := { s.ring with phases := Vector.replicate 3 [], queue := [] } }

/-- Sampling of a line is held: the run length becomes 0 and the run start is removed (01, R9). -/
def State.holdSampling (s : State) (l : LineNo) : State :=
  s.updSupervision l (fun r => { r with run := .zero })

/-- Insert an entry in order of placement time, after those placed no later (04, R86). -/
def insertByPlaced (e : RingEntry) : List RingEntry → List RingEntry
  | [] => [e]
  | x :: rest => if e.placed < x.placed then e :: x :: rest else x :: insertByPlaced e rest

/-- The entries cut from the phases at a fall of the ring capacity, oldest placement first (04, R86). That entries of different phases
placed at the same time stand by phase number is the model's choice (log 42). -/
def State.cutEntries (s : State) (capacity : Nat) : List RingEntry :=
  (allPhases.flatMap (fun p => (s.phase p).drop capacity)).foldl (fun acc e => insertByPlaced e acc) []

/-- The fall of the ring capacity: each phase is cut to it from the young end, and the removed entries go to the front of
the ring queue in the order of their placement, keeping their ring counts (04, R86, steps 1 to 3). -/
def State.cutPhases (s : State) (capacity : Nat) : State :=
  { s with ring := { s.ring with
    phases := Vector.ofFn (fun p : PhaseNo => (s.phase p).take capacity)
    queue := (s.cutEntries capacity).map (fun e => { line := e.line, rings := e.rings }) ++ s.ring.queue } }

end Sys2Proof.Machine
end

