-- ==== Sys2Proof/Machine/Calls.lean ====
section
/-! DEFINITION. The Bearer Controller's shared operations: allocation and call references, the waiting queue and its
service, off-hook arrivals, the end of a call on a bearer, and what becomes of its line (02 and 03). -/

namespace Sys2Proof.Machine

open Sys2Proof

/-! ### Call references and allocation -/

/-- The reference tried at step n of R34: the counter advanced by 2 n times; after 65535 comes 1 (02, R34). -/
def State.triedReference (s : State) (n : Nat) : Word := s.counter + BitVec.ofNat 16 (2 * n)

/-- The first value, from the counter on, that no bearer holds; at most nine are tested (02, R34). -/
def State.nextReference (s : State) : Word :=
  ((allBearers.map (fun b => s.triedReference b.val)).find? (fun r => (s.holder r).isNone)).getD (s.triedReference 8)

/-- A bearer is allocated to an originating line (03, R52): the reference is chosen and the counter moved on (02, R34), the
bearer enters HELD_OUT with its reservation timer and the request time, the line enters ORIGINATING, and SEIZE_OUT is passed
to the link. -/
def State.allocate (s : State) (l : LineNo) (c : CallClass) (requested : Time) (b : BearerNo) : State :=
  let reference := s.nextReference
  let s := { s with counter := reference + 2 }
  let call : Call := { line := l, reference := reference, direction := .outgoing, cls := c, target := none }
  let s := s.putBearer b (.heldOut call (s.now + sec (s.param .reservationTimeout)) requested)
  let s := s.putLine l (.originating b)
  s.sendCall (seizeOutRecord l b reference c)

/-! ### The waiting queue -/

/-- An entry goes to the back of its class section (03, R53 and R54). -/
def joinBack (q : List WaitEntry) (e : WaitEntry) : List WaitEntry :=
  match e.cls with
  | .priority => q.filter (fun x => x.cls == .priority) ++ e :: q.filter (fun x => x.cls == .ordinary)
  | .ordinary => q ++ [e]

/-- An entry goes to the front of its class section (03, R57). -/
def joinFront (q : List WaitEntry) (e : WaitEntry) : List WaitEntry :=
  match e.cls with
  | .priority => e :: q
  | .ordinary => q.filter (fun x => x.cls == .priority) ++ e :: q.filter (fun x => x.cls == .ordinary)

/-- Service of the waiting queue, for at most n entries (03, R55). -/
def serveQueueUpTo : Nat → State → State
  | 0, s => s
  | n + 1, s =>
    if s.isUp then
      match s.waiting, s.lowestFree with
      | e :: rest, some b => serveQueueUpTo n ({ s with waiting := rest }.allocate e.line e.cls e.joined b)
      | _, _ => s
    else s

/-- Service of the waiting queue (03, R55): while the link is UP, head entries are given the lowest FREE bearers below the
admission limit. There are 8 bearers, so at most 8 entries are served. -/
def State.serveQueue (s : State) : State :=
  serveQueueUpTo 8 (if s.isUp && !s.waiting.isEmpty then s.checkParity everyBearer else s)

/-- A line joins the waiting queue at the back of its section, and the queue is served if the link is UP (03, R51, R54 and
R55). -/
def State.joinQueue (s : State) (l : LineNo) : State :=
  let e : WaitEntry := { line := l, cls := (s.line l).cls, joined := s.now }
  let s := s.putLine l .waiting
  { s with waiting := joinBack s.waiting e }.serveQueue

/-- An off-hook arrival of a line in IDLE (03, R51). -/
def State.offHook (s : State) (l : LineNo) : State :=
  let s := s.checkParity everyBearer
  match s.lowestFree with
  | some b =>
    if s.isUp && s.waiting.isEmpty then s.allocate l (s.line l).cls s.now b else s.joinQueue l
  | none => s.joinQueue l

/-- A line's entry leaves the waiting queue. -/
def State.leaveQueue (s : State) (l : LineNo) : State :=
  { s with waiting := s.waiting.filter (fun e => e.line != l) }

/-- The entry of a line has reached the wait limit, read afresh (03, R56). -/
def State.waitExpired (s : State) (e : WaitEntry) : Bool :=
  e.joined + sec (s.param .waitLimit) ≤ s.now

/-- An entry expires (03, R56): it is removed, the line goes to LOCKOUT with cause CONGESTION, and QUEUE_TIMEOUT is
recorded. -/
def State.expireEntry (s : State) (l : LineNo) : State :=
  ((s.leaveQueue l).putLine l (.lockout .congestion)).raise { kind := .queueTimeout, line := some l }

/-- Every entry that has reached the wait limit expires, in queue order (03, R56). -/
def State.expireQueue (s : State) : State :=
  (s.waiting.filter s.waitExpired).foldl (fun s e => s.expireEntry e.line) s

/-! ### Lines leaving calls -/

/-- A line enters IDLE. It calls for a choice of a test (10, R163), and with its loop CLOSED it makes an off-hook arrival
at once (01, R18); none is given while the unit is in START (01, R24). -/
def State.enterIdle (s : State) (l : LineNo) : State :=
  let s := s.putLine l .idle
  let s := { s with work := { s.work with choose := true } }
  if (s.line l).loop = .closed ∧ s.inService then s.offHook l else s

/-- A line whose call is taken away: LOCKOUT with the cause if its debounced loop is CLOSED, IDLE if it is OPEN (03, R68;
07, R132; 09, R157). -/
def State.dropLine (s : State) (l : LineNo) (c : LockoutCause) : State :=
  match (s.line l).loop with
  | .closed => s.putLine l (.lockout c)
  | .opened => s.enterIdle l

/-! ### Bearers leaving calls -/

/-- The pairs of a step plan without those of a source (07, R133). -/
def PlanPhase.dropSource (p : PlanPhase) (b : BearerNo) : PlanPhase :=
  match p with
  | .drain timer => .drain timer
  | .countdown pairs => .countdown (pairs.filter (fun x => x.source != b))

/-- The bearer that the table names for the call of a pair: its source until the transmit switch, its destination after it (05,
R104). -/
def Relocation.bearerOf (r : Relocation) (x : Pair) : BearerNo := if r.switched then x.dest else x.source

/-- The pair of the call on a bearer. -/
def Relocation.pairOf (r : Relocation) (b : BearerNo) : Option Pair := r.pairs.find? (fun x => r.bearerOf x == b)

/-- The bearer that the call on b had before this step-down. -/
def Relocation.before (r : Relocation) (b : BearerNo) : BearerNo := ((r.pairOf b).map (·.source)).getD b

/-- The pairs without that of the call that has ended on b (05, R104; log 17). -/
def Relocation.dropBearer (r : Relocation) (b : BearerNo) : Relocation :=
  { r with pairs := r.pairs.filter (fun x => r.bearerOf x != b) }

/-- The pairs of every step-down, the newest first, without those of the call that has ended on b; an older step-down knows the call
by the bearer it had before the newer one (05, R104; log 17). -/
def dropIn : List Relocation → BearerNo → List Relocation
  | [], _ => []
  | r :: older, b => r.dropBearer b :: dropIn older (r.before b)

/-- The pair of a call that ends is removed from the step plan and from the Link Coder (07, R133; 05, R104). -/
def State.dropPairs (s : State) (b : BearerNo) : State :=
  { s with
    quality := { s.quality with plan := s.quality.plan.map (fun p => { p with phase := p.phase.dropSource b }) }
    coder := { s.coder with relocations := dropIn s.coder.relocations b } }

/-- The call on a bearer ends and the bearer enters another state. It leaves the active list, and with that its
cross-connect (02, R37 and R43); its relocation target is removed and the destination returns to FREE (R46). -/
def State.endCall (s : State) (b : BearerNo) (st : BearerState) : State :=
  match (s.bearer b).state.call? with
  | none => s
  | some c =>
    let s := s.putBearer b st
    let s := { s with active := s.active.filter (fun x => x != b) }
    let s := s.dropPairs b
    match c.target with
    | none => s
    | some d => s.putBearer d .free

/-- The GUARD state of a call just ended: the reference is kept and the guard timer starts (02, R37). -/
def State.guardOf (s : State) (c : Call) : BearerState :=
  .guarded c.reference (s.now + ms (s.param .guardTime)) false

/-- A call ends and its bearer enters GUARD (02, R37). -/
def State.guardCall (s : State) (b : BearerNo) : State :=
  match (s.bearer b).state.call? with
  | none => s
  | some c => s.endCall b (s.guardOf c)

/-- A line is answered or accepted: the bearer enters ACTIVE, keeping a relocation target, and is appended at the young end of
the active list; the line enters CONNECTED (03, R60; 04, R81). -/
def State.connect (s : State) (b : BearerNo) (c : Call) : State :=
  let s := s.putBearer b (.active c)
  let s := { s with active := s.active ++ [b] }
  s.putLine c.line (.connected b)

/-- A call is torn down by the audit or preempted: its bearer enters st, a ringing line leaves the Ring Scheduler's tables,
and the line goes to LOCKOUT with the cause or to IDLE (07, R132; 09, R157). -/
def State.takeCall (s : State) (b : BearerNo) (st : BearerState) (cause : LockoutCause) : State :=
  match (s.bearer b).state with
  | .heldOut c _ _ => (s.endCall b st).dropLine c.line cause
  | .heldIn c => ((s.endCall b st).removeRing c.line).serveRings.enterIdle c.line
  | .active c => (s.endCall b st).dropLine c.line cause
  | .unavailable _ | .free | .heldMove | .guarded _ _ _ | .blocked _ => s

end Sys2Proof.Machine
end

