-- ==== Sys2Proof/Machine/Flags.lean ====
section
/-! DEFINITION. The status words the part computes from its state: the status and report records of R141 of 08, the view of a
bearer that the audit carries (09, R153), and the control byte of a frame (05, R96). -/

namespace Sys2Proof.Machine

open Sys2Proof

/-- Whole seconds of a time. -/
def wholeSeconds (t : Time) : Nat := t / sec 1

/-- The low nibble of LINE_STATUS byte 2: the lockout cause or the park cause (08, R141). -/
def LineState.causeCode : LineState → Nat
  | .lockout c => c.code
  | .parked c => c.code
  | .testing (some c) => c.code
  | .testing none | .idle | .waiting | .originating _ | .ringing _ | .connected _ => 0

/-- The outcome code of a line's last test, 0 when absent. -/
def outcomeCode (o : Option TestOutcome) : Nat := (o.map TestOutcome.code).getD 0

/-- LINE_STATUS byte 4. -/
def LineRecord.flags (r : LineRecord) : Byte :=
  byte (128 * bit r.inService + 64 * r.cls.code + 32 * bit (r.loop == .closed) + outcomeCode r.lastOutcome)

/-- LINE_STATUS (08, R141). -/
def State.lineStatus (s : State) (l : LineNo) : Record :=
  let r := s.line l
  { kind := 0x31
    b1 := lineByte l
    b2 := nibbles r.state.code r.state.causeCode
    b3 := bearerByteOr r.state.bearer?
    b4 := r.flags
    b5 := byte r.faultCount
    b6 := byteSat ((r.testDue - s.now) / hours 1) }

/-- The block cause code: MAINTENANCE in GUARD is a pending block, in UNAVAILABLE a held block (02, R50; 08, R141). -/
def BearerState.blockCode : BearerState → Nat
  | .unavailable held => bit held
  | .guarded _ _ pendingBlock => bit pendingBlock
  | .blocked .maintenance => 1
  | .blocked .far => 2
  | .free | .heldOut _ _ _ | .heldIn _ | .heldMove | .active _ => 0

/-- BEARER_STATUS byte 6. -/
def BearerState.flags (st : BearerState) : Byte :=
  match st.call? with
  | none => 0
  | some c => byte (1 + 128 * bit (c.direction == .incoming) + 64 * c.cls.code)

/-- BEARER_STATUS (02, R50; 08, R141). -/
def State.bearerStatus (s : State) (b : BearerNo) : Record :=
  let st := (s.bearer b).state
  let reference := st.reference?.getD 0
  { kind := 0x32
    b1 := bearerByte b
    b2 := nibbles st.code st.blockCode
    b3 := lineByteOr (st.call?.map (·.line))
    b4 := hiByte reference
    b5 := loByte reference
    b6 := st.flags }

/-- A record of two two-byte fields in bytes 2-5. -/
def twoWords (kind b1 : Byte) (w1 w2 : Nat) : Record where
  kind := kind
  b1 := b1
  b2 := hiByte (BitVec.ofNat 16 w1)
  b3 := loByte (BitVec.ofNat 16 w1)
  b4 := hiByte (BitVec.ofNat 16 w2)
  b5 := loByte (BitVec.ofNat 16 w2)
  b6 := 0

/-- The whole seconds left on the hold timer, 0 when there is none (06, R119). -/
def State.holdSeconds (s : State) : Nat :=
  match s.link.state.hold? with
  | some t => wholeSeconds (t - s.now)
  | none => 0

/-- LINK_STATUS page 0 byte 5: the announcement (06, R119). -/
def announcementByte (a : Option Announcement) : Byte :=
  match a with
  | some a => byte (128 + 16 * a.next.code + a.countdown % 16)
  | none => 0

/-- The two consecutive counts, 0 outside UP (06, R119). -/
def LinkState.counts : LinkState → Nat × Nat
  | .up bad damaged => (bad, damaged)
  | .disabled | .hunt _ | .verify _ _ => (0, 0)

/-- LINK_STATUS page 0 (08, R141). -/
def State.linkStatus0 (s : State) : Record where
  kind := 0x33
  b1 := 0
  b2 := byte (64 * s.link.state.code + 32 * bit s.link.state.hold?.isSome + 4 * s.link.rate.code + s.coder.rxRate.code)
  b3 := nibbles s.link.candidate s.link.lastGood
  b4 := byteSat s.holdSeconds
  b5 := announcementByte s.link.announcement
  b6 := nibbles s.link.state.counts.1 s.link.state.counts.2

/-- LINK_STATUS page 3 byte 4: the rate mode. -/
def RateMode.byte : RateMode → Byte
  | .auto => 0
  | .fixed r => Machine.byte (128 + r.code)

/-- LINK_STATUS page 3 byte 5: the step plan's phase and whether it is forced. -/
def planByte (p : Option StepPlan) : Byte :=
  match p with
  | none => 0
  | some p =>
    let phase := match p.phase with
      | .drain _ => 1
      | .countdown _ => 2
    byte (128 * bit p.forced + phase)

/-- LINK_STATUS page 3 (07, R137; 08, R141). -/
def State.linkStatus3 (s : State) : Record where
  kind := 0x33
  b1 := 3
  b2 := byte s.quality.downRun
  b3 := byte s.quality.upRun
  b4 := s.quality.mode.byte
  b5 := planByte s.quality.plan
  b6 := match s.quality.plan with
    | some p => byte p.target.code
    | none => 0xFF

/-- A page of LINK_STATUS (08, R141 and R150). -/
def State.linkStatus (s : State) (page : Byte) : Record :=
  if page = 0 then s.linkStatus0
  else if page = 1 then twoWords 0x33 1 s.quality.qNear s.quality.qFar
  else if page = 2 then twoWords 0x33 2 s.quality.decision s.quality.estimate
  else s.linkStatus3

/-- QUEUE_STATUS (03, R58; 08, R141). The 0 of byte 6 when no entry stands at the position is the model's choice (log 45). -/
def State.queueStatus (s : State) (position : Byte) : Record :=
  let entry := s.waiting[position.toNat]?
  { kind := 0x34
    b1 := position
    b2 := byte s.waiting.length
    b3 := byte (s.waiting.filter (fun e => e.cls == .priority)).length
    b4 := lineByteOr (entry.map (·.line))
    b5 := (entry.map (fun e => byte e.cls.code)).getD 0xFF
    b6 := (entry.map (fun e => byteSat (wholeSeconds (s.now - e.joined)))).getD 0 }

/-- The next-error set as bits: bit k - 1 for kind k (08, R150). -/
def State.nextMask (s : State) : Word :=
  BitVec.ofNat 16 ((allKinds.map (fun k => bit (s.inNext k) * 2 ^ k.index.val)).sum)

/-- ERROR_REPORT of index 0: the first-error record (08, R150). The seconds of 0 when that record is empty are the model's choice (log 49). -/
def State.errorReportFirst (s : State) : Record :=
  match s.errors.first with
  | none => { emptyRecord with kind := 0x35, b5 := 0xFF, b6 := 0xFF }
  | some f =>
    let seconds := BitVec.ofNat 16 (min f.seconds 65535)
    { kind := 0x35
      b1 := 0
      b2 := byte f.error.kind.code
      b3 := hiByte seconds
      b4 := loByte seconds
      b5 := lineByteOr f.error.line
      b6 := bearerByteOr f.error.bearer }

/-- ERROR_REPORT of an error kind: count, routing and where the kind is recorded (08, R150). -/
def State.errorReportKind (s : State) (k : ErrorKind) : Record :=
  { emptyRecord with
    kind := 0x35
    b1 := byte k.code
    b2 := byte (s.count k)
    b3 := byte (s.routing k).code
    b4 := byte (bit (s.isFirst k) + 2 * bit (s.inNext k)) }

/-- ERROR_REPORT of index 16: the frame number and the detail of the first-error record (08, R150). -/
def State.errorReportDetail (s : State) : Record :=
  let frame := s.errors.first.bind (·.error.frame)
  let detail := s.errors.first.bind (·.error.detail)
  { emptyRecord with
    kind := 0x35
    b1 := 16
    b2 := byte (bit frame.isSome + 2 * bit detail.isSome)
    b3 := frame.getD 0
    b4 := hiByte (detail.getD 0)
    b5 := loByte (detail.getD 0) }

/-- ERROR_REPORT (08, R150), for an index of 0-17. -/
def State.errorReport (s : State) (index : Byte) : Record :=
  match ErrorKind.ofCode index.toNat with
  | some k => s.errorReportKind k
  | none =>
    if index = 0 then s.errorReportFirst
    else if index = 16 then s.errorReportDetail
    else { emptyRecord with kind := 0x35, b1 := index, b2 := hiByte s.nextMask, b3 := loByte s.nextMask }

/-- PARAM_VALUE: the value as written and the default (08, R150). -/
def paramRecord (ident : Byte) (value default : Nat) : Record := twoWords 0x36 ident value default

/-- The number of fitted groups (01, R20). -/
def groupCount (mask : BitVec 3) : Nat :=
  bit (mask.getLsbD 0) + bit (mask.getLsbD 1) + bit (mask.getLsbD 2)

/-- UNIT_REPORT (08, R141), with a restart kind. -/
def State.unitReportWith (s : State) (kindCode : Nat) : Record where
  kind := 0x37
  b1 := 0xFF
  b2 := nibbles (groupCount s.unit.strapMask) s.unit.strapMask.toNat
  b3 := Config.revision
  b4 := byte s.unit.cause.code
  b5 := nibbles kindCode s.ring.supply.code
  b6 := byte (s.unit.mode.code + 128 * bit (!s.testing.inService))

/-- UNIT_REPORT with the values as they stand (11, R172 and R173). -/
def State.unitReport (s : State) : Record := s.unitReportWith s.unit.cause.kindCode

/-- LINK_STATE (06, R119; 08, R141). -/
def State.linkStateRecord (s : State) (c : LinkCause) : Record where
  kind := 0x3B
  b1 := 0xFF
  b2 := byte s.link.state.code
  b3 := byte s.link.rate.code
  b4 := byte (bit s.link.state.hold?.isSome)
  b5 := c.code
  b6 := 0

/-- The views of the audit (09, R153; 08, R140). -/
inductive View where
  | idle
  | busy
  | blocked
  | unavailable
  deriving DecidableEq, Repr

/-- The view code. -/
def View.code : View → Byte
  | .idle => 0
  | .busy => 1
  | .blocked => 2
  | .unavailable => 3

/-- The view of a code; a code above 3 is none (08, R143). -/
def viewOf (b : Byte) : Option View :=
  if b = 0 then some .idle
  else if b = 1 then some .busy
  else if b = 2 then some .blocked
  else if b = 3 then some .unavailable
  else none

/-- The view of a bearer (09, R153). -/
def BearerState.view : BearerState → View
  | .free => .idle
  | .guarded _ _ _ => .idle
  | .heldMove => .idle
  | .heldOut _ _ _ => .busy
  | .heldIn _ => .busy
  | .active _ => .busy
  | .blocked _ => .blocked
  | .unavailable _ => .unavailable

/-- The control byte: current rate, next rate, countdown (05, R96; 08, R140). -/
def controlByte (current next : Rate) (countdown : Nat) : Byte :=
  byte (64 * current.code + 16 * next.code + countdown % 16)

end Sys2Proof.Machine
end

