-- ==== Sys2Proof/Machine/Rates.lean ====
section
/-! DEFINITION. The Link Supervisor's shared operations on rates: the rate at which the decoder works, announcements, step
plans with their relocations and preemptions, the transmit switch, and the teardown of all calls (02 R30 and R47, 05 R102 to
R104, 06 R108 and R117, 07). -/

namespace Sys2Proof.Machine

open Sys2Proof

/-! ### The decoder's rate (06, R108 and R109) -/

/-- A normalization window begins; its length is read now (06, R109). -/
def State.beginWindow (s : State) : State :=
  { s with link := { s.link with window := some (s.param .windowLength), carried := false } }

/-- The link state after a change of the decoder's rate: in HUNT and VERIFY the hunt cycle begins again, and in VERIFY the
trials are removed (06, R108). -/
def LinkState.restartSearch : LinkState → LinkState
  | .hunt e => .hunt { e with cycle := 0 }
  | .verify e _ => .verify { e with cycle := 0 } []
  | .disabled => .disabled
  | .up bad damaged => .up bad damaged

/-- The rate at which the decoder works has changed: the candidates keep their phase sense with puncture position 0, and the
window in progress is replaced by a new one (06, R108). -/
def State.adjustDecoder (s : State) : State :=
  { s with link := { s.link with
    candidate := phaseSense s.link.candidate
    lastGood := phaseSense s.link.lastGood
    window := s.link.window.map (fun _ => s.param .windowLength)
    carried := false
    state := s.link.state.restartSearch } }

/-- The relocation pairs left of each step-down, the newest first, at a receive rate: the pairs of one are discarded once both its
switches have been taken, and a receive rate that is the target of a newer step-down has passed the older ones' (05, R104; log
17). A change to a third rate without pairs of its own discards none: the model's choice (log 52). -/
def settleIn (rx : Rate) : Bool → List Relocation → List Relocation
  | _, [] => []
  | passed, r :: older =>
    if (passed || rx == r.target) && r.switched then settleIn rx (passed || rx == r.target) older
    else r :: settleIn rx (passed || rx == r.target) older

/-- The relocation pairs are discarded once both switches have been taken (05, R104). -/
def State.settlePairs (s : State) : State :=
  { s with coder := { s.coder with relocations := settleIn s.coder.rxRate false s.coder.relocations } }

/-- The receive rate takes a value (05, R102). A change discards an open BER window (07, R122) and adjusts the decoder (06,
R108); once the rate is the link record's, no switch is awaited. -/
def State.setRxRate (s : State) (r : Rate) : State :=
  let changed := decide (s.coder.rxRate ≠ r)
  let s := { s with coder := { s.coder with
    rxRate := r
    sinceSwitch := if r = s.link.rate then none else s.coder.sinceSwitch } }
  let s := if changed then
      { s with quality := { s.quality with window := none } }.adjustDecoder
    else s
  s.settlePairs

/-! ### Announcements and step plans (07) -/

/-- A rate change is in progress while a step plan or an announcement exists (07, R121), up to the switch (log 11). -/
def State.changing (s : State) : Bool :=
  s.quality.plan.isSome || s.link.announcement.isSome || s.link.switchDue.isSome

/-- The announcement is written with countdown 8 (07, R127 and R129). -/
def State.announce (s : State) (r : Rate) : State :=
  { s with link := { s.link with announcement := some { next := r, countdown := 8 } } }

/-- The number of bearers that satisfy a test. -/
def State.countBearers (s : State) (p : BearerNo → BearerState → Bool) : Nat :=
  (allBearers.filter (fun b => p b (s.bearer b).state)).length

/-- A bearer with a call, at or above K'. -/
def isSource (k : Nat) (b : BearerNo) (st : BearerState) : Bool := st.call?.isSome && decide (k ≤ b.val)

/-- A FREE bearer below K'. -/
def isRoom (k : Nat) (b : BearerNo) (st : BearerState) : Bool := st == .free && decide (b.val < k)

/-- A: the calls at or above K' (07, R129). -/
def State.countA (s : State) (k : Nat) : Nat := s.countBearers (isSource k)

/-- F: the FREE bearers below K' (07, R129). -/
def State.countF (s : State) (k : Nat) : Nat := s.countBearers (isRoom k)

/-- A bearer in GUARD without a pending block. -/
def BearerState.isClearing : BearerState → Bool
  | .guarded _ _ pendingBlock => !pendingBlock
  | .unavailable _ | .free | .heldOut _ _ _ | .heldIn _ | .heldMove | .active _ | .blocked _ => false

/-- A bearer that is BLOCKED, or in GUARD with a pending block. -/
def BearerState.isLost : BearerState → Bool
  | .guarded _ _ pendingBlock => pendingBlock
  | .blocked _ => true
  | .unavailable _ | .free | .heldOut _ _ _ | .heldIn _ | .heldMove | .active _ => false

/-- G: the bearers below K' in GUARD with no pending block (07, R131). -/
def State.countG (s : State) (k : Nat) : Nat := s.countBearers (fun b st => st.isClearing && decide (b.val < k))

/-- U: the usable capacity below K' (07, R131). -/
def State.countU (s : State) (k : Nat) : Nat := k - s.countBearers (fun b st => st.isLost && decide (b.val < k))

/-- B: the calls at every index (07, R131). -/
def State.countB (s : State) : Nat := s.countBearers (fun _ st => st.call?.isSome)

/-- The setup calls, the latest state-entry time first, and of two with the same the higher index first (07, R131). -/
def State.insertSetup (s : State) (b : BearerNo) : List BearerNo → List BearerNo
  | [] => [b]
  | x :: rest =>
    if (s.bearer x).entered < (s.bearer b).entered then b :: x :: rest else x :: s.insertSetup b rest

/-- A bearer in HELD_OUT or HELD_IN. -/
def BearerState.isSetup : BearerState → Bool
  | .heldOut _ _ _ => true
  | .heldIn _ => true
  | .unavailable _ | .free | .heldMove | .active _ | .guarded _ _ _ | .blocked _ => false

/-- The class of a bearer's call. -/
def State.bearerClass (s : State) (b : BearerNo) : Option CallClass := (s.bearer b).state.call?.map (·.cls)

/-- The order in which calls are preempted: setup calls, then ORDINARY ACTIVE calls and then PRIORITY ones from the young end of
the active list (07, R131). -/
def State.preemptionOrder (s : State) : List BearerNo :=
  let setups := (allBearers.reverse.filter (fun b => (s.bearer b).state.isSetup)).foldl
    (fun acc b => s.insertSetup b acc) []
  let young := s.active.reverse
  setups ++ young.filter (fun b => s.bearerClass b == some .ordinary)
    ++ young.filter (fun b => s.bearerClass b == some .priority)

/-- A call is preempted by a forced step (07, R132): its bearer enters GUARD, its line goes to LOCKOUT with cause CAPACITY or to
IDLE, RELEASE with cause CAPACITY is passed to the link and CAPACITY_PREEMPT is recorded. -/
def State.preempt (s : State) (b : BearerNo) : State :=
  match (s.bearer b).state.call? with
  | none => s
  | some c =>
    let s := s.takeCall b (s.guardOf c) .capacity
    let s := s.sendCall (releaseRecord (some c.line) b c.reference .capacity)
    s.raise { kind := .capacityPreempt, line := some c.line, bearer := some b, detail := some c.reference }

/-- A relocation target is written into a bearer's call (02, R46). -/
def BearerState.withTarget (st : BearerState) (t : Option BearerNo) : BearerState :=
  match st with
  | .heldOut c expiry requested => .heldOut { c with target := t } expiry requested
  | .heldIn c => .heldIn { c with target := t }
  | .active c => .active { c with target := t }
  | .unavailable held => .unavailable held
  | .free => .free
  | .heldMove => .heldMove
  | .guarded r expiry pendingBlock => .guarded r expiry pendingBlock
  | .blocked c => .blocked c

/-- The pairs of a relocation: the sources in ascending index, each with the lowest FREE bearer below K' not yet paired (07,
R129). -/
def State.relocationPairs (s : State) (k : Nat) : List Pair :=
  ((allBearers.filter (fun b => isSource k b (s.bearer b).state)).zip
    (allBearers.filter (fun b => isRoom k b (s.bearer b).state))).map (fun x => { source := x.1, dest := x.2 })

/-- The destination of a pair enters HELD_MOVE and the source's relocation target is written (02, R46). -/
def State.reserve (s : State) (p : Pair) : State :=
  (s.putBearer p.dest .heldMove).amendBearer p.source ((s.bearer p.source).state.withTarget (some p.dest))

/-- MOVE of a pair: the line, the source, the reference and the destination (07, R129). -/
def State.sendMove (s : State) (p : Pair) : State :=
  match (s.bearer p.source).state.call? with
  | none => s
  | some c => s.sendCall (moveRecord c.line p.source c.reference p.dest)

/-- Relocation is planned (07, R129): pairing, reservation, MOVE, announcement; the plan enters COUNTDOWN. A step-down without pairs leaves
those of an earlier one as they are (log 52). -/
def State.relocate (s : State) (p : StepPlan) : State :=
  let pairs := s.relocationPairs p.target.capacity
  let s := pairs.foldl State.reserve s
  let s := if pairs.isEmpty then s else
    { s with coder := { s.coder with
      relocations := { pairs := pairs, target := p.target, switched := false } :: s.coder.relocations } }
  let s := pairs.foldl State.sendMove s
  let s := s.announce p.target
  { s with quality := { s.quality with plan := some { p with phase := .countdown pairs } } }

/-- A plan is marked forced; its drain timer is removed (07, R131). -/
def State.markForced (s : State) (p : StepPlan) : State :=
  { s with quality := { s.quality with plan := some { p with phase := .drain none, forced := true } } }

/-- A plan in DRAIN is evaluated (07, R129): with room, relocation is planned; without it, the plan is forced if it has been
forced before or is forced now (R131), and otherwise waits. -/
def State.stepDrain (s : State) (p : StepPlan) (force : Bool) : State :=
  let k := p.target.capacity
  if s.countA k ≤ s.countF k then s.relocate p
  else if force || p.forced then
    if s.countA k - s.countF k ≤ s.countG k then s.markForced p
    else
      let chosen := s.preemptionOrder.take (s.countB - s.countU k)
      let s := (chosen.foldl State.preempt s).markForced p
      if s.countA k ≤ s.countF k then s.relocate { p with phase := .drain none, forced := true } else s
  else s

/-- The step plan is given the table's counts (02, R33). It is neither evaluated nor forced while the link is holding (07,
R130), nor in COUNTDOWN (R133). -/
def State.stepPlan (s : State) (force : Bool) : State :=
  match s.quality.plan with
  | some p =>
    match p.phase with
    | .drain _ => if s.isUp then (s.checkParity everyBearer).stepDrain p force else s
    | .countdown _ => s
  | none => s

/-- A step-down creates a step plan (07, R128): phase DRAIN with its drain timer, the admission limit thereby at K', and the
plan evaluated; a critical decision or a drain limit of 0 forces it if there is no room. -/
def State.createPlan (s : State) (target : Rate) (critical : Bool) : State :=
  let p : StepPlan := { target := target, phase := .drain (some (s.now + sec (s.param .drainLimit))), forced := false }
  let s := { s with quality := { s.quality with plan := some p } }
  s.stepPlan (critical || s.param .drainLimit == 0)

/-- In fixed rate mode a change to the fixed rate is started when the link is UP, no rate change is in progress and the rate
differs (07, R136). -/
def State.fixedCheck (s : State) : State :=
  match s.quality.mode with
  | .auto => s
  | .fixed r =>
    if s.isUp && !s.changing then
      if s.link.rate.code < r.code then s.announce r
      else if r.code < s.link.rate.code then s.createPlan r false
      else s
    else s

/-! ### The transmit switch (05, R103; 07, R127 and R134) -/

/-- The line state with its bearer field rewritten (01, R1). -/
def LineState.withBearer (st : LineState) (b : BearerNo) : LineState :=
  match st with
  | .originating _ => .originating b
  | .ringing _ => .ringing b
  | .connected _ => .connected b
  | .parked c => .parked c
  | .idle => .idle
  | .waiting => .waiting
  | .lockout c => .lockout c
  | .testing p => .testing p

/-- The destination of a pair takes the source's call, the active list entry is replaced in its place, and the line's record is read
and its bearer field rewritten (07, R134, steps 1 to 3; 01, R1). The source keeps its record until the withdrawal. -/
def State.transfer (s : State) (p : Pair) : State :=
  match (s.bearer p.source).state.call? with
  | none => s
  | some c =>
    let s := s.putBearer p.dest ((s.bearer p.source).state.withTarget none)
    let s := { s with active := s.active.map (fun b => if b = p.source then p.dest else b) }
    (s.checkParity [.line c.line]).updLine c.line (fun r => { r with state := r.state.withBearer p.dest })

/-- A bearer that the new rate does not provide (02, R30, the table of a smaller K). -/
def BearerState.withdrawn : BearerState → BearerState
  | .unavailable held => .unavailable held
  | .guarded _ _ pendingBlock => .unavailable pendingBlock
  | .blocked .maintenance => .unavailable true
  | .blocked .far => .unavailable false
  | .free | .heldOut _ _ _ | .heldIn _ | .heldMove | .active _ => .unavailable false

/-- A bearer that the new rate provides: it leaves UNAVAILABLE, to BLOCKED with a held block and to FREE without (02, R30). -/
def BearerState.provided : BearerState → BearerState
  | .unavailable true => .blocked .maintenance
  | .unavailable false => .free
  | .free => .free
  | .heldOut c expiry requested => .heldOut c expiry requested
  | .heldIn c => .heldIn c
  | .heldMove => .heldMove
  | .active c => .active c
  | .guarded r expiry pendingBlock => .guarded r expiry pendingBlock
  | .blocked c => .blocked c

/-- The bearer's state under a capacity (02, R30). -/
def BearerState.under (st : BearerState) (k : Nat) (b : BearerNo) : BearerState :=
  if b.val < k then st.provided else st.withdrawn

/-- The bearer enters the state a table gives it, if that is another state. -/
def State.moveBearer (s : State) (b : BearerNo) (st : BearerState) : State :=
  if (s.bearer b).state = st then s else s.putBearer b st

/-- The capacity of the current rate is applied to the bearer table (02, R30). -/
def State.applyCapacity (s : State) : State :=
  allBearers.foldl (fun s b => s.moveBearer b ((s.bearer b).state.under s.capacity b)) s

/-- The pairs of a plan in COUNTDOWN. -/
def State.planPairs (s : State) : List Pair :=
  match s.quality.plan with
  | some p =>
    match p.phase with
    | .countdown pairs => pairs
    | .drain _ => []
  | none => []

/-- The link record's rate becomes the announced rate and the announcement is removed; outside UP the decoder follows it (06,
R108). -/
def State.switchRate (s : State) (r : Rate) : State :=
  let s := { s with link := { s.link with rate := r, switchDue := none, announcement := none } }
  if s.isUp then s else s.setRxRate r

/-- The transmit switch (05, R103), before the frame is assembled: the rate, the transfer of relocated calls, the table under
the new capacity, the end of the plan; the BER window in progress is discarded and the run counters become 0 (07, R122 and
R125). New FREE bearers serve the waiting queue (07, R127). That the 16 frames of R102 are counted from this switch, though an earlier
one still waits for its receive switch, is the model's choice (log 48). -/
def State.takeSwitch (s : State) : State :=
  match s.link.switchDue with
  | none => s
  | some r =>
    let s := (s.checkParity everyBearer).switchRate r
    let s := s.planPairs.foldl State.transfer s
    let s := s.applyCapacity
    let s := { s with
      quality := { s.quality with plan := none, window := none, downRun := 0, upRun := 0 }
      coder := { s.coder with
        relocations := s.coder.relocations.map (fun x : Relocation => { x with switched := true })
        sinceSwitch := if s.coder.rxRate = s.link.rate then none else some 0 } }
    s.settlePairs.serveQueue

/-! ### Teardown of all calls (02, R47; 06, R117 and R118) -/

/-- A bearer at a teardown (02, R47), with K = 5. -/
def BearerState.tornDown (st : BearerState) (b : BearerNo) : BearerState :=
  if b.val < Rate.robust.capacity then
    match st with
    | .heldOut _ _ _ | .heldIn _ | .active _ | .heldMove => .free
    | .guarded _ _ pendingBlock => if pendingBlock then .blocked .maintenance else .free
    | .blocked .far => .free
    | .blocked .maintenance => .blocked .maintenance
    | .free => .free
    | .unavailable held => .unavailable held
  else st.withdrawn

/-- What a teardown of all calls leaves a line in (01, R26). -/
def State.tearLine (s : State) (l : LineNo) : State :=
  match (s.line l).state with
  | .originating _ => s.dropLine l .linkLost
  | .connected _ => s.dropLine l .linkLost
  | .ringing _ => s.enterIdle l
  | .parked _ | .idle | .waiting | .lockout _ | .testing _ => s

/-- The teardown of all calls (02, R47): every bearer, the active list, the ring tables and the lines. -/
def State.tearDown (s : State) : State :=
  let s := s.checkParity everyRecord
  let s := allBearers.foldl (fun s b => s.moveBearer b ((s.bearer b).state.tornDown b)) s
  let s := { s with active := [] }
  let s := s.emptyRings
  allLines.foldl State.tearLine s

/-- Steps 1 and 2 of R117 but for the link state: the rate is Robust with the receive rate, the announcement and the step plan
are removed with their pairs, and the receive side's numbers are removed (05, R105; 06, R120; 07, R135 and R137). -/
def State.dropLink (s : State) : State :=
  { s with
    link := { s.link with
      rate := .robust
      candidate := phaseSense s.link.candidate
      lastGood := phaseSense s.link.lastGood
      announcement := none
      switchDue := none }
    quality := { s.quality with window := none, downRun := 0, upRun := 0, plan := none }
    coder := { s.coder with
      rxRate := .robust
      rxCountdown := none
      expected := none
      lastGoodNumber := none
      relocations := []
      sinceSwitch := none } }

/-- Step 3 of R117: a new hunt episode, at the candidate that the last good one adjusts to, with a new window. -/
def State.beginHunt (s : State) : State :=
  { s with link := { s.link with state := .hunt Episode.fresh, candidate := phaseSense s.link.lastGood } }.beginWindow

/-- Step 5 of R117: the link transmit queue is emptied (08, R147). -/
def State.emptyLinkQueue (s : State) : State :=
  { s with messages := { s.messages with linkQueue := [] } }

/-- The RESTART action of LINK_CONTROL on a link that is not DISABLED, but for its report (06, R118). -/
def State.rehunt (s : State) : State := s.dropLink.beginHunt.emptyLinkQueue.tearDown

/-- The RESTART action of LINK_CONTROL on a link that is not DISABLED (06, R118). -/
def State.restartLink (s : State) : State :=
  let s := s.rehunt
  s.send .localPort (s.linkStateRecord .restarted)

/-- The same action as an error's routing orders it (11, R177). The errors of its own work, the mismatches it reads and the loss of its
report, are answered: they are taken when the present error is complete (11, R175). -/
def State.restartLinkQuietly (s : State) : State × List ErrorEvent :=
  let r := s.readParity everyRecord
  let s := r.1.rehunt
  let q := s.push .localPort (s.linkStateRecord .restarted)
  (q.1, r.2 ++ q.2)

end Sys2Proof.Machine
end

