-- ==== Sys2Proof/Machine/Sequences.lean ====
section
/-! DEFINITION. The Test Sequencer's choice of a test, the entry to START with its sequence, the unit restart, HALTED, and what
stands around every event: the parts of its effect that its rules put last (10 R163, 11, log 9). -/

namespace Sys2Proof.Machine

open Sys2Proof

/-! ### Choosing a test (10, R163 to R165) -/

/-- The park cause that a line keeps while it is TESTING (10, R162). -/
def LineState.park? : LineState → Option ParkCause
  | .parked c => some c
  | .testing p => p
  | .idle | .waiting | .originating _ | .ringing _ | .connected _ | .lockout _ => none

/-- A test is started (10, R165): the test record is written, the test relay closes and the line enters TESTING. -/
def State.startTest (s : State) (l : LineNo) (k : TestKind) : State :=
  let s' := { s with testing := { s.testing with
    test := some { line := l, kind := k, phase := .settling, timer := s.now + ms 200 } } }
  s'.putLine l (.testing (s.line l).state.park?)

/-- A listed line that a demand test may be started on (10, R163). -/
def LineState.testable : LineState → Bool
  | .idle => true
  | .parked .outOfService => true
  | .parked .fault => true
  | .parked .unfitted | .waiting | .originating _ | .ringing _ | .connected _ | .lockout _ | .testing _ => false

/-- The demand list's entries in order, until a test starts or the list is empty; an entry whose line cannot be tested is
dropped with TEST_RESULT ABORTED (10, R163, step 1), whose codes of 0 are the model's choice (log 46). Answers whether a test has
started. -/
def serveDemand : List DemandEntry → State → State × Bool
  | [], s => (s, false)
  | e :: rest, s =>
    let s := { s with testing := { s.testing with demand := rest } }.checkParity [.line e.line]
    if (s.line e.line).state.testable then (s.startTest e.line (.demand e.port), true)
    else serveDemand rest (s.send e.port (testResultRecord e.line .aborted 0 0 0))

/-- A line that the sweep may test now (10, R163, step 2). -/
def State.eligible (s : State) (l : LineNo) : Bool :=
  ((s.line l).state == .idle || (s.line l).state == .parked .fault) && s.due (s.line l).testDue

/-- The eligible line with the earliest due time, the lower number of two (10, R163, step 2). -/
def State.sweepChoice (s : State) : Option LineNo :=
  (allLines.filter s.eligible).foldl
    (fun best l =>
      match best with
      | none => some l
      | some k => if (s.line l).testDue < (s.line k).testDue then some l else some k)
    none

/-- The Test Sequencer looks for a test to start (10, R163). -/
def State.chooseTest (s : State) : State :=
  if s.inService && s.testing.inService && s.testing.test.isNone then
    let d := serveDemand s.testing.demand s
    if d.2 then d.1
    else if d.1.ring.supply == .reserve then d.1
    else
      let s := d.1.checkParity everyLine
      match s.sweepChoice with
      | some l => s.startTest l .routine
      | none => s
  else s

/-- A choice of a test is called for. -/
def State.callChoice (s : State) : State := { s with work := { s.work with choose := true } }

/-! ### HALTED (11, R178) -/

/-- The unit goes to HALTED: relays released, the Link Coder and the receive paths stopped, both queues emptied, and one
UNIT_REPORT left to be sent on the local port, with the halting kind (11, R178). -/
def State.halt (s : State) (k : ErrorKind) : State :=
  let s := s.emptyRings
  let s := { s with
    unit := { s.unit with mode := .halted }
    testing := { s.testing with test := none }
    pins := { s.pins with frame := none } }
  { s with messages := { s.messages with
    linkQueue := []
    localQueue := [s.unitReportWith k.code]
    assembler := .hunting } }

/-! ### The START sequence (11, R172) -/

/-- A record reads back wrong after it has been written (11, R172, step 1). -/
def State.stuck (s : State) : RecordId → Bool
  | .line l => (s.line l).stuck
  | .bearer b => (s.bearer b).stuck

/-- The record whose failure of the table check is recorded (11, R172, step 1). Where several fail it is the first of them alone, lines
before bearers: the model's choice (log 47). -/
def State.failedRecord (s : State) : Option RecordId :=
  everyRecord.find? s.stuck

/-- The group of a line is fitted: bit 0 of the mask for lines 0-7 (01, R20; 08, R141). -/
def fitted (mask : BitVec 3) (l : LineNo) : Bool := mask.getLsbD (l.val / 8)

/-- The levels of the strap inputs at a time: those of the latest move whose time has come, or those at power-on reset (01, R20; log
7). -/
def strapLevels (x : Straps) (now : Time) : BitVec 3 :=
  x.moves.foldl (fun levels m => if m.time ≤ now then m.levels else levels) x.levels

/-- The levels of the strap inputs now. -/
def State.straps (s : State) : BitVec 3 := strapLevels s.pins.straps s.now

/-- The strap step on one line (01, R20). -/
def State.strapLine (s : State) (l : LineNo) (r : LineRecord) : LineRecord :=
  if fitted s.straps l then
    if r.state = .parked .unfitted then
      { r with
        state := .idle
        inService := true
        cls := .ordinary
        faultCount := 0
        lastOutcome := none
        testDue := s.now + hours (s.param .sweepPeriod) }
    else r
  else { r with state := .parked .unfitted, inService := false }

/-- The straps are read, each line is treated as R20 states, and the mask is written (11, R172, step 2). -/
def State.strapStep (s : State) : State :=
  let s := s.mapLines s.strapLine
  { s with unit := { s.unit with strapMask := s.straps } }

/-- Steps 1 to 3 of the START sequence, at the event that enters START, after every record has been written with the value it
takes (11, R172). A failed check is recorded by steps 1 and 2 of R175 and halts the unit. -/
def State.enterStart (s : State) : State :=
  let s := { s with unit := { s.unit with startSteps := true } }
  match s.failedRecord with
  | some id => (s.recordError (parityError id)).1.halt .tableParity
  | none =>
    let s := s.strapStep
    s.send .localPort s.unitReport

/-! ### Power-on reset and unit restart -/

/-- The power-on values, with the strap levels and their moves, the storage faults of the records and the queue of commands as they are
(log 5, log 7, log 8). -/
def State.powerOn (s : State) (straps : Straps) : State :=
  { State.reset with
    lines := Vector.ofFn (fun l : LineNo => { LineRecord.powerOn with stuck := (s.line l).stuck }.sealed)
    bearers := Vector.ofFn (fun b : BearerNo => { BearerRecord.powerOn b with stuck := (s.bearer b).stuck }.sealed)
    pins := { Pins.powerOn with straps := straps, voiceIn := s.pins.voiceIn }
    pending := s.pending }

/-- A line's state at a unit restart, before the strap step (01, R24). -/
def LineRecord.restartState (r : LineRecord) : LineState :=
  match r.state with
  | .parked .unfitted => .parked .unfitted
  | .parked .fault => .parked .fault
  | .testing (some .fault) => .parked .fault
  | .parked .outOfService | .idle | .waiting | .originating _ | .ringing _ | .connected _ | .lockout _
  | .testing _ => if r.inService then .idle else .parked .outOfService

/-- A line record at a unit restart (01, R24). -/
def LineRecord.restarted (r : LineRecord) : LineRecord :=
  { r with state := r.restartState, digits := 0, run := .zero, longOpen := false }

/-- A bearer holds a maintenance block: BLOCKED, pending in GUARD or held in UNAVAILABLE (02, R49). -/
def BearerState.maintenance : BearerState → Bool
  | .blocked .maintenance => true
  | .guarded _ _ pendingBlock => pendingBlock
  | .unavailable held => held
  | .blocked .far | .free | .heldOut _ _ _ | .heldIn _ | .heldMove | .active _ => false

/-- A bearer's state at a unit restart (02, R49). -/
def BearerState.restarted (st : BearerState) (b : BearerNo) : BearerState :=
  if b.val < Rate.robust.capacity then
    if st.maintenance then .blocked .maintenance else .free
  else .unavailable st.maintenance

/-- Every block takes its unit-restart values and the unit enters START with its cause (11, R177; 01 R24, 02 R49, 03 R58, 04 R89,
05 R105, 06 R120, 07 R137, 08 R152, 10 R170, 11 R179). -/
def State.restartValues (s : State) (c : RestartCause) : State :=
  let s := s.mapLines (fun _ r => r.restarted)
  let s := s.mapBearers (fun b r => { r with state := r.state.restarted b, entered := s.now, disagreements := 0 })
  { s with
    unit := { mode := .start, cause := c, startTime := s.now, strapMask := 0, firstUpPending := false, startSteps := false }
    active := []
    counter := 1
    waiting := []
    ring := { s.ring with phases := Vector.replicate 3 [], queue := [], supply := .normal, candidate := none }
    link := { Link.powerOn with candidate := phaseSense s.link.lastGood, lastGood := phaseSense s.link.lastGood }
    quality := Quality.powerOn
    coder := Coder.powerOn
    messages := { Messages.powerOn with sending := s.messages.sending }
    testing := Testing.powerOn }

/-- A unit restart (11, R177): every block takes its unit-restart values, the reply and the ALARM that wait on it follow (R149,
R176), and the START sequence is entered. A mismatch that reading the old records finds is recorded after it (R175; log 8). -/
def State.unitRestart (s : State) (c : RestartCause) (follow : State → State) : State :=
  let bad := everyRecord.filter s.newMismatch
  let s := (follow (s.restartValues c)).enterStart
  if s.unit.mode = .halted then s else s.raiseAll (bad.map parityError)

/-! ### Around every event -/

/-- The parts of an event's effect that come after its own steps, in this order (log 9): the waiting-queue service that a freed
bearer calls for (02, R33), the step plan's evaluation with the counts that result (R33), and the choice of a test (10, R163). -/
def State.settle (s : State) : State :=
  let s := if s.work.serve then (s.withWork { s.work with serve := false }).serveQueue else s
  let s := if s.work.counts then (s.withWork { s.work with counts := false }).stepPlan false else s
  if s.work.choose then (s.withWork { s.work with choose := false }).chooseTest else s

/-- The reply of the event is queued on the port the request came from (08, R149). -/
def State.flushReply (s : State) : State :=
  match s.work.reply with
  | none => s
  | some (p, r) => (s.withWork { s.work with reply := none }).send p r

/-- An ALARM put by is passed to both ports (11, R176). -/
def State.sendAlarm (s : State) (a : Option Record) : State :=
  match a with
  | none => s
  | some r => s.sendBoth r

/-- The RESTART action of a routing: in SERVICE, while the link is not DISABLED (11, R177). -/
def State.restartAction (s : State) : State × List ErrorEvent :=
  if s.inService ∧ s.link.state ≠ .disabled then s.restartLinkQuietly else (s, [])

/-- The action of a RESTART_LINK routing (11, R177), with the ALARM after it (R176). The errors of this work, the action's and then the
ALARM's, are taken after that as new ones (R175). -/
def State.restartByError (s : State) (alarm : Option Record) : State :=
  let r := s.restartAction
  match alarm with
  | none => r.1.raiseAll r.2
  | some a =>
    let q := r.1.pushBoth a
    q.1.raiseAll (r.2 ++ q.2)

/-- A restart that an error's routing ordered is taken (11, R177), with the ALARM after it (R176). In HALTED, to which an earlier order
of the event may have led, nothing is done and nothing sent (R178). -/
def State.takeOrdered (s : State) (o : Ordered) : State :=
  match s.unit.mode with
  | .service =>
    if o.unit then s.unitRestart (.error o.kind) (fun s => s.flushReply.sendAlarm o.alarm)
    else s.restartByError o.alarm
  | .start =>
    if o.unit then (s.withWork { s.work with reply := none }).halt o.kind else s.restartByError o.alarm
  | .halted => s

/-- The reply and the ordered restarts. Where a unit restart is ordered the reply is placed after the restart has emptied the
queues (08, R149); otherwise it is queued first. -/
def State.conclude (s : State) : State :=
  let orders := s.work.ordered
  let s := s.withWork { s.work with ordered := [] }
  let s := if orders.any (·.unit) then s else s.flushReply
  orders.foldl State.takeOrdered s

/-- One round of what follows an event's own steps. -/
def State.round (s : State) : State := s.settle.conclude

/-- The end of every event; nothing is left over. A restart of the link can order one of the unit, by a mismatch it finds, and a
restart of the unit a halt; there is no fourth round. -/
def State.finish (s : State) : State :=
  s.round.round.round.withWork {}

/-- The beginning of every event: its time, and no work. -/
def State.begin (s : State) (t : Time) : State :=
  (s.advance t).withWork {}

/-- What follows a part of an event before the next part is taken: all that follows an event but the ordered restarts, which wait until
the event has had its whole effect (11, R177; log 16), and a reply that waits on one. -/
def State.pause (s : State) : State :=
  if s.settle.work.ordered.any (·.unit) then s.settle else s.settle.flushReply

/-- One part of an event, after the parts before it (log 16); HALTED takes none (11, R178). -/
def State.part (s : State) (body : State → State) : State :=
  if s.unit.mode = .halted then s else (body s).pause

/-- An event that is taken in every unit state. -/
def anyEvent (t : Time) (body : State → State) (s : State) : Host.Outcome State Fault Refusal :=
  .next (body (s.begin t)).finish

/-- An event that is not taken while the unit is HALTED: nothing changes but the time (11, R178; log 25). -/
def event (t : Time) (body : State → State) (s : State) : Host.Outcome State Fault Refusal :=
  .next (if s.unit.mode = .halted then s.begin t else (body (s.begin t)).finish)

end Sys2Proof.Machine
end

