-- ==== Sys2Proof/Machine/Requests.lean ====
section
/-! DEFINITION. The steps of R142 of 08 that stand before every record's own rule: format, port and START, with the replies
they send. -/

namespace Sys2Proof.Machine

open Sys2Proof

/-- The received frame number that an error carries when its record came from the link (08, R142; 11, R174). -/
def State.sourceFrame (s : State) (src : Source) : Option Byte :=
  match src with
  | .linkMessage => s.frameNumber
  | .linkAudit => s.frameNumber
  | .localPort => none

/-- MSG_FORMAT or MSG_CHECK at an inbound record: the frame number for the link; detail the source and the kind byte (11,
R174). -/
def State.recordFault (s : State) (k : ErrorKind) (src : Source) (kind : Byte) : State :=
  s.raise { kind := k, frame := s.sourceFrame src, detail := some (toWord (Source.code src) kind) }

/-- A record can reach the Message Handler from the link only in a frame taken while the link is UP; from the local port at any
time (08, section 8.2). The decoder does not run in START (11, R171). -/
def State.hears (s : State) (p : Port) : Bool :=
  match p with
  | .link => s.isUp && s.inService
  | .localPort => true

/-- A request is refused with a cause (08, R141 and R149). -/
def State.refuseWith (s : State) (p : Port) (b1 kind : Byte) (c : ReplyCause) : State :=
  s.replyWith p (replyRecord b1 kind (.refused c) 0)

/-- A request is answered DONE (08, R149). -/
def State.done (s : State) (p : Port) (b1 kind : Byte) : State :=
  s.replyWith p (replyRecord b1 kind .done 0)

/-- Step 4 of R142: MSG_FORMAT is recorded and the record is refused with FORMAT. -/
def State.formatFailure (s : State) (p : Port) (b1 kind : Byte) : State :=
  (s.recordFault .msgFormat (portSource p) kind).refuseWith p b1 kind .format

/-- A maintenance request (08, R142, steps 4, 6 and 7): fields gives the values of its examined fields, none if one is out of
range. -/
def State.request {α : Type} (s : State) (p : Port) (b1 kind : Byte) (fields : Option α) (act : State → α → State) :
    State :=
  if s.hears p then
    match fields with
    | none => s.formatFailure p b1 kind
    | some x => if s.unit.mode = .start then s.refuseWith p b1 kind .starting else act s x
  else s

/-- A call-control record (08, R142, steps 4, 5 and 7). -/
def State.callControl {α : Type} (s : State) (p : Port) (b1 kind : Byte) (fields : Option α) (act : State → α → State) :
    State :=
  if s.hears p then
    match fields with
    | none => s.formatFailure p b1 kind
    | some x =>
      match p with
      | .localPort => s.refuseWith p b1 kind .wrongPort
      | .link => act s x
  else s

end Sys2Proof.Machine
end

