-- ==== Sys2Proof/Machine/Audit.lean ====
section
/-! DEFINITION. The bearer audit: the judgement of a received audit record, its comparison with the local view, and the resolution of
a disagreement (08, R143; 09). -/

namespace Sys2Proof.Machine

open Sys2Proof

/-- The judgements of a compared record (09, R155). -/
inductive Judgement where
  | agreement
  | held
  | lift
  | disagreement
  deriving DecidableEq, Repr

/-- IDLE or UNAVAILABLE. -/
def View.isRest : View → Bool
  | .idle => true
  | .unavailable => true
  | .busy => false
  | .blocked => false

/-- A compared record against the local view (09, R155). -/
def BearerState.judge (st : BearerState) (far : View) (reference : Word) : Judgement :=
  match st.view with
  | .blocked => if far = .blocked then .agreement else if st = .blocked .far then .lift else .held
  | .busy => if far = .busy ∧ st.reference? = some reference then .agreement else .disagreement
  | .idle | .unavailable => if far.isRest then .agreement else .disagreement

/-- The settle time, 200 ms (09, R154). -/
def settleTime : Time := ms 200

/-- The record is compared: the bearer is not in HELD_MOVE and entered its state 200 ms ago or more (09, R154). -/
def State.compared (s : State) (b : BearerNo) : Bool :=
  (s.bearer b).state != .heldMove && decide ((s.bearer b).entered + settleTime ≤ s.now)

/-- The audit's RELEASE for the far reference (09, R158). -/
def State.releaseFar (s : State) (b : BearerNo) (reference : Word) : State :=
  s.sendCall (releaseRecord none b reference .audit)

/-- The local call is torn down and the bearer enters GUARD (09, R157). -/
def State.tearToGuard (s : State) (b : BearerNo) : State :=
  match (s.bearer b).state.call? with
  | some c => s.takeCall b (s.guardOf c) .audit
  | none => s

/-- The entry to BLOCKED at a far view of BLOCKED (09, R159). -/
def State.blockFar (s : State) (b : BearerNo) : State :=
  match (s.bearer b).state with
  | .free => s.putBearer b (.blocked .far)
  | .guarded _ _ false => s.putBearer b (.blocked .far)
  | .guarded _ _ true => s.putBearer b (.blocked .maintenance)
  | .heldOut _ _ _ | .heldIn _ | .active _ => s.takeCall b (.blocked .far) .audit
  | .unavailable _ | .heldMove | .blocked _ => s

/-- The action of a resolution, by the local and far views (09, R156). -/
def State.actOn (s : State) (b : BearerNo) (far : View) (reference : Word) : State :=
  match (s.bearer b).state.view, far with
  | .busy, .idle => s.tearToGuard b
  | .busy, .unavailable => s.tearToGuard b
  | .idle, .busy => s.releaseFar b reference
  | .busy, .busy => (s.tearToGuard b).releaseFar b reference
  | .idle, .blocked => s.blockFar b
  | .busy, .blocked => s.blockFar b
  | .unavailable, .busy => s.releaseFar b reference
  | .unavailable, .blocked => s
  | .idle, .idle | .idle, .unavailable | .unavailable, .idle | .unavailable, .unavailable | .blocked, _ => s

/-- The line of the call that a resolution tears down (09, R160). -/
def State.tornLine (s : State) (b : BearerNo) : Option LineNo := (s.bearer b).state.call?.map (·.line)

/-- A disagreement is resolved (09, R156 and R160): the action, the count set to 0, AUDIT_CONFLICT. -/
def State.resolve (s : State) (b : BearerNo) (far : View) (reference : Word) : State :=
  let line := s.tornLine b
  let s := (s.actOn b far reference).setDisagreements b 0
  s.raise { kind := .auditConflict, line := line, bearer := some b, frame := s.frameNumber, detail := some reference }

/-- A record that is compared sets the disagreement count; at 2 the disagreement is resolved (09, R155). -/
def State.compare (s : State) (b : BearerNo) (far : View) (reference : Word) : State :=
  match (s.bearer b).state.judge far reference with
  | .agreement => s.setDisagreements b 0
  | .held => s.setDisagreements b 0
  | .lift => s.putBearer b .free
  | .disagreement =>
    if 2 ≤ (s.bearer b).disagreements + 1 then s.resolve b far reference
    else s.setDisagreements b ((s.bearer b).disagreements + 1)

/-- The line field of an audit record is 0-23 or 0xFF (08, R143). -/
def auditLineOk (line : Byte) : Bool := line == 0xFF || (lineOf line).isSome

/-- Q_far is taken from the record (07, R124). -/
def State.takeQuality (s : State) (q : Word) : State :=
  { s with quality := { s.quality with qFar := q.toNat } }

/-- An audit record whose check byte matched (08, R143, steps 2 to 4; 09, R154). -/
def State.takeAudit (s : State) (a : AuditSlot) : State :=
  if s.isUp && s.inService then
    if a.index = 0xFF then s
    else
      match bearerOf a.index with
      | none => s.recordFault .msgFormat .linkAudit a.index
      | some b =>
        let s := s.takeQuality a.quality
        match viewOf a.view with
        | none => s.recordFault .msgFormat .linkAudit a.index
        | some far =>
          if auditLineOk a.line then
            let s := s.checkParity [.bearer b]
            if s.compared b then s.compare b far a.reference else s
          else s.recordFault .msgFormat .linkAudit a.index
  else s

/-- AUDIT_RECORD (09, R154). -/
def execAuditRecord (t : Time) (a : AuditSlot) (s : State) : Host.Outcome State Fault Refusal :=
  event t (fun s => s.takeAudit a) s

end Sys2Proof.Machine
end

