-- ==== Sys2Proof/Machine/Coding.lean ====
section
/-! DEFINITION. The work on the bits of a frame: the scrambler, the convolutional coder with its puncturing, and the parts of a
received frame (05, R91 to R98). -/

namespace Sys2Proof.Machine

open Sys2Proof

/-! ### The scrambler (05, R91) -/

/-- The scrambler's 15 stages; stage i is bit i - 1. -/
abbrev Scrambler := BitVec 15

/-- Every stage set to one, as at the start of each frame. -/
def Scrambler.start : Scrambler := BitVec.allOnes 15

/-- The feedback bit: the sum of stages 14 and 15. -/
def Scrambler.feedback (r : Scrambler) : Bool := r.getLsbD 13 != r.getLsbD 14

/-- The register moves one place toward stage 15; stage 1 takes the feedback bit. -/
def Scrambler.advance (r : Scrambler) : Scrambler := (r <<< 1) ||| (BitVec.ofBool (Scrambler.feedback r)).setWidth 15

/-- The scrambled bits. -/
def scramble : Scrambler → List Bool → List Bool
  | _, [] => []
  | r, b :: rest => (b != Scrambler.feedback r) :: scramble (Scrambler.advance r) rest

/-- The bits of a frame with all but the alignment word scrambled (05, R91). -/
def scrambleFrame (bits : List Bool) : List Bool :=
  bits.take 16 ++ scramble Scrambler.start (bits.drop 16)

/-- The scrambling sequence of n bits, the first uppermost, after what has been gathered. -/
def sequenceFrom : Nat → Scrambler → BitVec 1440 → BitVec 1440
  | 0, _, acc => acc
  | n + 1, r, acc =>
    sequenceFrom n (Scrambler.advance r) ((acc <<< 1) ||| (BitVec.ofBool (Scrambler.feedback r)).setWidth 1440)

/-- The scrambling sequence over the bits of a received frame, 0 over the alignment word. -/
def frameSequence : BitVec 1440 := sequenceFrom 1424 Scrambler.start 0

/-! ### The coder (05, R92 and R93) -/

/-- The coder's six stages; the input bit i places earlier is bit i - 1. -/
abbrev Stages := BitVec 6

/-- The first output: the input bit and those 1, 2, 3 and 6 places earlier. -/
def firstOutput (st : Stages) (b : Bool) : Bool :=
  b != (st.getLsbD 0 != (st.getLsbD 1 != (st.getLsbD 2 != st.getLsbD 5)))

/-- The second output: the input bit and those 2, 3, 5 and 6 places earlier. -/
def secondOutput (st : Stages) (b : Bool) : Bool :=
  b != (st.getLsbD 1 != (st.getLsbD 2 != (st.getLsbD 4 != st.getLsbD 5)))

/-- The stages after an input bit. -/
def shiftStages (st : Stages) (b : Bool) : Stages := (st <<< 1) ||| (BitVec.ofBool b).setWidth 6

/-- Whether the first and the second output are sent at a position of the pattern (05, R93). -/
def kept : Rate → Nat → Bool × Bool
  | .robust, _ => (true, true)
  | .standard, n => if n = 0 then (true, true) else (true, false)
  | .wide, n => if n = 0 then (true, true) else if n = 1 then (true, false) else (false, true)

/-- The outputs that the pattern keeps, in the order in which the coder makes them. -/
def outputs (r : Rate) (position : Nat) (st : Stages) (b : Bool) : List Bool :=
  (if (kept r position).1 then [firstOutput st b] else []) ++ (if (kept r position).2 then [secondOutput st b] else [])

/-- The coded bits of a run of input bits, and the stages after it. -/
def encodeBits (r : Rate) : Nat → Stages → List Bool → List Bool × Stages
  | _, st, [] => ([], st)
  | position, st, b :: rest =>
    let tail := encodeBits r ((position + 1) % r.period) (shiftStages st b) rest
    (outputs r position st b ++ tail.1, tail.2)

/-! ### Bytes of a frame -/

/-- The bits of a list of bytes, each the most significant bit first (05, R90). -/
def bitsOf (bytes : List Byte) : List Bool := bytes.flatMap byteBits

/-- The 20 bytes of a block. -/
def blockBytes (b : Block) : List Byte :=
  [0, 1, 2, 3, 4, 5, 6, 7, 8, 9, 10, 11, 12, 13, 14, 15, 16, 17, 18, 19].map (fun i => b.extractLsb' (152 - 8 * i) 8)

/-! ### A received frame (05, R98) -/

/-- The decoded bits with the scrambling taken off. -/
def descrambled (f : RxFrame) : BitVec 1440 := f.bits ^^^ frameSequence

/-- The decoded bits of a frame at a rate, in the order received. -/
def decodedBits (r : Rate) (f : RxFrame) : List Bool := (List.range r.infoBits).map f.bits.getMsbD

/-- The hard decisions of the frame's coded bits, in the order received. -/
def hardDecisions (f : RxFrame) : List Bool := (List.range Config.codedBits).map f.hard.getMsbD

/-- The coding disagreements of a frame taken at a rate: the positions at which the re-encoding of its decoded bits differs from the
hard decision (05, R94). A frame is a whole number of patterns, and its first bit has position 0 (log 29). -/
def disagreementsOf (r : Rate) (f : RxFrame) : Nat :=
  (((encodeBits r 0 f.before (decodedBits r f)).1.zip (hardDecisions f)).filter (fun x => x.1 != x.2)).length

/-- The number of set bits among the lowest n. -/
def onesBelow (w : Word) : Nat → Nat
  | 0 => 0
  | n + 1 => onesBelow w n + (w.getLsbD n).toNat

/-- The number of bits in which the frame's first 16 differ from the alignment word (05, R98). -/
def alignmentErrors (f : RxFrame) : Nat :=
  onesBelow (f.bits.extractLsb' 1424 16 ^^^ Config.alignmentWord) 16

/-- A frame is damaged when 2 or more of those bits differ (05, R98). -/
def damaged (f : RxFrame) : Bool := decide (2 ≤ alignmentErrors f)

/-- The received frame number, header byte 2. -/
def frameNumberOf (f : RxFrame) : Byte := (descrambled f).extractLsb' 1416 8

/-- The received control byte, header byte 3. -/
def controlOf (f : RxFrame) : Byte := (descrambled f).extractLsb' 1408 8

/-- The 8 bytes of the slot that begins at a header byte: 4 for the audit slot, 12 for the message slot (05, R97; 08, R140). -/
def slotOf (f : RxFrame) (start : Nat) : List Byte :=
  [0, 1, 2, 3, 4, 5, 6, 7].map (fun i => (descrambled f).extractLsb' (1432 - 8 * (start + i)) 8)

/-- The payload unit at a position (05, R90). -/
def unitOf (f : RxFrame) (position : BearerNo) : Block := (descrambled f).extractLsb' (1120 - 160 * position.val) 160

/-- The current rate code of a control byte (08, R140). -/
def currentCode (c : Byte) : Nat := (c.extractLsb' 6 2).toNat

/-- The next rate code of a control byte. -/
def nextCode (c : Byte) : Nat := (c.extractLsb' 4 2).toNat

/-- The countdown of a control byte. -/
def countdownOf (c : Byte) : Nat := (c.extractLsb' 0 4).toNat

end Sys2Proof.Machine
end

