-- ==== Sys2Proof/Machine/Quality.lean ====
section
/-! DEFINITION. Quality windows and rate decisions: the judgement of a BER window, the drain timer, and SET_RATE_MODE (07). -/

namespace Sys2Proof.Machine

open Sys2Proof

/-! ### The judgement of a BER window (07, R123 to R125) -/

/-- The estimate of a window of n frames with m disagreements (07, R122 and R123). -/
def berEstimate (m n : Nat) : Nat := min 65535 (m * 1000000 / (n * Config.codedBits))

/-- The smoothing of Q_near (07, R123). -/
def smooth (q e : Nat) : Nat := (7 * q + e + 4) / 8

/-- The quality record with a completed window's estimate: e, Q_near, the mark, D; the window is closed (07, R123 and R124). -/
def Quality.measured (q : Quality) (e : Nat) : Quality :=
  let near := if q.firstWindow then e else smooth q.qNear e
  { q with
    window := none
    firstWindow := false
    estimate := e
    qNear := near
    decision := max near q.qFar }

/-- The run counters take values. -/
def State.setRuns (s : State) (down up : Nat) : State :=
  { s with quality := { s.quality with downRun := down, upRun := up } }

/-- The rate one step below (07, R125). -/
def Rate.below : Rate → Rate
  | .wide => .standard
  | .standard => .robust
  | .robust => .robust

/-- The rate one step above (07, R125). -/
def Rate.above : Rate → Rate
  | .robust => .standard
  | .standard => .wide
  | .wide => .wide

/-- The down condition of a rate (07, R125). -/
def State.downCondition (s : State) (r : Rate) : Bool :=
  match r with
  | .wide => decide (s.param .downW < s.quality.decision)
  | .standard => decide (s.param .downS < s.quality.decision)
  | .robust => false

/-- The up condition of a rate (07, R125). -/
def State.upCondition (s : State) (r : Rate) : Bool :=
  match r with
  | .wide => false
  | .standard => decide (s.quality.decision < s.param .upS)
  | .robust => decide (s.quality.decision < s.param .upR)

/-- D is above the critical threshold (07, R125). -/
def State.isCritical (s : State) : Bool := decide (s.param .critical < s.quality.decision)

/-- A step-down is decided; both counters are set to 0 (07, R125 and R128). -/
def State.stepDown (s : State) (critical : Bool) : State :=
  (s.setRuns 0 0).createPlan s.link.rate.below critical

/-- A step-up is decided; both counters are set to 0 (07, R125 and R127). -/
def State.stepUp (s : State) : State :=
  (s.setRuns 0 0).announce s.link.rate.above

/-- The judgement of a window by the present rate (07, R125, steps 1 to 4). -/
def State.decideRate (s : State) : State :=
  let r := s.link.rate
  if r ≠ .robust ∧ s.isCritical then s.stepDown true
  else if s.downCondition r then
    if s.param .downRunLength ≤ s.quality.downRun + 1 then s.stepDown false
    else s.setRuns (s.quality.downRun + 1) 0
  else if s.upCondition r then
    if s.param .upRunLength ≤ s.quality.upRun + 1 then s.stepUp
    else s.setRuns 0 (s.quality.upRun + 1)
  else s.setRuns 0 0

/-- Decisions are taken in AUTO with no rate change in progress and the link UP; a critical D forces a plan in DRAIN (07, R125 and
R130). -/
def State.decideOrHold (s : State) : State :=
  if s.quality.mode = .auto ∧ !s.changing ∧ s.isUp then s.decideRate
  else
    let s := s.setRuns 0 0
    if s.isCritical then s.stepPlan true else s

/-- A BER window ends (07, R123 to R125). -/
def State.judgeBer (s : State) (w : BerWindow) : State :=
  { s with quality := s.quality.measured (berEstimate w.disagreements w.frames) }.decideOrHold

/-- The BER window with one more frame arrival in it; a window opens at the first arrival after an event of R122 (07, R122). -/
def State.windowWith (s : State) (disagreements : Nat) : BerWindow :=
  match s.quality.window with
  | some w => { w with frames := w.frames + 1, disagreements := w.disagreements + disagreements }
  | none => { frames := 1, disagreements := disagreements, length := s.param .berWindow }

/-- A frame arrival is counted in the BER window; at its length the window ends (07, R122). -/
def State.countFrame (s : State) (disagreements : Nat) : State :=
  let w := s.windowWith disagreements
  if w.length ≤ w.frames then s.judgeBer w else { s with quality := { s.quality with window := some w } }

/-! ### The drain timer (07, R130 and R131) -/

/-- The drain timer of the plan has expired. -/
def State.drainDue (s : State) : Bool :=
  match s.quality.plan with
  | some p =>
    match p.phase with
    | .drain (some expiry) => s.due expiry
    | .drain none => false
    | .countdown _ => false
  | none => false

/-- The drain timer's expiry forces the step; while the link is not UP the plan waits (07, R130 and R131). -/
def State.takeDrainExpiry (s : State) : State :=
  if s.drainDue then s.stepPlan true else s

/-- DRAIN_TIMER_EXPIRY (07, R131). -/
def execDrainTimerExpiry (t : Time) (s : State) : Host.Outcome State Fault Refusal :=
  event t (fun s => s.takeDrainExpiry) s

/-! ### SET_RATE_MODE (07, R136) -/

/-- The rate mode is written. -/
def State.setMode (s : State) (m : RateMode) : State :=
  { s with quality := { s.quality with mode := m } }

/-- A SET_RATE_MODE record with mode AUTO (07, R136; 08, R142). -/
def State.takeRateAuto (s : State) (p : Port) (b1 : Byte) : State :=
  s.request p b1 0x26 (some ()) (fun s _ => (s.setMode .auto).done p b1 0x26)

/-- SET_RATE_MODE_AUTO (07, R136). -/
def execSetRateModeAuto (t : Time) (p : Port) (b1 : Byte) (s : State) : Host.Outcome State Fault Refusal :=
  event t (fun s => s.takeRateAuto p b1) s

/-- A SET_RATE_MODE record with mode FIXED: the run counters are set to 0 and the change to the rate is started if it can be (07,
R136; 08, R142). -/
def State.takeRateFixed (s : State) (p : Port) (b1 rate : Byte) : State :=
  s.request p b1 0x26 (Rate.ofCode rate.toNat) (fun s r =>
    (((s.setMode (.fixed r)).setRuns 0 0).fixedCheck).done p b1 0x26)

/-- SET_RATE_MODE_FIXED (07, R136). -/
def execSetRateModeFixed (t : Time) (p : Port) (b1 rate : Byte) (s : State) : Host.Outcome State Fault Refusal :=
  event t (fun s => s.takeRateFixed p b1 rate) s

end Sys2Proof.Machine
end

