-- ==== Sys2Proof/Machine/Sync.lean ====
section
/-! DEFINITION. Link synchronisation: normalization windows, the hunt, verification, entering UP, loss of sync, link failure and
LINK_CONTROL (06). -/

namespace Sys2Proof.Machine

open Sys2Proof

/-! ### The hunt (06, R109 to R111) -/

/-- The rate at which the decoder works: the receive rate in UP, the rate of the link record outside (06, R108). -/
def State.decoderRate (s : State) : Rate := if s.isUp then s.coder.rxRate else s.link.rate

/-- The normalization threshold of a rate (06, R109). -/
def State.threshold (s : State) (r : Rate) : Nat :=
  match r with
  | .robust => s.param .thresholdRobust
  | .standard => s.param .thresholdStandard
  | .wide => s.param .thresholdWide

/-- A normalization window passes (06, R109). -/
def State.windowPasses (s : State) (renormalizations : Nat) : Bool :=
  decide (renormalizations ≤ s.threshold s.decoderRate)

/-- The hunt episode after a candidate is given up: the count, and at a cycle's end the flag (06, R111). -/
def Episode.afterGivingUp (e : Episode) (candidates : Nat) : Episode :=
  if candidates ≤ e.cycle + 1 then { e with cycle := 0, noSync := true } else { e with cycle := e.cycle + 1 }

/-- A candidate is given up (06, R110 to R112): the link is in HUNT at the next candidate with a new window; LINK_NO_SYNC is
recorded at the end of an episode's first cycle. -/
def State.giveUp (s : State) (e : Episode) : State :=
  let n := s.decoderRate.candidates
  let e' := e.afterGivingUp n
  let s := { s with link := { s.link with
    state := .hunt e', candidate := (s.link.candidate + 1) % n, window := some (s.param .windowLength), carried := false } }
  if e'.noSync && !e.noSync then
    s.raise { kind := .linkNoSync, detail := some (BitVec.ofNat 16 s.link.rate.code) }
  else s

/-! ### Loss of sync (06, R114 and R115) -/

/-- Sync loss (06, R115): HUNT in a new episode at the last good candidate with the hold timer, the receive numbers and the receive
countdown removed, the receive rate that of the link record, LINK_STATE LOST to the local port. An open BER window is discarded
(07, R122). The normalization window in progress runs on, and its end will change nothing (R114; log 31). -/
def State.loseSync (s : State) : State :=
  let e : Episode := { cycle := 0, noSync := false, hold := some (s.now + sec (s.param .holdTime)) }
  let s := { s with
    link := { s.link with state := .hunt e, candidate := s.link.lastGood, carried := true }
    quality := { s.quality with window := none }
    coder := { s.coder with expected := none, lastGoodNumber := none, rxCountdown := none } }
  let s := s.setRxRate s.link.rate
  s.send .localPort (s.linkStateRecord .lost)

/-- A window end in UP (06, R114). -/
def State.judgeUpWindow (s : State) (bad damaged : Nat) (pass : Bool) : State :=
  if pass then { s with link := { s.link with state := .up 0 damaged } }
  else if 2 ≤ bad + 1 then s.loseSync
  else { s with link := { s.link with state := .up (bad + 1) damaged } }

/-- A window end, judged in HUNT and in UP and not in VERIFY; the next window begins (06, R109, R110 and R114). In HUNT a window carried
over a loss of sync is not judged (R114; log 31). -/
def State.endWindow (s : State) (renormalizations : Nat) : State :=
  let pass := s.windowPasses renormalizations
  match s.link.state with
  | .hunt e =>
    if s.link.carried then s.beginWindow
    else if pass then { s with link := { s.link with state := .verify e [] } }.beginWindow
    else s.giveUp e
  | .verify _ _ => s.beginWindow
  | .up bad damaged => (s.judgeUpWindow bad damaged pass).beginWindow
  | .disabled => s

/-- The window of a report is the one in progress; the decoder runs in SERVICE (06, R109; 05, R94). -/
def State.windowReported (s : State) (bits : Nat) : Bool := s.inService && s.link.window == some bits

/-- NORMALIZATION_WINDOW_END (06, R109). -/
def execNormalizationWindowEnd (t : Time) (bits renormalizations : Nat) (s : State) : Host.Outcome State Fault Refusal :=
  event t (fun s => if s.windowReported bits then s.endWindow renormalizations else s) s

/-- A window end that would lose sync: the second failed window in a row in UP (06, R114). -/
def State.windowLoses (s : State) (renormalizations : Nat) : Bool :=
  match s.link.state with
  | .up bad _ => !s.windowPasses renormalizations && decide (2 ≤ bad + 1)
  | .disabled | .hunt _ | .verify _ _ => false

/-! ### Verification (06, R112) -/

/-- The frame spacing F (06, R112). -/
def State.spacing (s : State) : Nat := s.link.rate.infoBits

/-- Where a trial's next word is expected (06, R112, step 2). -/
def Trial.expected (x : Trial) (spacing : Nat) : Nat := x.position + spacing * (x.confirmations + 1)

/-- The trials once the decoder has reached the word w at position x: a trial expecting it is confirmed or removed, one whose word
the decoder has passed is removed, and a word where none was expected opens a trial (06, R112; log 13). -/
def trialsAfter (ts : List Trial) (spacing x : Nat) (found : Bool) : List Trial :=
  let live := ts.filter (fun r => decide (x ≤ r.expected spacing))
  if live.any (fun r => r.expected spacing == x) then
    if found then
      live.map (fun r => if r.expected spacing = x then { r with confirmations := r.confirmations + 1 } else r)
    else live.filter (fun r => r.expected spacing != x)
  else if found then live ++ [{ position := x, confirmations := 0 }]
  else live

/-- The third confirmation completes a trial (06, R112, step 3). -/
def completed (ts : List Trial) : Bool := ts.any (fun r => decide (3 ≤ r.confirmations))

/-- A plan in DRAIN at a recovery is evaluated, and forced if its drain timer has expired (07, R130). -/
def State.resumePlan (s : State) : State :=
  match s.quality.plan with
  | some p =>
    match p.phase with
    | .drain (some expiry) => s.stepPlan (s.due expiry)
    | .drain none => s.stepPlan false
    | .countdown _ => s
  | none => s

/-- The Fault Recorder's second UNIT_REPORT, at the first entry to UP since START (11, R173). -/
def State.reportFirstUp (s : State) : State :=
  if s.unit.firstUpPending then
    { s.send .link s.unitReport with unit := { s.unit with firstUpPending := false } }
  else s

/-- Steps 1 to 3 of R113: the link record, the end of the hold, the receive side; with the quality record's values at an entry to
UP (07, R123 and R125). -/
def State.setUp (s : State) (recovery : Bool) : State :=
  { s with
    link := { s.link with
      state := .up 0 0, lastGood := s.link.candidate, window := some (s.param .windowLength), carried := false }
    coder := { s.coder with rxRate := s.link.rate, sinceSwitch := none }
    quality := { s.quality with
      window := none, downRun := 0, upRun := 0, firstWindow := s.quality.firstWindow || !recovery } }

/-- Entering UP (06, R113): the record, LINK_STATE to both ports, UNIT_REPORT at the first entry, the waiting queue; then the step
plan (07, R130) and the fixed rate (07, R136). -/
def State.enterUp (s : State) : State :=
  let recovery := s.link.state.hold?.isSome
  let s := (s.setUp recovery).settlePairs
  let s := s.sendBoth (s.linkStateRecord (if recovery then .recovered else .found))
  s.reportFirstUp.serveQueue.resumePlan.fixedCheck

/-- The 16 bits that begin at position x of the search (06, R112): taken while less than 8 F bits have been decoded. -/
def State.takeWord (s : State) (x : Nat) (w : Word) : State :=
  match s.link.state with
  | .verify e ts =>
    if x + 16 ≤ 8 * s.spacing ∧ s.inService then
      let ts' := trialsAfter ts s.spacing x (w == Config.alignmentWord)
      let s := { s with link := { s.link with state := .verify e ts' } }
      if completed ts' then s.enterUp else s
    else s
  | .disabled | .hunt _ | .up _ _ => s

/-- ALIGNMENT_WORD_FOUND (06, R112). -/
def execAlignmentWordFound (t : Time) (x : Nat) (w : Word) (s : State) : Host.Outcome State Fault Refusal :=
  event t (fun s => s.takeWord x w) s

/-- The word at position x would be a trial's third confirmation (06, R112, step 3). -/
def State.completesAt (s : State) (x : Nat) : Bool :=
  match s.link.state with
  | .verify _ ts => ts.any (fun r => r.confirmations == 2 && r.expected s.spacing == x)
  | .disabled | .hunt _ | .up _ _ => false

/-- ENTERING_UP (06, R113): the word that completes a trial (log 4). -/
def execEnteringUp (t : Time) (x : Nat) (s : State) : Host.Outcome State Fault Refusal :=
  event t (fun s => if s.completesAt x then s.takeWord x Config.alignmentWord else s) s

/-- No trial has completed within 8 F bits (06, R112, step 4). -/
def State.takeGiveUp (s : State) (bits : Nat) : State :=
  match s.link.state with
  | .verify e _ => if 8 * s.spacing ≤ bits ∧ s.inService then s.giveUp e else s
  | .disabled | .hunt _ | .up _ _ => s

/-- VERIFY_GIVE_UP (06, R112). -/
def execVerifyGiveUp (t : Time) (bits : Nat) (s : State) : Host.Outcome State Fault Refusal :=
  event t (fun s => s.takeGiveUp bits) s

/-! ### Link failure (06, R117) -/

/-- The hold timer has expired (06, R117). -/
def State.holdDue (s : State) : Bool :=
  match s.link.state.hold? with
  | some expiry => s.due expiry
  | none => false

/-- Link failure (06, R117, steps 1 to 7). -/
def State.failLink (s : State) : State :=
  let before := s.link.rate
  let s := s.dropLink.beginHunt
  let s := s.raise { kind := .linkLost, detail := some (BitVec.ofNat 16 before.code) }
  let s := s.emptyLinkQueue.tearDown
  s.send .localPort (s.linkStateRecord .failed)

/-- LINK_FAILURE (06, R117). -/
def execLinkFailure (t : Time) (s : State) : Host.Outcome State Fault Refusal :=
  event t (fun s => if s.holdDue then s.failLink else s) s

/-! ### LINK_CONTROL (06, R118) -/

/-- ENABLE (06, R118). -/
def State.enableLink (s : State) : State :=
  match s.link.state with
  | .disabled =>
    let s := s.beginHunt
    s.send .localPort (s.linkStateRecord .enabled)
  | .hunt _ | .verify _ _ | .up _ _ => s

/-- The decoder stops and the link is DISABLED (06, R118). -/
def State.stopLink (s : State) : State :=
  { s with link := { s.link with state := .disabled, window := none, carried := false } }

/-- DISABLE (06, R118). -/
def State.disableLink (s : State) : State :=
  match s.link.state with
  | .disabled => s
  | .hunt _ | .verify _ _ | .up _ _ =>
    let s := s.dropLink.stopLink.emptyLinkQueue.tearDown
    s.send .localPort (s.linkStateRecord .disabled)

/-- A LINK_CONTROL record with action ENABLE (06, R118; 08, R142). -/
def State.takeEnable (s : State) (p : Port) (b1 : Byte) : State :=
  s.request p b1 0x27 (some ()) (fun s _ => s.enableLink.done p b1 0x27)

/-- LINK_CONTROL_ENABLE (06, R118). -/
def execLinkControlEnable (t : Time) (p : Port) (b1 : Byte) (s : State) : Host.Outcome State Fault Refusal :=
  event t (fun s => s.takeEnable p b1) s

/-- A LINK_CONTROL record with action DISABLE (06, R118; 08, R142). -/
def State.takeDisable (s : State) (p : Port) (b1 : Byte) : State :=
  s.request p b1 0x27 (some ()) (fun s _ => s.disableLink.done p b1 0x27)

/-- LINK_CONTROL_DISABLE (06, R118). -/
def execLinkControlDisable (t : Time) (p : Port) (b1 : Byte) (s : State) : Host.Outcome State Fault Refusal :=
  event t (fun s => s.takeDisable p b1) s

/-- A LINK_CONTROL record with action RESTART (06, R118; 08, R142). -/
def State.takeRestartLink (s : State) (p : Port) (b1 : Byte) : State :=
  s.request p b1 0x27 (some ()) (fun s _ =>
    if s.link.state = .disabled then s.refuseWith p b1 0x27 .linkDisabled
    else s.restartLink.done p b1 0x27)

/-- LINK_CONTROL_RESTART (06, R118). -/
def execLinkControlRestart (t : Time) (p : Port) (b1 : Byte) (s : State) : Host.Outcome State Fault Refusal :=
  event t (fun s => s.takeRestartLink p b1) s

end Sys2Proof.Machine
end

