-- ==== Sys2Proof/Machine/Frames.lean ====
section
/-! DEFINITION. The Link Coder: frame assembly with the transmit switch, the continuity, receive countdown and downstream voice of a
received frame, and the tone blocks of lines (05; 01, R6 and R7). -/

namespace Sys2Proof.Machine

open Sys2Proof

/-! ### Building a transmit frame (05, R95 to R97) -/

/-- The three kinds of frame that the unit and link states give (05, R95). -/
inductive FrameKind where
  | bare
  | searching
  | full
  deriving DecidableEq, Repr

/-- The kind of a frame assembled now: START or DISABLED, HUNT or VERIFY, UP (05, R95). -/
def State.frameKind (s : State) : FrameKind :=
  if s.unit.mode = .start then .bare
  else
    match s.link.state with
    | .disabled => .bare
    | .hunt _ => .searching
    | .verify _ _ => .searching
    | .up _ _ => .full

/-- The rate of the frame: Robust in START and DISABLED (05, R95 and R96). -/
def State.frameRate (s : State) (k : FrameKind) : Rate :=
  match k with
  | .bare => .robust
  | .searching => s.link.rate
  | .full => s.link.rate

/-- The control byte of the frame (05, R96). -/
def State.frameControl (s : State) (k : FrameKind) : Byte :=
  match k with
  | .bare => controlByte .robust .robust 0
  | .searching | .full =>
    match s.link.announcement with
    | some a => controlByte s.link.rate a.next a.countdown
    | none => controlByte s.link.rate s.link.rate 0

/-- The empty audit record (05, R97). -/
def emptyAudit : List Byte := auditBytes 0xFF 0 0xFF 0 0

/-- The bearer that a frame audits: the remainder of the transmit frame number divided by 8 (05, R97). -/
def auditedBearer (number : Byte) : BearerNo := ⟨number.toNat % 8, Nat.mod_lt _ (by decide)⟩

/-- The line and the reference that a bearer's audit record carries (09, R153). -/
def BearerState.auditFields (st : BearerState) : Byte × Word :=
  match st.call? with
  | some c => (lineByte c.line, c.reference)
  | none => (0xFF, 0)

/-- The cabinet's audit record for a bearer (09, R153). -/
def State.auditRecord (s : State) (b : BearerNo) : List Byte :=
  let st := (s.bearer b).state
  auditBytes (bearerByte b) (View.code st.view) st.auditFields.1 st.auditFields.2 (BitVec.ofNat 16 s.quality.qNear)

/-- The audit slot of the frame (05, R97). -/
def State.auditSlot (s : State) (k : FrameKind) : List Byte :=
  match k with
  | .bare => emptyAudit
  | .searching => emptyAudit
  | .full => s.auditRecord (auditedBearer s.coder.txNumber)

/-- The message slot of the frame: the head of the link transmit queue in UP, EMPTY otherwise (05, R97). -/
def State.messageSlot (s : State) (k : FrameKind) : Record :=
  match k with
  | .bare => emptyRecord
  | .searching => emptyRecord
  | .full => s.messages.linkQueue.head?.getD emptyRecord

/-- The payload unit of a bearer: its line's voice when it is ACTIVE, the idle pattern otherwise (02, R44 and R45). -/
def State.payload (s : State) (k : FrameKind) (b : BearerNo) : Block :=
  match k with
  | .bare => Config.idleBlock
  | .searching | .full =>
    match (s.bearer b).state with
    | .active c => s.pins.voiceIn[c.line.val]
    | .unavailable _ | .free | .heldOut _ _ _ | .heldIn _ | .heldMove | .guarded _ _ _ | .blocked _ => Config.idleBlock

/-- The header unit (08, R140). -/
def State.header (s : State) (k : FrameKind) : List Byte :=
  [0xD3, 0x5A, s.coder.txNumber, s.frameControl k] ++ s.auditSlot k ++ recordWire (s.messageSlot k)

/-- The info bytes of the frame: the header unit, then the payload units of the bearers below K in order (05, R90). -/
def State.frameInfo (s : State) (k : FrameKind) : List Byte :=
  s.header k ++ (allBearers.filter (fun b => decide (b.val < (s.frameRate k).capacity))).flatMap
    (fun b => blockBytes (s.payload k b))

/-- The frame goes to the modem: scrambled, coded with the stages running on, punctured (05, R91 to R93). -/
def State.emit (s : State) (k : FrameKind) : State :=
  let info := s.frameInfo k
  let r := s.frameRate k
  let coded := encodeBits r 0 s.coder.stages (scrambleFrame (bitsOf info))
  { s with
    coder := { s.coder with stages := coded.2, txNumber := s.coder.txNumber + 1 }
    pins := { s.pins with frame := some { rate := r, info := info, coded := coded.1 } } }

/-- The record in the message slot leaves the link transmit queue at the assembly (05, R97). -/
def State.popMessage (s : State) (k : FrameKind) : State :=
  match k with
  | .bare => s
  | .searching => s
  | .full => { s with messages := { s.messages with linkQueue := s.messages.linkQueue.tail } }

/-- The announcement counts down; after the frame that carried countdown 1 it ends and the next frame is the transmit switch frame
(05, R96 and R103). -/
def State.countDown (s : State) : State :=
  match s.link.announcement with
  | none => s
  | some a =>
    if a.countdown ≤ 1 then { s with link := { s.link with announcement := none, switchDue := some a.next } }
    else { s with link := { s.link with announcement := some { a with countdown := a.countdown - 1 } } }

/-- The frames assembled since the transmit switch are counted while the receive rate has not followed (05, R102). -/
def State.countSince (s : State) : State :=
  { s with coder := { s.coder with sinceSwitch := s.coder.sinceSwitch.map (fun n => min 16 (n + 1)) } }

/-- A frame is built from the state as it stands and sent (05, R95 to R97). -/
def State.sendFrame (s : State) : State :=
  let s := if s.frameKind = .bare then s else s.checkParity everyBearer
  let k := s.frameKind
  ((s.emit k).popMessage k).countDown.countSince

/-- A frame assembly event, every 10 ms (05, R90): the transmit switch before the frame if it is due (R103), the frame, and after the
switch frame the check of the fixed rate (07, R136; log 12). -/
def State.assemble (s : State) (voice : Voice) : State :=
  if s.onGrid (ms 10) then
    let s := { s with pins := { s.pins with voiceIn := voice } }
    if s.link.switchDue.isSome then s.takeSwitch.sendFrame.fixedCheck else s.sendFrame
  else s

/-- FRAME_ASSEMBLY (05, R95). -/
def execFrameAssembly (t : Time) (voice : Voice) (s : State) : Host.Outcome State Fault Refusal :=
  event t (fun s => s.assemble voice) s

/-- TRANSMIT_SWITCH_FRAME (05, R103): the assembly that follows the frame with countdown 1 (log 4). -/
def execTransmitSwitchFrame (t : Time) (voice : Voice) (s : State) : Host.Outcome State Fault Refusal :=
  event t (fun s => if s.link.switchDue.isSome then s.assemble voice else s) s

/-! ### Continuity (05, R99 and R100) -/

/-- The numbers of a frame arrival: a good frame's is tested and becomes the last good one; a damaged frame counts as one more. -/
def State.takeNumber (s : State) (f : RxFrame) : State :=
  if damaged f then { s with coder := { s.coder with expected := s.coder.expected.map (· + 1) } }
  else
    let n := frameNumberOf f
    let before := s.coder.expected
    let s := { s with coder := { s.coder with expected := some (n + 1), lastGoodNumber := some n } }
    match before with
    | none => s
    | some x =>
      if x = n then s
      else s.raise { kind := .frameSlip, frame := some n, detail := some (toWord 0 x) }

/-! ### Downstream voice (05, R101 and R104) -/

/-- What a line hears at a delivery, and its concealment record after it (05, R101). -/
def Conceal.deliver (c : Conceal) (good : Option Block) : Block × Conceal :=
  match good with
  | some u => (u, { lastGood := some u, run := 0 })
  | none =>
    if c.run = 0 then (c.lastGood.getD Config.silenceBlock, { c with run := 1 })
    else (Config.silenceBlock, { c with run := 2 })

/-- A delivery to a line in CONNECTED; a connected line hears no tone. -/
def State.deliverLine (s : State) (l : LineNo) (good : Option Block) : State :=
  let d := (s.coder.conceal[l.val].getD { lastGood := none, run := 0 }).deliver good
  { s with
    coder := { s.coder with conceal := s.coder.conceal.set l.val (some d.2) }
    pins := { s.pins with voiceOut := s.pins.voiceOut.set l.val d.1, hearing := s.pins.hearing.set l.val none } }

/-- The payload position that carries the downstream voice of the call on a bearer, in a frame received at a rate: for a relocated call
the destination's at the step-down's rate and the source's at the rate before it, whichever switch came first (05, R104). The
step-downs are taken the newest first (log 17). At a third rate, to which a rate change without pairs has led before the step-down's
receive switch, the source's position stands: the model's choice (log 52). -/
def positionIn (rx : Rate) : List Relocation → BearerNo → BearerNo
  | [], b => b
  | r :: older, b =>
    match r.pairOf b with
    | some x => if rx = r.target then x.dest else positionIn rx older x.source
    | none => positionIn rx older b

/-- The payload position of a bearer at the receive rate. -/
def State.positionOf (s : State) (b : BearerNo) : BearerNo := positionIn s.coder.rxRate s.coder.relocations b

/-- The payload unit delivered for a bearer; a position that a frame at this rate does not have gives an unstated value (log 18). -/
def State.unitFor (s : State) (f : RxFrame) (b : BearerNo) : Block :=
  let p := s.positionOf b
  if p.val < s.coder.rxRate.capacity then unitOf f p else Config.absentUnit s.now b

/-- The payload of a received frame goes to the lines of the ACTIVE bearers, with the damage mark (02, R44; 05, R98 and R101). -/
def State.deliverFrame (s : State) (f : RxFrame) : State :=
  allBearers.foldl
    (fun s b =>
      match (s.bearer b).state with
      | .active c => s.deliverLine c.line (if damaged f then none else some (s.unitFor f b))
      | .unavailable _ | .free | .heldOut _ _ _ | .heldIn _ | .heldMove | .guarded _ _ _ | .blocked _ => s)
    s

/-! ### The receive rate (05, R102) -/

/-- A rate is the cabinet's own target: the announced rate while the announcement runs, or the link record's rate while it differs from
the receive rate; while both are so, either is (05, R102; log 11, log 43). -/
def State.ownTarget (s : State) (r : Rate) : Bool :=
  s.link.announcement.map (·.next) == some r || s.link.switchDue == some r ||
    (s.link.rate == r && s.link.rate != s.coder.rxRate)

/-- The change a good frame announces, when it is the cabinet's own (05, R102, steps 1 and 2). -/
def State.announcedBy (s : State) (f : RxFrame) : Option RxCountdown :=
  let c := controlOf f
  if damaged f then none
  else
    match Rate.ofCode (currentCode c), Rate.ofCode (nextCode c) with
    | some _, some next =>
      if next ≠ s.coder.rxRate ∧ 1 ≤ countdownOf c ∧ s.ownTarget next then
        some { next := next, count := countdownOf c }
      else none
    | _, _ => none

/-- The frame's countdown (05, R102, steps 1 to 3). -/
def State.countdownAt (s : State) (f : RxFrame) : Option RxCountdown :=
  match s.announcedBy f with
  | some c => some c
  | none => s.coder.rxCountdown.map (fun c => { c with count := c.count - 1 })

/-- 16 frames have been assembled since the transmit switch and the receive rate has not followed (05, R102). -/
def State.switchOverdue (s : State) : Bool :=
  match s.coder.sinceSwitch with
  | some n => decide (16 ≤ n) && decide (s.coder.rxRate ≠ s.link.rate)
  | none => false

/-- The receive rate after a frame arrival: the announced rate at countdown 1, the link record's when the switch is overdue, and
otherwise the rate it was (05, R102). -/
def State.rateAfter (s : State) (f : RxFrame) : Rate :=
  if s.switchOverdue then s.link.rate
  else
    match s.countdownAt f with
    | some c => if c.count = 1 then c.next else s.coder.rxRate
    | none => s.coder.rxRate

/-- The receive countdown after a frame arrival (05, R102). -/
def State.rxCountdownAfter (s : State) (f : RxFrame) : Option RxCountdown :=
  if s.switchOverdue then none
  else
    match s.countdownAt f with
    | some c => if 2 ≤ c.count then some c else none
    | none => none

/-- The receive countdown and the receive switch at a frame arrival (05, R102). -/
def State.followRate (s : State) (f : RxFrame) : State :=
  let r := s.rateAfter f
  let s := { s with coder := { s.coder with rxCountdown := s.rxCountdownAfter f } }
  if r = s.coder.rxRate then s else s.setRxRate r

/-! ### The frame arrival (05, R98) -/

/-- The consecutive damaged frames, and sync loss at the fourth (06, R114). -/
def State.countDamage (s : State) (f : RxFrame) : State :=
  match s.link.state with
  | .up bad n =>
    if damaged f then
      if 4 ≤ n + 1 then s.loseSync else { s with link := { s.link with state := .up bad (n + 1) } }
    else { s with link := { s.link with state := .up bad 0 } }
  | .disabled | .hunt _ | .verify _ _ => s

/-- A frame arrival that would lose sync: the fourth damaged frame in a row (06, R114). -/
def State.frameLoses (s : State) (f : RxFrame) : Bool :=
  match s.link.state with
  | .up _ n => damaged f && decide (4 ≤ n + 1)
  | .disabled | .hunt _ | .verify _ _ => false

/-- The frame arrival completes the BER window (07, R122 and R123). -/
def State.windowFills (s : State) (f : RxFrame) : Bool :=
  let w := s.windowWith (disagreementsOf s.coder.rxRate f)
  decide (w.length ≤ w.frames) && !s.frameLoses f && decide (s.rateAfter f = s.coder.rxRate)

/-! ### Tone blocks (01, R6 and R7) -/

/-- The tone of a line that is not CONNECTED (01, R6); a CONNECTED line hears its bearer. -/
def LineState.tone : LineState → Option Tone
  | .parked _ => some .silence
  | .idle => some .silence
  | .waiting => some .hold
  | .originating _ => some .hold
  | .ringing _ => some .silence
  | .connected _ => none
  | .lockout .withdrawn => some .howler
  | .lockout .congestion | .lockout .refused | .lockout .timeout | .lockout .capacity | .lockout .linkLost
  | .lockout .restart | .lockout .audit | .lockout .farClear => some .congestion
  | .testing _ => some .silence

/-- What a line is to hear now: silence in START and HALTED, whatever its state (01, R6). -/
def State.toneOf (s : State) (l : LineNo) : Option Tone :=
  if s.inService then (s.line l).state.tone else some .silence

/-- Block n of a tone, counted from the start of its cadence: which sound it has, if any (01, R7). That the howler begins with its 800
Hz part is the model's choice (log 41). -/
def Tone.sound (t : Tone) (n : Nat) : Option Sound :=
  match t with
  | .silence => none
  | .hold => if n % 200 < 10 then some .hz400 else none
  | .congestion => if n % 50 < 25 then some .hz400 else none
  | .howler => if n % 20 < 10 then some .hz800 else some .hz1600

/-- Block n of a tone (01, R7); the bytes of a sound are an unstated value (log 19). -/
def Tone.block (t : Tone) (n : Nat) : Block :=
  match t.sound n with
  | some x => Config.soundBlock x n
  | none => Config.silenceBlock

/-- The next block of a tone for a line: the cadence runs on while the tone is the same, and starts afresh when it changes (01,
R7). -/
def Hearing.next (h : Option Hearing) (t : Tone) : Hearing :=
  match h with
  | some x => if x.tone = t then { tone := t, block := x.block + 1 } else { tone := t, block := 0 }
  | none => { tone := t, block := 0 }

/-- A tone block is placed in a line's downstream slot (01, R6). -/
def State.placeTone (s : State) (l : LineNo) (t : Tone) : State :=
  let h := Hearing.next s.pins.hearing[l.val] t
  { s with pins := { s.pins with
    voiceOut := s.pins.voiceOut.set l.val (t.block h.block)
    hearing := s.pins.hearing.set l.val (some h) } }

/-- What one line's slot takes at a block: its tone, or for a CONNECTED line while the link is not UP a damaged delivery (01, R6; 05,
R101); frame arrivals serve it in UP. -/
def State.blockFor (s : State) (l : LineNo) : State :=
  match s.toneOf l with
  | some t => s.placeTone l t
  | none => if s.isUp then s else s.deliverLine l none

/-- The blocks of every line, each 10 ms (01, R6). -/
def State.toneBlocks (s : State) : State :=
  if s.onGrid (ms 10) then
    allLines.foldl State.blockFor (if s.inService then s.checkParity everyLine else s)
  else s

/-- TONE_BLOCK (01, R6), also in HALTED (11, R178). -/
def execToneBlock (t : Time) (s : State) : Host.Outcome State Fault Refusal :=
  anyEvent t (fun s => s.toneBlocks) s

end Sys2Proof.Machine
end

