-- ==== Sys2Proof/Machine/Bearers.lean ====
section
/-! DEFINITION. The Bearer Controller's timers and maintenance: the reservation and guard timers, the wait limit, BLOCK_BEARER
and UNBLOCK_BEARER (02, R38 to R41; 03, R56 and R62). -/

namespace Sys2Proof.Machine

open Sys2Proof

/-! ### Timers -/

/-- The expiry of a reservation timer (03, R62). -/
def State.takeReservationExpiry (s : State) (b : BearerNo) : State :=
  match (s.bearer b).state with
  | .heldOut c expiry _ =>
    if s.due expiry then
      let s := (s.checkParity [.bearer b]).guardCall b
      (s.putLine c.line (.lockout .timeout)).raise
        { kind := .reservationTimeout, line := some c.line, bearer := some b, detail := some c.reference }
    else s
  | .unavailable _ | .free | .heldIn _ | .heldMove | .active _ | .guarded _ _ _ | .blocked _ => s

/-- RESERVATION_TIMER_EXPIRY (03, R62). -/
def execReservationTimerExpiry (t : Time) (b : BearerNo) (s : State) : Host.Outcome State Fault Refusal :=
  event t (fun s => s.takeReservationExpiry b) s

/-- The expiry of a guard timer: BLOCKED with a pending block, FREE without (02, R38). -/
def State.takeGuardExpiry (s : State) (b : BearerNo) : State :=
  match (s.bearer b).state with
  | .guarded _ expiry pendingBlock =>
    if s.due expiry then
      (s.checkParity [.bearer b]).putBearer b (if pendingBlock then .blocked .maintenance else .free)
    else s
  | .unavailable _ | .free | .heldOut _ _ _ | .heldIn _ | .heldMove | .active _ | .blocked _ => s

/-- GUARD_TIMER_EXPIRY (02, R38). -/
def execGuardTimerExpiry (t : Time) (b : BearerNo) (s : State) : Host.Outcome State Fault Refusal :=
  event t (fun s => s.takeGuardExpiry b) s

/-- The expiry of a line's entry in the waiting queue, the wait limit being read afresh (03, R56). -/
def State.takeWaitExpiry (s : State) (l : LineNo) : State :=
  match s.waiting.find? (fun e => e.line == l) with
  | some e => if s.waitExpired e then s.expireEntry l else s
  | none => s

/-- WAIT_LIMIT_EXPIRY (03, R56). -/
def execWaitLimitExpiry (t : Time) (l : LineNo) (s : State) : Host.Outcome State Fault Refusal :=
  event t (fun s => s.takeWaitExpiry l) s

/-! ### Blocking (02, R40 and R41) -/

/-- BLOCK_BEARER in SERVICE (02, R40). -/
def State.blockBearer (s : State) (p : Port) (byte1 : Byte) (b : BearerNo) : State :=
  let s := s.checkParity [.bearer b]
  match (s.bearer b).state with
  | .free => (s.putBearer b (.blocked .maintenance)).done p byte1 0x21
  | .guarded reference expiry false => (s.amendBearer b (.guarded reference expiry true)).done p byte1 0x21
  | .guarded _ _ true => s.done p byte1 0x21
  | .unavailable _ | .heldOut _ _ _ | .heldIn _ | .heldMove | .active _ | .blocked _ => s.refuseWith p byte1 0x21 .busy

/-- A BLOCK_BEARER record (08, R142). -/
def State.takeBlock (s : State) (p : Port) (bearer : Byte) : State :=
  s.request p bearer 0x21 (bearerOf bearer) (fun s b => s.blockBearer p bearer b)

/-- BLOCK_BEARER (02, R40). -/
def execBlockBearer (t : Time) (p : Port) (bearer : Byte) (s : State) : Host.Outcome State Fault Refusal :=
  event t (fun s => s.takeBlock p bearer) s

/-- UNBLOCK_BEARER in SERVICE (02, R41). -/
def State.unblockBearer (s : State) (p : Port) (byte1 : Byte) (b : BearerNo) : State :=
  let s := s.checkParity [.bearer b]
  match (s.bearer b).state with
  | .blocked .maintenance => (s.putBearer b .free).done p byte1 0x22
  | .guarded reference expiry true => (s.amendBearer b (.guarded reference expiry false)).done p byte1 0x22
  | .unavailable true => (s.amendBearer b (.unavailable false)).done p byte1 0x22
  | .blocked .far | .guarded _ _ false | .unavailable false | .free | .heldOut _ _ _ | .heldIn _ | .heldMove | .active _ =>
    s.refuseWith p byte1 0x22 .notBlocked

/-- An UNBLOCK_BEARER record (08, R142). -/
def State.takeUnblock (s : State) (p : Port) (bearer : Byte) : State :=
  s.request p bearer 0x22 (bearerOf bearer) (fun s b => s.unblockBearer p bearer b)

/-- UNBLOCK_BEARER (02, R41). -/
def execUnblockBearer (t : Time) (p : Port) (bearer : Byte) (s : State) : Host.Outcome State Fault Refusal :=
  event t (fun s => s.takeUnblock p bearer) s

end Sys2Proof.Machine
end

