-- ==== Sys2Proof/Machine/LineTests.lean ====
section
/-! DEFINITION. The Test Sequencer's commands: the settle end, the measurement with its coding and classing, the head timeout,
the seizure indication, TEST_LINE and RESUME_TESTS (10). -/

namespace Sys2Proof.Machine

open Sys2Proof

/-! ### Coding and classing (10, R166) -/

/-- The codes of a measurement: ohms, units of 10 kilohms, volts (10, R166; log 27). -/
structure Codes where
  ohms : Nat
  insulation : Nat
  volts : Nat
  deriving DecidableEq, Repr

/-- The coding of the head's three values, each truncated and saturated (10, R166). -/
def codesOf (ohms insulationOhms millivolts : Nat) : Codes where
  ohms := min ohms 10000
  insulation := min (insulationOhms / 10000) 255
  volts := min (millivolts / 1000) 250

/-- The outcome is classed from the codes (10, R166). -/
def Codes.outcome (c : Codes) : TestOutcome :=
  if c.insulation < 2 ∨ 50 < c.volts ∨ c.ohms < 2000 then .faulty
  else if c.insulation < 15 ∨ 10 < c.volts then .marginal
  else .good

/-! ### The end of a test -/

/-- The test record is removed: the timer with it, and the test relay is released (10, R162). -/
def State.dropTest (s : State) : State :=
  { s with testing := { s.testing with test := none } }

/-- A line leaves TESTING for the state it came from (10, R168 and R169). -/
def State.leaveTest (s : State) (l : LineNo) : State :=
  match (s.line l).state with
  | .testing none => s.enterIdle l
  | .testing (some c) => s.putLine l (.parked c)
  | .parked _ | .idle | .waiting | .originating _ | .ringing _ | .connected _ | .lockout _ => s

/-- TEST_RESULT goes to both ports for a routine test, to the requesting port for a demand test (10, R167, step 4). -/
def State.sendResult (s : State) (k : TestKind) (r : Record) : State :=
  match k with
  | .routine => s.sendBoth r
  | .demand p => s.send p r

/-- The last test outcome of a line. -/
def State.setOutcome (s : State) (l : LineNo) (o : TestOutcome) : State :=
  s.updLine l (fun r => { r with lastOutcome := some o })

/-! ### Settle end and measurement -/

/-- The settle timer's expiry: the measurement is asked for and the head timeout starts (10, R165). -/
def State.takeSettleEnd (s : State) : State :=
  match s.testing.test with
  | some r =>
    if r.phase = .settling ∧ s.due r.timer then
      { s with testing := { s.testing with
        test := some { r with phase := .measuring, timer := s.now + sec (s.param .headTimeout) } } }
    else s
  | none => s

/-- SETTLE_END (10, R165). -/
def execSettleEnd (t : Time) (s : State) : Host.Outcome State Fault Refusal :=
  event t (fun s => s.takeSettleEnd) s

/-- The fault count after an outcome (10, R167, step 2). -/
def faultCountAfter (count : Nat) : TestOutcome → Nat
  | .faulty => min 5 (count + 1)
  | .good => 0
  | .marginal => 0
  | .aborted => count
  | .headTimeout => count

/-- The line leaves TESTING for the state that its outcome gives (10, R167, step 2). -/
def State.resultState (s : State) (l : LineNo) (o : TestOutcome) : State :=
  match (s.line l).state with
  | .testing none =>
    if o = .faulty ∧ s.param .parkThreshold ≤ (s.line l).faultCount then
      (s.putLine l (.parked .fault)).raise { kind := .lineFault, line := some l }
    else s.enterIdle l
  | .testing (some .fault) => if o = .faulty then s.putLine l (.parked .fault) else s.enterIdle l
  | .testing (some c) => s.putLine l (.parked c)
  | .parked _ | .idle | .waiting | .originating _ | .ringing _ | .connected _ | .lockout _ => s

/-- A measurement taken in MEASURING completes the test (10, R167). -/
def State.complete (s : State) (r : TestRecord) (c : Codes) : State :=
  let l := r.line
  let s := s.checkParity [.line l]
  let s := { s with testing := { s.testing with timeoutRun := 0, test := none } }
  let s := s.updLine l (fun x => { x with faultCount := faultCountAfter x.faultCount c.outcome })
  let s := s.resultState l c.outcome
  let s := s.updLine l (fun x => { x with
    lastOutcome := some c.outcome, testDue := s.now + hours (s.param .sweepPeriod) })
  (s.sendResult r.kind (testResultRecord l c.outcome c.ohms c.insulation c.volts)).callChoice

/-- A measurement; it is ignored without a test in MEASURING (10, R165). -/
def State.takeMeasurement (s : State) (c : Codes) : State :=
  match s.testing.test with
  | some r => if r.phase = .measuring then s.complete r c else s
  | none => s

/-- MEASUREMENT (10, R167). -/
def execMeasurement (t : Time) (ohms insulationOhms millivolts : Nat) (s : State) : Host.Outcome State Fault Refusal :=
  event t (fun s => s.takeMeasurement (codesOf ohms insulationOhms millivolts)) s

/-! ### Head timeout -/

/-- The timeout run gains 1; the second in a row takes the head out of service (10, R168, step 4). -/
def Testing.timedOut (x : Testing) : Testing :=
  if x.timeoutRun = 0 then { x with timeoutRun := 1 } else { x with timeoutRun := 0, inService := false }

/-- The head timeout of a test (10, R168). -/
def State.headTimedOut (s : State) (r : TestRecord) : State :=
  let l := r.line
  let s := (s.checkParity [.line l]).dropTest.leaveTest l
  let s := (s.setOutcome l .headTimeout).raise { kind := .testHead, line := some l }
  let s := s.sendResult r.kind (testResultRecord l .headTimeout 0 0 0)
  { s with testing := s.testing.timedOut }.callChoice

/-- The head timer's expiry in MEASURING. -/
def State.takeHeadTimeout (s : State) : State :=
  match s.testing.test with
  | some r => if r.phase = .measuring ∧ s.due r.timer then s.headTimedOut r else s
  | none => s

/-- HEAD_TIMEOUT (10, R168). -/
def execHeadTimeout (t : Time) (s : State) : Host.Outcome State Fault Refusal :=
  event t (fun s => s.takeHeadTimeout) s

/-! ### Aborts (10, R169) -/

/-- Steps 3 and 4 of R169, and the outcome of step 1. -/
def State.reportAbort (s : State) (r : TestRecord) : State :=
  ((s.setOutcome r.line .aborted).sendResult r.kind (testResultRecord r.line .aborted 0 0 0)).callChoice

/-- The head's seizure indication, in either phase (10, R165 and R169). -/
def State.takeSeizure (s : State) : State :=
  match s.testing.test with
  | some r =>
    let l := r.line
    let s := (s.checkParity [.line l]).dropTest
    let s := s.updLine l (fun x => { x with
      loop := .closed, intervalStart := s.now, run := .zero, longOpen := false })
    (s.leaveTest l).reportAbort r
  | none => s

/-- SEIZURE_INDICATION (10, R169). -/
def execSeizureIndication (t : Time) (s : State) : Host.Outcome State Fault Refusal :=
  event t (fun s => s.takeSeizure) s

/-- A test aborted by a SEIZE_IN for its line; the line does not pass through IDLE (04, R72, step 1; 10, R169). -/
def State.abortForSeize (s : State) (l : LineNo) : State :=
  match s.testing.test with
  | some r => if r.line = l then s.dropTest.reportAbort r else s
  | none => s

/-! ### Test due -/

/-- A line's test due time is reached: a test is chosen (10, R163). -/
def State.takeTestDue (s : State) (l : LineNo) : State :=
  if s.due (s.line l).testDue then s.callChoice else s

/-- TEST_DUE (10, R163). -/
def execTestDue (t : Time) (l : LineNo) (s : State) : Host.Outcome State Fault Refusal :=
  event t (fun s => s.takeTestDue l) s

/-! ### Requests (10, R164 and R168) -/

/-- A line that TEST_LINE may name: IDLE or PARKED (10, R164). -/
def LineState.listable : LineState → Bool
  | .idle => true
  | .parked _ => true
  | .waiting | .originating _ | .ringing _ | .connected _ | .lockout _ | .testing _ => false

/-- The checks of TEST_LINE, in their order (10, R164). -/
def State.testRefusal (s : State) (l : LineNo) : Option ReplyCause :=
  if (s.line l).state = .parked .unfitted then some .unfitted
  else if !s.testing.inService then some .headOut
  else if !(s.line l).state.listable then some .busy
  else if s.testing.demand.any (fun e => e.line == l) then some .duplicate
  else if Config.demandCapacity ≤ s.testing.demand.length then some .listFull
  else none

/-- TEST_LINE in SERVICE (10, R164). -/
def State.testLine (s : State) (p : Port) (line : Byte) (l : LineNo) : State :=
  let s := s.checkParity [.line l]
  match s.testRefusal l with
  | some c => s.refuseWith p line 0x24 c
  | none =>
    let e : DemandEntry := { line := l, port := p }
    let s := { s with testing := { s.testing with demand := s.testing.demand ++ [e] } }
    s.callChoice.done p line 0x24

/-- A TEST_LINE record (08, R142). -/
def State.takeTestLine (s : State) (p : Port) (line : Byte) : State :=
  s.request p line 0x24 (lineOf line) (fun s l => s.testLine p line l)

/-- TEST_LINE (10, R164). -/
def execTestLine (t : Time) (p : Port) (line : Byte) (s : State) : Host.Outcome State Fault Refusal :=
  event t (fun s => s.takeTestLine p line) s

/-- A RESUME_TESTS record: the head is IN_SERVICE, the timeout run 0, and a test is chosen (10, R168). -/
def State.takeResumeTests (s : State) (p : Port) (b1 : Byte) : State :=
  s.request p b1 0x25 (some ()) (fun s _ =>
    ({ s with testing := { s.testing with inService := true, timeoutRun := 0 } }.callChoice).done p b1 0x25)

/-- RESUME_TESTS (10, R168). -/
def execResumeTests (t : Time) (p : Port) (b1 : Byte) (s : State) : Host.Outcome State Fault Refusal :=
  event t (fun s => s.takeResumeTests p b1) s

end Sys2Proof.Machine
end

