-- ==== Sys2Proof/Machine/CallControl.lean ====
section
/-! DEFINITION. The head-end's call-control records: SEIZE_IN, ACCEPT, RELEASE, REFUSE and LOCKOUT (03, R57 to R69; 04, R71, R72
and R83). -/

namespace Sys2Proof.Machine

open Sys2Proof

/-! ### Matching (03, R59) -/

/-- A record matches a bearer that holds its reference (03, R59): the bearer is then in HELD_OUT, HELD_IN, ACTIVE or GUARD. -/
def State.matching (s : State) (b : BearerNo) (reference : Word) : Bool :=
  (s.bearer b).state.reference? == some reference

/-- A stale or out-of-place record is ignored and counted: the record's bearer field, the received frame number, the reference
(03, R59; 11, R174). -/
def State.stale (s : State) (b : BearerNo) (reference : Word) : State :=
  s.raise { kind := .staleMessage, bearer := some b, frame := s.frameNumber, detail := some reference }

/-- The caller has given up (04, R83). -/
def State.abandon (s : State) (b : BearerNo) (c : Call) : State :=
  (((s.removeRing c.line).guardCall b).enterIdle c.line).serveRings

/-! ### ACCEPT -/

/-- ACCEPT from the link (03, R60 and R64). -/
def State.accept (s : State) (b : BearerNo) (reference : Word) : State :=
  let s := s.checkParity everyBearer
  if s.matching b reference then
    match (s.bearer b).state with
    | .heldOut c _ _ => s.connect b c
    | .guarded _ _ _ => s.sendCall (releaseRecord none b reference .late)
    | .unavailable _ | .free | .heldIn _ | .heldMove | .active _ | .blocked _ => s.stale b reference
  else s.stale b reference

/-- An ACCEPT record (08, R142). -/
def State.takeAccept (s : State) (p : Port) (b1 bearer : Byte) (reference : Word) : State :=
  s.callControl p b1 0x12 (bearerOf bearer) (fun s b => s.accept b reference)

/-- ACCEPT (03, R60). -/
def execAccept (t : Time) (p : Port) (b1 bearer : Byte) (reference : Word) (s : State) :
    Host.Outcome State Fault Refusal :=
  event t (fun s => s.takeAccept p b1 bearer reference) s

/-! ### RELEASE and REFUSE -/

/-- RELEASE or REFUSE from the link (03, R59, R61, R64 and R68; 04, R83). -/
def State.release (s : State) (b : BearerNo) (reference : Word) : State :=
  let s := s.checkParity everyBearer
  if s.matching b reference then
    match (s.bearer b).state with
    | .heldOut c _ _ => (s.guardCall b).putLine c.line (.lockout .refused)
    | .heldIn c => s.abandon b c
    | .active c => (s.guardCall b).dropLine c.line .farClear
    | .guarded _ _ _ => s
    | .unavailable _ | .free | .heldMove | .blocked _ => s.stale b reference
  else s.stale b reference

/-- A RELEASE or REFUSE record; its cause is not examined (08, R142; 03, R59). -/
def State.takeRelease (s : State) (p : Port) (b1 kind bearer : Byte) (reference : Word) : State :=
  s.callControl p b1 kind (bearerOf bearer) (fun s b => s.release b reference)

/-- RELEASE (03, R59). -/
def execRelease (t : Time) (p : Port) (b1 bearer : Byte) (reference _cause : Word) (s : State) :
    Host.Outcome State Fault Refusal :=
  event t (fun s => s.takeRelease p b1 0x14 bearer reference) s

/-- REFUSE, taken exactly as a RELEASE (03, R59). -/
def execRefuse (t : Time) (p : Port) (b1 bearer : Byte) (reference _cause : Word) (s : State) :
    Host.Outcome State Fault Refusal :=
  event t (fun s => s.takeRelease p b1 0x15 bearer reference) s

/-! ### LOCKOUT -/

/-- LOCKOUT from the link (03, R64 and R69; 04, R83). -/
def State.withdraw (s : State) (b : BearerNo) (reference : Word) : State :=
  let s := s.checkParity everyBearer
  if s.matching b reference then
    match (s.bearer b).state with
    | .heldOut c _ _ => (s.guardCall b).putLine c.line (.lockout .withdrawn)
    | .heldIn c => s.abandon b c
    | .active c => (s.guardCall b).putLine c.line (.lockout .withdrawn)
    | .guarded _ _ _ => s
    | .unavailable _ | .free | .heldMove | .blocked _ => s.stale b reference
  else s.stale b reference

/-- A LOCKOUT record (08, R142). -/
def State.takeLockout (s : State) (p : Port) (b1 bearer : Byte) (reference : Word) : State :=
  s.callControl p b1 0x16 (bearerOf bearer) (fun s b => s.withdraw b reference)

/-- LOCKOUT (03, R69). -/
def execLockout (t : Time) (p : Port) (b1 bearer : Byte) (reference : Word) (s : State) :
    Host.Outcome State Fault Refusal :=
  event t (fun s => s.takeLockout p b1 bearer reference) s

/-! ### SEIZE_IN (04, R71 and R72) -/

/-- The line test (04, R71, test 2). -/
def LineState.seizeTest : LineState → Option ClearCause
  | .idle => none
  | .testing none => none
  | .testing (some _) => some .lineParked
  | .parked _ => some .lineParked
  | .waiting | .originating _ | .ringing _ | .connected _ | .lockout _ => some .lineBusy

/-- The cause of a refusal that names a bearer in HELD_IN, ACTIVE, GUARD or BLOCKED (02, R32). At or above K' in COUNTDOWN it is one of
two, and which is free: BEARER_BUSY by R32 of 02 and R71 of 04, RETIRING by R133 of 07 (log 44). -/
def State.heldCause (s : State) (b : BearerNo) : ClearCause :=
  if s.inCountdown && decide (s.limit ≤ b.val) && Config.seizeRetiring s.now b then .retiring else .bearerBusy

/-- The bearer test, below the admission limit or not, with the cause for a bearer that a call, a guard or a block holds (02, R32; 04, R71,
test 3). -/
def BearerState.seizeTest (below : Bool) (held : ClearCause) : BearerState → Option ClearCause
  | .free => if below then none else some .retiring
  | .heldOut _ _ _ => if below then none else some .retiring
  | .unavailable _ => some .bearerUnavailable
  | .heldMove => some .bearerBusy
  | .heldIn _ | .active _ | .guarded _ _ _ | .blocked _ => some held

/-- The reference test: 0, odd or held fails (02, R35; 04, R71, test 1). -/
def State.badReference (s : State) (reference : Word) : Bool :=
  reference == 0 || reference.getLsbD 0 || (s.holder reference).isSome

/-- The three tests in their order; the first that fails decides (04, R71). -/
def State.seizeTest (s : State) (l : LineNo) (b : BearerNo) (reference : Word) : Option ClearCause :=
  if s.badReference reference then some .badReference
  else (s.line l).state.seizeTest.or ((s.bearer b).state.seizeTest (decide (b.val < s.limit)) (s.heldCause b))

/-- Glare is settled for the head-end: the claim is dropped, with its relocation pair if an earlier step-down has moved it here (05, R104;
log 17), and its line re-enters the waiting queue at the front of its section (03, R57 and R65). Answers the entry. -/
def State.settleGlare (s : State) (b : BearerNo) : State × Option WaitEntry :=
  match (s.bearer b).state with
  | .heldOut c _ requested =>
    let e : WaitEntry := { line := c.line, cls := c.cls, joined := requested }
    let s := s.putLine c.line .waiting
    ({ s.dropPairs b with waiting := joinFront s.waiting e }, some e)
  | .unavailable _ | .free | .heldIn _ | .heldMove | .active _ | .guarded _ _ _ | .blocked _ => (s, none)

/-- Steps 2 and 3 of R57: the queue is served, and an entry still there at its wait limit expires at once (03, R57). -/
def State.reenter (s : State) (entry : Option WaitEntry) : State :=
  match entry with
  | none => s
  | some e =>
    let s := s.serveQueue
    if s.waiting.contains e && s.waitExpired e then s.expireEntry e.line else s

/-- A SEIZE_IN that passes is taken (04, R72, steps 1 to 5). -/
def State.takeSeize (s : State) (l : LineNo) (b : BearerNo) (reference : Word) : State :=
  let s := s.abortForSeize l
  let g := s.settleGlare b
  let call : Call :=
    { line := l, reference := reference, direction := .incoming, cls := (g.1.line l).cls, target := none }
  let s := g.1.putBearer b (.heldIn call)
  let s := s.putLine l (.ringing b)
  (s.ringLine l).reenter g.2

/-- SEIZE_IN from the link (04, R71). -/
def State.seize (s : State) (l : LineNo) (b : BearerNo) (reference : Word) : State :=
  let s := (s.checkParity everyBearer).checkParity [.line l]
  match s.seizeTest l b reference with
  | some c => s.sendCall (refuseRecord l b reference c)
  | none => s.takeSeize l b reference

/-- The examined fields of SEIZE_IN (08, R139). -/
def seizeFields (line bearer : Byte) : Option (LineNo × BearerNo) :=
  (lineOf line).bind (fun l => (bearerOf bearer).map (fun b => (l, b)))

/-- A SEIZE_IN record (08, R142). -/
def State.takeSeizeIn (s : State) (p : Port) (line bearer : Byte) (reference : Word) : State :=
  s.callControl p line 0x11 (seizeFields line bearer) (fun s x => s.seize x.1 x.2 reference)

/-- SEIZE_IN (04, R71). -/
def execSeizeIn (t : Time) (p : Port) (line bearer : Byte) (reference : Word) (s : State) :
    Host.Outcome State Fault Refusal :=
  event t (fun s => s.takeSeizeIn p line bearer reference) s

end Sys2Proof.Machine
end

