-- ==== Sys2Proof/Machine/Lines.lean ====
section
/-! DEFINITION. The Line Supervisor's commands: loop samples with their debounce, digits, flashes, disconnects and on-hooks,
ring-trip, and the provisioning of lines (01, sections 1.4 to 1.8; 03, R63, R66 and R67; 04, R81). -/

namespace Sys2Proof.Machine

open Sys2Proof

/-! ### Debounce (01, R8) -/

/-- The line record after a sample: steps 1 to 4 of R8. -/
def LineRecord.debounce (r : LineRecord) (now : Time) (level : Loop) : LineRecord :=
  if level = r.loop then { r with run := .zero }
  else
    match r.run with
    | .zero => { r with run := .one now }
    | .one start => { r with run := .two start }
    | .two start => { r with loop := level, intervalStart := start, run := .zero, longOpen := false }

/-- The sample completes a run: step 4 of R8. It answers the length of the interval that the transition ends. -/
def LineRecord.transition (r : LineRecord) (level : Loop) : Option Time :=
  if level = r.loop then none
  else
    match r.run with
    | .zero => none
    | .one _ => none
    | .two start => some (start - r.intervalStart)

/-- The debounce step on a line. Only an accepted transition changes the record; the other steps change what stands beside it
(01, R2). -/
def State.debounceLine (s : State) (l : LineNo) (level : Loop) : State :=
  match (s.line l).transition level with
  | none => s.updSupervision l (fun r => r.debounce s.now level)
  | some _ => s.updLine l (fun r => r.debounce s.now level)

/-! ### Events given to the Bearer Controller and the Ring Scheduler -/

/-- A digit event (01, R13; 03, R66): DIGIT with the accumulator's value, which then becomes 0. -/
def State.giveDigit (s : State) (l : LineNo) (b : BearerNo) : State :=
  let value := (s.line l).digits
  let s := s.sendCall (digitRecord l b (((s.bearer b).state.reference?).getD 0) value)
  s.updLine l (fun r => { r with digits := 0 })

/-- A flash (01, R14; 03, R66): a pending digit is given first. -/
def State.giveFlash (s : State) (l : LineNo) (b : BearerNo) : State :=
  let s := if 0 < (s.line l).digits then s.giveDigit l b else s
  s.sendCall (flashRecord l b (((s.bearer b).state.reference?).getD 0))

/-- The subscriber's clearing of a call (03, R63 and R67): the bearer enters GUARD, RELEASE with cause SUBSCRIBER is passed to
the link, the line goes to IDLE. -/
def State.clearCall (s : State) (l : LineNo) (b : BearerNo) : State :=
  let reference := ((s.bearer b).state.reference?).getD 0
  let s := s.guardCall b
  let s := s.sendCall (releaseRecord (some l) b reference .subscriber)
  s.enterIdle l

/-- An answer (04, R81): the bearer enters ACTIVE, the line CONNECTED, ANSWER is passed to the link, and the ring entry leaves;
the ring queue is served. -/
def State.answer (s : State) (l : LineNo) (b : BearerNo) : State :=
  match (s.bearer b).state with
  | .heldIn c =>
    let s := s.connect b c
    let s := s.sendCall (answerRecord l b c.reference)
    s.stopRinging l
  | .unavailable _ | .free | .heldOut _ _ _ | .heldMove | .active _ | .guarded _ _ _ | .blocked _ => s

/-! ### Judgement of transitions and thresholds (01, R11 to R17) -/

/-- The length of the present interval at now. -/
def LineRecord.interval (r : LineRecord) (now : Time) : Time := now - r.intervalStart

/-- An accepted closure that ends an open interval of a CONNECTED line (01, R11). -/
def State.closeConnected (s : State) (l : LineNo) (b : BearerNo) (length : Time) : State :=
  if ms 30 ≤ length ∧ length ≤ ms 120 then s.updLine l (fun r => { r with digits := min 11 (r.digits + 1) })
  else if ms 300 ≤ length ∧ length < ms 800 then (s.checkParity [.bearer b]).giveFlash l b
  else s

/-- An accepted closure, judged by the line's state (01, R11, R16 and R19). -/
def State.judgeClosure (s : State) (l : LineNo) (length : Time) : State :=
  match (s.line l).state with
  | .connected b => s.closeConnected l b length
  | .idle => s.offHook l
  | .ringing b => (s.checkParity [.bearer b]).answer l b
  | .parked _ | .waiting | .originating _ | .lockout _ | .testing _ => s

/-- An accepted transition is judged while the unit is in SERVICE; an opening gives no event in any state (01, R16 and R24). -/
def State.judgeTransition (s : State) (l : LineNo) (ended : Option Time) : State :=
  match ended with
  | none => s
  | some length => if s.inService ∧ (s.line l).loop = .closed then s.judgeClosure l length else s

/-- An open interval has reached 800 ms with the long-open mark clear (01, R10, R12 and R16). -/
def LineRecord.longOpening (r : LineRecord) (now : Time) : Bool :=
  r.loop == .opened && !r.longOpen && decide (ms 800 ≤ r.interval now)

/-- The threshold of R12: a disconnect. -/
def LineRecord.disconnectDue (r : LineRecord) (now : Time) : Bool :=
  r.state.isConnected && r.longOpening now

/-- The threshold of R13: the end of a digit. -/
def LineRecord.digitDue (r : LineRecord) (now : Time) : Bool :=
  r.state.isConnected && r.loop == .closed && decide (0 < r.digits) && decide (ms 250 ≤ r.interval now)

/-- A state that takes an on-hook at 800 ms outside CONNECTED (01, R16). -/
def LineState.takesOnHook : LineState → Bool
  | .waiting => true
  | .originating _ => true
  | .lockout _ => true
  | .parked _ | .idle | .ringing _ | .connected _ | .testing _ => false

/-- The threshold of R16: an on-hook. -/
def LineRecord.onHookDue (r : LineRecord) (now : Time) : Bool :=
  r.state.takesOnHook && r.longOpening now

/-- A disconnect (01, R12; 03, R67). -/
def State.takeDisconnect (s : State) (l : LineNo) (b : BearerNo) : State :=
  let s := s.updLine l (fun r => { r with longOpen := true, digits := 0 })
  (s.checkParity [.bearer b]).clearCall l b

/-- The long-open mark is set when the threshold is taken (01, R16). -/
def State.markLongOpen (s : State) (l : LineNo) : State :=
  s.updSupervision l (fun r => { r with longOpen := true })

/-- An on-hook outside CONNECTED (01, R16; 03, R54 and R63). -/
def State.takeOnHook (s : State) (l : LineNo) : State :=
  match (s.line l).state with
  | .waiting => ((s.markLongOpen l).leaveQueue l).enterIdle l
  | .originating b => ((s.markLongOpen l).checkParity [.bearer b]).clearCall l b
  | .lockout _ => (s.markLongOpen l).enterIdle l
  | .parked _ | .idle | .ringing _ | .connected _ | .testing _ => s

/-- The thresholds of time, tested at every sample after the debounce step (01, R10). -/
def State.judgeThresholds (s : State) (l : LineNo) : State :=
  let r := s.line l
  if s.inService then
    match r.state with
    | .connected b =>
      if r.disconnectDue s.now then s.takeDisconnect l b
      else if r.digitDue s.now then (s.checkParity [.bearer b]).giveDigit l b
      else s
    | .waiting | .originating _ | .lockout _ => if r.onHookDue s.now then s.takeOnHook l else s
    | .parked _ | .idle | .ringing _ | .testing _ => s
  else s

/-! ### The loop sample -/

/-- Samples are taken at whole multiples of 5 ms since power-on reset, while the line's sampling is running (01, R8 and R9). -/
def State.samples (s : State) (l : LineNo) : Bool :=
  s.onGrid (ms 5) && !s.samplingHeld l

/-- A loop sample: the debounce step, the judgement of an accepted transition, and the thresholds (01, R8 to R16). -/
def State.sampleLine (s : State) (l : LineNo) (level : Loop) : State :=
  if s.samples l then
    let s := s.checkParity [.line l]
    let ended := (s.line l).transition level
    ((s.debounceLine l level).judgeTransition l ended).judgeThresholds l
  else s

/-- What the record will be after the sample's debounce step. -/
def State.sampled (s : State) (l : LineNo) (level : Loop) : LineRecord :=
  (s.line l).debounce s.now level

/-- LOOP_SAMPLE (01, R8). -/
def execLoopSample (t : Time) (l : LineNo) (level : Loop) (s : State) : Host.Outcome State Fault Refusal :=
  event t (fun s => s.sampleLine l level) s

/-- ACCEPTED_TRANSITION (01, R8, step 4): the sample that completes a run of three (log 4). -/
def execAcceptedTransition (t : Time) (l : LineNo) (level : Loop) (s : State) : Host.Outcome State Fault Refusal :=
  event t (fun s => if ((s.line l).transition level).isSome then s.sampleLine l level else s) s

/-- DIGIT_END (01, R13): the sample at which the closed interval has reached 250 ms with 1-11 counted (log 4). -/
def execDigitEnd (t : Time) (l : LineNo) (level : Loop) (s : State) : Host.Outcome State Fault Refusal :=
  event t (fun s => if s.inService && (s.sampled l level).digitDue s.now then s.sampleLine l level else s) s

/-- DISCONNECT (01, R12): the sample at which a CONNECTED line's open interval has reached 800 ms (log 4). -/
def execDisconnect (t : Time) (l : LineNo) (level : Loop) (s : State) : Host.Outcome State Fault Refusal :=
  event t (fun s => if s.inService && (s.sampled l level).disconnectDue s.now then s.sampleLine l level else s) s

/-- ON_HOOK (01, R16): the sample at which the open interval of a WAITING, ORIGINATING or LOCKOUT line has reached 800 ms
(log 4). -/
def execOnHook (t : Time) (l : LineNo) (level : Loop) (s : State) : Host.Outcome State Fault Refusal :=
  event t (fun s => if s.inService && (s.sampled l level).onHookDue s.now then s.sampleLine l level else s) s

/-! ### Ring-trip (01, R19) -/

/-- The supervision of a line at an answer by ring-trip (01, R19). -/
def LineRecord.tripped (r : LineRecord) (now : Time) : LineRecord :=
  { r with loop := .closed, intervalStart := now, run := .zero, longOpen := false }

/-- A sample that shows ring-trip asserted answers a RINGING line whose ring relay is on (01, R19). -/
def State.takeRingTrip (s : State) (l : LineNo) : State :=
  if s.onGrid (ms 5) && s.inService && s.ringRelay l then
    let s := s.checkParity [.line l]
    match (s.line l).state with
    | .ringing b => ((s.updLine l (fun r => r.tripped s.now)).checkParity [.bearer b]).answer l b
    | .parked _ | .idle | .waiting | .originating _ | .connected _ | .lockout _ | .testing _ => s
  else s

/-- RING_TRIP (01, R19). -/
def execRingTrip (t : Time) (l : LineNo) (s : State) : Host.Outcome State Fault Refusal :=
  event t (fun s => s.takeRingTrip l) s

/-! ### Provisioning (01, R21 and R22) -/

/-- The fields of PROVISION_LINE: line, in-service, class (08, R139). -/
def provisionFields (line inService cls : Byte) : Option (LineNo × Bool × CallClass) :=
  match lineOf line with
  | none => none
  | some l =>
    if inService.toNat ≤ 1 ∧ cls.toNat ≤ 1 then
      some (l, inService == 1, if cls = 1 then .priority else .ordinary)
    else none

/-- The in-service value and the class are written (01, R22). -/
def State.writeProvision (s : State) (l : LineNo) (inService : Bool) (c : CallClass) : State :=
  s.updLine l (fun r => { r with inService := inService, cls := c })

/-- A line put back in service: its consecutive-fault count is set to 0 and it enters IDLE, from which a closed loop makes an
off-hook arrival at once (01, R18 and R22). -/
def State.restore (s : State) (l : LineNo) : State :=
  (s.updLine l (fun r => { r with faultCount := 0 })).enterIdle l

/-- PROVISION_LINE in SERVICE (01, R21 and R22). -/
def State.provision (s : State) (p : Port) (line : Byte) (l : LineNo) (inService : Bool) (c : CallClass) : State :=
  let s := s.checkParity [.line l]
  match (s.line l).state with
  | .parked .unfitted => s.refuseWith p line 0x20 .unfitted
  | .idle =>
    let s := s.writeProvision l inService c
    (if inService then s else s.putLine l (.parked .outOfService)).done p line 0x20
  | .parked .outOfService | .parked .fault =>
    let s := s.writeProvision l inService c
    (if inService then s.restore l else s.putLine l (.parked .outOfService)).done p line 0x20
  | .waiting | .originating _ | .ringing _ | .connected _ | .lockout _ | .testing _ => s.refuseWith p line 0x20 .busy

/-- A PROVISION_LINE record (08, R142). -/
def State.takeProvision (s : State) (p : Port) (line inService cls : Byte) : State :=
  s.request p line 0x20 (provisionFields line inService cls) (fun s x => s.provision p line x.1 x.2.1 x.2.2)

/-- PROVISION_LINE (01, R21). -/
def execProvisionLine (t : Time) (p : Port) (line inService cls : Byte) (s : State) : Host.Outcome State Fault Refusal :=
  event t (fun s => s.takeProvision p line inService cls) s

end Sys2Proof.Machine
end

