-- ==== Sys2Proof/Machine/Params.lean ====
section
/-! DEFINITION. SET_PARAM: the parameter that an id names, the value written, and the reply (08, R151; 07, R126; 11, R174). -/

namespace Sys2Proof.Machine

open Sys2Proof

/-- What an id of R151 names. -/
inductive ParamName where
  | value (p : Param)
  | routing (k : ErrorKind)
  deriving DecidableEq, Repr

/-- The parameter of an id: 1-21 a value, 64-78 the routing of kinds 1-15 (08, R151). -/
def paramOf (ident : Byte) : Option ParamName :=
  match allParams.find? (fun p => p.index.val + 1 == ident.toNat) with
  | some p => some (.value p)
  | none => (allKinds.find? (fun k => k.code + 63 == ident.toNat)).map .routing

/-- A value clamped to a range (08, R151, step 1). -/
def clampTo (range : Nat × Nat) (v : Nat) : Nat := max range.1 (min range.2 v)

/-- A threshold clamped against its partner (07, R126). -/
def State.clampPartner (s : State) (p : Param) (v : Nat) : Nat :=
  match p with
  | .upR => if s.param .downS ≤ v then s.param .downS - 1 else v
  | .downS => if v ≤ s.param .upR then s.param .upR + 1 else v
  | .upS => if s.param .downW ≤ v then s.param .downW - 1 else v
  | .downW => if v ≤ s.param .upS then s.param .upS + 1 else v
  | .waitLimit | .reservationTimeout | .guardTime | .ringLimit | .holdTime | .windowLength | .thresholdRobust
  | .thresholdStandard | .thresholdWide | .berWindow | .downRunLength | .upRunLength | .critical | .drainLimit
  | .sweepPeriod | .parkThreshold | .headTimeout => v

/-- The value written for a parameter (08, R151, steps 1 and 2). -/
def State.valueWritten (s : State) (p : Param) (asked : Nat) : Nat :=
  s.clampPartner p (clampTo p.range asked)

/-- The routing written for a kind: clamped to 0-3, then to the nearest the kind allows (08, R151, step 3; 11, R174). -/
def routingWritten (k : ErrorKind) (asked : Nat) : Routing :=
  k.nearestRouting (Routing.ofCode (min 3 asked))

/-- A parameter's value is written. -/
def State.writeParam (s : State) (p : Param) (v : Nat) : State :=
  { s with params := s.params.set p.index.val v }

/-- A kind's routing is written. -/
def State.writeRouting (s : State) (k : ErrorKind) (r : Routing) : State :=
  { s with errors := { s.errors with routings := s.errors.routings.set k.index.val r } }

/-- The reply of SET_PARAM: CLAMPED if a step changed the value, with the value written (08, R151). -/
def State.replyWritten (s : State) (p : Port) (ident : Byte) (asked : Word) (written : Nat) : State :=
  s.replyWith p (replyRecord ident 0x23 (if written = asked.toNat then .done else .clamped) (BitVec.ofNat 16 written))

/-- A change of the wait limit acts on the entries already waiting (03, R56). -/
def State.afterWrite (s : State) (p : Param) : State :=
  match p with
  | .waitLimit => s.expireQueue
  | .reservationTimeout | .guardTime | .ringLimit | .holdTime | .windowLength | .thresholdRobust | .thresholdStandard
  | .thresholdWide | .berWindow | .downW | .downS | .upR | .upS | .downRunLength | .upRunLength | .critical | .drainLimit
  | .sweepPeriod | .parkThreshold | .headTimeout => s

/-- SET_PARAM in SERVICE (08, R151). -/
def State.setParam (s : State) (p : Port) (ident : Byte) (asked : Word) (n : ParamName) : State :=
  match n with
  | .value q =>
    let written := s.valueWritten q asked.toNat
    ((s.writeParam q written).afterWrite q).replyWritten p ident asked written
  | .routing k =>
    let r := routingWritten k asked.toNat
    (s.writeRouting k r).replyWritten p ident asked r.code

/-- A SET_PARAM record (08, R142). -/
def State.takeSetParam (s : State) (p : Port) (ident : Byte) (value : Word) : State :=
  s.request p ident 0x23 (paramOf ident) (fun s n => s.setParam p ident value n)

/-- SET_PARAM (08, R151). -/
def execSetParam (t : Time) (p : Port) (ident : Byte) (value : Word) (s : State) : Host.Outcome State Fault Refusal :=
  event t (fun s => s.takeSetParam p ident value) s

end Sys2Proof.Machine
end

