-- ==== Sys2Proof/Machine/Queries.lean ====
section
/-! DEFINITION. The seven subjects of QUERY: each reads the state as it stands and answers with one status record (08, R150). -/

namespace Sys2Proof.Machine

open Sys2Proof

/-- A QUERY of an index in its subject's range is answered on the requesting port; reads names the records read, whose parity is
checked (08, R142 and R150). -/
def State.query {α : Type} (s : State) (p : Port) (index : Byte) (range : Option α) (reads : α → List RecordId)
    (answer : State → α → Record) : State :=
  s.request p index 0x2A range (fun s x =>
    let s := s.checkParity (reads x)
    s.replyWith p (answer s x))

/-- An index of at most a bound. -/
def indexUpTo (bound : Nat) (index : Byte) : Option Byte := if index.toNat ≤ bound then some index else none

/-- A QUERY LINE record (08, R150). -/
def State.takeQueryLine (s : State) (p : Port) (index : Byte) : State :=
  s.query p index (lineOf index) (fun l => [.line l]) State.lineStatus

/-- QUERY_LINE (08, R150). -/
def execQueryLine (t : Time) (p : Port) (index : Byte) (s : State) : Host.Outcome State Fault Refusal :=
  event t (fun s => s.takeQueryLine p index) s

/-- A QUERY BEARER record (02, R50). -/
def State.takeQueryBearer (s : State) (p : Port) (index : Byte) : State :=
  s.query p index (bearerOf index) (fun b => [.bearer b]) State.bearerStatus

/-- QUERY_BEARER (02, R50). -/
def execQueryBearer (t : Time) (p : Port) (index : Byte) (s : State) : Host.Outcome State Fault Refusal :=
  event t (fun s => s.takeQueryBearer p index) s

/-- A QUERY LINK record (06, R119). -/
def State.takeQueryLink (s : State) (p : Port) (index : Byte) : State :=
  s.query p index (indexUpTo 3 index) (fun _ => []) State.linkStatus

/-- QUERY_LINK (06, R119). -/
def execQueryLink (t : Time) (p : Port) (index : Byte) (s : State) : Host.Outcome State Fault Refusal :=
  event t (fun s => s.takeQueryLink p index) s

/-- A QUERY QUEUE record (03, R58). -/
def State.takeQueryQueue (s : State) (p : Port) (index : Byte) : State :=
  s.query p index (some index) (fun _ => []) State.queueStatus

/-- QUERY_QUEUE (03, R58). -/
def execQueryQueue (t : Time) (p : Port) (index : Byte) (s : State) : Host.Outcome State Fault Refusal :=
  event t (fun s => s.takeQueryQueue p index) s

/-- A QUERY ERRORS record (08, R150). -/
def State.takeQueryErrors (s : State) (p : Port) (index : Byte) : State :=
  s.query p index (indexUpTo 17 index) (fun _ => []) State.errorReport

/-- QUERY_ERRORS (08, R150). -/
def execQueryErrors (t : Time) (p : Port) (index : Byte) (s : State) : Host.Outcome State Fault Refusal :=
  event t (fun s => s.takeQueryErrors p index) s

/-- The value of a parameter as written, and its default (08, R151). -/
def State.paramValue (s : State) (ident : Byte) (n : ParamName) : Record :=
  match n with
  | .value p => paramRecord ident (s.param p) p.default
  | .routing k => paramRecord ident (s.routing k).code k.defaultRouting.code

/-- A QUERY PARAM record (08, R150). -/
def State.takeQueryParam (s : State) (p : Port) (index : Byte) : State :=
  s.query p index (paramOf index) (fun _ => []) (fun s n => s.paramValue index n)

/-- QUERY_PARAM (08, R150). -/
def execQueryParam (t : Time) (p : Port) (index : Byte) (s : State) : Host.Outcome State Fault Refusal :=
  event t (fun s => s.takeQueryParam p index) s

/-- A QUERY UNIT record (11, R173). -/
def State.takeQueryUnit (s : State) (p : Port) (index : Byte) : State :=
  s.query p index (indexUpTo 0 index) (fun _ => []) (fun s _ => s.unitReport)

/-- QUERY_UNIT (11, R173). -/
def execQueryUnit (t : Time) (p : Port) (index : Byte) (s : State) : Host.Outcome State Fault Refusal :=
  event t (fun s => s.takeQueryUnit p index) s

end Sys2Proof.Machine
end

