-- ==== Sys2Proof/Machine/Unit.lean ====
section
/-! DEFINITION. The Fault Recorder's commands: power-on reset, the end of START, RESTART_UNIT and CLEAR_ERRORS (11). -/

namespace Sys2Proof.Machine

open Sys2Proof

/-- POWER_ON_RESET (11, R171 and R172): the power-on values and steps 1 to 3 of the START sequence, whatever the unit was doing. -/
def execPowerOnReset (straps : Straps) (s : State) : Host.Outcome State Fault Refusal :=
  .next (s.powerOn straps).enterStart.finish

/-- The time of the START sequence from its entry to step 4, 50 ms (11, R172). -/
def startTime : Time := ms 50

/-- Step 4 of R172 may be taken: 50 ms after the entry to START, its steps 1 to 3 taken. -/
def State.startDone (s : State) : Bool :=
  s.unit.mode == .start && s.unit.startSteps && decide (s.unit.startTime + startTime ≤ s.now)

/-- The end-of-START check on one line: IDLE with the loop CLOSED goes to LOCKOUT with cause RESTART (01, R25). -/
def State.checkOffHook (s : State) (l : LineNo) : State :=
  if (s.line l).state = .idle ∧ (s.line l).loop = .closed then s.putLine l (.lockout .restart) else s

/-- The unit enters SERVICE (11, R172, step 4). -/
def State.enterService (s : State) : State :=
  let s := { s with unit := { s.unit with mode := .service, firstUpPending := true } }
  let s := allLines.foldl State.checkOffHook (s.checkParity everyLine)
  s.beginWindow.callChoice

/-- END_OF_START (11, R172). -/
def execEndOfStart (t : Time) (s : State) : Host.Outcome State Fault Refusal :=
  event t (fun s => if s.startDone then s.enterService else s) s

/-- A RESTART_UNIT record: a unit restart with cause REQUESTED, its reply DONE after the queues are emptied (11, R177; 08, R149). -/
def State.takeRestartUnit (s : State) (p : Port) (b1 : Byte) : State :=
  s.request p b1 0x28 (some ()) (fun s _ =>
    s.unitRestart .requested (fun s => s.send p (replyRecord b1 0x28 .done 0)))

/-- RESTART_UNIT (11, R177). -/
def execRestartUnit (t : Time) (p : Port) (b1 : Byte) (s : State) : Host.Outcome State Fault Refusal :=
  event t (fun s => s.takeRestartUnit p b1) s

/-- The records and counts are cleared; the routings are kept (11, R179). -/
def State.clearErrors (s : State) : State :=
  { s with errors := { s.errors with
    first := none, next := Vector.replicate 15 false, counts := Vector.replicate 15 0 } }

/-- A CLEAR_ERRORS record (11, R179; 08, R142). -/
def State.takeClearErrors (s : State) (p : Port) (b1 : Byte) : State :=
  s.request p b1 0x29 (some ()) (fun s _ => s.clearErrors.done p b1 0x29)

/-- CLEAR_ERRORS (11, R179). -/
def execClearErrors (t : Time) (p : Port) (b1 : Byte) (s : State) : Host.Outcome State Fault Refusal :=
  event t (fun s => s.takeClearErrors p b1) s

end Sys2Proof.Machine
end

