-- ==== Sys2Proof/Machine/Message.lean ====
section
/-! DEFINITION. The Message Handler's commands: the judgement of a whole record, the local receive assembler and the local
transmitter (08, R142 to R145). -/

namespace Sys2Proof.Machine

open Sys2Proof

/-! ### Judging a record by its kind (08, R142) -/

/-- The format step's refusal of a record whose kind is not accepted: MSG_FORMAT, and REPLY but for the report class (08, R142, steps
3 and 4). -/
def State.notAccepted (s : State) (p : Port) (r : Record) : State :=
  if s.hears p then
    if isReport r.kind then s.recordFault .msgFormat (portSource p) r.kind else s.formatFailure p r.b1 r.kind
  else s

/-- The subjects of QUERY (08, R139). -/
def State.takeQuery (s : State) (p : Port) (r : Record) : State :=
  match r.b2.toNat with
  | 0 => s.takeQueryLine p r.b1
  | 1 => s.takeQueryBearer p r.b1
  | 2 => s.takeQueryLink p r.b1
  | 3 => s.takeQueryQueue p r.b1
  | 4 => s.takeQueryErrors p r.b1
  | 5 => s.takeQueryParam p r.b1
  | 6 => s.takeQueryUnit p r.b1
  | _ => s.notAccepted p r

/-- The modes of SET_RATE_MODE (08, R139). -/
def State.takeRateMode (s : State) (p : Port) (r : Record) : State :=
  match r.b2.toNat with
  | 0 => s.takeRateAuto p r.b1
  | 1 => s.takeRateFixed p r.b1 r.b3
  | _ => s.notAccepted p r

/-- The actions of LINK_CONTROL (08, R139). -/
def State.takeLinkControl (s : State) (p : Port) (r : Record) : State :=
  match r.b2.toNat with
  | 0 => s.takeEnable p r.b1
  | 1 => s.takeDisable p r.b1
  | 2 => s.takeRestartLink p r.b1
  | _ => s.notAccepted p r

/-- A record whose check byte matched, judged by its kind (08, R139 and R142). -/
def State.receive (s : State) (p : Port) (r : Record) : State :=
  match r.kind.toNat with
  | 0x00 => s
  | 0x11 => s.takeSeizeIn p r.b1 r.b2 (toWord r.b3 r.b4)
  | 0x12 => s.takeAccept p r.b1 r.b2 (toWord r.b3 r.b4)
  | 0x14 => s.takeRelease p r.b1 0x14 r.b2 (toWord r.b3 r.b4)
  | 0x15 => s.takeRelease p r.b1 0x15 r.b2 (toWord r.b3 r.b4)
  | 0x16 => s.takeLockout p r.b1 r.b2 (toWord r.b3 r.b4)
  | 0x20 => s.takeProvision p r.b1 r.b2 r.b3
  | 0x21 => s.takeBlock p r.b1
  | 0x22 => s.takeUnblock p r.b1
  | 0x23 => s.takeSetParam p r.b1 (toWord r.b2 r.b3)
  | 0x24 => s.takeTestLine p r.b1
  | 0x25 => s.takeResumeTests p r.b1
  | 0x26 => s.takeRateMode p r
  | 0x27 => s.takeLinkControl p r
  | 0x28 => s.takeRestartUnit p r.b1
  | 0x29 => s.takeClearErrors p r.b1
  | 0x2A => s.takeQuery p r
  | _ => s.notAccepted p r

/-- EMPTY is discarded without a count (08, R142, step 2). -/
def State.takeEmpty (s : State) (_p : Port) : State := s

/-- EMPTY (08, R142). -/
def execEmpty (t : Time) (p : Port) (s : State) : Host.Outcome State Fault Refusal :=
  event t (fun s => s.takeEmpty p) s

/-- NOT_LISTED_KIND (08, R142; log 23). -/
def execNotListedKind (t : Time) (p : Port) (r : Record) (s : State) : Host.Outcome State Fault Refusal :=
  event t (fun s => s.receive p r) s

/-! ### A check byte that does not match (08, R142 and R143, step 1) -/

/-- A record can reach the judgement of its check byte from this source. -/
def State.hearsSource (s : State) (src : Source) : Bool :=
  match src with
  | .localPort => true
  | .linkMessage => s.isUp && s.inService
  | .linkAudit => s.isUp && s.inService

/-- MSG_CHECK is recorded and the record discarded. -/
def State.takeMismatch (s : State) (src : Source) (kind : Byte) : State :=
  if s.hearsSource src then s.recordFault .msgCheck src kind else s

/-- CHECK_BYTE_MISMATCH (08, R142; log 24). -/
def execCheckByteMismatch (t : Time) (src : Source) (kind : Byte) (s : State) : Host.Outcome State Fault Refusal :=
  event t (fun s => s.takeMismatch src kind) s

/-! ### The local receive assembler (08, R144) -/

/-- The assembler takes a state. -/
def State.setAssembler (s : State) (a : Assembler) : State :=
  { s with messages := { s.messages with assembler := a } }

/-- A partial record is abandoned: MSG_FRAMING with the source and the bytes gathered (08, R144; 11, R174). -/
def State.abandonPartial (s : State) (bytes : List Byte) : State :=
  (s.setAssembler .hunting).raise
    { kind := .msgFraming, detail := some (toWord (Source.code .localPort) (byte bytes.length)) }

/-- The 8 bytes of a record received at a port: the check byte, then the record (08, R142, step 1). -/
def State.takeWhole (s : State) (p : Port) (bytes : List Byte) : State :=
  match bytes with
  | [k, b1, b2, b3, b4, b5, b6, c] =>
    let r : Record := { kind := k, b1 := b1, b2 := b2, b3 := b3, b4 := b4, b5 := b5, b6 := b6 }
    if checkByte (recordBytes r) = c then s.receive p r else s.takeMismatch (portSource p) k
  | _ => s

/-- More than 20 ms have passed since the last completed byte (08, R144). -/
def State.gapOver (s : State) (last : Time) : Bool := decide (last + ms 20 < s.now)

/-- A byte completed while HUNTING (08, R144). -/
def State.startRecord (s : State) (b : Byte) : State :=
  if b = 0x7E then s.setAssembler (.collecting [] s.now) else s

/-- A byte appended while COLLECTING; at the eighth the record is handed on (08, R144). -/
def State.appendByte (s : State) (bytes : List Byte) (b : Byte) : State :=
  if 7 ≤ bytes.length then (s.setAssembler .hunting).takeWhole .localPort (bytes ++ [b])
  else s.setAssembler (.collecting (bytes ++ [b]) s.now)

/-- A correctly framed byte on the local port (08, R144). One that comes after the gap finds the partial record abandoned (log 26). -/
def State.takeByte (s : State) (b : Byte) : State :=
  match s.messages.assembler with
  | .hunting => s.startRecord b
  | .collecting bytes last =>
    if s.gapOver last then (s.abandonPartial bytes).startRecord b else s.appendByte bytes b

/-- BYTE_COMPLETED (08, R144). -/
def execByteCompleted (t : Time) (b : Byte) (s : State) : Host.Outcome State Fault Refusal :=
  event t (fun s => s.takeByte b) s

/-- A byte with a stop-bit error (08, R144). -/
def State.takeStopBitError (s : State) : State :=
  match s.messages.assembler with
  | .hunting => s
  | .collecting bytes _ => s.abandonPartial bytes

/-- STOP_BIT_ERROR (08, R144). -/
def execStopBitError (t : Time) (s : State) : Host.Outcome State Fault Refusal :=
  event t (fun s => s.takeStopBitError) s

/-- More than 20 ms without a byte while COLLECTING (08, R144). -/
def State.takeFramingTimeout (s : State) : State :=
  match s.messages.assembler with
  | .hunting => s
  | .collecting bytes last => if s.gapOver last then s.abandonPartial bytes else s

/-- FRAMING_TIMEOUT (08, R144). -/
def execFramingTimeout (t : Time) (s : State) : Host.Outcome State Fault Refusal :=
  event t (fun s => s.takeFramingTimeout) s

/-! ### The local transmitter (08, R145) -/

/-- The time a record takes on the local line: 9 bytes at 960 bytes per second, 9.375 ms (08, R145). -/
def recordTime : Time := 9375

/-- No record is being sent. -/
def State.lineFree (s : State) : Bool :=
  match s.messages.sending with
  | none => true
  | some x => s.due x.until_

/-- The next record leaves the local transmit queue and begins to be sent, as 0x7E and its 8 bytes (08, R145); with the queue empty the
line is idle. -/
def State.transmitLocal (s : State) : State :=
  if s.lineFree then
    match s.messages.localQueue with
    | r :: rest =>
      { s with messages := { s.messages with
        localQueue := rest, sending := some { record := r, wire := localWire r, until_ := s.now + recordTime } } }
    | [] => { s with messages := { s.messages with sending := none } }
  else s

/-- LOCAL_TRANSMIT (08, R145), also in HALTED (11, R178). -/
def execLocalTransmit (t : Time) (s : State) : Host.Outcome State Fault Refusal :=
  anyEvent t (fun s => s.transmitLocal) s

end Sys2Proof.Machine
end

