-- ==== Sys2Proof/Machine/Arrivals.lean ====
section
/-! DEFINITION. The frame arrival with its four parts, and the rows that name one outcome of it: the receive switch, the loss of sync and
the end of a BER window (05, R98, R99 and R102; 06, R114; 07, R122). -/

namespace Sys2Proof.Machine

open Sys2Proof

/-! ### The parts of an arrival (05, R98 and R99; log 15, log 16) -/

/-- Frames are taken in UP, in SERVICE (05, R94 and R98). -/
def State.takesFrames (s : State) : Bool := s.isUp && s.inService

/-- The frame's number, and its downstream voice at the rate at which the frame was taken (05, R98, R100 and R101). -/
def State.openFrame (s : State) (f : RxFrame) : State :=
  if s.takesFrames then ((s.checkParity everyBearer).takeNumber f).deliverFrame f else s

/-- The audit slot, judged by its own check byte whether the frame is damaged or not (05, R99; 08, R143). -/
def State.takeAuditSlot (s : State) (f : RxFrame) : State :=
  match slotOf f 4 with
  | [index, view, line, r1, r2, q1, q2, c] =>
    if checkByte [index, view, line, r1, r2, q1, q2] = c then
      s.takeAudit { index := index, view := view, line := line, reference := toWord r1 r2, quality := toWord q1 q2 }
    else s.takeMismatch .linkAudit index
  | _ => s

/-- The message slot, judged by its own check byte whether the frame is damaged or not (05, R99; 08, R142). -/
def State.takeMessageSlot (s : State) (f : RxFrame) : State := s.takeWhole .link (slotOf f 12)

/-- The receive countdown, the damaged-frame count, and the BER window, which a receive switch or a loss of sync has discarded (05,
R102; 06, R114; 07, R122). -/
def State.closeFrame (s : State) (f : RxFrame) : State :=
  if s.takesFrames then
    let rate := s.coder.rxRate
    let s := (s.followRate f).countDamage f
    if s.isUp ∧ s.coder.rxRate = rate then s.countFrame (disagreementsOf rate f) else s
  else s

/-- The state in which the last part of an arrival is taken. The restarts that errors of the parts before it have ordered still wait (11,
R177). -/
def State.beforeClose (s : State) (f : RxFrame) : State :=
  ((s.part (·.openFrame f)).part (·.takeAuditSlot f)).part (·.takeMessageSlot f)

/-- A frame arrival: the frame's number and voice, its two records, and its counts (05, R98), and then the restarts that its errors have
ordered (11, R177). -/
def State.takeFrame (s : State) (f : RxFrame) : State := ((s.beforeClose f).closeFrame f).finish

/-- A frame arrival that is taken only if its counts have an outcome (log 4). -/
def State.takeFrameIf (s : State) (f : RxFrame) (due : State → Bool) : State :=
  if (s.beforeClose f).takesFrames && due (s.beforeClose f) then s.takeFrame f else s

/-! ### The rows -/

/-- FRAME_ARRIVAL (05, R98). -/
def execFrameArrival (t : Time) (f : RxFrame) (s : State) : Host.Outcome State Fault Refusal :=
  .next ((s.begin t).takeFrame f)

/-- RECEIVE_SWITCH (05, R102): the frame arrival at which the receive rate changes (log 4). -/
def execReceiveSwitch (t : Time) (f : RxFrame) (s : State) : Host.Outcome State Fault Refusal :=
  .next ((s.begin t).takeFrameIf f (fun s => decide (s.rateAfter f ≠ s.coder.rxRate)))

/-- A window end that loses sync: the second failed window in a row (06, R114). -/
def State.takeLosingWindow (s : State) (bits renormalizations : Nat) : State :=
  if s.windowReported bits && s.windowLoses renormalizations then s.endWindow renormalizations else s

/-- SYNC_LOSS (06, R115; log 4): the fourth damaged frame or the second failed window in a row. -/
def execSyncLoss (t : Time) (sign : SyncSign) (s : State) : Host.Outcome State Fault Refusal :=
  match sign with
  | .frame f => .next ((s.begin t).takeFrameIf f (fun s => s.frameLoses f))
  | .window bits renormalizations => event t (fun s => s.takeLosingWindow bits renormalizations) s

/-- BER_WINDOW_END (07, R123): the frame arrival that completes a BER window (log 4). -/
def execBerWindowEnd (t : Time) (f : RxFrame) (s : State) : Host.Outcome State Fault Refusal :=
  .next ((s.begin t).takeFrameIf f (fun s => s.windowFills f))

end Sys2Proof.Machine
end

