-- ==== Sys2Proof/Machine/Rings.lean ====
section
/-! DEFINITION. The Ring Scheduler's commands: the on-intervals of the three phases and the supply input (04, R75, R79, R85 to
R88). -/

namespace Sys2Proof.Machine

open Sys2Proof

/-! ### On-intervals (04, R75 and R79) -/

/-- A phase's on-interval begins p seconds into each cycle (04, R75). -/
def State.beginsNow (s : State) (p : PhaseNo) : Bool := s.cycleTime == sec p.val

/-- A phase's on-interval ends one second after its beginning (04, R75). -/
def State.endsNow (s : State) (p : PhaseNo) : Bool := s.cycleTime == sec (p.val + 1) % ringCycle

/-- The mark that a phase's on-interval has begun and not ended (04, R77). -/
def State.setBegun (s : State) (p : PhaseNo) (b : Bool) : State :=
  { s with ring := { s.ring with begun := s.ring.begun.set p.val b } }

/-- The start of an on-interval: the relay of every entry in the phase is switched on, and the sampling of its line is held (04,
R75; 01, R9). -/
def State.beginPhase (s : State) (p : PhaseNo) : State :=
  let s := s.setBegun p true
  let s := s.setPhase p ((s.phase p).map (fun e => { e with relay := true }))
  (s.phase p).foldl (fun s e => s.holdSampling e.line) s

/-- ON_INTERVAL_START (04, R75). -/
def execOnIntervalStart (t : Time) (p : PhaseNo) (s : State) : Host.Outcome State Fault Refusal :=
  event t (fun s => if s.beginsNow p then s.beginPhase p else s) s

/-- An entry at the end of an on-interval: one that was rung is switched off and counts a ring (04, R75). -/
def RingEntry.rung (e : RingEntry) : RingEntry :=
  if e.relay then { e with relay := false, rings := min 40 (e.rings + 1) } else e

/-- The lines that reach the ring limit at the end of an on-interval, in the order of the phase table (04, R79). -/
def State.ringLimitReached (s : State) (p : PhaseNo) : List LineNo :=
  ((s.phase p).filter (fun e => e.relay && decide (s.param .ringLimit ≤ e.rings + 1))).map (·.line)

/-- A call ends without an answer (04, R79, steps 1 to 4). -/
def State.endUnanswered (s : State) (l : LineNo) : State :=
  match (s.line l).state with
  | .ringing b =>
    let s := (s.removeRing l).checkParity [.bearer b]
    let reference := ((s.bearer b).state.reference?).getD 0
    let s := s.sendCall (noAnswerRecord l b reference)
    (s.guardCall b).enterIdle l
  | .parked _ | .idle | .waiting | .originating _ | .connected _ | .lockout _ | .testing _ => s.removeRing l

/-- The end of an on-interval (04, R75 and R79). -/
def State.endPhase (s : State) (p : PhaseNo) : State :=
  let reached := s.ringLimitReached p
  let s := s.setBegun p false
  let s := s.setPhase p ((s.phase p).map RingEntry.rung)
  (reached.foldl State.endUnanswered s).serveRings

/-- ON_INTERVAL_END (04, R75). -/
def execOnIntervalEnd (t : Time) (p : PhaseNo) (s : State) : Host.Outcome State Fault Refusal :=
  event t (fun s => if s.endsNow p then s.endPhase p else s) s

/-! ### The supply input (04, R85 to R88) -/

/-- The decoded supply state of the two lines (04, R85). -/
def supplyOf (first second : Bool) : Supply :=
  if first then .reserve else if second then .economy else .normal

/-- The accepted supply state takes a value (04, R85, step 3). -/
def State.setSupply (s : State) (new : Supply) : State :=
  { s with ring := { s.ring with supply := new, candidate := none } }

/-- A downgrade (04, R86) or an upgrade (04, R87), with its report (R88). An upgrade that leaves RESERVE calls for a choice of a
test (10, R163). -/
def State.changeSupply (s : State) (new : Supply) : State :=
  let old := s.ring.supply
  let s := s.setSupply new
  let s := if new.rank < old.rank then s.cutPhases new.capacity else s
  let s := s.serveRings.sendBoth (supplyRecord new old)
  if old = .reserve then s.callChoice else s

/-- The sample would accept its decoded state: it is the candidate, and has been for 5 s (04, R85, step 3). -/
def State.accepts (s : State) (d : Supply) : Bool :=
  match s.ring.candidate with
  | some c => decide (d ≠ s.ring.supply) && c.state == d && decide (c.since + sec 5 ≤ s.now)
  | none => false

/-- The candidate after a sample that accepts nothing (04, R85, steps 1 to 3). -/
def State.candidateAfter (s : State) (d : Supply) : Option SupplyCandidate :=
  if d = s.ring.supply then none
  else
    match s.ring.candidate with
    | some c => if c.state = d then some c else some { state := d, since := s.now }
    | none => some { state := d, since := s.now }

/-- A sample of the supply lines, every 5 ms (04, R85). -/
def State.sampleSupply (s : State) (d : Supply) : State :=
  if s.onGrid (ms 5) then
    if s.accepts d then s.changeSupply d
    else { s with ring := { s.ring with candidate := s.candidateAfter d } }
  else s

/-- SUPPLY_SAMPLE (04, R85). -/
def execSupplySample (t : Time) (first second : Bool) (s : State) : Host.Outcome State Fault Refusal :=
  event t (fun s => s.sampleSupply (supplyOf first second)) s

/-- DOWNGRADE (04, R86): the sample that accepts a lower state (log 4). -/
def execDowngrade (t : Time) (first second : Bool) (s : State) : Host.Outcome State Fault Refusal :=
  event t (fun s =>
    if s.accepts (supplyOf first second) && decide ((supplyOf first second).rank < s.ring.supply.rank) then
      s.sampleSupply (supplyOf first second)
    else s) s

/-- UPGRADE (04, R87): the sample that accepts a higher state (log 4). -/
def execUpgrade (t : Time) (first second : Bool) (s : State) : Host.Outcome State Fault Refusal :=
  event t (fun s =>
    if s.accepts (supplyOf first second) && decide (s.ring.supply.rank < (supplyOf first second).rank) then
      s.sampleSupply (supplyOf first second)
    else s) s

end Sys2Proof.Machine
end

