-- ==== Sys2Proof/Machine/Dispatch.lean ====
section
/-! DEFINITION. The dispatch: one arm per command, one direct call of its meaning. -/

namespace Sys2Proof.Machine

open Sys2Proof

def exec (i : Instr) (s : State) : Host.Outcome State Fault Refusal :=
  match i with
  | .powerOnReset straps => Sys2Proof.Machine.execPowerOnReset straps s
  | .endOfStart t => Sys2Proof.Machine.execEndOfStart t s
  | .acceptedTransition t l level => Sys2Proof.Machine.execAcceptedTransition t l level s
  | .digitEnd t l level => Sys2Proof.Machine.execDigitEnd t l level s
  | .disconnect t l level => Sys2Proof.Machine.execDisconnect t l level s
  | .onHook t l level => Sys2Proof.Machine.execOnHook t l level s
  | .ringTrip t l => Sys2Proof.Machine.execRingTrip t l s
  | .toneBlock t => Sys2Proof.Machine.execToneBlock t s
  | .reservationTimerExpiry t b => Sys2Proof.Machine.execReservationTimerExpiry t b s
  | .guardTimerExpiry t b => Sys2Proof.Machine.execGuardTimerExpiry t b s
  | .waitLimitExpiry t l => Sys2Proof.Machine.execWaitLimitExpiry t l s
  | .seizeIn t p line bearer reference => Sys2Proof.Machine.execSeizeIn t p line bearer reference s
  | .accept t p b1 bearer reference => Sys2Proof.Machine.execAccept t p b1 bearer reference s
  | .release t p b1 bearer reference cause => Sys2Proof.Machine.execRelease t p b1 bearer reference cause s
  | .refuse t p b1 bearer reference cause => Sys2Proof.Machine.execRefuse t p b1 bearer reference cause s
  | .lockout t p b1 bearer reference => Sys2Proof.Machine.execLockout t p b1 bearer reference s
  | .empty t p => Sys2Proof.Machine.execEmpty t p s
  | .notListedKind t p r => Sys2Proof.Machine.execNotListedKind t p r s
  | .auditRecord t a => Sys2Proof.Machine.execAuditRecord t a s
  | .provisionLine t p line inService cls => Sys2Proof.Machine.execProvisionLine t p line inService cls s
  | .blockBearer t p bearer => Sys2Proof.Machine.execBlockBearer t p bearer s
  | .unblockBearer t p bearer => Sys2Proof.Machine.execUnblockBearer t p bearer s
  | .setParam t p ident value => Sys2Proof.Machine.execSetParam t p ident value s
  | .testLine t p line => Sys2Proof.Machine.execTestLine t p line s
  | .resumeTests t p b1 => Sys2Proof.Machine.execResumeTests t p b1 s
  | .setRateModeAuto t p b1 => Sys2Proof.Machine.execSetRateModeAuto t p b1 s
  | .setRateModeFixed t p b1 rate => Sys2Proof.Machine.execSetRateModeFixed t p b1 rate s
  | .linkControlEnable t p b1 => Sys2Proof.Machine.execLinkControlEnable t p b1 s
  | .linkControlDisable t p b1 => Sys2Proof.Machine.execLinkControlDisable t p b1 s
  | .linkControlRestart t p b1 => Sys2Proof.Machine.execLinkControlRestart t p b1 s
  | .restartUnit t p b1 => Sys2Proof.Machine.execRestartUnit t p b1 s
  | .clearErrors t p b1 => Sys2Proof.Machine.execClearErrors t p b1 s
  | .queryLine t p index => Sys2Proof.Machine.execQueryLine t p index s
  | .queryBearer t p index => Sys2Proof.Machine.execQueryBearer t p index s
  | .queryLink t p index => Sys2Proof.Machine.execQueryLink t p index s
  | .queryQueue t p index => Sys2Proof.Machine.execQueryQueue t p index s
  | .queryErrors t p index => Sys2Proof.Machine.execQueryErrors t p index s
  | .queryParam t p index => Sys2Proof.Machine.execQueryParam t p index s
  | .queryUnit t p index => Sys2Proof.Machine.execQueryUnit t p index s
  | .stopBitError t => Sys2Proof.Machine.execStopBitError t s
  | .framingTimeout t => Sys2Proof.Machine.execFramingTimeout t s
  | .localTransmit t => Sys2Proof.Machine.execLocalTransmit t s
  | .frameAssembly t voice => Sys2Proof.Machine.execFrameAssembly t voice s
  | .transmitSwitchFrame t voice => Sys2Proof.Machine.execTransmitSwitchFrame t voice s
  | .frameArrival t f => Sys2Proof.Machine.execFrameArrival t f s
  | .receiveSwitch t f => Sys2Proof.Machine.execReceiveSwitch t f s
  | .syncLoss t sign => Sys2Proof.Machine.execSyncLoss t sign s
  | .normalizationWindowEnd t bits renormalizations => Sys2Proof.Machine.execNormalizationWindowEnd t bits renormalizations s
  | .verifyGiveUp t bits => Sys2Proof.Machine.execVerifyGiveUp t bits s
  | .enteringUp t x => Sys2Proof.Machine.execEnteringUp t x s
  | .linkFailure t => Sys2Proof.Machine.execLinkFailure t s
  | .berWindowEnd t f => Sys2Proof.Machine.execBerWindowEnd t f s
  | .drainTimerExpiry t => Sys2Proof.Machine.execDrainTimerExpiry t s
  | .onIntervalStart t p => Sys2Proof.Machine.execOnIntervalStart t p s
  | .onIntervalEnd t p => Sys2Proof.Machine.execOnIntervalEnd t p s
  | .downgrade t first second => Sys2Proof.Machine.execDowngrade t first second s
  | .upgrade t first second => Sys2Proof.Machine.execUpgrade t first second s
  | .testDue t l => Sys2Proof.Machine.execTestDue t l s
  | .settleEnd t => Sys2Proof.Machine.execSettleEnd t s
  | .measurement t ohms insulationOhms millivolts => Sys2Proof.Machine.execMeasurement t ohms insulationOhms millivolts s
  | .headTimeout t => Sys2Proof.Machine.execHeadTimeout t s
  | .seizureIndication t => Sys2Proof.Machine.execSeizureIndication t s
  | .loopSample t l level => Sys2Proof.Machine.execLoopSample t l level s
  | .supplySample t first second => Sys2Proof.Machine.execSupplySample t first second s
  | .alignmentWordFound t x w => Sys2Proof.Machine.execAlignmentWordFound t x w s
  | .byteCompleted t byte => Sys2Proof.Machine.execByteCompleted t byte s
  | .checkByteMismatch t source kind => Sys2Proof.Machine.execCheckByteMismatch t source kind s

end Sys2Proof.Machine
end

