-- ==== Sys2Proof/Safety.lean ====
section
/-! DEFINITION. The conditions on states that the statements use: which states are sound, and which leave an event nothing to do but
its own rule. A run is safe when no step of it ends in a fault or a refusal. -/

namespace Sys2Proof.Machine

open Sys2Proof

/-- A step of the part that answers a next state. -/
def Runs (i : Instr) (s t : State) : Prop := exec i s = .next t

/-- No record of the two tables has a parity mismatch or a storage fault (01, R1; 02, R27; log 8). -/
def State.Clean (s : State) : Prop :=
  (∀ l : LineNo, (s.line l).parityBad = false ∧ (s.line l).stuck = false) ∧
    ∀ b : BearerNo, (s.bearer b).parityBad = false ∧ (s.bearer b).stuck = false

/-- The Test Sequencer has no test to start: the head is out of service or taken, or nothing is listed and no line is due for the
sweep (10, R163). -/
def State.HeadIdle (s : State) : Prop :=
  s.testing.inService = false ∨ s.testing.test.isSome = true ∨
    (s.testing.demand = [] ∧ (s.ring.supply = .reserve ∨ ∀ l : LineNo, s.now < (s.line l).testDue))

/-- No test can start now: the unit is not in SERVICE, or there is none to start (10, R163). -/
def State.NoTest (s : State) : Prop := s.unit.mode ≠ .service ∨ s.HeadIdle

/-- No step plan is in DRAIN: there is none, or it is in COUNTDOWN, in which it is not evaluated (07, R133). -/
def State.NoDrain (s : State) : Prop := ∀ p timer, s.quality.plan = some p → p.phase ≠ .drain timer

/-- An event leaves nothing to do after its own rule: no line waits, no step plan is in DRAIN, no test can start (02, R33; 07, R133; 10,
R163). -/
def State.Still (s : State) : Prop :=
  s.waiting = [] ∧ s.NoDrain ∧ s.NoTest

/-- The records, counts and routings a state may have: every routing is one its kind allows and every count at most 255, and the
next-error set is empty while the first-error record is (11, R174 and R175). -/
def State.ErrorsOk (s : State) : Prop :=
  (∀ k : ErrorKind, s.routing k ∈ k.allowed) ∧ (∀ k : ErrorKind, s.count k ≤ 255) ∧
    (s.errors.first = none → ∀ k : ErrorKind, s.inNext k = false)

/-- The unit is in SERVICE with sound records, and an event leaves nothing to do after its own rule. -/
structure State.Plain (s : State) : Prop where
  service : s.unit.mode = .service
  clean : s.Clean
  errors : s.ErrorsOk
  still : s.Still

/-- The unit is in SERVICE with sound records. -/
structure State.Sound (s : State) : Prop where
  service : s.unit.mode = .service
  clean : s.Clean
  errors : s.ErrorsOk

/-- An error of this kind is counted or reported, and orders no restart (11, R174). -/
def State.Quietly (s : State) (k : ErrorKind) : Prop := s.routing k = .count ∨ s.routing k = .report

/-- A transmit queue has room for one more record (08, R147 and R148). -/
def State.HasRoom (s : State) (p : Port) : Prop :=
  match p with
  | .link => s.messages.linkQueue.length < Config.queueCapacity
  | .localPort => s.messages.localQueue.length < Config.queueCapacity

/-- A request on a port is heard in SERVICE and there is room for its reply (08, R142 and R149). -/
def State.Serves (s : State) (p : Port) : Prop :=
  s.unit.mode = .service ∧ s.hears p = true ∧ s.HasRoom p

/-- A record at the back of a port's queue. -/
def State.queued (s : State) (p : Port) (r : Record) : State :=
  match p with
  | .link => { s with messages := { s.messages with linkQueue := s.messages.linkQueue ++ [r] } }
  | .localPort => { s with messages := { s.messages with localQueue := s.messages.localQueue ++ [r] } }

/-! ### Updates that the statements name -/

/-- A record at the back of both queues. -/
def State.queuedBoth (s : State) (r : Record) : State := (s.queued .link r).queued .localPort r

/-- Steps 1 and 2 of R175 of 11: the kind's count gains 1, up to 255; the error fills an empty first-error record, or its kind joins the
next-error set. -/
def State.recorded (s : State) (e : ErrorEvent) : State :=
  { s with errors := { s.errors with
    first := some (s.errors.first.getD { error := e, seconds := (s.now - s.unit.startTime) / sec 1 })
    next := if s.errors.first.isNone then s.errors.next else s.errors.next.set e.kind.index.val true
    counts := s.errors.counts.set e.kind.index.val (min 255 (s.count e.kind + 1)) } }

/-- An error's kind is in neither of the two error records (11, R176). -/
def State.isNew (s : State) (e : ErrorEvent) : Bool :=
  s.errors.first.isNone || !(s.isFirst e.kind || s.inNext e.kind)

/-- The ALARM of an error (11, R176). -/
def State.alarm (s : State) (e : ErrorEvent) : Record := alarmRecord e (if s.errors.first.isNone then 1 else 2)

/-- The ALARM of an error joins both queues of a state, if the error is new to the state that takes it (11, R176). -/
def State.withAlarm (s : State) (e : ErrorEvent) (u : State) : State :=
  if s.isNew e = true then u.queuedBoth (s.alarm e) else u

/-- A line record after an accepted transition (01, R8, step 4). -/
def LineRecord.accepted (r : LineRecord) (level : Loop) (start : Time) : LineRecord :=
  { r with loop := level, intervalStart := start, run := .zero, longOpen := false }

/-- A sample of the line's loop is taken at this time, and it completes a run that began at start: the transition to a level is
accepted (01, R8 and R9). -/
structure State.Accepts (s : State) (l : LineNo) (level : Loop) (start : Time) : Prop where
  service : s.unit.mode = .service
  clean : s.Clean
  sampled : s.now % ms 5 = 0
  running : s.samplingHeld l = false
  level : (s.line l).loop ≠ level
  run : (s.line l).run = .two start

/-- A sample of the line's loop is taken at this time, and it completes no run (01, R8 and R9). -/
structure State.Watches (s : State) (l : LineNo) (level : Loop) : Prop where
  service : s.unit.mode = .service
  clean : s.Clean
  sampled : s.now % ms 5 = 0
  running : s.samplingHeld l = false
  run : level = (s.line l).loop ∨ ∀ start, (s.line l).run ≠ .two start

/-- A line record after a sample that completes no run (01, R8, steps 1 to 3). -/
def LineRecord.watched (r : LineRecord) (now : Time) (level : Loop) : LineRecord :=
  { r with run := if level = r.loop then .zero else match r.run with
    | .zero => .one now
    | .one start => .two start
    | .two start => .two start }

/-- A line record at the entry to a state: the digit accumulator is 0 (01, R15), and a TESTING line has no run (R9). -/
def LineRecord.moved (r : LineRecord) (st : LineState) : LineRecord :=
  { r with state := st, digits := 0, run := if st.isTesting then .zero else r.run }

/-- A bearer record at the entry to a state (02, R29). -/
def BearerRecord.moved (r : BearerRecord) (st : BearerState) (now : Time) : BearerRecord :=
  { r with state := st, entered := now, disagreements := 0 }

/-- One line record replaced. -/
def State.withLine (s : State) (l : LineNo) (r : LineRecord) : State := { s with lines := s.lines.set l.val r }

/-- One bearer record replaced. -/
def State.withBearer (s : State) (b : BearerNo) (r : BearerRecord) : State :=
  { s with bearers := s.bearers.set b.val r }

/-- One concealment record replaced. -/
def State.withConceal (s : State) (l : LineNo) (c : Option Conceal) : State :=
  { s with coder := { s.coder with conceal := s.coder.conceal.set l.val c } }

/-- One line in another state: its record, and its concealment record, which only a CONNECTED line has (05, R101). -/
def State.lineTo (s : State) (l : LineNo) (st : LineState) : State :=
  (s.withLine l ((s.line l).moved st)).withConceal l (if st.isConnected then some { lastGood := none, run := 0 } else none)

/-- One bearer in another state. -/
def State.bearerTo (s : State) (b : BearerNo) (st : BearerState) : State :=
  s.withBearer b ((s.bearer b).moved st s.now)

/-- The pair of the call that leaves a bearer is gone from the step plan and from the Link Coder (05, R104; 07, R133). -/
def State.withoutPair (s : State) (b : BearerNo) : State :=
  { s with
    quality := { s.quality with plan := s.quality.plan.map (fun p => { p with phase := match p.phase with
      | .drain timer => .drain timer
      | .countdown pairs => .countdown (pairs.filter (fun x => x.source != b)) }) }
    coder := { s.coder with relocations := dropIn s.coder.relocations b } }

/-- The end of a call on a bearer: the bearer in another state and off the active list (02, R37 and R43). Where the call is being
relocated its pair leaves the step plan and the Link Coder, its target is gone, and the destination is FREE (02, R46; 05, R104; 07,
R133). -/
def State.endTo (s : State) (b : BearerNo) (c : Call) (st : BearerState) : State :=
  let e := (s.withoutPair b).bearerTo b st
  { e with
    bearers := (match c.target with
      | none => e
      | some d => e.bearerTo d .free).bearers
    active := s.active.filter (fun x => x != b) }

/-- The end of a call whose bearer enters GUARD with its reference and the guard timer (02, R37). -/
abbrev State.guardTo (s : State) (b : BearerNo) (c : Call) : State :=
  s.endTo b c (.guarded c.reference (s.now + ms (s.param .guardTime)) false)

/-- Every parameter lies in its range, and the two orderings of R126 of 07 hold. -/
def State.ParamsOk (s : State) : Prop :=
  (∀ p : Param, p.range.1 ≤ s.param p ∧ s.param p ≤ p.range.2) ∧ s.param .upR < s.param .downS ∧
    s.param .upS < s.param .downW

/-- Neither transmit queue holds more than 16 records (08, R147 and R148). -/
def State.QueuesOk (s : State) : Prop :=
  s.messages.linkQueue.length ≤ 16 ∧ s.messages.localQueue.length ≤ 16

/-- No ring phase holds more entries than the ring capacity of the accepted supply state (04, R76). -/
def State.RingsOk (s : State) : Prop :=
  ∀ p : PhaseNo, (s.phase p).length ≤ s.ring.supply.capacity

/-- Q_near, Q_far, the estimate and D lie within 0-65535 (07, R121 and R123). -/
def State.QualityOk (s : State) : Prop :=
  s.quality.estimate ≤ 65535 ∧ s.quality.qNear ≤ 65535 ∧ s.quality.qFar ≤ 65535 ∧ s.quality.decision ≤ 65535

/-- Every digit accumulator is at most 11 and is 0 outside CONNECTED, every consecutive-fault count is at most 5, a TESTING line has no
run, and every CONNECTED line has a concealment record (01, R1, R9 and R15; 05, R101). -/
def State.LinesOk (s : State) : Prop :=
  ∀ l : LineNo, (s.line l).digits ≤ 11 ∧ ((s.line l).state.isConnected = false → (s.line l).digits = 0) ∧
    (s.line l).faultCount ≤ 5 ∧ ((s.line l).state.isTesting = true → (s.line l).run = .zero) ∧
    ((s.line l).state.isConnected = true → s.coder.conceal[l.val].isSome = true)

end Sys2Proof.Machine
end

