-- ==== Sys2Proof/WellFormed.lean ====
section
/-! DEFINITION. What a command's operands must satisfy for the part's surroundings to be able to send it. Every meaning
is total on ill-formed commands too; the checks say which commands come from hardware. -/

namespace Sys2Proof

/-- The moves of the straps are given in the order of their times, at most one at a time. -/
def strapMovesOk : List StrapMove → Bool
  | [] => true
  | [_] => true
  | a :: b :: rest => decide (a.time < b.time) && strapMovesOk (b :: rest)

/-- The kinds of R139 of 08 that the part accepts. -/
def inboundKinds : List Byte :=
  [0x00, 0x11, 0x12, 0x14, 0x15, 0x16, 0x20, 0x21, 0x22, 0x23, 0x24, 0x25, 0x26, 0x27, 0x28, 0x29, 0x2A]

/-- A record that NOT_LISTED_KIND carries: its kind is not one the part accepts, or it is a listed kind whose mode,
action or subject names no other row of the table (log 23). -/
def Record.notListed (r : Record) : Bool :=
  r.kind ∉ inboundKinds
    || (r.kind == 0x26 && 1 < r.b2) || (r.kind == 0x27 && 2 < r.b2) || (r.kind == 0x2A && 6 < r.b2)

/-- The check of a command's operands. -/
def Instr.wellFormed : Instr → Bool
  | .notListedKind _ _ r => r.notListed
  | .powerOnReset straps => strapMovesOk straps.moves
  | .frameArrival _ _ | .receiveSwitch _ _ | .syncLoss _ _ | .berWindowEnd _ _ | .endOfStart _
  | .acceptedTransition _ _ _ | .digitEnd _ _ _ | .disconnect _ _ _ | .onHook _ _ _ | .ringTrip _ _ | .toneBlock _
  | .reservationTimerExpiry _ _ | .guardTimerExpiry _ _ | .waitLimitExpiry _ _ | .seizeIn _ _ _ _ _ | .accept _ _ _ _ _
  | .release _ _ _ _ _ _ | .refuse _ _ _ _ _ _ | .lockout _ _ _ _ _ | .empty _ _ | .auditRecord _ _
  | .provisionLine _ _ _ _ _ | .blockBearer _ _ _ | .unblockBearer _ _ _ | .setParam _ _ _ _ | .testLine _ _ _
  | .resumeTests _ _ _ | .setRateModeAuto _ _ _ | .setRateModeFixed _ _ _ _ | .linkControlEnable _ _ _
  | .linkControlDisable _ _ _ | .linkControlRestart _ _ _ | .restartUnit _ _ _ | .clearErrors _ _ _ | .queryLine _ _ _
  | .queryBearer _ _ _ | .queryLink _ _ _ | .queryQueue _ _ _ | .queryErrors _ _ _ | .queryParam _ _ _
  | .queryUnit _ _ _ | .stopBitError _ | .framingTimeout _ | .localTransmit _ | .frameAssembly _ _
  | .transmitSwitchFrame _ _ | .normalizationWindowEnd _ _ _ | .verifyGiveUp _ _ | .enteringUp _ _ | .linkFailure _
  | .drainTimerExpiry _ | .onIntervalStart _ _ | .onIntervalEnd _ _ | .downgrade _ _ _ | .upgrade _ _ _ | .testDue _ _
  | .settleEnd _ | .measurement _ _ _ _ | .headTimeout _ | .seizureIndication _ | .loopSample _ _ _
  | .supplySample _ _ _ | .alignmentWordFound _ _ _ | .byteCompleted _ _ | .checkByteMismatch _ _ _ => true

end Sys2Proof
end

