-- ==== Sys2Proof/Certificates/Slice0/Obligations.lean ====
section
/-! DEFINITION. The statements. s.begin t is the state at which a command of time t acts: the time is t, or stays where it is if t is
earlier (log 1), and the work of an event is empty. A conclusion of the form exec c s = .next u says all of the state after the
command: what u does not name is unchanged. The named updates of u (lineTo, bearerTo, guardTo, queued and the others) are those of
Sys2Proof/Safety.lean; finish is the end of an event, at which the restarts that its errors have ordered are taken (11, R177; log 9), and
leaves a state in which nothing waits as it is (FrameIsTaken); raise and sendCall are the taking of an error and the sending of a
call-control record, which have statements of their own. The conditions Clean, Plain and Sound leave out states with a damaged record (log 8); a command off its time changes
nothing (log 3). Where a statement says so, a clause is the model's choice or reading, with its log entry. -/

open Sys2Proof Sys2Proof.Machine

/-! ### The machine -/

/-- The command at the front of the queue acts on the state with the rest of the queue, and on an empty queue nothing happens (log 2). -/
def Obligations.StepTakesTheFrontCommand : Prop :=
  (∀ (i : Instr) (rest : List Instr) (s : State), s.pending = i :: rest → step s = exec i (s.withPending rest)) ∧
    ∀ s : State, s.pending = [] → step s = .next s

/-- Every command of the table acts in every state, with every operand, and none touches the queue of the commands that wait. That no
command faults is the model's: log 30. -/
def Obligations.EveryCommandIsTaken : Prop :=
  ∀ (i : Instr) (s : State), ∃ u, exec i s = .next u ∧ u.pending = s.pending

/-- In HALTED only the local transmitter and the tone blocks act; nothing else in the part changes, for any command but a power-on reset
(11, R178). That the list is complete is the model's reading: log 25. -/
def Obligations.HaltedUnitStays : Prop :=
  ∀ (i : Instr) (s : State), s.unit.mode = .halted → (∀ straps, i ≠ .powerOnReset straps) →
    ∃ (u : State) (t : Time), exec i s = .next u ∧
      u = { s.begin t with
        pins := { s.pins with voiceOut := u.pins.voiceOut, hearing := u.pins.hearing }
        messages := { s.messages with localQueue := u.messages.localQueue, sending := u.messages.sending } } ∧
      ((∀ t, i ≠ .toneBlock t) → u.pins = s.pins) ∧
      ((∀ t, i ≠ .localTransmit t) → u.messages = s.messages)

/-! ### Invariants that every step keeps -/

/-- Every parameter stays in its range and keeps the two orderings of R126 of 07; the quality values stay within 0-65535 (07, R121 and
R123); neither transmit queue ever holds more than 16 records (08, R147 and R148). -/
def Obligations.ValuesStayInRange : Prop :=
  ∀ s u : State, step s = .next u →
    (s.ParamsOk → u.ParamsOk) ∧ (s.QualityOk → u.QualityOk) ∧ (s.QueuesOk → u.QueuesOk)

/-- The routings stay allowed ones, the counts stay at most 255, and the next-error set stays empty while the first-error record is
(11, R174 and R175). -/
def Obligations.ErrorRecordsStaySound : Prop :=
  ∀ s u : State, s.ErrorsOk → step s = .next u → u.ErrorsOk

/-- The line records stay sound: accumulators, fault counts, runs and concealment records (01, R1, R9 and R15; 05, R101). -/
def Obligations.LineRecordsStaySound : Prop :=
  ∀ s u : State, s.LinesOk → step s = .next u → u.LinesOk

/-- The state after reset meets every invariant. The values at reset that the spec does not give are the model's: log 6, log 7, log 20, log
35. -/
def Obligations.ResetMeetsTheInvariants : Prop :=
  State.reset.ParamsOk ∧ State.reset.ErrorsOk ∧ State.reset.QueuesOk ∧ State.reset.RingsOk ∧ State.reset.QualityOk ∧
    State.reset.LinesOk

/-- At every step a bearer either keeps its state code, or carries the present time as its state-entry time with a disagreement count
of 0 (02, R29). -/
def Obligations.BearerEntriesAreStamped : Prop :=
  ∀ (s u : State) (b : BearerNo), step s = .next u → (u.bearer b).state.code ≠ (s.bearer b).state.code →
    (u.bearer b).entered = u.now ∧ (u.bearer b).disagreements = 0

/-! ### Loop samples and digits

In the statements from here on x is s.begin t. -/

/-- The rows that name one outcome of a sample, a frame or a supply sample are that sample or frame, taken only where the outcome is due;
otherwise they change nothing (log 4). The outcome of a frame is judged in the state that its number, its voice and its two records leave
(log 15, log 16). -/
def Obligations.NarrowRowsAreTheirWholeEvents : Prop :=
  ∀ (t : Time) (s x : State), x = s.begin t →
    (∀ l level, exec (.acceptedTransition t l level) s =
      if ((x.line l).transition level).isSome then exec (.loopSample t l level) s else .next x) ∧
    (∀ l level, exec (.digitEnd t l level) s =
      if x.inService && (x.sampled l level).digitDue x.now then exec (.loopSample t l level) s else .next x) ∧
    (∀ l level, exec (.disconnect t l level) s =
      if x.inService && (x.sampled l level).disconnectDue x.now then exec (.loopSample t l level) s else .next x) ∧
    (∀ l level, exec (.onHook t l level) s =
      if x.inService && (x.sampled l level).onHookDue x.now then exec (.loopSample t l level) s else .next x) ∧
    (∀ v, exec (.transmitSwitchFrame t v) s = if x.link.switchDue.isSome then exec (.frameAssembly t v) s else .next x) ∧
    (∀ f y, y = x.beforeClose f →
      exec (.receiveSwitch t f) s = (if y.takesFrames && decide (y.rateAfter f ≠ y.coder.rxRate) then exec (.frameArrival t f) s
        else .next x) ∧
      exec (.berWindowEnd t f) s = (if y.takesFrames && y.windowFills f then exec (.frameArrival t f) s else .next x) ∧
      exec (.syncLoss t (.frame f)) s = if y.takesFrames && y.frameLoses f then exec (.frameArrival t f) s else .next x) ∧
    (∀ p, exec (.enteringUp t p) s =
      if x.completesAt p then exec (.alignmentWordFound t p Config.alignmentWord) s else .next x) ∧
    (∀ a b, exec (.downgrade t a b) s =
      if x.accepts (supplyOf a b) && decide ((supplyOf a b).rank < x.ring.supply.rank) then exec (.supplySample t a b) s
      else .next x) ∧
    (∀ a b, exec (.upgrade t a b) s =
      if x.accepts (supplyOf a b) && decide (x.ring.supply.rank < (supplyOf a b).rank) then exec (.supplySample t a b) s
      else .next x)

/-- The debounce steps of R8 of 01, on a line whose samples no state gives a meaning to: PARKED, or any line in START. A sample off the 5 ms
grid, or of a line whose sampling is held (R9), changes nothing. That a command off the grid changes nothing is the model's: log 3. -/
def Obligations.SampleIsDebounced : Prop :=
  ∀ (t : Time) (l : LineNo) (level : Loop) (s x : State), x = s.begin t → x.unit.mode ≠ .halted → x.Clean →
    (x.samplingHeld l = true ∨ x.now % ms 5 ≠ 0 → exec (.loopSample t l level) s = .next x) ∧
    (x.samplingHeld l = false → x.now % ms 5 = 0 → ((∃ c, (x.line l).state = .parked c) ∨ x.unit.mode = .start) →
      exec (.loopSample t l level) s = .next (x.withLine l
        (if level = (x.line l).loop then { x.line l with run := .zero }
          else
            match (x.line l).run with
            | .zero => { x.line l with run := .one x.now }
            | .one start => { x.line l with run := .two start }
            | .two start =>
              { x.line l with loop := level, intervalStart := start, run := .zero, longOpen := false })))

/-- An accepted closure of a CONNECTED line ends an open interval, which is classed by its length: a dial break of 30-120 ms counts one, to
at most 11; a flash of 300-799 ms sends FLASH, after DIGIT if digits are counted; any other length is ignored (01, R11 and R14). The closure
is judged before it could itself be 250 ms old. The sample at which the closed interval has reached 250 ms with 1-11 counted gives the
digit: DIGIT is sent with the accumulator's value, which becomes 0 (01, R13; 03, R66). -/
def Obligations.DialBreaksMakeDigits : Prop :=
  (∀ (t : Time) (l : LineNo) (b : BearerNo) (c : Call) (start length : Time) (s x : State) (r : LineRecord), x = s.begin t →
      x.Accepts l .closed start → x.ErrorsOk → (x.line l).state = .connected b → (x.bearer b).state = .active c →
      length = start - (x.line l).intervalStart → r = (x.line l).accepted .closed start → x.now < start + ms 250 →
      (ms 30 ≤ length → length ≤ ms 120 →
        exec (.acceptedTransition t l .closed) s = .next (x.withLine l { r with digits := min 11 (r.digits + 1) })) ∧
      (length < ms 30 ∨ (ms 120 < length ∧ length < ms 300) ∨ ms 800 ≤ length →
        exec (.acceptedTransition t l .closed) s = .next (x.withLine l r)) ∧
      (ms 300 ≤ length → length < ms 800 → r.digits = 0 →
        exec (.acceptedTransition t l .closed) s = .next ((x.withLine l r).sendCall (flashRecord l b c.reference))) ∧
      (ms 300 ≤ length → length < ms 800 → 0 < r.digits →
        exec (.acceptedTransition t l .closed) s = .next
          (((x.withLine l { r with digits := 0 }).sendCall (digitRecord l b c.reference r.digits)).sendCall
            (flashRecord l b c.reference)))) ∧
  (∀ (t : Time) (l : LineNo) (level : Loop) (b : BearerNo) (c : Call) (s x : State), x = s.begin t → x.Watches l level → x.ErrorsOk →
      (x.line l).state = .connected b → (x.bearer b).state = .active c → (x.line l).loop = .closed → 0 < (x.line l).digits →
      (x.line l).intervalStart + ms 250 ≤ x.now →
      exec (.digitEnd t l level) s = .next
        ((x.withLine l { (x.line l).watched x.now level with digits := 0 }).sendCall
          (digitRecord l b c.reference (x.line l).digits)))

/-- An accepted closure of an IDLE line is an off-hook arrival (01, R16). With the link UP, no line waiting and a FREE bearer below the
admission limit, the lowest such bearer is allocated (03, R51 and R52): the bearer is HELD_OUT under the next reference with the
reservation timer and this time as the request time, the counter moves on, the line is ORIGINATING, SEIZE_OUT is sent. Otherwise the
line is WAITING, at the end of its class's section of the queue, in which every PRIORITY entry stands before every ORDINARY one (R53 and
R54); where lines wait already it goes behind them though a bearer is FREE, and the queue is served from its head (R51 and R55). -/
def Obligations.OffHookIsAllocatedOrWaits : Prop :=
  (∀ (t : Time) (l : LineNo) (start : Time) (s x y : State) (call : Call), x = s.begin t → x.Accepts l .closed start → x.Plain →
    (x.line l).state = .idle → y = x.withLine l ((x.line l).accepted .closed start) →
    call = Call.mk l x.nextReference .outgoing (x.line l).cls none →
    (∀ b, x.isUp = true → x.lowestFree = some b →
      exec (.acceptedTransition t l .closed) s = .next
        (({ y.bearerTo b (.heldOut call (x.now + sec (x.param .reservationTimeout)) x.now) with
            counter := call.reference + 2 }.lineTo l (.originating b)).sendCall
          (seizeOutRecord l b call.reference call.cls))) ∧
    (x.isUp = false ∨ x.lowestFree = none →
      exec (.acceptedTransition t l .closed) s = .next
        { y.lineTo l .waiting with waiting := [{ line := l, cls := (x.line l).cls, joined := x.now }] })) ∧
  ∀ (t : Time) (l : LineNo) (start : Time) (s x y : State) (priority ordinary : List WaitEntry) (e : WaitEntry), x = s.begin t →
    x.Accepts l .closed start → x.ErrorsOk → x.NoDrain → (x.line l).state = .idle → x.waiting = priority ++ ordinary →
    (∀ w ∈ priority, w.cls = .priority) → (∀ w ∈ ordinary, w.cls = .ordinary) →
    e = { line := l, cls := (x.line l).cls, joined := x.now } →
    y = { (x.withLine l ((x.line l).accepted .closed start)).lineTo l .waiting with
      waiting := match (x.line l).cls with
        | .priority => priority ++ e :: ordinary
        | .ordinary => priority ++ ordinary ++ [e] } →
    (x.isUp = false ∨ x.lowestFree = none → exec (.acceptedTransition t l .closed) s = .next y) ∧
    (x.isUp = true → x.waiting ≠ [] → exec (.acceptedTransition t l .closed) s = .next (y.serveQueue.withWork {}))

/-- The sample at which a line's open interval has reached 800 ms, with the long-open mark clear, sets the mark. In CONNECTED it is a
disconnect (01, R12; 03, R67): a counted digit is discarded, the bearer enters GUARD, RELEASE with cause SUBSCRIBER is sent and the line is
IDLE. In WAITING, ORIGINATING or LOCKOUT it is an on-hook (01, R16) and the line is IDLE: a WAITING line's entry leaves the queue (03, R54);
an ORIGINATING line's bearer enters GUARD and RELEASE with cause SUBSCRIBER is sent (03, R63). The end of a call that is being relocated
frees its destination and removes its pair (02, R46; 07, R133). -/
def Obligations.LongOpenClearsTheLine : Prop :=
  (∀ (t : Time) (l : LineNo) (level : Loop) (b : BearerNo) (c : Call) (s x : State), x = s.begin t → x.Watches l level → x.Plain →
      (x.line l).state = .connected b → (x.bearer b).state = .active c → (x.line l).loop = .opened →
      (x.line l).longOpen = false → (x.line l).intervalStart + ms 800 ≤ x.now →
      exec (.disconnect t l level) s = .next
        ((((x.withLine l { (x.line l).watched x.now level with longOpen := true, digits := 0 }).guardTo b c).sendCall
          (releaseRecord (some l) b c.reference .subscriber)).lineTo l .idle)) ∧
  (∀ (t : Time) (l : LineNo) (level : Loop) (s x y : State), x = s.begin t → x.Watches l level → x.HeadIdle →
      (x.line l).loop = .opened → (x.line l).longOpen = false → (x.line l).intervalStart + ms 800 ≤ x.now →
      y = x.withLine l { (x.line l).watched x.now level with longOpen := true } →
      ((x.line l).state = .waiting → exec (.onHook t l level) s = .next
        ({ y with waiting := x.waiting.filter (fun e => e.line != l) }.lineTo l .idle)) ∧
      (∀ cause, (x.line l).state = .lockout cause → exec (.onHook t l level) s = .next (y.lineTo l .idle)) ∧
      (∀ b c e r, (x.line l).state = .originating b → (x.bearer b).state = .heldOut c e r → x.Plain →
        exec (.onHook t l level) s = .next
          (((y.guardTo b c).sendCall (releaseRecord (some l) b c.reference .subscriber)).lineTo l .idle)))

/-- A RINGING line is answered by ring-trip at a sample while its ring relay is on, or by an accepted closure while it is off (01, R19; 04,
R81): the bearer is ACTIVE and last of the active list, the line CONNECTED, ANSWER is sent, and the line leaves the Ring Scheduler.
Ring-trip while the relay is off, in another state of the line, or off the 5 ms grid changes nothing. That a command whose event does not
hold changes nothing is the model's: log 3. -/
def Obligations.AnswerConnectsTheCall : Prop :=
  (∀ (t : Time) (l : LineNo) (s x : State), x = s.begin t → x.Clean →
    x.ringRelay l = false ∨ (∀ b, (x.line l).state ≠ .ringing b) ∨ x.now % ms 5 ≠ 0 → exec (.ringTrip t l) s = .next x) ∧
  ∀ (t : Time) (l : LineNo) (b : BearerNo) (c : Call) (s x : State), x = s.begin t → x.Plain →
    (x.line l).state = .ringing b → (x.bearer b).state = .heldIn c → c.line = l →
    (x.ringRelay l = true → x.now % ms 5 = 0 → exec (.ringTrip t l) s = .next
      ((({ (x.withLine l ((x.line l).accepted .closed x.now)).bearerTo b (.active c) with active := x.active ++ [b] }.lineTo l
        (.connected b)).sendCall (answerRecord l b c.reference)).stopRinging l)) ∧
    (∀ start, x.Accepts l .closed start → exec (.acceptedTransition t l .closed) s = .next
      ((({ (x.withLine l ((x.line l).accepted .closed start)).bearerTo b (.active c) with active := x.active ++ [b] }.lineTo l
        (.connected b)).sendCall (answerRecord l b c.reference)).stopRinging l))

/-- Each 10 ms every line that is not CONNECTED hears the next block of the tone of its state, and of silence while the unit is not in
SERVICE; the cadence runs on while the tone stays and starts afresh when it changes. The hold tone sounds 100 ms of each 2 s, congestion 250
ms of each 500 ms, and the howler changes its sound every 100 ms; that it begins with 800 Hz is the model's choice: log 41. A CONNECTED line
in SERVICE is served by the frame arrivals while the link is UP, and takes a damaged delivery while it is not (01, R6 and R7; 05, R101).
Only the slots, the tones heard and the concealment records change. The bytes of a sound are a free value (log 19); the restart of a cadence
after another block is the model's reading: log 37. -/
def Obligations.ToneBlocksFollowTheState : Prop :=
  ∀ (t : Time) (s x : State), x = s.begin t → x.Clean →
    (x.now % ms 10 ≠ 0 → exec (.toneBlock t) s = .next x) ∧
    (x.now % ms 10 = 0 → ∃ u, exec (.toneBlock t) s = .next u ∧
      u = { x with
        pins := { x.pins with voiceOut := u.pins.voiceOut, hearing := u.pins.hearing }
        coder := { x.coder with conceal := u.coder.conceal } } ∧
      ∀ l : LineNo,
        ∀ heard : Option Tone, heard = (if x.unit.mode ≠ .service then some .silence else
          match (x.line l).state with
          | .waiting | .originating _ => some .hold
          | .lockout c => some (if c = .withdrawn then .howler else .congestion)
          | .connected _ => none
          | .parked _ | .idle | .ringing _ | .testing _ => some .silence) →
        (∀ tone n, heard = some tone →
          (∀ m, x.pins.hearing[l.val] = some { tone := tone, block := m } → n = m + 1) →
          ((∀ m, x.pins.hearing[l.val] ≠ some { tone := tone, block := m }) → n = 0) →
          u.pins.hearing[l.val] = some { tone := tone, block := n } ∧
          u.pins.voiceOut[l.val] = (match tone with
            | .silence => Config.silenceBlock
            | .hold => if n % 200 < 10 then Config.soundBlock .hz400 n else Config.silenceBlock
            | .congestion => if n % 50 < 25 then Config.soundBlock .hz400 n else Config.silenceBlock
            | .howler => Config.soundBlock (if n % 20 < 10 then .hz800 else .hz1600) n) ∧
          u.coder.conceal[l.val] = x.coder.conceal[l.val]) ∧
        (heard = none → x.isUp = true →
          u.pins.hearing[l.val] = x.pins.hearing[l.val] ∧ u.pins.voiceOut[l.val] = x.pins.voiceOut[l.val] ∧
          u.coder.conceal[l.val] = x.coder.conceal[l.val]) ∧
        (heard = none → x.isUp = false →
          u.pins.hearing[l.val] = none ∧
          ∀ c, x.coder.conceal[l.val] = some c →
            u.pins.voiceOut[l.val] = (if c.run = 0 then c.lastGood.getD Config.silenceBlock else Config.silenceBlock) ∧
            u.coder.conceal[l.val] = some { c with run := if c.run = 0 then 1 else 2 }))

/-- PROVISION_LINE, with the line number, the in-service value and the class in range, on a port with room for the reply: the table of R21
of 01 and the writing of R22. A line put back in service is IDLE if its loop is OPEN. One whose loop is CLOSED makes its off-hook arrival
at once, with its new class (R18; 03, R51 and R52): it takes the lowest FREE bearer, and waits if there is none or the link is not UP. -/
def Obligations.ProvisionFollowsTheLinesState : Prop :=
  ∀ (t : Time) (p : Port) (line inService cls : Byte) (l : LineNo) (s x : State) (r : LineRecord), x = s.begin t → x.Plain →
    x.Serves p → lineOf line = some l → inService.toNat ≤ 1 → cls.toNat ≤ 1 →
    r = { x.line l with inService := decide (inService.toNat = 1), cls := if cls.toNat = 1 then .priority else .ordinary } →
    ((x.line l).state = .parked .unfitted → exec (.provisionLine t p line inService cls) s =
      .next (x.queued p (replyRecord line 0x20 (.refused .unfitted) 0))) ∧
    ((x.line l).state = .idle → inService.toNat = 1 → exec (.provisionLine t p line inService cls) s =
      .next ((x.withLine l r).queued p (replyRecord line 0x20 .done 0))) ∧
    ((x.line l).state = .parked .outOfService ∨ (x.line l).state = .parked .fault → inService.toNat = 1 →
      (x.line l).loop = .opened → exec (.provisionLine t p line inService cls) s =
      .next (((x.withLine l { r with faultCount := 0 }).lineTo l .idle).queued p (replyRecord line 0x20 .done 0))) ∧
    ((x.line l).state = .parked .outOfService ∨ (x.line l).state = .parked .fault → inService.toNat = 1 → (x.line l).loop = .closed →
      ∀ (y z : State) (call : Call), y = x.withLine l { r with faultCount := 0 } →
      call = Call.mk l x.nextReference .outgoing r.cls none →
      (∀ b, x.isUp = true → x.lowestFree = some b →
        z = ({ y.bearerTo b (.heldOut call (x.now + sec (x.param .reservationTimeout)) x.now) with
          counter := call.reference + 2 }.lineTo l (.originating b)).sendCall (seizeOutRecord l b call.reference r.cls) →
        z.HasRoom p → exec (.provisionLine t p line inService cls) s = .next (z.queued p (replyRecord line 0x20 .done 0))) ∧
      (x.isUp = false ∨ x.lowestFree = none →
        exec (.provisionLine t p line inService cls) s = .next
          (State.queued { y.lineTo l .waiting with waiting := [{ line := l, cls := r.cls, joined := x.now }] } p
            (replyRecord line 0x20 .done 0)))) ∧
    ((x.line l).state = .idle ∨ (x.line l).state = .parked .outOfService ∨ (x.line l).state = .parked .fault → inService.toNat = 0 →
      exec (.provisionLine t p line inService cls) s =
      .next (((x.withLine l r).lineTo l (.parked .outOfService)).queued p (replyRecord line 0x20 .done 0))) ∧
    ((∀ c, (x.line l).state ≠ .parked c) → (x.line l).state ≠ .idle → exec (.provisionLine t p line inService cls) s =
      .next (x.queued p (replyRecord line 0x20 (.refused .busy) 0)))

/-! ### Errors and the transmit queues -/

/-- The taking of an error (11, R175 to R178). It is counted and recorded, and if its kind is new and routed above COUNT an ALARM goes to
both ports; here both queues have room for it. A record that reads back wrong gives TABLE_PARITY, and the command goes on with the value
read (01, R1; 02, R27). An error routed RESTART_LINK takes the RESTART action of LINK_CONTROL without a reply, and none while the link is
DISABLED; one routed RESTART_UNIT restarts the unit with its kind as the cause. Each has the ALARM after it, and after the reply of the
event. In START the unit is halted, with one UNIT_REPORT and no ALARM. The reads that check parity and the order of an event's later parts
are the model's: log 8, log 9. -/
def Obligations.ErrorIsRecorded : Prop :=
  (∀ (s : State) (e : ErrorEvent),
    (s.routing e.kind = .count ∨ (s.routing e.kind = .report ∧ s.isNew e = false) → s.raise e = s.recorded e) ∧
    (s.routing e.kind = .report → s.HasRoom .link → s.HasRoom .localPort → s.raise e = s.withAlarm e (s.recorded e)) ∧
    (∀ unit, (s.routing e.kind = .restartLink ∧ unit = false) ∨ (s.routing e.kind = .restartUnit ∧ unit = true) →
      s.raise e = (s.recorded e).withWork { s.work with ordered :=
        s.work.ordered ++ [{ unit := unit, kind := e.kind, alarm := if s.isNew e = true then some (s.alarm e) else none }] })) ∧
  (∀ (t : Time) (p : Port) (index b1 : Byte) (s x : State), x = s.begin t → x.unit.mode = .service → x.ErrorsOk → x.hears p = true →
    (∀ b y, bearerOf index = some b → (x.bearer b).parityBad = true → x.routing .tableParity = .report →
      y = x.raise { kind := .tableParity, bearer := some b, detail := some (toWord 1 (bearerByte b)) } → y.HasRoom p →
      exec (.queryBearer t p index) s = .next (y.queued p (x.bearerStatus b))) ∧
    (∀ l y z e, lineOf index = some l → (x.line l).parityBad = true →
      e = { kind := .tableParity, line := some l, detail := some (toWord 0 (lineByte l)) } →
      (x.routing .tableParity = .report → y = x.raise e → y.HasRoom p →
        exec (.queryLine t p index) s = .next (y.queued p (x.lineStatus l))) ∧
      (x.routing .tableParity = .restartUnit → z = (x.recorded e).withLine l { x.line l with parityBad := false } → z.Clean →
        ∃ v w, exec (.restartUnit t p b1) z = .next v ∧ w = { v with unit := { v.unit with cause := .error .tableParity } } ∧
          exec (.queryLine t p index) s = .next { w with messages := { w.messages with
            linkQueue := (if p = .link then [x.lineStatus l] else []) ++ if x.isNew e = true then [x.alarm e] else []
            localQueue := (if p = .link then [] else [x.lineStatus l]) ++ (if x.isNew e = true then [x.alarm e] else []) ++
              [w.unitReport] } }))) ∧
  (∀ (t : Time) (src : Source) (kind b1 : Byte) (p : Port) (s x y : State) (e : ErrorEvent), x = s.begin t → x.Sound →
    x.hearsSource src = true → x.routing .msgCheck = .restartLink → y = x.recorded e →
    e = { kind := .msgCheck, frame := if src = .localPort then none else x.coder.lastGoodNumber
          detail := some (toWord (Source.code src) kind) } →
    (x.link.state = .disabled → x.HasRoom .link → x.HasRoom .localPort →
      exec (.checkByteMismatch t src kind) s = .next (x.withAlarm e y)) ∧
    (x.isUp = true → x.HeadIdle → (∀ l b, (x.line l).state = .ringing b → (x.line l).loop = .opened) →
      x.messages.localQueue.length < 14 →
      ∃ v, exec (.linkControlRestart t p b1) y = .next (v.queued p (replyRecord b1 0x27 .done 0)) ∧
        exec (.checkByteMismatch t src kind) s = .next (x.withAlarm e v))) ∧
  ∀ (t : Time) (l : LineNo) (level : Loop) (s x : State), x = s.begin t → x.unit.mode = .start → x.routing .tableParity = .restartUnit →
    (x.line l).parityBad = true → x.samplingHeld l = false → x.now % ms 5 = 0 →
    ∃ u, exec (.loopSample t l level) s = .next u ∧ u.unit.mode = .halted ∧ u.messages.linkQueue = [] ∧
      u.messages.localQueue = [u.unitReportWith 15]

/-- A record joins the back of a queue that has room. At a full queue a record is lost, with TX_OVERFLOW: the new one, but for a
call-control record at a link queue that holds reports, where it is the youngest report (08, R147 and R148). A report for both ports is
placed in both queues before the loss of either copy is recorded, and the two copies succeed or fail independently (R146); that the loss of
the link copy is recorded first, where both are lost, is the model's choice: log 50. A call-control record made while the link is not UP is
discarded (03, R70). The last clause is the layout of the records the part sends: call control (08, R139), and REPLY, ALARM, TEST_RESULT,
SUPPLY_STATE and LINK_STATE (R141). -/
def Obligations.RecordsJoinTheirQueues : Prop :=
  (∀ (s : State) (r : Record),
    (∀ p, s.HasRoom p → s.send p r = s.queued p r) ∧
    (¬ s.HasRoom .localPort → s.send .localPort r = s.raise (overflowError 1 r.kind)) ∧
    (¬ s.HasRoom .link → isReport r.kind = true ∨ (∀ q ∈ s.messages.linkQueue, isReport q.kind = false) →
      s.send .link r = s.raise (overflowError 0 r.kind)) ∧
    (∀ before q after, ¬ s.HasRoom .link → isReport r.kind = false → s.messages.linkQueue = before ++ q :: after →
      isReport q.kind = true → (∀ a ∈ after, isReport a.kind = false) →
      s.send .link r = State.raise { s with messages := { s.messages with linkQueue := before ++ after ++ [r] } }
        (overflowError 0 q.kind)) ∧
    (s.HasRoom .link → s.HasRoom .localPort → s.sendBoth r = s.queuedBoth r) ∧
    (isReport r.kind = true → ¬ s.HasRoom .link → s.HasRoom .localPort →
      s.sendBoth r = (s.queued .localPort r).raise (overflowError 0 r.kind)) ∧
    (s.HasRoom .link → ¬ s.HasRoom .localPort → s.sendBoth r = (s.queued .link r).raise (overflowError 1 r.kind)) ∧
    (isReport r.kind = true → ¬ s.HasRoom .link → ¬ s.HasRoom .localPort →
      s.sendBoth r = (s.raise (overflowError 0 r.kind)).raise (overflowError 1 r.kind)) ∧
    (s.isUp = true → s.sendCall r = s.send .link r) ∧ (s.isUp = false → s.sendCall r = s)) ∧
  ∀ (l : LineNo) (b k : BearerNo) (w : Word) (line bearer hi lo : Byte), line = byte l.val → bearer = byte b.val →
    hi = byte (w.toNat / 256) → lo = byte w.toNat →
    (∀ c, seizeOutRecord l b w c = ⟨0x10, line, bearer, hi, lo, 0, if c = .priority then 1 else 0⟩) ∧
    answerRecord l b w = ⟨0x13, line, bearer, hi, lo, 0, 0⟩ ∧
    (∀ c : ClearCause, releaseRecord (some l) b w c = ⟨0x14, line, bearer, hi, lo, 0, loByte c.code⟩ ∧
      releaseRecord none b w c = ⟨0x14, 0xFF, bearer, hi, lo, 0, loByte c.code⟩ ∧
      refuseRecord l b w c = ⟨0x15, line, bearer, hi, lo, 0, loByte c.code⟩) ∧
    [ClearCause.subscriber, .late, .audit, .capacity, .bearerBusy, .bearerUnavailable, .retiring, .lineBusy, .lineParked,
      .badReference].map ClearCause.code = [1, 2, 3, 4, 5, 6, 7, 8, 9, 10] ∧
    (∀ v < 256, digitRecord l b w v = ⟨0x17, line, bearer, hi, lo, 0, byte v⟩) ∧
    flashRecord l b w = ⟨0x18, line, bearer, hi, lo, 0, 0⟩ ∧ noAnswerRecord l b w = ⟨0x19, line, bearer, hi, lo, 0, 0⟩ ∧
    moveRecord l b w k = ⟨0x1A, line, bearer, hi, lo, 0, byte k.val⟩ ∧
    (∀ b1 kind st, replyRecord b1 kind st w = ⟨0x30, b1, kind,
      (match st with | .done => 0 | .clamped => 1 | .refused _ => 2), (match st with | .refused c => c.code | _ => 0), hi, lo⟩) ∧
    [ReplyCause.format, .wrongPort, .starting, .busy, .unfitted, .notBlocked, .linkDisabled, .duplicate, .listFull,
      .headOut].map ReplyCause.code = [16, 17, 18, 19, 20, 21, 22, 23, 24, 25] ∧
    (∀ e placed, e.detail = some w → alarmRecord e placed = ⟨0x38, byte e.kind.code, placed,
      (e.line.map (fun l => byte l.val)).getD 0xFF, (e.bearer.map (fun b => byte b.val)).getD 0xFF, hi, lo⟩) ∧
    (∀ e placed, e.detail = none → alarmRecord e placed = ⟨0x38, byte e.kind.code, placed,
      (e.line.map (fun l => byte l.val)).getD 0xFF, (e.bearer.map (fun b => byte b.val)).getD 0xFF, 0, 0⟩) ∧
    (∀ o i v, testResultRecord l o w.toNat i v = ⟨0x39, line,
      (match o with | .good => 1 | .marginal => 2 | .faulty => 3 | .aborted => 4 | .headTimeout => 5), hi, lo, byte i, byte v⟩) ∧
    (∀ new old : Supply, supplyRecord new old = ⟨0x3A, 0xFF,
      (match new with | .normal => 0 | .economy => 1 | .reserve => 2), (match old with | .normal => 0 | .economy => 1 | .reserve => 2),
      (match new with | .normal => 4 | .economy => 2 | .reserve => 1), 0, 0⟩) ∧
    ∀ (s : State) (c : LinkCause), s.linkStateRecord c = ⟨0x3B, 0xFF,
      (match s.link.state with | .disabled => 0 | .hunt _ => 1 | .verify _ _ => 2 | .up _ _ => 3),
      (match s.link.rate with | .robust => 0 | .standard => 1 | .wide => 2), (if s.link.state.hold?.isSome then 1 else 0),
      (match c with | .found => 1 | .recovered => 2 | .lost => 3 | .failed => 4 | .disabled => 5 | .enabled => 6 | .restarted => 7), 0⟩

/-! ### References, frames and phases -/

/-- The reference of a new call is the first value, from the counter on in steps of 2, that no bearer holds; it is found within nine tries,
and it is odd if the counter is (02, R34 and R35). -/
def Obligations.ReferencesAreUnheld : Prop :=
  ∀ s : State, ∃ n ≤ 8, s.nextReference = s.counter + BitVec.ofNat 16 (2 * n) ∧
    (∀ b : BearerNo, (s.bearer b).state.reference? ≠ some s.nextReference) ∧
    (∀ m < n, ∃ b : BearerNo, (s.bearer b).state.reference? = some (s.counter + BitVec.ofNat 16 (2 * m))) ∧
    (s.counter.getLsbD 0 = true → s.nextReference.getLsbD 0 = true)

/-- The puncture patterns of R93 of 05: the outputs of each position that are sent, in the order in which the coder makes them, the pattern
repeating with its period; a frame is a whole number of periods, and has 1920 coded bits at every rate. -/
def Obligations.PuncturingKeeps1920Bits : Prop :=
  ∀ (r : Rate) (st : Stages) (bits : List Bool),
    (∀ n b rest, (encodeBits r n st (b :: rest)).1 =
      ((if (kept r n).1 then [firstOutput st b] else []) ++ if (kept r n).2 then [secondOutput st b] else []) ++
        (encodeBits r ((n + 1) % r.period) (shiftStages st b) rest).1) ∧
    r.infoBits % r.period = 0 ∧
    Rate.robust.period = 1 ∧ Rate.standard.period = 2 ∧ Rate.wide.period = 3 ∧
    kept .robust 0 = (true, true) ∧ kept .standard 0 = (true, true) ∧ kept .standard 1 = (true, false) ∧
    kept .wide 0 = (true, true) ∧ kept .wide 1 = (true, false) ∧ kept .wide 2 = (false, true) ∧
    (bits.length = r.infoBits → (encodeBits r 0 st bits).1.length = 1920)

/-- Scrambling leaves the alignment word and keeps the length; from byte 2 on each bit has the feedback bit added, which is the sum of
stages 14 and 15 of a register of 15 stages that starts at all ones and takes the feedback bit at stage 1; a received frame is descrambled
in the same way (05, R91). z is that register's history: z n for n below 15 are its first contents, the oldest stage first. The coder's two
outputs are the sums of the input bit and those 1, 2, 3 and 6, and 2, 3, 5 and 6 places earlier, and its stages run on: after a frame they
are its last six scrambled bits, the latest first (R92). -/
def Obligations.FramesAreScrambledAndCoded : Prop :=
  (∀ z : Nat → Bool, (∀ n < 15, z n = true) → (∀ n, z (n + 15) = (z (n + 1) != z n)) →
    (∀ (bits : List Bool) (n : Nat), (scrambleFrame bits)[n + 16]? = bits[n + 16]?.map (fun b => b != z (n + 15))) ∧
    (∀ (f : RxFrame) (n : Nat), n + 16 < 1440 →
      (descrambled f).getMsbD (n + 16) = (f.bits.getMsbD (n + 16) != z (n + 15))) ∧
    ∀ (f : RxFrame), ∀ n < 16, (descrambled f).getMsbD n = f.bits.getMsbD n) ∧
  (∀ (bits : List Bool), (scrambleFrame bits).take 16 = bits.take 16 ∧ (scrambleFrame bits).length = bits.length ∧
    scrambleFrame (scrambleFrame bits) = bits ∧
    ∀ (r : Rate) (n : Nat) (st : Stages), ∀ i < 6, i < bits.length →
      some ((encodeBits r n st bits).2.getLsbD i) = bits.reverse[i]?) ∧
  ∀ (earlier : Nat → Bool) (st : Stages) (b : Bool), (∀ i, 1 ≤ i → i ≤ 6 → st.getLsbD (i - 1) = earlier i) →
    firstOutput st b = (b ^^ earlier 1 ^^ earlier 2 ^^ earlier 3 ^^ earlier 6) ∧
    secondOutput st b = (b ^^ earlier 2 ^^ earlier 3 ^^ earlier 5 ^^ earlier 6) ∧
    (shiftStages st b).getLsbD 0 = b ∧ ∀ i, 1 ≤ i → i ≤ 5 → (shiftStages st b).getLsbD i = earlier i

/-- Placement chooses among the phases below the ring capacity the one with the fewest entries, and of those the one whose next on-interval
begins soonest (04, R77). Service of the ring queue places its head with its count, as long as it has one and placement finds a phase (R78).
A line that stops ringing leaves with its own entry in the phases or the ring queue, and no other; the rest keep their order, and the ring
queue is served (R81 and R83). The mark of a begun interval is the model's: log 35. -/
def Obligations.PlacementTakesTheEmptiestPhase : Prop :=
  ∀ s : State,
    (∀ l : LineNo, s.removeRing l = { s with ring := { s.ring with
        phases := s.ring.phases.map (fun es => es.filter (fun e => decide (e.line ≠ l)))
        queue := s.ring.queue.filter (fun w => decide (w.line ≠ l)) } } ∧
      s.stopRinging l = (s.removeRing l).serveRings ∧ (s.removeRing l).ringRelay l = false) ∧
    (s.choosePhase = none ↔ ∀ p : PhaseNo, s.ring.supply.capacity ≤ (s.phase p).length) ∧
    (∀ p : PhaseNo, s.choosePhase = some p ↔
      (s.phase p).length < s.ring.supply.capacity ∧
      ∀ q : PhaseNo, q ≠ p → (s.phase q).length < s.ring.supply.capacity →
        (s.phase p).length < (s.phase q).length ∨
          ((s.phase p).length = (s.phase q).length ∧ s.untilPhase p < s.untilPhase q)) ∧
    (s.ring.queue = [] ∨ s.choosePhase = none → s.serveRings = s) ∧
    (∀ w rest p, s.ring.queue = w :: rest → s.choosePhase = some p → s.serveRings =
      (State.setPhase { s with ring := { s.ring with queue := rest } } p
        (s.phase p ++ [{ line := w.line, rings := w.rings, placed := s.now, relay := false }])).serveRings)

/-- The ring capacity of each supply state (04, R76), and after every step the bounds it sets: the lines of a phase, those of them that are
rung at once, and the lines placed in all three phases. -/
def Obligations.RingCapacityFollowsTheSupply : Prop :=
  Supply.normal.capacity = 4 ∧ Supply.economy.capacity = 2 ∧ Supply.reserve.capacity = 1 ∧
    ∀ s u : State, s.RingsOk → step s = .next u →
      (∀ p : PhaseNo, (u.phase p).length ≤ u.ring.supply.capacity ∧
        ((u.phase p).filter (fun e => e.relay)).length ≤ u.ring.supply.capacity) ∧
      (u.phase 0).length + (u.phase 1).length + (u.phase 2).length ≤ 3 * u.ring.supply.capacity

/-- The coding of a measurement and the classing of its codes (10, R166). That the head gives its three values in ohms, ohms and
millivolts is the model's choice: log 27. -/
def Obligations.MeasurementsAreCodedAndClassed : Prop :=
  ∀ (ohms insulationOhms millivolts : Nat) (c : Codes), c = codesOf ohms insulationOhms millivolts →
    (c.ohms = if 10000 ≤ ohms then 10000 else ohms) ∧
    (c.insulation = if 2550000 ≤ insulationOhms then 255 else insulationOhms / 10000) ∧
    (c.volts = if 250000 ≤ millivolts then 250 else millivolts / 1000) ∧
    (c.outcome = .faulty ↔ c.insulation < 2 ∨ 50 < c.volts ∨ c.ohms < 2000) ∧
    (c.outcome = .marginal ↔ ¬ (c.insulation < 2 ∨ 50 < c.volts ∨ c.ohms < 2000) ∧ (c.insulation < 15 ∨ 10 < c.volts)) ∧
    (c.outcome = .good ↔ ¬ (c.insulation < 2 ∨ 50 < c.volts ∨ c.ohms < 2000) ∧ ¬ (c.insulation < 15 ∨ 10 < c.volts))

/-! ### Timers and blocks -/

/-- The expiry of a reservation timer (03, R62): the bearer enters GUARD, the line LOCKOUT with cause TIMEOUT, RESERVATION_TIMEOUT is
recorded. A line's entry that has reached the wait limit leaves the queue; the line goes to LOCKOUT with cause CONGESTION and QUEUE_TIMEOUT
is recorded (03, R56). The end of a call that is being relocated frees its destination and removes its pair (02, R46; 07, R133). Before its
expiry a timer changes nothing. That an early command changes nothing is the model's: log 3. -/
def Obligations.CallTimersLockTheLineOut : Prop :=
  (∀ (t : Time) (b : BearerNo) (c : Call) (expiry requested : Time) (s x : State), x = s.begin t → x.Plain →
      (x.bearer b).state = .heldOut c expiry requested →
      (expiry ≤ x.now → exec (.reservationTimerExpiry t b) s = .next
        (((x.guardTo b c).lineTo c.line (.lockout .timeout)).raise
          { kind := .reservationTimeout, line := some c.line, bearer := some b, detail := some c.reference })) ∧
      (x.now < expiry → exec (.reservationTimerExpiry t b) s = .next x)) ∧
  (∀ (t : Time) (l : LineNo) (e : WaitEntry) (s x : State), x = s.begin t → x.Sound →
      x.waiting.find? (fun e => e.line == l) = some e →
      (e.joined + sec (x.param .waitLimit) ≤ x.now → exec (.waitLimitExpiry t l) s = .next
        (({ x with waiting := x.waiting.filter (fun e => e.line != l) }.lineTo l (.lockout .congestion)).raise
          { kind := .queueTimeout, line := some l })) ∧
      (x.now < e.joined + sec (x.param .waitLimit) → exec (.waitLimitExpiry t l) s = .next x))

/-- The expiry of a guard timer frees the bearer, or blocks it if a block is pending (02, R38). A bearer below the admission limit that
enters FREE while the link is UP is given at once to the line at the head of the waiting queue, with its class and joining time (02, R33;
03, R52 and R55); here it is the only bearer to give. Service of the queue gives the head entry the lowest FREE bearer below the limit, and
goes on with the next entry while there is one of each and the link is UP (R55). -/
def Obligations.GuardExpiryFreesTheBearer : Prop :=
  (∀ z : State, z.Clean → z.ErrorsOk →
    (z.isUp = false ∨ z.waiting = [] ∨ z.lowestFree = none → z.serveQueue = z) ∧
    (∀ (e : WaitEntry) (rest : List WaitEntry) (b : BearerNo) (call : Call) (v : State), z.isUp = true → z.waiting = e :: rest →
      z.lowestFree = some b → call = Call.mk e.line z.nextReference .outgoing e.cls none →
      v = ({ z.bearerTo b (.heldOut call (z.now + sec (z.param .reservationTimeout)) e.joined) with
        waiting := rest, counter := call.reference + 2 }.lineTo e.line (.originating b)).sendCall
          (seizeOutRecord e.line b call.reference call.cls) →
      z.serveQueue.withWork {} = v.serveQueue.withWork {})) ∧
  (∀ (t : Time) (b : BearerNo) (reference : Word) (expiry : Time) (pendingBlock : Bool) (s x : State), x = s.begin t → x.Plain →
      (x.bearer b).state = .guarded reference expiry pendingBlock →
      (expiry ≤ x.now → exec (.guardTimerExpiry t b) s = .next
        (x.bearerTo b (if pendingBlock = true then .blocked .maintenance else .free))) ∧
      (x.now < expiry → exec (.guardTimerExpiry t b) s = .next x)) ∧
  (∀ (t : Time) (b : BearerNo) (reference : Word) (expiry : Time) (e : WaitEntry) (rest : List WaitEntry) (call : Call) (s x y : State),
      x = s.begin t → x.Sound → x.HeadIdle → x.quality.plan = none → x.isUp = true → x.waiting = e :: rest → x.lowestFree = none →
      b.val < x.limit → (x.bearer b).state = .guarded reference expiry false → expiry ≤ x.now → y = x.bearerTo b .free →
      call = Call.mk e.line y.nextReference .outgoing e.cls none →
      exec (.guardTimerExpiry t b) s = .next
        (({ y.bearerTo b (.heldOut call (x.now + sec (x.param .reservationTimeout)) e.joined) with
            waiting := rest
            counter := call.reference + 2 }.lineTo e.line (.originating b)).sendCall
          (seizeOutRecord e.line b call.reference call.cls)))

/-- BLOCK_BEARER and UNBLOCK_BEARER by the bearer's state, on a port with room for the reply (02, R40 and R41). A pending or held block is
a change without an entry (R29). -/
def Obligations.BlocksFollowTheBearersState : Prop :=
  ∀ (t : Time) (p : Port) (bearer : Byte) (b : BearerNo) (s x : State), x = s.begin t → x.Plain → x.Serves p →
    bearerOf bearer = some b →
    ((x.bearer b).state = .free → exec (.blockBearer t p bearer) s = .next
      ((x.bearerTo b (.blocked .maintenance)).queued p (replyRecord bearer 0x21 .done 0))) ∧
    (∀ r e k, (x.bearer b).state = .guarded r e k → exec (.blockBearer t p bearer) s = .next
      ((x.withBearer b { x.bearer b with state := .guarded r e true }).queued p (replyRecord bearer 0x21 .done 0))) ∧
    ((x.bearer b).state ≠ .free → (∀ r e k, (x.bearer b).state ≠ .guarded r e k) → exec (.blockBearer t p bearer) s = .next
      (x.queued p (replyRecord bearer 0x21 (.refused .busy) 0))) ∧
    ((x.bearer b).state = .blocked .maintenance → exec (.unblockBearer t p bearer) s = .next
      ((x.bearerTo b .free).queued p (replyRecord bearer 0x22 .done 0))) ∧
    (∀ r e, (x.bearer b).state = .guarded r e true → exec (.unblockBearer t p bearer) s = .next
      ((x.withBearer b { x.bearer b with state := .guarded r e false }).queued p (replyRecord bearer 0x22 .done 0))) ∧
    ((x.bearer b).state = .unavailable true → exec (.unblockBearer t p bearer) s = .next
      ((x.withBearer b { x.bearer b with state := .unavailable false }).queued p (replyRecord bearer 0x22 .done 0))) ∧
    ((x.bearer b).state.maintenance = false → exec (.unblockBearer t p bearer) s = .next
      (x.queued p (replyRecord bearer 0x22 (.refused .notBlocked) 0)))

/-! ### The head-end's call-control records -/

/-- ACCEPT from the link while it is UP. It matches a HELD_OUT bearer that holds its reference: the bearer is ACTIVE and last of the active
list, the line CONNECTED (03, R60). On a bearer in GUARD with the reference it is late and answered with RELEASE, cause LATE (R64). Any
other is counted as stale (R59). The 0xFF in byte 1 of RELEASE LATE is the model's reading: log 21. -/
def Obligations.AcceptConnectsTheCall : Prop :=
  ∀ (t : Time) (b1 bearer : Byte) (b : BearerNo) (reference : Word) (s x : State), x = s.begin t → x.Plain → x.isUp = true →
    bearerOf bearer = some b →
    (∀ c e r, (x.bearer b).state = .heldOut c e r → c.reference = reference → exec (.accept t .link b1 bearer reference) s = .next
      ({ x.bearerTo b (.active c) with active := x.active ++ [b] }.lineTo c.line (.connected b))) ∧
    (∀ e k, (x.bearer b).state = .guarded reference e k → exec (.accept t .link b1 bearer reference) s = .next
      (x.sendCall (releaseRecord none b reference .late))) ∧
    ((x.bearer b).state.reference? ≠ some reference ∨ (∃ c, (x.bearer b).state = .heldIn c ∨ (x.bearer b).state = .active c) →
      exec (.accept t .link b1 bearer reference) s = .next (x.raise
        { kind := .staleMessage, bearer := some b, frame := x.coder.lastGoodNumber, detail := some reference }))

/-- RELEASE, REFUSE and LOCKOUT from the link while it is UP, on a bearer that holds the record's reference: the call ends, its bearer
enters GUARD (02, R37) and its line is locked out or idle by R61, R68 and R69 of 03 and R83 of 04. REFUSE is taken as RELEASE; in GUARD
neither changes anything (R64). A ringing line, here with its loop OPEN, leaves the Ring Scheduler, and the ring queue is served. The end of
the call on a source of a relocation frees its destination and takes its pair out of the step plan and the Link Coder (02, R46; 05, R104;
07, R133). -/
def Obligations.HeadEndClearsTheCall : Prop :=
  ∀ (t : Time) (b1 bearer : Byte) (b : BearerNo) (reference cause : Word) (c : Call) (s x : State), x = s.begin t → x.Plain →
    x.isUp = true → bearerOf bearer = some b →
    (∀ (d : BearerNo) (p : StepPlan) (pairs : List Pair) (m : Relocation), (x.bearer b).state = .active c → c.reference = reference →
      c.target = some d → d ≠ b → x.quality.plan = some p → p.phase = .countdown pairs → x.coder.relocations = [m] → m.switched = false →
      ∃ u, exec (.release t .link b1 bearer reference cause) s = .next u ∧
        (u.bearer b).state = .guarded reference (x.now + ms (x.param .guardTime)) false ∧ (u.bearer d).state = .free ∧
        (u.bearer d).entered = x.now ∧
        u.quality = { x.quality with plan := some { p with phase := .countdown (pairs.filter (fun q => decide (q.source ≠ b))) } } ∧
        u.coder.relocations = [{ m with pairs := m.pairs.filter (fun q => decide (q.source ≠ b)) }]) ∧
    exec (.refuse t .link b1 bearer reference cause) s = exec (.release t .link b1 bearer reference cause) s ∧
    (∀ e r, (x.bearer b).state = .heldOut c e r → c.reference = reference →
      exec (.release t .link b1 bearer reference cause) s = .next ((x.guardTo b c).lineTo c.line (.lockout .refused)) ∧
      exec (.lockout t .link b1 bearer reference) s = .next ((x.guardTo b c).lineTo c.line (.lockout .withdrawn))) ∧
    ((x.bearer b).state = .active c → c.reference = reference →
      exec (.release t .link b1 bearer reference cause) s = .next
        ((x.guardTo b c).lineTo c.line (if (x.line c.line).loop = .closed then .lockout .farClear else .idle)) ∧
      exec (.lockout t .link b1 bearer reference) s = .next ((x.guardTo b c).lineTo c.line (.lockout .withdrawn))) ∧
    ((x.bearer b).state = .heldIn c → c.reference = reference → (x.line c.line).loop = .opened →
      exec (.release t .link b1 bearer reference cause) s = .next ((((x.removeRing c.line).guardTo b c).lineTo c.line .idle).serveRings) ∧
      exec (.lockout t .link b1 bearer reference) s = .next ((((x.removeRing c.line).guardTo b c).lineTo c.line .idle).serveRings)) ∧
    (∀ e k, (x.bearer b).state = .guarded reference e k →
      exec (.release t .link b1 bearer reference cause) s = .next x ∧ exec (.lockout t .link b1 bearer reference) s = .next x) ∧
    ((x.bearer b).state.reference? ≠ some reference →
      exec (.release t .link b1 bearer reference cause) s = .next (x.raise
        { kind := .staleMessage, bearer := some b, frame := x.coder.lastGoodNumber, detail := some reference }) ∧
      exec (.lockout t .link b1 bearer reference) s = .next (x.raise
        { kind := .staleMessage, bearer := some b, frame := x.coder.lastGoodNumber, detail := some reference }))

/-- A SEIZE_IN that fails one of the three tests of R71 of 04 is refused with the cause of the first it fails: the reference, the line, the
bearer. Nothing else changes. The bearer test is the table of R32 of 02: a FREE or HELD_OUT bearer at or above the admission limit is
retiring, and one in HELD_IN, HELD_MOVE, ACTIVE, GUARD or BLOCKED is busy. At or above K' in COUNTDOWN a HELD_IN, ACTIVE, GUARD or BLOCKED
bearer is busy by R32 and retiring by R133 of 07: it is refused with one of the two causes, and which is a free value (log 44). -/
def Obligations.SeizeInIsTested : Prop :=
  ∀ (t : Time) (line bearer : Byte) (l : LineNo) (b : BearerNo) (reference : Word) (s x : State), x = s.begin t → x.Sound →
    x.isUp = true → lineOf line = some l → bearerOf bearer = some b →
    (reference = 0 ∨ reference.getLsbD 0 = true ∨ (∃ k : BearerNo, (x.bearer k).state.reference? = some reference) →
      exec (.seizeIn t .link line bearer reference) s = .next (x.sendCall (refuseRecord l b reference .badReference))) ∧
    (x.badReference reference = false →
      ((∃ c, (x.line l).state = .parked c ∨ (x.line l).state = .testing (some c)) →
        exec (.seizeIn t .link line bearer reference) s = .next (x.sendCall (refuseRecord l b reference .lineParked))) ∧
      ((x.line l).state = .waiting ∨ (x.line l).state.bearer?.isSome = true ∨ (∃ c, (x.line l).state = .lockout c) →
        exec (.seizeIn t .link line bearer reference) s = .next (x.sendCall (refuseRecord l b reference .lineBusy))) ∧
      ((x.line l).state = .idle ∨ (x.line l).state = .testing none →
        ((∃ k, (x.bearer b).state = .unavailable k) →
          exec (.seizeIn t .link line bearer reference) s = .next (x.sendCall (refuseRecord l b reference .bearerUnavailable))) ∧
        ((x.bearer b).state = .free ∨ (∃ c e r, (x.bearer b).state = .heldOut c e r) → x.limit ≤ b.val →
          exec (.seizeIn t .link line bearer reference) s = .next (x.sendCall (refuseRecord l b reference .retiring))) ∧
        ((x.bearer b).state = .heldMove →
          exec (.seizeIn t .link line bearer reference) s = .next (x.sendCall (refuseRecord l b reference .bearerBusy))) ∧
        ((∃ c, (x.bearer b).state = .heldIn c ∨ (x.bearer b).state = .active c) ∨
            (∃ r e k, (x.bearer b).state = .guarded r e k) ∨ (∃ k, (x.bearer b).state = .blocked k) →
          (b.val < x.limit ∨ (∀ p pairs, x.quality.plan = some p → p.phase ≠ .countdown pairs) →
            exec (.seizeIn t .link line bearer reference) s = .next (x.sendCall (refuseRecord l b reference .bearerBusy))) ∧
          (∀ p pairs, x.quality.plan = some p → p.phase = .countdown pairs → x.limit ≤ b.val →
            ∃ cause, (cause = .bearerBusy ∨ cause = .retiring) ∧
              exec (.seizeIn t .link line bearer reference) s = .next (x.sendCall (refuseRecord l b reference cause))))))

/-- A SEIZE_IN that passes for an IDLE line and a FREE bearer is taken (04, R72): the bearer is HELD_IN, the line RINGING, and its ring
entry goes to the phase that placement chooses, or to the back of the ring queue (R77). One that passes for a line in TESTING entered from
IDLE aborts the test first (04, R71 and R72; 10, R169): the test record is gone, the outcome is ABORTED, and TEST_RESULT goes out with the
codes at 0, to both ports for a routine test and to the requesting port for a demand test; the line does not pass through IDLE. No other
test is due. -/
def Obligations.SeizeInRingsTheLine : Prop :=
  (∀ (t : Time) (line bearer : Byte) (l : LineNo) (b : BearerNo) (reference : Word) (s x y : State), x = s.begin t → x.Plain →
    x.isUp = true → lineOf line = some l → bearerOf bearer = some b → x.badReference reference = false → (x.line l).state = .idle →
    x.testRelay l = false → (x.bearer b).state = .free → b.val < x.limit →
    y = (x.bearerTo b (.heldIn (Call.mk l reference .incoming (x.line l).cls none))).lineTo l (.ringing b) →
    (∀ p, x.choosePhase = some p → exec (.seizeIn t .link line bearer reference) s = .next
      (y.setPhase p (x.phase p ++ [{ line := l, rings := 0, placed := x.now, relay := false }]))) ∧
    (x.choosePhase = none → exec (.seizeIn t .link line bearer reference) s = .next
      { y with ring := { x.ring with queue := x.ring.queue ++ [{ line := l, rings := 0 }] } })) ∧
  ∀ (t : Time) (line bearer : Byte) (l : LineNo) (b : BearerNo) (reference : Word) (r : TestRecord) (s x w v y : State), x = s.begin t →
    x.Sound → x.waiting = [] → x.quality.plan = none → x.isUp = true → lineOf line = some l → bearerOf bearer = some b →
    x.badReference reference = false → (x.line l).state = .testing none → x.testing.test = some r → r.line = l →
    x.testing.demand = [] ∧ (x.ring.supply = .reserve ∨ ∀ k : LineNo, x.now < (x.line k).testDue) →
    (x.bearer b).state = .free → b.val < x.limit →
    w = State.withLine { x with testing := { x.testing with test := none } } l { x.line l with lastOutcome := some .aborted } →
    v = (match r.kind with
      | .routine => w.sendBoth (testResultRecord l .aborted 0 0 0)
      | .demand p => w.send p (testResultRecord l .aborted 0 0 0)) →
    y = (v.bearerTo b (.heldIn (Call.mk l reference .incoming (x.line l).cls none))).lineTo l (.ringing b) →
    (∀ p, x.choosePhase = some p → exec (.seizeIn t .link line bearer reference) s = .next
      (y.setPhase p (x.phase p ++ [{ line := l, rings := 0, placed := x.now, relay := false }]))) ∧
    (x.choosePhase = none → exec (.seizeIn t .link line bearer reference) s = .next
      { y with ring := { x.ring with queue := x.ring.queue ++ [{ line := l, rings := 0 }] } })

/-- Glare: a SEIZE_IN that passes for a bearer in HELD_OUT below the admission limit takes it from the cabinet's own call (03, R57 and R65;
04, R72). The claimed line waits again, with the class and the request time of its call; another FREE bearer is given to it at once; with
none it stays in the queue, and if it has waited for the wait limit it expires. Where other lines wait it goes to the front of its class's
section, in a queue whose PRIORITY entries stand before its ORDINARY ones. A claim that an earlier step-down has moved to the bearer leaves
its pair with it: the call that takes the bearer is delivered from the bearer's own position (05, R104; log 17). -/
def Obligations.GlareIsSettledForTheHeadEnd : Prop :=
  (∀ (t : Time) (line bearer : Byte) (l : LineNo) (b : BearerNo) (reference : Word) (c : Call) (expiry requested : Time)
    (s x y z : State) (priority ordinary : List WaitEntry) (entry : WaitEntry), x = s.begin t → x.Sound → x.NoDrain → x.NoTest →
    x.isUp = true → lineOf line = some l → bearerOf bearer = some b → x.badReference reference = false → (x.line l).state = .idle →
    x.testRelay l = false → (x.bearer b).state = .heldOut c expiry requested → b.val < x.limit → c.line ≠ l →
    y = (((x.withoutPair b).lineTo c.line .waiting).bearerTo b
      (.heldIn (Call.mk l reference .incoming (x.line l).cls none))).lineTo l (.ringing b) →
    z = y.ringLine l → x.waiting = priority ++ ordinary → (∀ w ∈ priority, w.cls = .priority) → (∀ w ∈ ordinary, w.cls = .ordinary) →
    entry = { line := c.line, cls := c.cls, joined := requested } → x.lowestFree = none →
    x.now < requested + sec (x.param .waitLimit) →
    exec (.seizeIn t .link line bearer reference) s = .next { z with waiting := match c.cls with
      | .priority => entry :: (priority ++ ordinary)
      | .ordinary => priority ++ entry :: ordinary }) ∧
  ∀ (t : Time) (line bearer : Byte) (l : LineNo) (b : BearerNo) (reference : Word) (c : Call) (expiry requested : Time)
    (s x y z : State) (entry : WaitEntry) (call : Call), x = s.begin t → x.Plain → x.isUp = true →
    lineOf line = some l → bearerOf bearer = some b → x.badReference reference = false → (x.line l).state = .idle →
    x.testRelay l = false → (x.bearer b).state = .heldOut c expiry requested → b.val < x.limit → c.line ≠ l →
    y = (((x.withoutPair b).lineTo c.line .waiting).bearerTo b
      (.heldIn (Call.mk l reference .incoming (x.line l).cls none))).lineTo l (.ringing b) →
    z = y.ringLine l → entry = { line := c.line, cls := c.cls, joined := requested } →
    call = Call.mk c.line z.nextReference .outgoing c.cls none →
    (∀ k, x.lowestFree = some k → exec (.seizeIn t .link line bearer reference) s = .next
      (({ z.bearerTo k (.heldOut call (x.now + sec (x.param .reservationTimeout)) requested) with
          counter := call.reference + 2 }.lineTo c.line (.originating k)).sendCall
        (seizeOutRecord c.line k call.reference call.cls))) ∧
    (x.lowestFree = none → x.now < requested + sec (x.param .waitLimit) →
      exec (.seizeIn t .link line bearer reference) s = .next { z with waiting := [entry] }) ∧
    (x.lowestFree = none → requested + sec (x.param .waitLimit) ≤ x.now →
      exec (.seizeIn t .link line bearer reference) s = .next
        ((z.lineTo c.line (.lockout .congestion)).raise { kind := .queueTimeout, line := some c.line }))

/-! ### Requests that are turned away -/

/-- The replies of R142 of 08 that come before a record's own rule: a call-control record on the local port is refused WRONG_PORT, and a
maintenance request with good fields is refused STARTING while the unit is in START. Nothing else changes. The fields are the bytes
received: log 39. -/
def Obligations.RequestsAreTurnedAway : Prop :=
  ∀ (t : Time) (b1 b2 b3 bearer ident : Byte) (w v : Word) (s x : State), x = s.begin t → x.HasRoom .localPort →
    (bearerOf bearer).isSome = true →
    (x.unit.mode ≠ .halted → ∀ i kind,
      (i, kind) ∈ [(Instr.accept t .localPort b1 bearer w, (0x12 : Byte)), (.release t .localPort b1 bearer w v, 0x14),
        (.refuse t .localPort b1 bearer w v, 0x15), (.lockout t .localPort b1 bearer w, 0x16)] →
      exec i s = .next (x.queued .localPort (replyRecord b1 kind (.refused .wrongPort) 0))) ∧
    (x.unit.mode ≠ .halted → (lineOf b1).isSome = true → exec (.seizeIn t .localPort b1 bearer w) s =
      .next (x.queued .localPort (replyRecord b1 0x11 (.refused .wrongPort) 0))) ∧
    (x.unit.mode = .start → ∀ i kind,
      (i, kind) ∈ [(Instr.resumeTests t .localPort b1, (0x25 : Byte)), (.setRateModeAuto t .localPort b1, 0x26),
        (.linkControlEnable t .localPort b1, 0x27), (.linkControlDisable t .localPort b1, 0x27),
        (.linkControlRestart t .localPort b1, 0x27), (.restartUnit t .localPort b1, 0x28), (.clearErrors t .localPort b1, 0x29),
        (.queryQueue t .localPort b1, 0x2A)] →
      exec i s = .next (x.queued .localPort (replyRecord b1 kind (.refused .starting) 0))) ∧
    (x.unit.mode = .start → (lineOf b1).isSome = true → b2.toNat ≤ 1 → b3.toNat ≤ 1 → ∀ i kind,
      (i, kind) ∈ [(Instr.provisionLine t .localPort b1 b2 b3, (0x20 : Byte)), (.testLine t .localPort b1, 0x24),
        (.queryLine t .localPort b1, 0x2A)] →
      exec i s = .next (x.queued .localPort (replyRecord b1 kind (.refused .starting) 0))) ∧
    (x.unit.mode = .start → ∀ i kind,
      (i, kind) ∈ [(Instr.blockBearer t .localPort bearer, (0x21 : Byte)), (.unblockBearer t .localPort bearer, 0x22),
        (.queryBearer t .localPort bearer, 0x2A)] →
      exec i s = .next (x.queued .localPort (replyRecord bearer kind (.refused .starting) 0))) ∧
    (x.unit.mode = .start → (paramOf ident).isSome = true →
      exec (.setParam t .localPort ident w) s = .next (x.queued .localPort (replyRecord ident 0x23 (.refused .starting) 0)) ∧
      exec (.queryParam t .localPort ident) s = .next (x.queued .localPort (replyRecord ident 0x2A (.refused .starting) 0))) ∧
    (x.unit.mode = .start → b2.toNat ≤ 2 → exec (.setRateModeFixed t .localPort b1 b2) s =
      .next (x.queued .localPort (replyRecord b1 0x26 (.refused .starting) 0))) ∧
    (x.unit.mode = .start → b1.toNat ≤ 3 → exec (.queryLink t .localPort b1) s =
      .next (x.queued .localPort (replyRecord b1 0x2A (.refused .starting) 0))) ∧
    (x.unit.mode = .start → b1.toNat ≤ 17 → exec (.queryErrors t .localPort b1) s =
      .next (x.queued .localPort (replyRecord b1 0x2A (.refused .starting) 0))) ∧
    (x.unit.mode = .start → b1 = 0 → exec (.queryUnit t .localPort b1) s =
      .next (x.queued .localPort (replyRecord b1 0x2A (.refused .starting) 0)))

/-- What becomes of a record before its own rule, but for the replies (08, R142 and R143): EMPTY is discarded; a check byte that does not
match is recorded as MSG_CHECK, with the source and the kind byte, and with the frame number from the link; a kind that is not listed is
recorded as MSG_FORMAT, and refused FORMAT but for the report class. A record of a listed kind with an examined field outside the range of
R139 (R150 and R151 for an index or a parameter) is recorded as MSG_FORMAT and refused FORMAT. The operands of the two error rows are the
model's: log 23, log 24. -/
def Obligations.UnusableRecordsAreRecorded : Prop :=
  (∀ (t : Time) (p : Port) (b1 line bearer b2 b3 ident index rate : Byte) (w v : Word) (s x : State)
      (format : Instr → Byte → Byte → Prop), x = s.begin t → x.unit.mode ≠ .halted → x.ErrorsOk → x.hears p = true →
    (∀ i kind first, format i kind first ↔
      ∀ y, y = x.raise { kind := .msgFormat, frame := if p = .link then x.coder.lastGoodNumber else none
                         detail := some (toWord (Source.code (portSource p)) kind) } →
        y.HasRoom p → exec i s = .next (y.queued p (replyRecord first kind (.refused .format) 0))) →
    (24 ≤ line.toNat → format (.seizeIn t p line bearer w) 0x11 line ∧ format (.provisionLine t p line b2 b3) 0x20 line ∧
      format (.testLine t p line) 0x24 line ∧ format (.queryLine t p line) 0x2A line) ∧
    (8 ≤ bearer.toNat → format (.seizeIn t p line bearer w) 0x11 line ∧ format (.accept t p b1 bearer w) 0x12 b1 ∧
      format (.release t p b1 bearer w v) 0x14 b1 ∧ format (.refuse t p b1 bearer w v) 0x15 b1 ∧
      format (.lockout t p b1 bearer w) 0x16 b1 ∧ format (.blockBearer t p bearer) 0x21 bearer ∧
      format (.unblockBearer t p bearer) 0x22 bearer ∧ format (.queryBearer t p bearer) 0x2A bearer) ∧
    (2 ≤ b2.toNat ∨ 2 ≤ b3.toNat → format (.provisionLine t p line b2 b3) 0x20 line) ∧
    (ident = 0 ∨ (22 ≤ ident.toNat ∧ ident.toNat ≤ 63) ∨ 79 ≤ ident.toNat →
      format (.setParam t p ident w) 0x23 ident ∧ format (.queryParam t p ident) 0x2A ident) ∧
    (3 ≤ rate.toNat → format (.setRateModeFixed t p b1 rate) 0x26 b1) ∧
    (4 ≤ index.toNat → format (.queryLink t p index) 0x2A index) ∧ (18 ≤ index.toNat → format (.queryErrors t p index) 0x2A index) ∧
    (1 ≤ index.toNat → format (.queryUnit t p index) 0x2A index)) ∧
  ∀ (t : Time) (p : Port) (src : Source) (kind : Byte) (r : Record) (s x : State), x = s.begin t → x.Sound → x.isUp = true →
    exec (.empty t p) s = .next x ∧
    (x.Quietly .msgCheck → exec (.checkByteMismatch t src kind) s = .next (x.raise
      { kind := .msgCheck, frame := if src = .localPort then none else x.coder.lastGoodNumber
        detail := some (toWord (Source.code src) kind) })) ∧
    (∀ y, y = x.raise { kind := .msgFormat, frame := if p = .link then x.coder.lastGoodNumber else none
                        detail := some (toWord (Source.code (portSource p)) r.kind) } →
      (r.kind ∉ inboundKinds → isReport r.kind = true → exec (.notListedKind t p r) s = .next y) ∧
      (r.notListed = true → isReport r.kind = false → y.HasRoom p → exec (.notListedKind t p r) s = .next
        (y.queued p (replyRecord r.b1 r.kind (.refused .format) 0))))

/-! ### Resets and restarts -/

/-- POWER_ON_RESET, where no record reads back wrong (11, R171 and R172, steps 1 to 3): every block takes its power-on values, the straps
are read, each line whose group has no card is PARKED UNFITTED (01, R20), and UNIT_REPORT waits on the local port. A record that reads back
wrong halts the unit, with TABLE_PARITY in the first-error record and one UNIT_REPORT of that kind (R178); that it is the first of several
such records, lines before bearers, is the model's choice: log 47. The time, the straps as an operand and what lies outside the part are the
model's: log 5, log 7, log 8, log 20. -/
def Obligations.PowerOnResetEntersStart : Prop :=
  ∀ (straps : Straps) (levels : BitVec 3) (s : State), levels = strapLevels straps 0 →
    ((∀ l : LineNo, (s.line l).stuck = false) → (∀ b : BearerNo, (s.bearer b).stuck = false) →
      ∃ u, exec (.powerOnReset straps) s = .next u ∧
        u = { State.reset with
          unit := { UnitRecord.powerOn with strapMask := levels, startSteps := true }
          lines := u.lines
          messages := { Messages.powerOn with localQueue := [u.unitReport] }
          pins := { Pins.powerOn with straps := straps, voiceIn := s.pins.voiceIn }
          pending := s.pending } ∧
        ∀ l : LineNo, u.line l = if levels.getLsbD (l.val / 8) then LineRecord.powerOn
          else { LineRecord.powerOn with state := .parked .unfitted, inService := false }) ∧
    (∀ id, everyRecord.find? s.stuck = some id → ∃ u, exec (.powerOnReset straps) s = .next u ∧ u.unit.mode = .halted ∧
      u.errors.first = some { error := parityError id, seconds := 0 } ∧ u.messages.linkQueue = [] ∧
      u.messages.localQueue = [u.unitReportWith 15])

/-- END_OF_START, 50 ms after the entry to START: the unit enters SERVICE, an IDLE line with its loop CLOSED goes to LOCKOUT with cause
RESTART, and the decoder's first window begins (11, R172, step 4; 01, R25; 06, R109). Before that nothing changes. The mark that steps 1 to
3 have been taken is the model's: log 6. -/
def Obligations.EndOfStartEntersService : Prop :=
  ∀ (t : Time) (s x : State), x = s.begin t → x.Clean → x.HeadIdle → x.unit.mode = .start → x.unit.startSteps = true →
    (x.now < x.unit.startTime + ms 50 → exec (.endOfStart t) s = .next x) ∧
    (x.unit.startTime + ms 50 ≤ x.now → ∃ u, exec (.endOfStart t) s = .next u ∧
      u = { x with
        unit := { x.unit with mode := .service, firstUpPending := true }
        lines := u.lines
        link := { x.link with window := some (x.param .windowLength), carried := false }
        coder := { x.coder with conceal := u.coder.conceal } } ∧
      ∀ l : LineNo,
        ((x.line l).state = .idle ∧ (x.line l).loop = .closed →
          u.line l = (x.line l).moved (.lockout .restart) ∧ u.coder.conceal[l.val] = none) ∧
        (¬ ((x.line l).state = .idle ∧ (x.line l).loop = .closed) →
          u.line l = x.line l ∧ u.coder.conceal[l.val] = x.coder.conceal[l.val]))

/-- RESTART_UNIT in SERVICE: every block takes its unit-restart values and START is entered with cause REQUESTED; the reply comes before the
UNIT_REPORT (11, R172 and R177; 08, R149; 01, R20 and R24; 02, R49). CLEAR_ERRORS clears the records and counts and keeps the routings (11,
R179). The straps are those of the latest move whose time has come (01, R20). The order of reply and report, and the moves of the straps as
an operand of the last power-on reset, are the model's: log 7, log 9. -/
def Obligations.RestartUnitEntersStart : Prop :=
  ∀ (t : Time) (p : Port) (b1 : Byte) (s x : State) (straps : BitVec 3), x = s.begin t → x.Clean → x.Serves p →
    (x.pins.straps.moves = [] ∨ (∀ m ∈ x.pins.straps.moves, x.now < m.time) → straps = x.pins.straps.levels) →
    (∀ before m after, x.pins.straps.moves = before ++ m :: after → m.time ≤ x.now → (∀ n ∈ after, x.now < n.time) →
      straps = m.levels) →
    (exec (.clearErrors t p b1) s = .next (State.queued { x with errors := { x.errors with
        first := none, next := Vector.replicate 15 false, counts := Vector.replicate 15 0 } } p (replyRecord b1 0x29 .done 0))) ∧
    ∃ u, exec (.restartUnit t p b1) s = .next u ∧
      u = { x with
        unit := { mode := .start, cause := .requested, startTime := x.now, strapMask := straps,
                  firstUpPending := false, startSteps := true }
        lines := u.lines
        bearers := u.bearers
        active := []
        counter := 1
        waiting := []
        ring := { x.ring with phases := Vector.replicate 3 [], queue := [], supply := .normal, candidate := none }
        link := { Link.powerOn with candidate := x.link.lastGood % 2, lastGood := x.link.lastGood % 2 }
        quality := Quality.powerOn
        coder := Coder.powerOn
        messages := { linkQueue := if p = .link then [replyRecord b1 0x28 .done 0] else []
                      localQueue := (if p = .link then [] else [replyRecord b1 0x28 .done 0]) ++ [u.unitReport]
                      assembler := .hunting, sending := x.messages.sending }
        testing := Testing.powerOn } ∧
      (∀ (l : LineNo) (r : LineRecord), r = { x.line l with digits := 0, run := .zero, longOpen := false } →
        (straps.getLsbD (l.val / 8) = false → u.line l = { r with state := .parked .unfitted, inService := false }) ∧
        (straps.getLsbD (l.val / 8) = true → r.state = .parked .unfitted → u.line l = { r with
          state := .idle, inService := true, cls := .ordinary, faultCount := 0, lastOutcome := none
          testDue := x.now + hours (x.param .sweepPeriod) }) ∧
        (straps.getLsbD (l.val / 8) = true → r.state ≠ .parked .unfitted → r.state ≠ .testing (some .unfitted) →
          u.line l = { r with state :=
            if r.state = .parked .fault ∨ r.state = .testing (some .fault) then .parked .fault
            else if r.inService = true then .idle else .parked .outOfService })) ∧
      ∀ b : BearerNo, u.bearer b = { x.bearer b with
        state := if b.val < 5 then (if (x.bearer b).state.maintenance = true then .blocked .maintenance else .free)
          else .unavailable (x.bearer b).state.maintenance
        entered := x.now
        disagreements := 0 }

/-! ### Settings and queries -/

/-- SET_PARAM writes the value asked for, clamped to the range, and then against its partner for the four rate thresholds (08, R151; 07,
R126); a routing is clamped to 0-3 and then to the nearest the kind allows, the lower of two (11, R174). The reply says whether a step
changed the value. SET_RATE_MODE AUTO writes the mode; FIXED at the present rate writes the mode and sets the run counters to 0 (07, R136).
-/
def Obligations.SettingsAreWritten : Prop :=
  ∀ (t : Time) (p : Port) (ident b1 : Byte) (asked : Word) (s x : State), x = s.begin t → x.Plain → x.Serves p →
    (∀ q : Param, ident.toNat = q.index.val + 1 → ∃ v,
      exec (.setParam t p ident asked) s = .next ((x.writeParam q v).queued p
        (replyRecord ident 0x23 (if v = asked.toNat then .done else .clamped) (BitVec.ofNat 16 v))) ∧
      ∀ c, c = max q.range.1 (min q.range.2 asked.toNat) →
        v = if q = .upR ∧ x.param .downS ≤ c then x.param .downS - 1
          else if q = .downS ∧ c ≤ x.param .upR then x.param .upR + 1
          else if q = .upS ∧ x.param .downW ≤ c then x.param .downW - 1
          else if q = .downW ∧ c ≤ x.param .upS then x.param .upS + 1
          else c) ∧
    (∀ k : ErrorKind, ident.toNat = k.code + 63 → ∃ r ∈ k.allowed,
      exec (.setParam t p ident asked) s = .next ((x.writeRouting k r).queued p
        (replyRecord ident 0x23 (if r.code = asked.toNat then .done else .clamped) (BitVec.ofNat 16 r.code))) ∧
      ∀ r' ∈ k.allowed, r' ≠ r → ∀ n, n = min 3 asked.toNat →
        (r.code - n) + (n - r.code) < (r'.code - n) + (n - r'.code) ∨
          ((r.code - n) + (n - r.code) = (r'.code - n) + (n - r'.code) ∧ r.code < r'.code)) ∧
    exec (.setRateModeAuto t p b1) s =
      .next (State.queued { x with quality := { x.quality with mode := .auto } } p (replyRecord b1 0x26 .done 0)) ∧
    exec (.setRateModeFixed t p b1 (byte x.link.rate.code)) s =
      .next (State.queued { x with quality := { x.quality with mode := .fixed x.link.rate, downRun := 0, upRun := 0 } } p
        (replyRecord b1 0x26 .done 0))

/-- Every QUERY with its index in range is answered on its own port with one status record of the state as it stands, and changes nothing
else (08, R150; 02, R50; 03, R58; 06, R119; 11, R173). Each record is given byte by byte (08, R141): fields of time are whole units that
saturate at 255. The seconds of a queue position without an entry, and of an empty first-error record, are the model's choice: log 45,
log 49. -/
def Obligations.QueriesAreAnswered : Prop :=
  ∀ (t : Time) (p : Port) (index : Byte) (s x : State) (answers : Instr → Record → Prop), x = s.begin t → x.Clean → x.Serves p →
    (∀ i r, answers i r ↔ exec i s = .next (x.queued p r)) →
    (∀ (l : LineNo) (r : LineRecord) (code cause outcome : Nat), lineOf index = some l → r = x.line l →
      (code, cause) = (match r.state with
        | .parked .unfitted => (0, 1) | .parked .outOfService => (0, 2) | .parked .fault => (0, 3)
        | .idle => (1, 0) | .waiting => (2, 0) | .originating _ => (3, 0) | .ringing _ => (4, 0) | .connected _ => (5, 0)
        | .lockout .congestion => (6, 1) | .lockout .withdrawn => (6, 2) | .lockout .refused => (6, 3) | .lockout .timeout => (6, 4)
        | .lockout .capacity => (6, 5) | .lockout .linkLost => (6, 6) | .lockout .restart => (6, 7) | .lockout .audit => (6, 8)
        | .lockout .farClear => (6, 9)
        | .testing none => (7, 0) | .testing (some .unfitted) => (7, 1) | .testing (some .outOfService) => (7, 2)
        | .testing (some .fault) => (7, 3)) →
      outcome = (match r.lastOutcome with
        | none => 0 | some .good => 1 | some .marginal => 2 | some .faulty => 3 | some .aborted => 4 | some .headTimeout => 5) →
      answers (.queryLine t p index) ⟨0x31, index, byte (16 * code + cause), (r.state.bearer?.map (fun b => byte b.val)).getD 0xFF,
        byte ((if r.inService = true then 128 else 0) + (if r.cls = .priority then 64 else 0) + (if r.loop = .closed then 32 else 0) +
          outcome),
        byte r.faultCount, byte (min ((r.testDue - x.now) / hours 1) 255)⟩) ∧
    (∀ (b : BearerNo) (st : BearerState) (code cause : Nat) (reference : Word), bearerOf index = some b → st = (x.bearer b).state →
      (code, cause) = (match st with
        | .unavailable held => (0, if held = true then 1 else 0) | .free => (1, 0) | .heldOut _ _ _ => (2, 0) | .heldIn _ => (3, 0)
        | .heldMove => (4, 0) | .active _ => (5, 0) | .guarded _ _ pendingBlock => (6, if pendingBlock = true then 1 else 0)
        | .blocked .maintenance => (7, 1) | .blocked .far => (7, 2)) →
      reference = st.reference?.getD 0 →
      answers (.queryBearer t p index) ⟨0x32, index, byte (16 * code + cause), (st.call?.map (fun c => byte c.line.val)).getD 0xFF,
        hiByte reference, loByte reference,
        (st.call?.map (fun c => byte (1 + (if c.direction = .incoming then 128 else 0) + if c.cls = .priority then 64 else 0))).getD 0⟩) ∧
    (∀ state bad damaged hold seconds told : Nat,
      (state, bad, damaged) = (match x.link.state with
        | .disabled => (0, 0, 0) | .hunt _ => (1, 0, 0) | .verify _ _ => (2, 0, 0) | .up bad damaged => (3, bad, damaged)) →
      (hold, seconds) = (match x.link.state.hold? with
        | none => (0, 0) | some expiry => (32, (expiry - x.now) / sec 1)) →
      told = (match x.link.announcement with
        | none => 0 | some a => 128 + 16 * a.next.code + a.countdown % 16) →
      index = 0 → answers (.queryLink t p index) ⟨0x33, 0, byte (64 * state + hold + 4 * x.link.rate.code + x.coder.rxRate.code),
        byte (16 * (x.link.candidate % 16) + x.link.lastGood % 16), byte (min seconds 255), byte told,
        byte (16 * (bad % 16) + damaged % 16)⟩) ∧
    (∀ first second : Nat, (index = 1 ∧ first = x.quality.qNear ∧ second = x.quality.qFar) ∨
        (index = 2 ∧ first = x.quality.decision ∧ second = x.quality.estimate) →
      answers (.queryLink t p index) ⟨0x33, index, byte (first / 256), byte first, byte (second / 256), byte second, 0⟩) ∧
    (∀ mode plan target : Nat,
      mode = (match x.quality.mode with | .auto => 0 | .fixed r => 128 + r.code) →
      (plan, target) = (match x.quality.plan with
        | none => (0, 0xFF)
        | some q => ((match q.phase with | .drain _ => 1 | .countdown _ => 2) + (if q.forced = true then 128 else 0), q.target.code)) →
      index = 3 → answers (.queryLink t p index) ⟨0x33, 3, byte x.quality.downRun, byte x.quality.upRun, byte mode, byte plan,
        byte target⟩) ∧
    (∀ count urgent line cls seconds : Nat, count = x.waiting.length →
      urgent = (x.waiting.filter (fun e => decide (e.cls = .priority))).length →
      (line, cls, seconds) = (match x.waiting[index.toNat]? with
        | none => (0xFF, 0xFF, 0)
        | some e => (e.line.val, (if e.cls = .priority then 1 else 0), min ((x.now - e.joined) / sec 1) 255)) →
      answers (.queryQueue t p index) ⟨0x34, index, byte count, byte urgent, byte line, byte cls, byte seconds⟩) ∧
    (index = 0 →
      (x.errors.first = none → answers (.queryErrors t p index) ⟨0x35, 0, 0, 0, 0, 0xFF, 0xFF⟩) ∧
      ∀ f seconds, x.errors.first = some f → seconds = min f.seconds 65535 → answers (.queryErrors t p index) ⟨0x35, 0,
        byte f.error.kind.code, byte (seconds / 256), byte seconds, (f.error.line.map (fun l => byte l.val)).getD 0xFF,
        (f.error.bearer.map (fun b => byte b.val)).getD 0xFF⟩) ∧
    (∀ k : ErrorKind, index.toNat = k.code → answers (.queryErrors t p index) ⟨0x35, index, byte (x.count k),
      (match x.routing k with | .count => 0 | .report => 1 | .restartLink => 2 | .restartUnit => 3),
      (if x.isFirst k = true then 1 else 0) + (if x.inNext k = true then 2 else 0), 0, 0⟩) ∧
    (∀ (frame : Option Byte) (detail : Option Word), frame = x.errors.first.bind (fun f => f.error.frame) →
      detail = x.errors.first.bind (fun f => f.error.detail) →
      index = 16 → answers (.queryErrors t p index) ⟨0x35, 16, (if frame.isSome = true then 1 else 0) + (if detail.isSome = true then 2 else 0),
        frame.getD 0, hiByte (detail.getD 0), loByte (detail.getD 0), 0⟩) ∧
    (∀ set : Word, (∀ k : ErrorKind, set.getLsbD (k.code - 1) = x.inNext k) → set.getLsbD 15 = false → index = 17 →
      answers (.queryErrors t p index) ⟨0x35, 17, hiByte set, loByte set, 0, 0, 0⟩) ∧
    (∀ value default : Nat, (∃ q : Param, index.toNat = q.index.val + 1 ∧ value = x.param q ∧ default = q.default) ∨
        (∃ k : ErrorKind, index.toNat = k.code + 63 ∧ value = (x.routing k).code ∧ default = k.defaultRouting.code) →
      answers (.queryParam t p index) ⟨0x36, index, byte (value / 256), byte value, byte (default / 256), byte default, 0⟩) ∧
    (∀ groups cause kind : Nat, groups = ((List.range 3).filter (fun g => x.unit.strapMask.getLsbD g)).length →
      (cause, kind) = (match x.unit.cause with | .powerOn => (1, 0) | .requested => (2, 0) | .error k => (3, k.code)) →
      index = 0 → answers (.queryUnit t p index) ⟨0x37, 0xFF, byte (16 * groups + x.unit.strapMask.toNat), 0x21, byte cause,
        byte (16 * kind + match x.ring.supply with | .normal => 0 | .economy => 1 | .reserve => 2),
        byte (1 + if x.testing.inService = true then 0 else 128)⟩)

/-! ### The local port -/

/-- The local receive assembler (08, R144): 0x7E begins a record, seven bytes are gathered, the eighth hands the record on; a stop-bit
error, or more than 20 ms without a byte, abandons a partial record with MSG_FRAMING and the bytes gathered. The local transmitter sends the
records of its queue one after the other, each as 0x7E and its 8 bytes in 9.375 ms, in HALTED too (08, R145; 11, R178). A byte after the gap and the moment of
sending are the model's: log 26, log 38. -/
def Obligations.LocalPortMovesItsRecords : Prop :=
  (∀ (t : Time) (b : Byte) (s x y : State), x = s.begin t → x.Sound →
      y = { x with messages := { x.messages with assembler := .hunting } } →
      (x.messages.assembler = .hunting →
        exec (.stopBitError t) s = .next x ∧ exec (.framingTimeout t) s = .next x ∧
        exec (.byteCompleted t b) s = .next (if b = 0x7E then
          { x with messages := { x.messages with assembler := .collecting [] x.now } } else x)) ∧
      (∀ bytes last, x.messages.assembler = .collecting bytes last →
        exec (.stopBitError t) s = .next (y.raise { kind := .msgFraming, detail := some (toWord 1 (byte bytes.length)) }) ∧
        (last + ms 20 < x.now →
          exec (.framingTimeout t) s = .next (y.raise { kind := .msgFraming, detail := some (toWord 1 (byte bytes.length)) })) ∧
        (x.now ≤ last + ms 20 → exec (.framingTimeout t) s = .next x ∧
          (bytes.length < 7 → exec (.byteCompleted t b) s = .next
            { x with messages := { x.messages with assembler := .collecting (bytes ++ [b]) x.now } }) ∧
          (∀ r : Record, bytes = recordBytes r → ∀ z, z = { s with messages := { s.messages with assembler := .hunting } } →
            exec (.byteCompleted t b) s = if checkByte bytes = b then exec (.notListedKind t .localPort r) z
              else exec (.checkByteMismatch t .localPort r.kind) z)))) ∧
  (∀ (t : Time) (s x : State), x = s.begin t →
      (∀ y, x.messages.sending = some y → x.now < y.until_ → exec (.localTransmit t) s = .next x) ∧
      ((∀ y, x.messages.sending = some y → y.until_ ≤ x.now) →
        (∀ r rest, x.messages.localQueue = r :: rest → exec (.localTransmit t) s = .next { x with messages := { x.messages with
          localQueue := rest, sending := some { record := r, until_ := x.now + 9375, wire :=
            [0x7E, r.kind, r.b1, r.b2, r.b3, r.b4, r.b5, r.b6, checkByte [r.kind, r.b1, r.b2, r.b3, r.b4, r.b5, r.b6]] } } }) ∧
        (x.messages.localQueue = [] → exec (.localTransmit t) s = .next { x with messages := { x.messages with sending := none } })))

/-- A whole record is taken as the command of its kind, and of its subject, mode or action (08, R139 and R142). That NOT_LISTED_KIND carries
a whole record is the model's: log 23. -/
def Obligations.RecordsAreTakenByTheirKind : Prop :=
  ∀ (t : Time) (p : Port) (b1 b2 b3 b4 b5 b6 : Byte) (s : State) (take : Byte → Host.Outcome State Fault Refusal),
    (∀ k, take k = exec (.notListedKind t p { kind := k, b1 := b1, b2 := b2, b3 := b3, b4 := b4, b5 := b5, b6 := b6 }) s) →
    take 0x00 = exec (.empty t p) s ∧ take 0x11 = exec (.seizeIn t p b1 b2 (toWord b3 b4)) s ∧
    take 0x12 = exec (.accept t p b1 b2 (toWord b3 b4)) s ∧
    take 0x14 = exec (.release t p b1 b2 (toWord b3 b4) (toWord b5 b6)) s ∧
    take 0x15 = exec (.refuse t p b1 b2 (toWord b3 b4) (toWord b5 b6)) s ∧
    take 0x16 = exec (.lockout t p b1 b2 (toWord b3 b4)) s ∧
    take 0x20 = exec (.provisionLine t p b1 b2 b3) s ∧ take 0x21 = exec (.blockBearer t p b1) s ∧
    take 0x22 = exec (.unblockBearer t p b1) s ∧ take 0x23 = exec (.setParam t p b1 (toWord b2 b3)) s ∧
    take 0x24 = exec (.testLine t p b1) s ∧ take 0x25 = exec (.resumeTests t p b1) s ∧
    (b2 = 0 → take 0x26 = exec (.setRateModeAuto t p b1) s) ∧ (b2 = 1 → take 0x26 = exec (.setRateModeFixed t p b1 b3) s) ∧
    (b2 = 0 → take 0x27 = exec (.linkControlEnable t p b1) s) ∧ (b2 = 1 → take 0x27 = exec (.linkControlDisable t p b1) s) ∧
    (b2 = 2 → take 0x27 = exec (.linkControlRestart t p b1) s) ∧
    take 0x28 = exec (.restartUnit t p b1) s ∧ take 0x29 = exec (.clearErrors t p b1) s ∧
    (b2 = 0 → take 0x2A = exec (.queryLine t p b1) s) ∧ (b2 = 1 → take 0x2A = exec (.queryBearer t p b1) s) ∧
    (b2 = 2 → take 0x2A = exec (.queryLink t p b1) s) ∧ (b2 = 3 → take 0x2A = exec (.queryQueue t p b1) s) ∧
    (b2 = 4 → take 0x2A = exec (.queryErrors t p b1) s) ∧ (b2 = 5 → take 0x2A = exec (.queryParam t p b1) s) ∧
    (b2 = 6 → take 0x2A = exec (.queryUnit t p b1) s)

/-! ### The bearer audit -/

/-- An audit record that the checks of R143 of 08 pass gives Q_far, and is compared if the bearer is not in HELD_MOVE and entered its state
200 ms ago or more (09, R154). The judgement and the count after it are those of the table of R155; here the count stays below 2. A record
of index 0xFF changes nothing; one with another bad index, a bad view or a bad line is recorded as MSG_FORMAT. -/
def Obligations.AuditRecordIsJudged : Prop :=
  ∀ (t : Time) (a : AuditSlot) (s x y : State), x = s.begin t → x.Plain → x.isUp = true →
    y = { x with quality := { x.quality with qFar := a.quality.toNat } } →
    (a.index = 0xFF → exec (.auditRecord t a) s = .next x) ∧
    (∀ e, e = { kind := .msgFormat, frame := x.coder.lastGoodNumber, detail := some (toWord 2 a.index) } →
      (a.index ≠ 0xFF → 8 ≤ a.index.toNat → exec (.auditRecord t a) s = .next (x.raise e)) ∧
      (a.index.toNat < 8 → 4 ≤ a.view.toNat ∨ (a.line ≠ 0xFF ∧ 24 ≤ a.line.toNat) →
        exec (.auditRecord t a) s = .next (y.raise e))) ∧
    (∀ b far, bearerOf a.index = some b → viewOf a.view = some far → a.line = 0xFF ∨ a.line.toNat < 24 →
      ((x.bearer b).state = .heldMove ∨ x.now < (x.bearer b).entered + ms 200 → exec (.auditRecord t a) s = .next y) ∧
      ((x.bearer b).state ≠ .heldMove → (x.bearer b).entered + ms 200 ≤ x.now →
        ∀ rest busy : Prop,
        rest = ((x.bearer b).state.view = .idle ∨ (x.bearer b).state.view = .unavailable) →
        busy = ((x.bearer b).state.view = .busy ∧ far = .busy ∧ (x.bearer b).state.reference? = some a.reference) →
        ((rest ∧ (far = .idle ∨ far = .unavailable)) ∨ busy ∨ ((x.bearer b).state.view = .blocked ∧ far = .blocked) ∨
            (x.bearer b).state = .blocked .maintenance →
          exec (.auditRecord t a) s = .next (y.withBearer b { x.bearer b with disagreements := 0 })) ∧
        ((x.bearer b).state = .blocked .far → far ≠ .blocked → exec (.auditRecord t a) s = .next (y.bearerTo b .free)) ∧
        ((rest ∧ (far = .busy ∨ far = .blocked)) ∨ ((x.bearer b).state.view = .busy ∧ ¬ busy) →
          (x.bearer b).disagreements = 0 →
          exec (.auditRecord t a) s = .next (y.withBearer b { x.bearer b with disagreements := 1 }))))

/-- A disagreement that brings the count to 2 is resolved at once, and AUDIT_CONFLICT recorded, here with a routing below a restart (09,
R156 to R160): RELEASE with cause AUDIT for a far call the cabinet does not have, the end of a local call the head-end does not have, the
block of a bearer that the head-end blocks. The end of a call that is being relocated frees its destination and removes its pair (02, R46;
07, R133). A ringing line is here one with its loop OPEN. The detail of AUDIT_CONFLICT for a far view that is not BUSY is the model's
reading: log 22. -/
def Obligations.AuditDisagreementIsResolved : Prop :=
  ∀ (t : Time) (a : AuditSlot) (b : BearerNo) (far : View) (s x y z : State) (e : ErrorEvent), x = s.begin t → x.Plain →
    x.isUp = true → x.Quietly .auditConflict → bearerOf a.index = some b → viewOf a.view = some far →
    a.line = 0xFF ∨ a.line.toNat < 24 → (x.bearer b).entered + ms 200 ≤ x.now → 1 ≤ (x.bearer b).disagreements →
    y = { x with quality := { x.quality with qFar := a.quality.toNat } } → z = y.withBearer b { x.bearer b with disagreements := 0 } →
    e = { kind := .auditConflict, bearer := some b, frame := x.coder.lastGoodNumber, detail := some a.reference } →
    (∀ release, release = releaseRecord none b a.reference .audit →
      ((x.bearer b).state = .free ∨ (∃ r u k, (x.bearer b).state = .guarded r u k) ∨ (∃ k, (x.bearer b).state = .unavailable k) →
        far = .busy → exec (.auditRecord t a) s = .next ((z.sendCall release).raise e)) ∧
      ((x.bearer b).state = .free ∨ (∃ r u, (x.bearer b).state = .guarded r u false) → far = .blocked →
        exec (.auditRecord t a) s = .next ((y.bearerTo b (.blocked .far)).raise e)) ∧
      ((∃ r u, (x.bearer b).state = .guarded r u true) → far = .blocked →
        exec (.auditRecord t a) s = .next ((y.bearerTo b (.blocked .maintenance)).raise e)) ∧
      ((∃ k, (x.bearer b).state = .unavailable k) → far = .blocked → exec (.auditRecord t a) s = .next (z.raise e)) ∧
      (∀ c k l, ((∃ u r, (x.bearer b).state = .heldOut c u r) ∨ (x.bearer b).state = .active c) → l = c.line →
        k = (if (x.line l).loop = .closed then LineState.lockout .audit else .idle) →
        (far = .idle ∨ far = .unavailable → exec (.auditRecord t a) s = .next
          (((y.guardTo b c).lineTo l k).raise { e with line := some l })) ∧
        (far = .busy → c.reference ≠ a.reference → exec (.auditRecord t a) s = .next
          ((((y.guardTo b c).lineTo l k).sendCall release).raise { e with line := some l })) ∧
        (far = .blocked → exec (.auditRecord t a) s = .next
          (((y.endTo b c (.blocked .far)).lineTo l k).raise
            { e with line := some l }))) ∧
      (∀ c l, (x.bearer b).state = .heldIn c → l = c.line → (x.line l).loop = .opened →
        (far = .idle ∨ far = .unavailable → exec (.auditRecord t a) s = .next
          (((((y.guardTo b c).removeRing l).serveRings).lineTo l .idle).raise { e with line := some l })) ∧
        (far = .busy → c.reference ≠ a.reference → exec (.auditRecord t a) s = .next
          ((((((y.guardTo b c).removeRing l).serveRings).lineTo l .idle).sendCall release).raise { e with line := some l })) ∧
        (far = .blocked → exec (.auditRecord t a) s = .next
          (((((y.endTo b c (.blocked .far)).removeRing l).serveRings).lineTo l .idle).raise { e with line := some l }))))

/-! ### Line tests -/

/-- TEST_LINE on a port with room for its reply: the checks of R164 of 10 in their order. A request that passes is listed while a test runs;
with the head free and the list empty its test is started at once (R163 and R165): the test record is written in SETTLING with its timer
of 200 ms, and the line is TESTING and keeps its park cause. -/
def Obligations.TestRequestsAreJudged : Prop :=
  ∀ (t : Time) (p : Port) (line : Byte) (l : LineNo) (s x : State), x = s.begin t → x.Sound → x.waiting = [] → x.quality.plan = none →
    x.Serves p → lineOf line = some l →
    ∀ answer : ReplyStatus → Record, (∀ st, answer st = replyRecord line 0x24 st 0) →
    ((x.line l).state = .parked .unfitted →
      exec (.testLine t p line) s = .next (x.queued p (answer (.refused .unfitted)))) ∧
    ((x.line l).state ≠ .parked .unfitted → x.testing.inService = false →
      exec (.testLine t p line) s = .next (x.queued p (answer (.refused .headOut)))) ∧
    ((x.line l).state ≠ .parked .unfitted → x.testing.inService = true →
      ((x.line l).state ≠ .idle → (∀ c, (x.line l).state ≠ .parked c) →
        exec (.testLine t p line) s = .next (x.queued p (answer (.refused .busy)))) ∧
      ((x.line l).state = .idle ∨ (∃ c, (x.line l).state = .parked c) →
        ((∃ e ∈ x.testing.demand, e.line = l) →
          exec (.testLine t p line) s = .next (x.queued p (answer (.refused .duplicate)))) ∧
        ((∀ e ∈ x.testing.demand, e.line ≠ l) → 4 ≤ x.testing.demand.length →
          exec (.testLine t p line) s = .next (x.queued p (answer (.refused .listFull)))) ∧
        ((∀ e ∈ x.testing.demand, e.line ≠ l) → x.testing.demand.length < 4 → x.testing.test.isSome = true →
          exec (.testLine t p line) s = .next (State.queued { x with testing := { x.testing with
            demand := x.testing.demand ++ [{ line := l, port := p }] } } p (answer .done))) ∧
        (x.testing.demand = [] → x.testing.test = none → exec (.testLine t p line) s = .next
          (({ x with testing := { x.testing with
              test := some { line := l, kind := .demand p, phase := .settling, timer := x.now + ms 200 } } }.lineTo l
            (.testing (x.line l).state.park?)).queued p (answer .done)))))

/-- RESUME_TESTS puts the head in service, here with nothing listed and no line due for the sweep (10, R168). A line's test due time starts
a routine test of the eligible line with the earliest due time, the lower number of two (R163). The settle time over, the measurement is
asked for and the head timeout starts (R165). -/
def Obligations.TestsAreStarted : Prop :=
  ∀ (t : Time) (p : Port) (b1 : Byte) (l : LineNo) (s x : State), x = s.begin t → x.Sound → x.waiting = [] → x.quality.plan = none →
    (x.Serves p → x.testing.demand = [] → x.ring.supply = .reserve ∨ (∀ k : LineNo, x.now < (x.line k).testDue) →
      exec (.resumeTests t p b1) s = .next (State.queued { x with testing := { x.testing with
        inService := true, timeoutRun := 0 } } p (replyRecord b1 0x25 .done 0))) ∧
    (x.now < (x.line l).testDue → exec (.testDue t l) s = .next x) ∧
    (x.testing.inService = true → x.testing.test = none → x.testing.demand = [] → x.ring.supply ≠ .reserve →
      (x.line l).state = .idle ∨ (x.line l).state = .parked .fault → (x.line l).testDue ≤ x.now →
      (∀ k : LineNo, k ≠ l → (x.line k).state = .idle ∨ (x.line k).state = .parked .fault → (x.line k).testDue ≤ x.now →
        (x.line l).testDue < (x.line k).testDue ∨ ((x.line l).testDue = (x.line k).testDue ∧ l < k)) →
      exec (.testDue t l) s = .next ({ x with testing := { x.testing with
          test := some { line := l, kind := .routine, phase := .settling, timer := x.now + ms 200 } } }.lineTo l
        (.testing (x.line l).state.park?))) ∧
    (∀ r, x.testing.test = some r →
      (r.phase = .settling → r.timer ≤ x.now → exec (.settleEnd t) s = .next { x with testing := { x.testing with
        test := some { r with phase := .measuring, timer := x.now + sec (x.param .headTimeout) } } }) ∧
      (r.phase = .measuring ∨ x.now < r.timer → exec (.settleEnd t) s = .next x))

/-- A measurement in MEASURING ends the test (10, R167): the timeout run is 0, the fault count and the line's next state follow the table,
the outcome is written, the line is due one sweep period later, and TEST_RESULT with the codes goes to both ports for a routine test and to
the requesting port for a demand test. A line that enters IDLE is here one with its loop OPEN, and no other test is due. Otherwise a
measurement is ignored (R165). The units of the head's values are the model's: log 27. -/
def Obligations.MeasurementEndsTheTest : Prop :=
  ∀ (t : Time) (ohms insulationOhms millivolts count : Nat) (r : TestRecord) (l : LineNo) (c : Codes) (s x : State)
    (left : LineState → State) (report : State → State), x = s.begin t → x.Sound → x.waiting = [] → x.quality.plan = none →
    x.testing.test = some r → r.line = l → c = codesOf ohms insulationOhms millivolts →
    (r.phase = .settling → exec (.measurement t ohms insulationOhms millivolts) s = .next x) ∧
    (r.phase = .measuring → x.testing.demand = [] → 0 < x.param .sweepPeriod →
      x.ring.supply = .reserve ∨ (∀ k : LineNo, k ≠ l → x.now < (x.line k).testDue) →
      count = (if c.outcome = .faulty then min 5 ((x.line l).faultCount + 1) else 0) →
      (∀ st, left st = State.withLine (State.lineTo { x with testing := { x.testing with test := none, timeoutRun := 0 } } l st) l
        { (x.line l).moved st with
          faultCount := count, lastOutcome := some c.outcome, testDue := x.now + hours (x.param .sweepPeriod) }) →
      (∀ y, report y = match r.kind with
        | .routine => y.sendBoth (testResultRecord l c.outcome c.ohms c.insulation c.volts)
        | .demand p => y.send p (testResultRecord l c.outcome c.ohms c.insulation c.volts)) →
      ((x.line l).state = .testing none → c.outcome = .faulty → x.param .parkThreshold ≤ count →
        exec (.measurement t ohms insulationOhms millivolts) s = .next (report ((left (.parked .fault)).raise
          { kind := .lineFault, line := some l }))) ∧
      ((x.line l).state = .testing none → c.outcome ≠ .faulty ∨ count < x.param .parkThreshold → (x.line l).loop = .opened →
        exec (.measurement t ohms insulationOhms millivolts) s = .next (report (left .idle))) ∧
      ((x.line l).state = .testing (some .fault) → c.outcome = .faulty →
        exec (.measurement t ohms insulationOhms millivolts) s = .next (report (left (.parked .fault)))) ∧
      ((x.line l).state = .testing (some .fault) → c.outcome ≠ .faulty → (x.line l).loop = .opened →
        exec (.measurement t ohms insulationOhms millivolts) s = .next (report (left .idle))) ∧
      ((x.line l).state = .testing (some .outOfService) →
        exec (.measurement t ohms insulationOhms millivolts) s = .next (report (left (.parked .outOfService)))))

/-- A head timeout returns the line to its prior state, here IDLE with its loop OPEN or PARKED; TEST_HEAD is recorded, TEST_RESULT goes out
with the codes at 0, and the second timeout in a row takes the head out of service (10, R168). A seizure indication aborts the test: the
loop is CLOSED, and a line whose prior state was IDLE makes an off-hook arrival (10, R169; 01, R18; 03, R51). No other test is due. -/
def Obligations.TestsAreAborted : Prop :=
  ∀ (t : Time) (r : TestRecord) (l : LineNo) (s x : State) (report : TestOutcome → State → State), x = s.begin t → x.Sound →
    x.waiting = [] → x.quality.plan = none → x.testing.test = some r → r.line = l →
    (∀ o y, report o y = match r.kind with
      | .routine => y.sendBoth (testResultRecord l o 0 0 0)
      | .demand p => y.send p (testResultRecord l o 0 0 0)) →
    (r.phase = .settling ∨ x.now < r.timer → exec (.headTimeout t) s = .next x) ∧
    (r.phase = .measuring → r.timer ≤ x.now →
      0 < x.testing.timeoutRun ∨ (x.testing.demand = [] ∧ (x.ring.supply = .reserve ∨ ∀ k : LineNo, x.now < (x.line k).testDue)) →
      ∀ left : LineState → State, (∀ st, left st = State.withLine (State.lineTo { x with testing := { x.testing with
          test := none
          timeoutRun := if 0 < x.testing.timeoutRun then 0 else 1
          inService := if 0 < x.testing.timeoutRun then false else x.testing.inService } } l st) l
        { (x.line l).moved st with lastOutcome := some .headTimeout }) →
      ((x.line l).state = .testing none → (x.line l).loop = .opened → exec (.headTimeout t) s = .next
        (report .headTimeout ((left .idle).raise { kind := .testHead, line := some l }))) ∧
      (∀ c, (x.line l).state = .testing (some c) → exec (.headTimeout t) s = .next
        (report .headTimeout ((left (.parked c)).raise { kind := .testHead, line := some l })))) ∧
    (x.testing.demand = [] ∧ (x.ring.supply = .reserve ∨ ∀ k : LineNo, x.now < (x.line k).testDue) →
      ∀ (y : State) (record : LineState → LineRecord) (call : Call), y = { x with testing := { x.testing with test := none } } →
      (∀ st, record st = { (x.line l).moved st with
        loop := .closed, intervalStart := x.now, run := .zero, longOpen := false, lastOutcome := some .aborted }) →
      call = Call.mk l x.nextReference .outgoing (x.line l).cls none →
      (∀ c, (x.line l).state = .testing (some c) → exec (.seizureIndication t) s = .next
        (report .aborted ((y.lineTo l (.parked c)).withLine l (record (.parked c))))) ∧
      ((x.line l).state = .testing none → x.isUp = false ∨ x.lowestFree = none → exec (.seizureIndication t) s = .next
        (report .aborted (State.withLine { y.lineTo l .waiting with
          waiting := [{ line := l, cls := (x.line l).cls, joined := x.now }] } l (record .waiting)))) ∧
      (∀ b, (x.line l).state = .testing none → x.isUp = true → x.lowestFree = some b → exec (.seizureIndication t) s = .next
        (report .aborted (((({ y.bearerTo b (.heldOut call (x.now + sec (x.param .reservationTimeout)) x.now) with
            counter := call.reference + 2 }).lineTo l (.originating b)).withLine l (record (.originating b))).sendCall
          (seizeOutRecord l b call.reference call.cls)))))

/-! ### The link -/

/-- LINK_CONTROL where no call is torn down, and the hold timer before its expiry (06, R117 and R118): ENABLE takes a DISABLED link to HUNT
in a new episode with a new window and LINK_STATE; it leaves another link as it is, as DISABLE leaves a DISABLED one; RESTART of a DISABLED
link is refused. -/
def Obligations.LinkControlIsAnswered : Prop :=
  ∀ (t : Time) (p : Port) (b1 : Byte) (s x y : State), x = s.begin t → x.unit.mode = .service →
    y = { x with link := { x.link with
      state := .hunt Episode.fresh, candidate := x.link.lastGood % 2, window := some (x.param .windowLength), carried := false } } →
    (x.Serves p → x.link.state = .disabled → x.messages.localQueue.length < 15 →
      exec (.linkControlEnable t p b1) s = .next ((y.queued .localPort (y.linkStateRecord .enabled)).queued p
        (replyRecord b1 0x27 .done 0))) ∧
    (x.Serves p → x.link.state ≠ .disabled →
      exec (.linkControlEnable t p b1) s = .next (x.queued p (replyRecord b1 0x27 .done 0))) ∧
    (x.Serves p → x.link.state = .disabled →
      exec (.linkControlDisable t p b1) s = .next (x.queued p (replyRecord b1 0x27 .done 0)) ∧
      exec (.linkControlRestart t p b1) s = .next (x.queued p (replyRecord b1 0x27 (.refused .linkDisabled) 0))) ∧
    ((∀ expiry, x.link.state.hold? = some expiry → x.now < expiry) → exec (.linkFailure t) s = .next x)

/-- DISABLE and RESTART of a link that is not DISABLED, and link failure at the hold timer's expiry, with LINK_LOST (06, R117 and R118): the
rates, the announcement, the plan, the numbers and the pairs go, the link is DISABLED or hunts in a new episode, the link queue is emptied,
LINK_STATE goes to the local port, and every call is torn down (02, R47; 01, R26): each bearer, the active list, the ring tables and the
lines. A ringing line is here one with its loop OPEN. The order of bearers and lines is the model's: log 36. -/
def Obligations.LinkIsTakenDown : Prop :=
  ∀ (t : Time) (p : Port) (b1 : Byte) (s x z y : State) (i : Instr) (cause : LinkCause) (answer : Option Record), x = s.begin t →
    x.Sound → x.HeadIdle → (∀ l b, (x.line l).state = .ringing b → (x.line l).loop = .opened) →
    z = { x with
      link := { state := .hunt Episode.fresh, rate := .robust, candidate := x.link.lastGood % 2, lastGood := x.link.lastGood % 2
                announcement := none, switchDue := none, window := some (x.param .windowLength), carried := false }
      quality := { x.quality with window := none, downRun := 0, upRun := 0, plan := none }
      coder := { x.coder with
        rxRate := .robust, rxCountdown := none, expected := none, lastGoodNumber := none, relocations := [], sinceSwitch := none } } →
    (i = .linkControlDisable t p b1 ∧ x.Serves p ∧ x.link.state ≠ .disabled ∧ cause = .disabled ∧
        answer = some (replyRecord b1 0x27 .done 0) ∧
        y = { z with link := { z.link with state := .disabled, candidate := x.link.candidate % 2, window := none } }) ∨
      (i = .linkControlRestart t p b1 ∧ x.Serves p ∧ x.link.state ≠ .disabled ∧ cause = .restarted ∧
        answer = some (replyRecord b1 0x27 .done 0) ∧ y = z) ∨
      (i = .linkFailure t ∧ x.Quietly .linkLost ∧ (∃ expiry, x.link.state.hold? = some expiry ∧ expiry ≤ x.now) ∧ cause = .failed ∧
        answer = none ∧ y = z.raise { kind := .linkLost, detail := some (BitVec.ofNat 16 x.link.rate.code) }) →
    y.messages.localQueue.length < 15 →
    ∃ u, exec i s = .next u ∧
      u = { y with
        lines := u.lines
        bearers := u.bearers
        active := []
        ring := { y.ring with phases := Vector.replicate 3 [], queue := [] }
        coder := { y.coder with conceal := u.coder.conceal }
        messages := { y.messages with
          linkQueue := if p = .link then answer.toList else []
          localQueue := y.messages.localQueue ++ [y.linkStateRecord cause] ++ if p = .link then [] else answer.toList } } ∧
      (∀ (b : BearerNo) (st : BearerState), st = (if b.val < 5 then
          (if (∃ held, (x.bearer b).state = .unavailable held) then (x.bearer b).state
            else if (x.bearer b).state.maintenance = true then .blocked .maintenance else .free)
          else .unavailable (x.bearer b).state.maintenance) →
        u.bearer b = if st = (x.bearer b).state then x.bearer b else (x.bearer b).moved st x.now) ∧
      ∀ l : LineNo,
        ((x.line l).state.bearer?.isSome = true → u.coder.conceal[l.val] = none ∧
          u.line l = (x.line l).moved (if (x.line l).loop = .closed then .lockout .linkLost else .idle)) ∧
        ((x.line l).state.bearer? = none → u.line l = x.line l ∧ u.coder.conceal[l.val] = x.coder.conceal[l.val])

/-! ### Frames -/

/-- The frame assembly event, each 10 ms, where no rate switch is due (05, R90 and R95 to R97): the header and the payload units of the unit
and link state, scrambled and coded with the stages running on, are given to the modem as 960, 1280 or 1440 info bits; the frame number
moves on, the message in the slot leaves its queue, and an announcement counts down, the switch being due after countdown 1 (R103). The rate
due between the frame with countdown 1 and the switch frame is a field of the model's: log 11. -/
def Obligations.FrameIsAssembled : Prop :=
  ∀ (t : Time) (v : Voice) (s x : State), x = s.begin t → x.unit.mode ≠ .halted → x.Clean →
    (x.now % ms 10 ≠ 0 → exec (.frameAssembly t v) s = .next x) ∧
    (x.now % ms 10 = 0 → x.link.switchDue = none →
      ∀ (r : Rate) (control : Byte) (audit : List Byte) (message : Record) (payload : BearerNo → Block) (queue : List Record)
        (info : List Byte) (b : BearerNo) (st : BearerState),
      b.val = x.coder.txNumber.toNat % 8 → st = (x.bearer b).state →
      ((x.unit.mode = .start ∨ x.link.state = .disabled) ∧ r = .robust ∧ control = 0 ∧
          audit = auditBytes 0xFF 0 0xFF 0 0 ∧ message = emptyRecord ∧ queue = x.messages.linkQueue ∧
          (∀ k, payload k = Config.idleBlock)) ∨
        (x.unit.mode = .service ∧ x.link.state ≠ .disabled ∧ r = x.link.rate ∧
          control = (match x.link.announcement with
            | some a => controlByte x.link.rate a.next a.countdown
            | none => controlByte x.link.rate x.link.rate 0) ∧
          (∀ k, payload k = match (x.bearer k).state with
            | .active c => v[c.line.val]
            | _ => Config.idleBlock) ∧
          ((x.isUp = false ∧ audit = auditBytes 0xFF 0 0xFF 0 0 ∧ message = emptyRecord ∧ queue = x.messages.linkQueue) ∨
            (x.isUp = true ∧ message = x.messages.linkQueue.head?.getD emptyRecord ∧ queue = x.messages.linkQueue.tail ∧
              audit = auditBytes (bearerByte b) (View.code st.view) (lineByteOr (st.call?.map (·.line)))
                ((st.call?.map (·.reference)).getD 0) (BitVec.ofNat 16 x.quality.qNear)))) →
      info = [0xD3, 0x5A, x.coder.txNumber, control] ++ audit ++ recordWire message ++
        (allBearers.filter (fun k => decide (k.val < r.capacity))).flatMap (fun k => blockBytes (payload k)) →
      info.length * 8 = r.infoBits ∧
      exec (.frameAssembly t v) s = .next { x with
        link := { x.link with
          announcement := x.link.announcement.bind (fun a =>
            if a.countdown ≤ 1 then none else some { a with countdown := a.countdown - 1 })
          switchDue := x.link.announcement.bind (fun a => if a.countdown ≤ 1 then some a.next else none) }
        coder := { x.coder with
          stages := (encodeBits r 0 x.coder.stages (scrambleFrame (bitsOf info))).2
          txNumber := x.coder.txNumber + 1
          sinceSwitch := x.coder.sinceSwitch.map (fun n => min 16 (n + 1)) }
        messages := { x.messages with linkQueue := queue }
        pins := { x.pins with
          voiceIn := v
          frame := some { rate := r, info := info
                          coded := (encodeBits r 0 x.coder.stages (scrambleFrame (bitsOf info))).1 } } })

/-- The transmit switch frame of a link that is UP, with no line waiting (05, R103; 07, R127 and R134; 02, R30): before the frame the rate
becomes the announced one; each pair's destination takes its source's call, without its target, and the active list and the line name it in
the source's place; then the bearers the new rate does not provide are UNAVAILABLE and those it newly provides are FREE, or BLOCKED if a
block was held. The plan and the BER window end, the run counters are 0, and the frame goes out at the new rate. The Link Coder keeps the
pairs until the receive rate is the target (05, R104). The check of a fixed rate after the frame is the model's reading: log 11, log 12. The
frames of R102 are counted from this switch, the switch frame among them, whatever an earlier switch left: the model's choice, log 15,
log 48. -/
def Obligations.SwitchMovesTheCalls : Prop :=
  ∀ (t : Time) (v : Voice) (r : Rate) (pairs : List Pair) (s x : State), x = s.begin t → x.Sound → x.HeadIdle → x.isUp = true →
    x.waiting = [] → x.now % ms 10 = 0 → x.link.switchDue = some r → x.quality.mode = .auto ∨ x.quality.mode = .fixed r →
    (pairs = [] ∧ x.quality.plan = none ∨ ∃ forced, x.quality.plan = some { target := r, phase := .countdown pairs, forced := forced }) →
    (pairs.map (·.source)).Nodup → (pairs.map (·.dest)).Nodup →
    (∀ p ∈ pairs, r.capacity ≤ p.source.val ∧ p.dest.val < r.capacity ∧ ∃ c, (x.bearer p.source).state.call? = some c ∧
      (x.line c.line).state.bearer? = some p.source) →
    ∃ u, exec (.transmitSwitchFrame t v) s = .next u ∧
      u.link = { x.link with rate := r, announcement := none, switchDue := none } ∧
      u.quality = { x.quality with plan := none, window := none, downRun := 0, upRun := 0 } ∧
      (u.coder.rxRate = x.coder.rxRate ∧ u.coder.sinceSwitch = if x.coder.rxRate = r then none else some 1) ∧
      (∀ m, x.coder.relocations = [m] → u.coder.relocations = if x.coder.rxRate = m.target then [] else [{ m with switched := true }]) ∧
      (∃ f, u.pins.frame = some f ∧ f.rate = r ∧ f.info.length * 8 = r.infoBits) ∧
      u.active = x.active.map (fun b => ((pairs.find? (fun p => p.source == b)).map (·.dest)).getD b) ∧
      (∀ p ∈ pairs, u.bearer p.dest = (x.bearer p.dest).moved ((x.bearer p.source).state.withTarget none) x.now) ∧
      (∀ b : BearerNo, (∀ p ∈ pairs, p.dest ≠ b) → ∀ st, st = (if b.val < r.capacity then
            (if (x.bearer b).state = .unavailable true then .blocked .maintenance
              else if (x.bearer b).state = .unavailable false then .free else (x.bearer b).state)
          else .unavailable (x.bearer b).state.maintenance) →
        u.bearer b = if (x.bearer b).state = st then x.bearer b else (x.bearer b).moved st x.now) ∧
      (∀ p ∈ pairs, ∀ c, (x.bearer p.source).state.call? = some c →
        u.line c.line = { x.line c.line with state := (x.line c.line).state.withBearer p.dest }) ∧
      (∀ l : LineNo, (∀ p ∈ pairs, ∀ c, (x.bearer p.source).state.call? = some c → c.line ≠ l) → u.line l = x.line l) ∧
      (u.waiting = [] ∧ u.ring = x.ring ∧ u.errors = x.errors ∧ u.testing = x.testing ∧ u.unit = x.unit ∧ u.params = x.params)

/-- A frame arrival (05, R98 to R101 and R104; 06, R114; 07, R122). In UP, in SERVICE, every frame is taken, in four parts: its number and
voice (u), its audit slot (v), its message slot (w), its counts; elsewhere none is. A good frame's number is kept and the next expected, a
number out of order being a FRAME_SLIP, and a damaged frame counts as one more (R99 and R100). Each ACTIVE bearer's payload unit goes to
its line, a damaged one being concealed by the last good block once and then by silence; a call that is being relocated takes its unit from
the position that R104 gives. Then the audit slot and the message slot are taken, each by its own check byte, from a damaged frame too
(R99), as the commands of such records are, where nothing waits for the arrival's end; then the damaged frames in a row and the window's
frames and coding disagreements are counted. A coding disagreement is a position at which the re-encoded bits differ from the hard decision
(R94). The restarts that the errors of the frame and its records have ordered are taken at the end, after its counts (11, R177). The two
bearers of a line are not both ACTIVE. The order of the parts, the choice among several step-downs' pairs, and the source's position at a
third rate, are the model's: log 15, log 16, log 17, log 28, log 29, log 52. -/
def Obligations.FrameIsTaken : Prop :=
  (∀ (t : Time) (f : RxFrame) (s x : State), x = s.begin t → x.isUp = false ∨ x.unit.mode ≠ .service →
    exec (.frameArrival t f) s = .next x) ∧
  (∀ (t : Time) (f : RxFrame) (s x : State), x = s.begin t → x.isUp = true → x.unit.mode = .service →
    exec (.frameArrival t f) s = .next ((x.beforeClose f).closeFrame f).finish) ∧
  (∀ (t : Time) (f : RxFrame) (s x y u v w : State), x = s.begin t → x.Sound → x.isUp = true → u = x.part (·.openFrame f) →
      v = u.part (·.takeAuditSlot f) → w = v.part (·.takeMessageSlot f) →
      (damaged f = true ∨ x.coder.expected = none ∨ x.coder.expected = some (frameNumberOf f) → y = x) →
      (∀ e, damaged f = false → x.coder.expected = some e → e ≠ frameNumberOf f →
        y = x.raise { kind := .frameSlip, frame := some (frameNumberOf f), detail := some (toWord 0 e) }) →
      (∀ b k c d, (x.bearer b).state = .active c → (x.bearer k).state = .active d → c.line = d.line → b = k) →
      exec (.frameArrival t f) s = .next (w.closeFrame f).finish ∧
        w = x.beforeClose f ∧
        u = { y with
          coder := { x.coder with
            expected := if damaged f then x.coder.expected.map (· + 1) else some (frameNumberOf f + 1)
            lastGoodNumber := if damaged f then x.coder.lastGoodNumber else some (frameNumberOf f)
            conceal := u.coder.conceal }
          pins := { x.pins with voiceOut := u.pins.voiceOut, hearing := u.pins.hearing } } ∧
        (∀ a check, slotOf f 4 = [a.index, a.view, a.line, hiByte a.reference, loByte a.reference, hiByte a.quality, loByte a.quality,
            check] → v.work = {} → ∀ own, own = checkByte ((slotOf f 4).take 7) →
          (check = own → exec (.auditRecord t a) u = .next v) ∧
          (check ≠ own → exec (.checkByteMismatch t .linkAudit a.index) u = .next v)) ∧
        (∀ (r : Record) check, slotOf f 12 = [r.kind, r.b1, r.b2, r.b3, r.b4, r.b5, r.b6, check] → v.work = {} → w.work = {} →
          ∀ own, own = checkByte ((slotOf f 12).take 7) →
          (check = own → exec (.notListedKind t .link r) v = .next w) ∧
          (check ≠ own → exec (.checkByteMismatch t .linkMessage r.kind) v = .next w)) ∧
        (∀ b c, (x.bearer b).state = .active c →
          u.pins.hearing[c.line.val] = none ∧
          (damaged f = false → ∀ k : BearerNo, k.val < x.coder.rxRate.capacity →
            (∀ m ∈ x.coder.relocations, (m.pairs.map m.bearerOf).Nodup) →
            ((∀ m ∈ x.coder.relocations, ∀ q ∈ m.pairs, m.bearerOf q ≠ b) ∧ k = b) ∨
              (∃ m older, x.coder.relocations = m :: older ∧ x.coder.rxRate = m.target ∧ ∃ q ∈ m.pairs, m.bearerOf q = b ∧ k = q.dest) ∨
              (∃ m, x.coder.relocations = [m] ∧ x.coder.rxRate ≠ m.target ∧ ∃ q ∈ m.pairs, m.bearerOf q = b ∧ k = q.source) ∨
              (∃ m n, x.coder.relocations = [m, n] ∧ x.coder.rxRate ≠ m.target ∧ ∃ q ∈ m.pairs, m.bearerOf q = b ∧
                ∃ r ∈ n.pairs, n.bearerOf r = q.source ∧ k = if x.coder.rxRate = n.target then r.dest else r.source) →
            u.pins.voiceOut[c.line.val] = unitOf f k ∧
            u.coder.conceal[c.line.val] = some { lastGood := some (unitOf f k), run := 0 }) ∧
          (damaged f = true → ∀ k, x.coder.conceal[c.line.val] = some k →
            u.pins.voiceOut[c.line.val] = (if k.run = 0 then k.lastGood.getD Config.silenceBlock else Config.silenceBlock) ∧
            u.coder.conceal[c.line.val] = some { k with run := if k.run = 0 then 1 else 2 })) ∧
        ∀ l : LineNo, (∀ b c, (x.bearer b).state = .active c → c.line ≠ l) →
          u.pins.hearing[l.val] = x.pins.hearing[l.val] ∧ u.pins.voiceOut[l.val] = x.pins.voiceOut[l.val] ∧
          u.coder.conceal[l.val] = x.coder.conceal[l.val]) ∧
  (∀ z : State, z.work = {} → z.finish = z) ∧
  ∀ (t : Time) (f : RxFrame) (bad n differing : Nat) (w : BerWindow) (s x y : State), x = s.begin t → y = x.beforeClose f →
    (y.takesFrames = false → exec (.frameArrival t f) s = .next y.finish) ∧
    (y.unit.mode = .service → y.link.state = .up bad n → y.rateAfter f = y.coder.rxRate → damaged f = false ∨ n < 3 →
      (∀ (r : Rate) (coded : List Bool), r = y.coder.rxRate → coded = (encodeBits r 0 f.before ((List.range r.infoBits).map f.bits.getMsbD)).1 →
        differing = ((List.range 1920).filter (fun i => decide (coded[i]? ≠ some (f.hard.getMsbD i)))).length) →
      w = (match y.quality.window with
        | some w => { w with frames := w.frames + 1, disagreements := w.disagreements + differing }
        | none => { frames := 1, disagreements := differing, length := y.param .berWindow }) →
      w.frames < w.length →
      exec (.frameArrival t f) s = .next (State.finish { y with
        link := { y.link with state := .up bad (if damaged f then n + 1 else 0) }
        quality := { y.quality with window := some w }
        coder := { y.coder with rxCountdown := y.rxCountdownAfter f } }))

/-- The receive rate (05, R102): a good frame whose control byte announces, with a countdown of 1 or more, a change to the cabinet's own
target sets the receive countdown, and the rate changes at countdown 1; a frame that does not counts it down; the 16th frame assembled since
the transmit switch forces the link record's rate. The target is the announced rate, or the link record's while the receive rate differs;
that either is taken while both are so is the model's choice: log 43. At the change, taken in the state y that the frame's number, voice and
records leave, the BER window is discarded, the decoder's candidates keep their phase sense, and the pairs of a relocation go if the
transmit switch has been taken (07, R122; 06, R108; 05, R104). The order of the parts and the count of the 16 frames are the model's
reading: log 11, log 15, log 17, log 48. -/
def Obligations.ReceiveRateFollows : Prop :=
  ∀ (t : Time) (f : RxFrame) (bad n : Nat) (s x y : State) (target : Rate → Prop) (announced : Rate → Nat → Prop), x = s.begin t →
    (∀ r, target r ↔ (∃ a, x.link.announcement = some a ∧ a.next = r) ∨ x.link.switchDue = some r ∨
      (x.link.rate = r ∧ x.link.rate ≠ x.coder.rxRate)) →
    (∀ r c, announced r c ↔ damaged f = false ∧ currentCode (controlOf f) ≤ 2 ∧ nextCode (controlOf f) = r.code ∧
      r ≠ x.coder.rxRate ∧ 1 ≤ c ∧ c = countdownOf (controlOf f) ∧ target r) →
    (∀ k, x.coder.sinceSwitch = some k → 16 ≤ k → x.coder.rxRate ≠ x.link.rate →
      x.rateAfter f = x.link.rate ∧ x.rxCountdownAfter f = none) ∧
    (x.coder.sinceSwitch = none ∨ (∃ k, x.coder.sinceSwitch = some k ∧ k < 16) ∨ x.coder.rxRate = x.link.rate →
      (∀ r c, announced r c → x.rateAfter f = (if c = 1 then r else x.coder.rxRate) ∧
        x.rxCountdownAfter f = if 2 ≤ c then some { next := r, count := c } else none) ∧
      ((∀ r c, ¬ announced r c) →
        (x.coder.rxCountdown = none → x.rateAfter f = x.coder.rxRate ∧ x.rxCountdownAfter f = none) ∧
        (∀ k, x.coder.rxCountdown = some k → x.rateAfter f = (if k.count = 2 then k.next else x.coder.rxRate) ∧
          x.rxCountdownAfter f = if 3 ≤ k.count then some { k with count := k.count - 1 } else none))) ∧
    (y = x.beforeClose f → y.unit.mode = .service → y.link.state = .up bad n → y.rateAfter f ≠ y.coder.rxRate →
      damaged f = false ∨ n < 3 →
      exec (.receiveSwitch t f) s = .next (State.finish { y with
        link := { y.link with
          state := .up bad (if damaged f then n + 1 else 0)
          candidate := y.link.candidate % 2
          lastGood := y.link.lastGood % 2
          window := y.link.window.map (fun _ => y.param .windowLength)
          carried := false }
        quality := { y.quality with window := none }
        coder := { y.coder with
          rxRate := y.rateAfter f
          rxCountdown := y.rxCountdownAfter f
          sinceSwitch := if y.rateAfter f = y.link.rate then none else y.coder.sinceSwitch
          relocations := settleIn (y.rateAfter f) false y.coder.relocations } })) ∧
    (∀ (r : Rate) (m k : Relocation), settleIn r false [m] = (if m.switched = true ∧ r = m.target then [] else [m]) ∧
      (m.switched = true → k.switched = true →
        settleIn r false [m, k] = if r = m.target then [] else if r = k.target then [m] else [m, k]) ∧
      (m.switched = false → k.switched = true → settleIn r false [m, k] = if r = m.target ∨ r = k.target then [m] else [m, k]))

/-! ### Synchronism -/

/-- Loss of sync in UP, here with the receive rate that of the link record (06, R114 and R115): at the second failed window in a row, or at
the fourth damaged frame in a row. That frame's number is counted (05, R100), its voice is delivered as damaged (R101) and its records are
taken as every frame's are (R99), and leave the state v in which the loss is taken: that they go before the frame's counts is the model's
reading, log 15, log 16. The link hunts in a new episode at the last good candidate, under the hold timer; the receive numbers, the receive
countdown and the BER window go; LINK_STATE goes to the local port. The window in progress at a damaged frame runs on, and its
end changes nothing; that it runs on is the model's reading: log 31. That the row changes nothing at a sign which loses no sync is the
model's choice: log 4. -/
def Obligations.SyncLossBeginsTheHold : Prop :=
  ∀ (t : Time) (bad n : Nat) (s x : State) (lost : State → State), x = s.begin t → x.unit.mode = .service →
    (∀ v, lost v = { v with
      link := { v.link with
        state := .hunt { cycle := 0, noSync := false, hold := some (v.now + sec (v.param .holdTime)) }
        candidate := v.link.lastGood }
      quality := { v.quality with window := none }
      coder := { v.coder with
        expected := none, lastGoodNumber := none, rxCountdown := none, sinceSwitch := none
        relocations := settleIn v.link.rate false v.coder.relocations } }) →
    (∀ bits r y, x.link.state = .up bad n → x.coder.rxRate = x.link.rate → y = lost x →
      (x.ErrorsOk → x.link.window = some bits → x.threshold x.link.rate < r → 1 ≤ bad → exec (.syncLoss t (.window bits r)) s = .next
        (State.send { y with link := { y.link with window := some (x.param .windowLength), carried := false } } .localPort
          (y.linkStateRecord .lost))) ∧
      (x.link.window ≠ some bits ∨ r ≤ x.threshold x.link.rate ∨ bad = 0 → exec (.syncLoss t (.window bits r)) s = .next x)) ∧
    (∀ f v y, v = x.beforeClose f → v.link.state = .up bad n → y = lost v →
      (v.unit.mode = .service → damaged f = true → 3 ≤ n → v.rateAfter f = v.coder.rxRate → v.coder.rxRate = v.link.rate →
        exec (.syncLoss t (.frame f)) s = .next (State.finish
          (State.send { y with link := { y.link with carried := true } } .localPort (y.linkStateRecord .lost)))) ∧
      (damaged f = false ∨ n < 3 → exec (.syncLoss t (.frame f)) s = .next x)) ∧
    ∀ f b c k u, u = x.openFrame f → x.Sound → x.isUp = true → damaged f = true → (x.bearer b).state = .active c →
      (∀ b' c', (x.bearer b').state = .active c' → c'.line = c.line → b' = b) → x.coder.conceal[c.line.val] = some k →
      u.pins.hearing[c.line.val] = none ∧
      u.pins.voiceOut[c.line.val] = (if k.run = 0 then k.lastGood.getD Config.silenceBlock else Config.silenceBlock) ∧
      u.coder.conceal[c.line.val] = some { k with run := if k.run = 0 then 1 else 2 } ∧
      u.coder.expected = x.coder.expected.map (· + 1)

/-- The search (06, R109 to R112). The candidates of a rate are the pairs of a phase sense and a puncture position, numbered by R94 of 05.
At a window's end the next begins; in HUNT a window within the rate's threshold leads to VERIFY without trials, and another gives the
candidate up, as 8 F bits without a completed trial do in VERIFY: the next candidate is tried, and the last of a cycle records LINK_NO_SYNC,
once in an episode. A window that began before a loss of sync changes nothing at its end (R114; log 31). In UP a window clears the count of
failed windows or is the first. In VERIFY a word at position p confirms the trial that expects it, removes it, or opens a trial. A report
that is not of the window in progress changes nothing. The positions, the trials and the window's length as an operand are the model's: log
13, log 14, log 29. -/
def Obligations.SearchFollowsItsWindowsAndWords : Prop :=
  (∀ rate : Rate, rate.candidates = 2 * rate.period ∧
    (∀ i < rate.candidates, phaseSense i < 2 ∧ puncturePosition i < rate.period ∧ i = candidateAt (phaseSense i) (puncturePosition i)) ∧
    ∀ sense < 2, ∀ position < rate.period, candidateAt sense position < rate.candidates ∧
      phaseSense (candidateAt sense position) = sense ∧ puncturePosition (candidateAt sense position) = position) ∧
  ∀ (t : Time) (bits r p F : Nat) (w : Word) (s x y : State) (given : Episode → State), x = s.begin t → x.Sound →
    F = x.link.rate.infoBits → y = { x with link := { x.link with window := some (x.param .windowLength), carried := false } } →
    (∀ e z, z = { y with link := { y.link with
        state := .hunt (if e.cycle + 1 < x.link.rate.candidates then { e with cycle := e.cycle + 1 }
          else { e with cycle := 0, noSync := true })
        candidate := (x.link.candidate + 1) % x.link.rate.candidates } } →
      given e = if e.cycle + 1 < x.link.rate.candidates ∨ e.noSync = true then z
        else z.raise { kind := .linkNoSync, detail := some (BitVec.ofNat 16 x.link.rate.code) }) →
    (x.link.window ≠ some bits → exec (.normalizationWindowEnd t bits r) s = .next x) ∧
    (x.link.window = some bits →
      (∀ e, x.link.state = .hunt e →
        (x.link.carried = true → exec (.normalizationWindowEnd t bits r) s = .next y) ∧
        (x.link.carried = false → r ≤ x.threshold x.link.rate → exec (.normalizationWindowEnd t bits r) s =
          .next { y with link := { y.link with state := .verify e [] } }) ∧
        (x.link.carried = false → x.threshold x.link.rate < r → exec (.normalizationWindowEnd t bits r) s = .next (given e))) ∧
      (∀ e trials, x.link.state = .verify e trials → exec (.normalizationWindowEnd t bits r) s = .next y) ∧
      (∀ bad n, x.link.state = .up bad n →
        (r ≤ x.threshold x.coder.rxRate → exec (.normalizationWindowEnd t bits r) s =
          .next { y with link := { y.link with state := .up 0 n } }) ∧
        (x.threshold x.coder.rxRate < r → bad = 0 → exec (.normalizationWindowEnd t bits r) s =
          .next { y with link := { y.link with state := .up 1 n } }))) ∧
    (∀ e trials, x.link.state = .verify e trials →
      (8 * F ≤ bits → exec (.verifyGiveUp t bits) s = .next (given e)) ∧
      (bits < 8 * F → exec (.verifyGiveUp t bits) s = .next x) ∧
      (8 * F < p + 16 → exec (.alignmentWordFound t p w) s = .next x) ∧
      (p + 16 ≤ 8 * F → ∀ (expected : Trial → Nat) (live after : List Trial),
        (∀ q, expected q = q.position + F * (q.confirmations + 1)) → live = trials.filter (fun q => p ≤ expected q) →
        (w ≠ 0xD35A → after = live.filter (fun q => expected q ≠ p)) →
        (w = 0xD35A → (∀ q ∈ live, expected q ≠ p) → after = live ++ [{ position := p, confirmations := 0 }]) →
        (w = 0xD35A → (∃ q ∈ live, expected q = p) → after = live.map (fun q =>
          if expected q = p then { q with confirmations := q.confirmations + 1 } else q)) →
        (∀ q ∈ after, q.confirmations < 3) →
        exec (.alignmentWordFound t p w) s = .next { x with link := { x.link with state := .verify e after } })) ∧
    ((∀ e trials, x.link.state ≠ .verify e trials) →
      exec (.verifyGiveUp t bits) s = .next x ∧ exec (.alignmentWordFound t p w) s = .next x)

/-- Entering UP at a trial's third confirmation, with no line waiting, no step plan in DRAIN and the rate mode AUTO (06, R113; 07, R123 and
R125; 11, R173): the link is UP with its counts at 0, the candidate is the last good one, the receive rate is the link record's; the run
counters are 0, and a first finding sets the first-window mark. LINK_STATE goes to both ports, and at the first entry since START
UNIT_REPORT to the link. The test head's bit of UNIT_REPORT is the model's reading: log 32. -/
def Obligations.ThirdConfirmationEntersUp : Prop :=
  ∀ (t : Time) (p : Nat) (e : Episode) (trials : List Trial) (s x y z : State), x = s.begin t → x.Plain →
    x.link.state = .verify e trials → x.quality.mode = .auto → p + 16 ≤ 8 * x.link.rate.infoBits →
    (∃ q ∈ trials, q.confirmations = 2 ∧ q.position + x.link.rate.infoBits * 3 = p) →
    y = { x with
      link := { x.link with state := .up 0 0, lastGood := x.link.candidate, window := some (x.param .windowLength), carried := false }
      quality := { x.quality with
        window := none, downRun := 0, upRun := 0, firstWindow := x.quality.firstWindow || e.hold.isNone }
      coder := { x.coder with
        rxRate := x.link.rate, sinceSwitch := none
        relocations := settleIn x.link.rate false x.coder.relocations } } →
    z = y.sendBoth (y.linkStateRecord (if e.hold.isSome then .recovered else .found)) →
    exec (.alignmentWordFound t p 0xD35A) s = exec (.enteringUp t p) s ∧
    exec (.enteringUp t p) s = .next (if x.unit.firstUpPending then
      { z.send .link x.unitReport with unit := { x.unit with firstUpPending := false } } else z)

/-! ### Rate control -/

/-- The frame that completes a BER window, where sync and the receive rate go on, in the state y that its number, voice and records leave
(07, R122 to R127): the estimate, Q_near, D, the run counters, and the decision. A step-up announces the next rate with countdown 8; a
step-down, here with no call to move, makes a plan in COUNTDOWN and announces. While a rate change is in progress or the rate mode is FIXED
both runs are 0; a plan in DRAIN is here one that D leaves alone. The place of the window in the frame arrival is the model's reading: log
15. -/
def Obligations.BerWindowIsJudged : Prop :=
  ∀ (t : Time) (f : RxFrame) (bad n e q d dn up : Nat) (w : BerWindow) (plan : Option StepPlan) (told : Option Announcement)
    (down better : Prop) (s x y : State) (below : Rate), x = s.begin t → y = x.beforeClose f → y.Sound →
    y.link.state = .up bad n → y.rateAfter f = y.coder.rxRate → damaged f = false ∨ n < 3 →
    w = (match y.quality.window with
      | some w => { w with frames := w.frames + 1, disagreements := w.disagreements + disagreementsOf y.coder.rxRate f }
      | none => { frames := 1, disagreements := disagreementsOf y.coder.rxRate f, length := y.param .berWindow }) →
    w.length ≤ w.frames → e = min 65535 (w.disagreements * 1000000 / (w.frames * 1920)) →
    q = (if y.quality.firstWindow then e else (7 * y.quality.qNear + e + 4) / 8) → d = max q y.quality.qFar →
    down = ((y.link.rate = .wide ∧ y.param .downW < d) ∨ (y.link.rate = .standard ∧ y.param .downS < d)) →
    better = ((y.link.rate = .standard ∧ d < y.param .upS) ∨ (y.link.rate = .robust ∧ d < y.param .upR)) →
    below = (if y.link.rate = .wide then .standard else .robust) →
    ((y.quality.mode ≠ .auto ∨ y.changing = true) ∧ (d ≤ y.param .critical ∨ y.quality.plan = none) ∧
        dn = 0 ∧ up = 0 ∧ plan = y.quality.plan ∧ told = y.link.announcement) ∨
      (y.quality.mode = .auto ∧ y.changing = false ∧
        ((y.link.rate ≠ .robust ∧ (y.param .critical < d ∨ (down ∧ y.param .downRunLength ≤ y.quality.downRun + 1)) ∧
            (∀ b : BearerNo, below.capacity ≤ b.val → (y.bearer b).state.call? = none) ∧ dn = 0 ∧ up = 0 ∧
            plan = some { target := below, phase := .countdown [], forced := false } ∧
            told = some { next := below, countdown := 8 }) ∨
          ((y.link.rate = .robust ∨ d ≤ y.param .critical) ∧ plan = none ∧
            ((down ∧ y.quality.downRun + 1 < y.param .downRunLength ∧ dn = y.quality.downRun + 1 ∧ up = 0 ∧ told = none) ∨
              (¬ down ∧ better ∧ y.quality.upRun + 1 < y.param .upRunLength ∧ dn = 0 ∧ up = y.quality.upRun + 1 ∧ told = none) ∨
              (¬ down ∧ better ∧ y.param .upRunLength ≤ y.quality.upRun + 1 ∧ dn = 0 ∧ up = 0 ∧
                told = some { next := if y.link.rate = .robust then .standard else .wide, countdown := 8 }) ∨
              (¬ down ∧ ¬ better ∧ dn = 0 ∧ up = 0 ∧ told = none))))) →
    exec (.berWindowEnd t f) s = .next (State.finish { y with
      link := { y.link with state := .up bad (if damaged f then n + 1 else 0), announcement := told }
      quality := { y.quality with
        window := none, firstWindow := false, estimate := e, qNear := q, decision := d, downRun := dn, upRun := up, plan := plan }
      coder := { y.coder with rxCountdown := y.rxCountdownAfter f } })

/-- A step-down (07, R128 to R132 and R136): with a FREE bearer below K' for each call at or above it the calls are paired in ascending
index, each destination is HELD_MOVE and each source has its target, MOVE goes out for each pair, the Link Coder keeps the pairs (05, R104)
and the target rate is announced; that the pairs stand beside those of an earlier step-down whose receive switch is to come is the model's
reading: log 17. Without the room the plan drains under its timer; at the expiry, with the link UP, it is forced: nothing more if the calls
in GUARD make the room, and otherwise calls end to leave as many as there are usable bearers, here one, the youngest ORDINARY ACTIVE call,
with no call being set up and, as in every plan in DRAIN, no target to it. The forced end of calls being set up, of PRIORITY calls and of
several calls is not stated. The order of the event's later parts is the model's: log 9. -/
def Obligations.StepDownIsPlannedAndForced : Prop :=
  ∀ (t : Time) (r : Rate) (k : Nat) (sources room clearing lost : List BearerNo) (s x : State), x = s.begin t → x.Sound →
    x.HeadIdle → x.waiting = [] →
    x.isUp = true → k = r.capacity →
    sources = allBearers.filter (fun b => (x.bearer b).state.call?.isSome && decide (k ≤ b.val)) →
    room = allBearers.filter (fun b => decide ((x.bearer b).state = .free) && decide (b.val < k)) →
    clearing = allBearers.filter (fun b => (x.bearer b).state.isClearing && decide (b.val < k)) →
    lost = allBearers.filter (fun b => (x.bearer b).state.isLost && decide (b.val < k)) →
    (∀ (p : Port) (b1 : Byte) (y : State), x.Serves p → x.quality.plan = none → x.link.announcement = none → x.link.switchDue = none →
      r.code < x.link.rate.code → y = { x with quality := { x.quality with mode := .fixed r, downRun := 0, upRun := 0 } } →
      (room.length < sources.length → x.param .drainLimit ≠ 0 →
        exec (.setRateModeFixed t p b1 (byte r.code)) s = .next (State.queued { y with quality := { y.quality with
          plan := some { target := r, phase := .drain (some (x.now + sec (x.param .drainLimit))), forced := false } } } p
          (replyRecord b1 0x26 .done 0))) ∧
      (sources.length ≤ room.length → ∀ pairs : List Pair,
        pairs = (sources.zip room).map (fun m => { source := m.1, dest := m.2 }) →
        x.messages.linkQueue.length + pairs.length < 16 →
        ∃ u, exec (.setRateModeFixed t p b1 (byte r.code)) s = .next u ∧ u = State.queued { y with
            bearers := u.bearers
            link := { x.link with announcement := some { next := r, countdown := 8 } }
            quality := { y.quality with plan := some { target := r, phase := .countdown pairs, forced := false } }
            coder := { x.coder with
              relocations := if pairs = [] then x.coder.relocations
                else { pairs := pairs, target := r, switched := false } :: x.coder.relocations }
            messages := { x.messages with linkQueue := x.messages.linkQueue ++ pairs.filterMap (fun m =>
              (x.bearer m.source).state.call?.map (fun c => moveRecord c.line m.source c.reference m.dest)) } } p
            (replyRecord b1 0x26 .done 0) ∧
          (∀ m ∈ pairs, u.bearer m.dest = (x.bearer m.dest).moved .heldMove x.now ∧
            u.bearer m.source = { x.bearer m.source with state := (x.bearer m.source).state.withTarget (some m.dest) }) ∧
          (∀ b : BearerNo, (∀ m ∈ pairs, m.source ≠ b ∧ m.dest ≠ b) → u.bearer b = x.bearer b))) ∧
    (∀ (expiry : Time) (forced : Bool) (y : State), x.quality.plan = some { target := r, phase := .drain (some expiry), forced := forced } →
      y = { x with quality := { x.quality with plan := some { target := r, phase := .drain none, forced := true } } } →
      (x.now < expiry → exec (.drainTimerExpiry t) s = .next x) ∧
      (expiry ≤ x.now → room.length < sources.length →
        (sources.length ≤ room.length + clearing.length →
          exec (.drainTimerExpiry t) s = .next y) ∧
        (∀ (b : BearerNo) (c : Call) (before after : List BearerNo),
          room.length + clearing.length < sources.length →
          b.val < k ∨ room.length + 1 < sources.length →
          (∀ i : BearerNo, (x.bearer i).state.isSetup = false) →
          x.active = before ++ b :: after → (x.bearer b).state = .active c → c.cls = .ordinary → b ∉ before ++ after →
          (∀ i ∈ after, ∃ c, (x.bearer i).state = .active c ∧ c.cls = .priority) → c.target = none →
          (allBearers.filter (fun b => (x.bearer b).state.call?.isSome)).length + lost.length = k + 1 →
          exec (.drainTimerExpiry t) s = .next
            ((((y.guardTo b c).lineTo c.line (if (x.line c.line).loop = .closed then .lockout .capacity else .idle)).sendCall
              (releaseRecord (some c.line) b c.reference .capacity)).raise
              { kind := .capacityPreempt, line := some c.line, bearer := some b, detail := some c.reference }))))

/-! ### Ringing -/

/-- The on-intervals (04, R75 and R79; 01, R9): at the start every relay of the phase is on and the runs of its lines are 0; at the end the
relays that were on are off and their entries count a ring, up to 40. The one entry that reaches the ring limit ends its call: NO_ANSWER is
sent, the bearer enters GUARD and the line, here with its loop OPEN, is IDLE. Then the ring queue is served. The exact times and the mark of
a begun interval are the model's: log 35. -/
def Obligations.OnIntervalsRingTheirPhase : Prop :=
  ∀ (t : Time) (p : PhaseNo) (s x y : State), x = s.begin t → x.Plain →
    y = { x with ring := { x.ring with
      begun := x.ring.begun.set p.val false
      phases := x.ring.phases.set p.val ((x.phase p).map (fun e =>
        if e.relay = true then { e with relay := false, rings := min 40 (e.rings + 1) } else e)) } } →
    (x.now % sec 3 ≠ sec p.val → exec (.onIntervalStart t p) s = .next x) ∧
    (x.now % sec 3 = sec p.val → ∃ u, exec (.onIntervalStart t p) s = .next u ∧
      u = { x with
        lines := u.lines
        ring := { x.ring with
          begun := x.ring.begun.set p.val true
          phases := x.ring.phases.set p.val ((x.phase p).map (fun e => { e with relay := true })) } } ∧
      ∀ l : LineNo, u.line l = if ∃ e ∈ x.phase p, e.line = l then { x.line l with run := .zero } else x.line l) ∧
    (x.now % sec 3 ≠ sec (p.val + 1) % sec 3 → exec (.onIntervalEnd t p) s = .next x) ∧
    (x.now % sec 3 = sec (p.val + 1) % sec 3 →
      ((∀ e ∈ x.phase p, e.relay = true → e.rings + 1 < x.param .ringLimit) →
        exec (.onIntervalEnd t p) s = .next y.serveRings) ∧
      (∀ e b c, (x.phase p).filter (fun e => e.relay && decide (x.param .ringLimit ≤ e.rings + 1)) = [e] →
        (x.line e.line).state = .ringing b → (x.bearer b).state = .heldIn c → (x.line e.line).loop = .opened →
        exec (.onIntervalEnd t p) s = .next
          (((((y.removeRing e.line).sendCall (noAnswerRecord e.line b c.reference)).guardTo b c).lineTo e.line .idle).serveRings)))

/-- The supply input (04, R85 to R88). A sample of the accepted state removes the candidate, one of another state becomes it or leaves it
standing, and one that has stood for 5 s is accepted: the ring queue is served and SUPPLY_STATE goes to both ports. At a downgrade each
phase is first cut to the new capacity from the young end, and the entries cut stand before the ring queue in the order of their
placement, keeping their counts. No line test is due. -/
def Obligations.SupplyStatesAreAccepted : Prop :=
  ∀ (t : Time) (a b : Bool) (d : Supply) (s x y : State), x = s.begin t → x.Plain →
    x.testing.inService = false ∨ x.testing.test.isSome = true ∨ (x.testing.demand = [] ∧ ∀ l : LineNo, x.now < (x.line l).testDue) →
    d = (if a then .reserve else if b then .economy else .normal) → y = { x with ring := { x.ring with supply := d, candidate := none } } →
    (x.now % ms 5 ≠ 0 → exec (.supplySample t a b) s = .next x) ∧
    (x.now % ms 5 = 0 →
      (d = x.ring.supply → exec (.supplySample t a b) s = .next { x with ring := { x.ring with candidate := none } }) ∧
      (d ≠ x.ring.supply → (∀ c, x.ring.candidate = some c → c.state ≠ d) → exec (.supplySample t a b) s =
        .next { x with ring := { x.ring with candidate := some { state := d, since := x.now } } }) ∧
      (∀ c, x.ring.candidate = some c → d ≠ x.ring.supply → c.state = d →
        (x.now < c.since + sec 5 → exec (.supplySample t a b) s = .next x) ∧
        (c.since + sec 5 ≤ x.now → x.ring.supply.capacity < d.capacity →
          exec (.supplySample t a b) s = exec (.upgrade t a b) s ∧
          exec (.upgrade t a b) s = .next (y.serveRings.sendBoth (supplyRecord d x.ring.supply))) ∧
        (c.since + sec 5 ≤ x.now → d.capacity < x.ring.supply.capacity →
          exec (.supplySample t a b) s = exec (.downgrade t a b) s ∧
          ∃ cut : List RingEntry, cut.Perm (allPhases.flatMap (fun p => (x.phase p).drop d.capacity)) ∧
            cut.Pairwise (fun i j => i.placed ≤ j.placed) ∧
            exec (.downgrade t a b) s = .next (State.sendBoth (State.serveRings { y with ring := { y.ring with
              phases := x.ring.phases.map (fun es => es.take d.capacity)
              queue := cut.map (fun e => { line := e.line, rings := e.rings }) ++ x.ring.queue } })
              (supplyRecord d x.ring.supply)))))
end

