-- ==== Sys2Proof/Laws/State.lean ====
section
/-! SUPPORT. The fields of a state after each update of it: one lemma for each field that a later proof reads. -/

namespace Sys2Proof.Machine

open Sys2Proof

/-! ### The beginning of an event -/

@[simp] theorem State.begin_now (s : State) (t : Time) : (s.begin t).now = max s.now t := rfl
@[simp] theorem State.begin_work (s : State) (t : Time) : (s.begin t).work = {} := rfl
@[simp] theorem State.begin_unit (s : State) (t : Time) : (s.begin t).unit = s.unit := rfl
@[simp] theorem State.begin_errors (s : State) (t : Time) : (s.begin t).errors = s.errors := rfl
@[simp] theorem State.begin_params (s : State) (t : Time) : (s.begin t).params = s.params := rfl
@[simp] theorem State.begin_lines (s : State) (t : Time) : (s.begin t).lines = s.lines := rfl
@[simp] theorem State.begin_bearers (s : State) (t : Time) : (s.begin t).bearers = s.bearers := rfl
@[simp] theorem State.begin_active (s : State) (t : Time) : (s.begin t).active = s.active := rfl
@[simp] theorem State.begin_counter (s : State) (t : Time) : (s.begin t).counter = s.counter := rfl
@[simp] theorem State.begin_waiting (s : State) (t : Time) : (s.begin t).waiting = s.waiting := rfl
@[simp] theorem State.begin_ring (s : State) (t : Time) : (s.begin t).ring = s.ring := rfl
@[simp] theorem State.begin_link (s : State) (t : Time) : (s.begin t).link = s.link := rfl
@[simp] theorem State.begin_quality (s : State) (t : Time) : (s.begin t).quality = s.quality := rfl
@[simp] theorem State.begin_coder (s : State) (t : Time) : (s.begin t).coder = s.coder := rfl
@[simp] theorem State.begin_messages (s : State) (t : Time) : (s.begin t).messages = s.messages := rfl
@[simp] theorem State.begin_testing (s : State) (t : Time) : (s.begin t).testing = s.testing := rfl
@[simp] theorem State.begin_pins (s : State) (t : Time) : (s.begin t).pins = s.pins := rfl
@[simp] theorem State.begin_pending (s : State) (t : Time) : (s.begin t).pending = s.pending := rfl
@[simp] theorem State.begin_line (s : State) (t : Time) (l : LineNo) : (s.begin t).line l = s.line l := rfl
@[simp] theorem State.begin_bearer (s : State) (t : Time) (b : BearerNo) : (s.begin t).bearer b = s.bearer b := rfl
@[simp] theorem State.begin_param (s : State) (t : Time) (p : Param) : (s.begin t).param p = s.param p := rfl
@[simp] theorem State.begin_isUp (s : State) (t : Time) : (s.begin t).isUp = s.isUp := rfl
@[simp] theorem State.begin_inService (s : State) (t : Time) : (s.begin t).inService = s.inService := rfl

/-! ### Writing a line record -/

@[simp] theorem State.setLine_line_same (s : State) (l : LineNo) (r : LineRecord) :
    (s.setLine l r).line l = r.sealed := by
  simp [State.setLine, State.line]

theorem State.setLine_line (s : State) (l k : LineNo) (r : LineRecord) :
    (s.setLine l r).line k = if k = l then r.sealed else s.line k := by
  by_cases h : k = l
  · subst h; simp
  · have h' : l.val ≠ k.val := fun e => h (Fin.ext e.symm)
    simp [State.setLine, State.line, h, h']

@[simp] theorem State.setLine_bearer (s : State) (l : LineNo) (r : LineRecord) (b : BearerNo) :
    (s.setLine l r).bearer b = s.bearer b := rfl
@[simp] theorem State.setLine_now (s : State) (l : LineNo) (r : LineRecord) : (s.setLine l r).now = s.now := rfl
@[simp] theorem State.setLine_unit (s : State) (l : LineNo) (r : LineRecord) : (s.setLine l r).unit = s.unit := rfl
@[simp] theorem State.setLine_errors (s : State) (l : LineNo) (r : LineRecord) :
    (s.setLine l r).errors = s.errors := rfl
@[simp] theorem State.setLine_params (s : State) (l : LineNo) (r : LineRecord) :
    (s.setLine l r).params = s.params := rfl
@[simp] theorem State.setLine_bearers (s : State) (l : LineNo) (r : LineRecord) :
    (s.setLine l r).bearers = s.bearers := rfl
@[simp] theorem State.setLine_active (s : State) (l : LineNo) (r : LineRecord) :
    (s.setLine l r).active = s.active := rfl
@[simp] theorem State.setLine_counter (s : State) (l : LineNo) (r : LineRecord) :
    (s.setLine l r).counter = s.counter := rfl
@[simp] theorem State.setLine_waiting (s : State) (l : LineNo) (r : LineRecord) :
    (s.setLine l r).waiting = s.waiting := rfl
@[simp] theorem State.setLine_ring (s : State) (l : LineNo) (r : LineRecord) : (s.setLine l r).ring = s.ring := rfl
@[simp] theorem State.setLine_link (s : State) (l : LineNo) (r : LineRecord) : (s.setLine l r).link = s.link := rfl
@[simp] theorem State.setLine_quality (s : State) (l : LineNo) (r : LineRecord) :
    (s.setLine l r).quality = s.quality := rfl
@[simp] theorem State.setLine_coder (s : State) (l : LineNo) (r : LineRecord) :
    (s.setLine l r).coder = s.coder := rfl
@[simp] theorem State.setLine_messages (s : State) (l : LineNo) (r : LineRecord) :
    (s.setLine l r).messages = s.messages := rfl
@[simp] theorem State.setLine_testing (s : State) (l : LineNo) (r : LineRecord) :
    (s.setLine l r).testing = s.testing := rfl
@[simp] theorem State.setLine_pins (s : State) (l : LineNo) (r : LineRecord) : (s.setLine l r).pins = s.pins := rfl
@[simp] theorem State.setLine_pending (s : State) (l : LineNo) (r : LineRecord) :
    (s.setLine l r).pending = s.pending := rfl
@[simp] theorem State.setLine_work (s : State) (l : LineNo) (r : LineRecord) : (s.setLine l r).work = s.work := rfl

/-! ### Writing a bearer record -/

@[simp] theorem State.setBearer_bearer_same (s : State) (b : BearerNo) (r : BearerRecord) :
    (s.setBearer b r).bearer b = r.sealed := by
  simp [State.setBearer, State.bearer]

theorem State.setBearer_bearer (s : State) (b k : BearerNo) (r : BearerRecord) :
    (s.setBearer b r).bearer k = if k = b then r.sealed else s.bearer k := by
  by_cases h : k = b
  · subst h; simp
  · have h' : b.val ≠ k.val := fun e => h (Fin.ext e.symm)
    simp [State.setBearer, State.bearer, h, h']

@[simp] theorem State.setBearer_line (s : State) (b : BearerNo) (r : BearerRecord) (l : LineNo) :
    (s.setBearer b r).line l = s.line l := rfl
@[simp] theorem State.setBearer_now (s : State) (b : BearerNo) (r : BearerRecord) :
    (s.setBearer b r).now = s.now := rfl
@[simp] theorem State.setBearer_unit (s : State) (b : BearerNo) (r : BearerRecord) :
    (s.setBearer b r).unit = s.unit := rfl
@[simp] theorem State.setBearer_errors (s : State) (b : BearerNo) (r : BearerRecord) :
    (s.setBearer b r).errors = s.errors := rfl
@[simp] theorem State.setBearer_params (s : State) (b : BearerNo) (r : BearerRecord) :
    (s.setBearer b r).params = s.params := rfl
@[simp] theorem State.setBearer_lines (s : State) (b : BearerNo) (r : BearerRecord) :
    (s.setBearer b r).lines = s.lines := rfl
@[simp] theorem State.setBearer_active (s : State) (b : BearerNo) (r : BearerRecord) :
    (s.setBearer b r).active = s.active := rfl
@[simp] theorem State.setBearer_counter (s : State) (b : BearerNo) (r : BearerRecord) :
    (s.setBearer b r).counter = s.counter := rfl
@[simp] theorem State.setBearer_waiting (s : State) (b : BearerNo) (r : BearerRecord) :
    (s.setBearer b r).waiting = s.waiting := rfl
@[simp] theorem State.setBearer_ring (s : State) (b : BearerNo) (r : BearerRecord) :
    (s.setBearer b r).ring = s.ring := rfl
@[simp] theorem State.setBearer_link (s : State) (b : BearerNo) (r : BearerRecord) :
    (s.setBearer b r).link = s.link := rfl
@[simp] theorem State.setBearer_quality (s : State) (b : BearerNo) (r : BearerRecord) :
    (s.setBearer b r).quality = s.quality := rfl
@[simp] theorem State.setBearer_coder (s : State) (b : BearerNo) (r : BearerRecord) :
    (s.setBearer b r).coder = s.coder := rfl
@[simp] theorem State.setBearer_messages (s : State) (b : BearerNo) (r : BearerRecord) :
    (s.setBearer b r).messages = s.messages := rfl
@[simp] theorem State.setBearer_testing (s : State) (b : BearerNo) (r : BearerRecord) :
    (s.setBearer b r).testing = s.testing := rfl
@[simp] theorem State.setBearer_pins (s : State) (b : BearerNo) (r : BearerRecord) :
    (s.setBearer b r).pins = s.pins := rfl
@[simp] theorem State.setBearer_pending (s : State) (b : BearerNo) (r : BearerRecord) :
    (s.setBearer b r).pending = s.pending := rfl
@[simp] theorem State.setBearer_work (s : State) (b : BearerNo) (r : BearerRecord) :
    (s.setBearer b r).work = s.work := rfl

end Sys2Proof.Machine
end

