-- ==== Sys2Proof/Laws/Fields.lean ====
section
/-! SUPPORT. The fields of a state after each update that the statements name (Sys2Proof/Safety.lean): one lemma for each field. -/

namespace Sys2Proof.Machine

open Sys2Proof

/-! ### withLine -/

@[simp] theorem State.withLine_now (s : State) (l : LineNo) (r : LineRecord) : (s.withLine l r).now = s.now := rfl
@[simp] theorem State.withLine_unit (s : State) (l : LineNo) (r : LineRecord) : (s.withLine l r).unit = s.unit := rfl
@[simp] theorem State.withLine_errors (s : State) (l : LineNo) (r : LineRecord) : (s.withLine l r).errors = s.errors := rfl
@[simp] theorem State.withLine_params (s : State) (l : LineNo) (r : LineRecord) : (s.withLine l r).params = s.params := rfl
@[simp] theorem State.withLine_bearers (s : State) (l : LineNo) (r : LineRecord) : (s.withLine l r).bearers = s.bearers := rfl
@[simp] theorem State.withLine_active (s : State) (l : LineNo) (r : LineRecord) : (s.withLine l r).active = s.active := rfl
@[simp] theorem State.withLine_counter (s : State) (l : LineNo) (r : LineRecord) : (s.withLine l r).counter = s.counter := rfl
@[simp] theorem State.withLine_waiting (s : State) (l : LineNo) (r : LineRecord) : (s.withLine l r).waiting = s.waiting := rfl
@[simp] theorem State.withLine_ring (s : State) (l : LineNo) (r : LineRecord) : (s.withLine l r).ring = s.ring := rfl
@[simp] theorem State.withLine_link (s : State) (l : LineNo) (r : LineRecord) : (s.withLine l r).link = s.link := rfl
@[simp] theorem State.withLine_quality (s : State) (l : LineNo) (r : LineRecord) : (s.withLine l r).quality = s.quality := rfl
@[simp] theorem State.withLine_coder (s : State) (l : LineNo) (r : LineRecord) : (s.withLine l r).coder = s.coder := rfl
@[simp] theorem State.withLine_messages (s : State) (l : LineNo) (r : LineRecord) : (s.withLine l r).messages = s.messages := rfl
@[simp] theorem State.withLine_testing (s : State) (l : LineNo) (r : LineRecord) : (s.withLine l r).testing = s.testing := rfl
@[simp] theorem State.withLine_pins (s : State) (l : LineNo) (r : LineRecord) : (s.withLine l r).pins = s.pins := rfl
@[simp] theorem State.withLine_pending (s : State) (l : LineNo) (r : LineRecord) : (s.withLine l r).pending = s.pending := rfl
@[simp] theorem State.withLine_work (s : State) (l : LineNo) (r : LineRecord) : (s.withLine l r).work = s.work := rfl
@[simp] theorem State.withLine_isUp (s : State) (l : LineNo) (r : LineRecord) : (s.withLine l r).isUp = s.isUp := rfl
@[simp] theorem State.withLine_inService (s : State) (l : LineNo) (r : LineRecord) : (s.withLine l r).inService = s.inService := rfl
@[simp] theorem State.withLine_param (s : State) (l : LineNo) (r : LineRecord) (p : Param) :
    (s.withLine l r).param p = s.param p := rfl
@[simp] theorem State.withLine_routing (s : State) (l : LineNo) (r : LineRecord) (k : ErrorKind) :
    (s.withLine l r).routing k = s.routing k := rfl
@[simp] theorem State.withLine_hears (s : State) (l : LineNo) (r : LineRecord) (p : Port) :
    (s.withLine l r).hears p = s.hears p := rfl
@[simp] theorem State.withLine_limit (s : State) (l : LineNo) (r : LineRecord) : (s.withLine l r).limit = s.limit := rfl
@[simp] theorem State.withLine_bearer (s : State) (l : LineNo) (r : LineRecord) (k : BearerNo) :
    (s.withLine l r).bearer k = s.bearer k := rfl

/-! ### withBearer -/

@[simp] theorem State.withBearer_now (s : State) (b : BearerNo) (r : BearerRecord) : (s.withBearer b r).now = s.now := rfl
@[simp] theorem State.withBearer_unit (s : State) (b : BearerNo) (r : BearerRecord) : (s.withBearer b r).unit = s.unit := rfl
@[simp] theorem State.withBearer_errors (s : State) (b : BearerNo) (r : BearerRecord) : (s.withBearer b r).errors = s.errors := rfl
@[simp] theorem State.withBearer_params (s : State) (b : BearerNo) (r : BearerRecord) : (s.withBearer b r).params = s.params := rfl
@[simp] theorem State.withBearer_lines (s : State) (b : BearerNo) (r : BearerRecord) : (s.withBearer b r).lines = s.lines := rfl
@[simp] theorem State.withBearer_active (s : State) (b : BearerNo) (r : BearerRecord) : (s.withBearer b r).active = s.active := rfl
@[simp] theorem State.withBearer_counter (s : State) (b : BearerNo) (r : BearerRecord) :
    (s.withBearer b r).counter = s.counter := rfl
@[simp] theorem State.withBearer_waiting (s : State) (b : BearerNo) (r : BearerRecord) :
    (s.withBearer b r).waiting = s.waiting := rfl
@[simp] theorem State.withBearer_ring (s : State) (b : BearerNo) (r : BearerRecord) : (s.withBearer b r).ring = s.ring := rfl
@[simp] theorem State.withBearer_link (s : State) (b : BearerNo) (r : BearerRecord) : (s.withBearer b r).link = s.link := rfl
@[simp] theorem State.withBearer_quality (s : State) (b : BearerNo) (r : BearerRecord) :
    (s.withBearer b r).quality = s.quality := rfl
@[simp] theorem State.withBearer_coder (s : State) (b : BearerNo) (r : BearerRecord) : (s.withBearer b r).coder = s.coder := rfl
@[simp] theorem State.withBearer_messages (s : State) (b : BearerNo) (r : BearerRecord) :
    (s.withBearer b r).messages = s.messages := rfl
@[simp] theorem State.withBearer_testing (s : State) (b : BearerNo) (r : BearerRecord) :
    (s.withBearer b r).testing = s.testing := rfl
@[simp] theorem State.withBearer_pins (s : State) (b : BearerNo) (r : BearerRecord) : (s.withBearer b r).pins = s.pins := rfl
@[simp] theorem State.withBearer_pending (s : State) (b : BearerNo) (r : BearerRecord) :
    (s.withBearer b r).pending = s.pending := rfl
@[simp] theorem State.withBearer_work (s : State) (b : BearerNo) (r : BearerRecord) : (s.withBearer b r).work = s.work := rfl
@[simp] theorem State.withBearer_isUp (s : State) (b : BearerNo) (r : BearerRecord) : (s.withBearer b r).isUp = s.isUp := rfl
@[simp] theorem State.withBearer_inService (s : State) (b : BearerNo) (r : BearerRecord) :
    (s.withBearer b r).inService = s.inService := rfl
@[simp] theorem State.withBearer_param (s : State) (b : BearerNo) (r : BearerRecord) (p : Param) :
    (s.withBearer b r).param p = s.param p := rfl
@[simp] theorem State.withBearer_routing (s : State) (b : BearerNo) (r : BearerRecord) (k : ErrorKind) :
    (s.withBearer b r).routing k = s.routing k := rfl
@[simp] theorem State.withBearer_hears (s : State) (b : BearerNo) (r : BearerRecord) (p : Port) :
    (s.withBearer b r).hears p = s.hears p := rfl
@[simp] theorem State.withBearer_limit (s : State) (b : BearerNo) (r : BearerRecord) : (s.withBearer b r).limit = s.limit := rfl
@[simp] theorem State.withBearer_line (s : State) (b : BearerNo) (r : BearerRecord) (k : LineNo) :
    (s.withBearer b r).line k = s.line k := rfl

/-! ### withConceal -/

@[simp] theorem State.withConceal_now (s : State) (l : LineNo) (c : Option Conceal) : (s.withConceal l c).now = s.now := rfl
@[simp] theorem State.withConceal_unit (s : State) (l : LineNo) (c : Option Conceal) : (s.withConceal l c).unit = s.unit := rfl
@[simp] theorem State.withConceal_errors (s : State) (l : LineNo) (c : Option Conceal) :
    (s.withConceal l c).errors = s.errors := rfl
@[simp] theorem State.withConceal_params (s : State) (l : LineNo) (c : Option Conceal) :
    (s.withConceal l c).params = s.params := rfl
@[simp] theorem State.withConceal_lines (s : State) (l : LineNo) (c : Option Conceal) : (s.withConceal l c).lines = s.lines := rfl
@[simp] theorem State.withConceal_bearers (s : State) (l : LineNo) (c : Option Conceal) :
    (s.withConceal l c).bearers = s.bearers := rfl
@[simp] theorem State.withConceal_active (s : State) (l : LineNo) (c : Option Conceal) :
    (s.withConceal l c).active = s.active := rfl
@[simp] theorem State.withConceal_counter (s : State) (l : LineNo) (c : Option Conceal) :
    (s.withConceal l c).counter = s.counter := rfl
@[simp] theorem State.withConceal_waiting (s : State) (l : LineNo) (c : Option Conceal) :
    (s.withConceal l c).waiting = s.waiting := rfl
@[simp] theorem State.withConceal_ring (s : State) (l : LineNo) (c : Option Conceal) : (s.withConceal l c).ring = s.ring := rfl
@[simp] theorem State.withConceal_link (s : State) (l : LineNo) (c : Option Conceal) : (s.withConceal l c).link = s.link := rfl
@[simp] theorem State.withConceal_quality (s : State) (l : LineNo) (c : Option Conceal) :
    (s.withConceal l c).quality = s.quality := rfl
@[simp] theorem State.withConceal_messages (s : State) (l : LineNo) (c : Option Conceal) :
    (s.withConceal l c).messages = s.messages := rfl
@[simp] theorem State.withConceal_testing (s : State) (l : LineNo) (c : Option Conceal) :
    (s.withConceal l c).testing = s.testing := rfl
@[simp] theorem State.withConceal_pins (s : State) (l : LineNo) (c : Option Conceal) : (s.withConceal l c).pins = s.pins := rfl
@[simp] theorem State.withConceal_pending (s : State) (l : LineNo) (c : Option Conceal) :
    (s.withConceal l c).pending = s.pending := rfl
@[simp] theorem State.withConceal_work (s : State) (l : LineNo) (c : Option Conceal) : (s.withConceal l c).work = s.work := rfl
@[simp] theorem State.withConceal_isUp (s : State) (l : LineNo) (c : Option Conceal) : (s.withConceal l c).isUp = s.isUp := rfl
@[simp] theorem State.withConceal_inService (s : State) (l : LineNo) (c : Option Conceal) :
    (s.withConceal l c).inService = s.inService := rfl
@[simp] theorem State.withConceal_param (s : State) (l : LineNo) (c : Option Conceal) (p : Param) :
    (s.withConceal l c).param p = s.param p := rfl
@[simp] theorem State.withConceal_routing (s : State) (l : LineNo) (c : Option Conceal) (k : ErrorKind) :
    (s.withConceal l c).routing k = s.routing k := rfl
@[simp] theorem State.withConceal_hears (s : State) (l : LineNo) (c : Option Conceal) (p : Port) :
    (s.withConceal l c).hears p = s.hears p := rfl
@[simp] theorem State.withConceal_limit (s : State) (l : LineNo) (c : Option Conceal) : (s.withConceal l c).limit = s.limit := rfl
@[simp] theorem State.withConceal_line (s : State) (l : LineNo) (c : Option Conceal) (k : LineNo) :
    (s.withConceal l c).line k = s.line k := rfl
@[simp] theorem State.withConceal_bearer (s : State) (l : LineNo) (c : Option Conceal) (k : BearerNo) :
    (s.withConceal l c).bearer k = s.bearer k := rfl

/-! ### lineTo -/

@[simp] theorem State.lineTo_now (s : State) (l : LineNo) (st : LineState) : (s.lineTo l st).now = s.now := rfl
@[simp] theorem State.lineTo_unit (s : State) (l : LineNo) (st : LineState) : (s.lineTo l st).unit = s.unit := rfl
@[simp] theorem State.lineTo_errors (s : State) (l : LineNo) (st : LineState) : (s.lineTo l st).errors = s.errors := rfl
@[simp] theorem State.lineTo_params (s : State) (l : LineNo) (st : LineState) : (s.lineTo l st).params = s.params := rfl
@[simp] theorem State.lineTo_bearers (s : State) (l : LineNo) (st : LineState) : (s.lineTo l st).bearers = s.bearers := rfl
@[simp] theorem State.lineTo_active (s : State) (l : LineNo) (st : LineState) : (s.lineTo l st).active = s.active := rfl
@[simp] theorem State.lineTo_counter (s : State) (l : LineNo) (st : LineState) : (s.lineTo l st).counter = s.counter := rfl
@[simp] theorem State.lineTo_waiting (s : State) (l : LineNo) (st : LineState) : (s.lineTo l st).waiting = s.waiting := rfl
@[simp] theorem State.lineTo_ring (s : State) (l : LineNo) (st : LineState) : (s.lineTo l st).ring = s.ring := rfl
@[simp] theorem State.lineTo_link (s : State) (l : LineNo) (st : LineState) : (s.lineTo l st).link = s.link := rfl
@[simp] theorem State.lineTo_quality (s : State) (l : LineNo) (st : LineState) : (s.lineTo l st).quality = s.quality := rfl
@[simp] theorem State.lineTo_messages (s : State) (l : LineNo) (st : LineState) : (s.lineTo l st).messages = s.messages := rfl
@[simp] theorem State.lineTo_testing (s : State) (l : LineNo) (st : LineState) : (s.lineTo l st).testing = s.testing := rfl
@[simp] theorem State.lineTo_pins (s : State) (l : LineNo) (st : LineState) : (s.lineTo l st).pins = s.pins := rfl
@[simp] theorem State.lineTo_pending (s : State) (l : LineNo) (st : LineState) : (s.lineTo l st).pending = s.pending := rfl
@[simp] theorem State.lineTo_work (s : State) (l : LineNo) (st : LineState) : (s.lineTo l st).work = s.work := rfl
@[simp] theorem State.lineTo_isUp (s : State) (l : LineNo) (st : LineState) : (s.lineTo l st).isUp = s.isUp := rfl
@[simp] theorem State.lineTo_inService (s : State) (l : LineNo) (st : LineState) : (s.lineTo l st).inService = s.inService := rfl
@[simp] theorem State.lineTo_param (s : State) (l : LineNo) (st : LineState) (p : Param) :
    (s.lineTo l st).param p = s.param p := rfl
@[simp] theorem State.lineTo_routing (s : State) (l : LineNo) (st : LineState) (k : ErrorKind) :
    (s.lineTo l st).routing k = s.routing k := rfl
@[simp] theorem State.lineTo_hears (s : State) (l : LineNo) (st : LineState) (p : Port) : (s.lineTo l st).hears p = s.hears p := rfl
@[simp] theorem State.lineTo_limit (s : State) (l : LineNo) (st : LineState) : (s.lineTo l st).limit = s.limit := rfl
@[simp] theorem State.lineTo_bearer (s : State) (l : LineNo) (st : LineState) (k : BearerNo) :
    (s.lineTo l st).bearer k = s.bearer k := rfl

/-! ### bearerTo -/

@[simp] theorem State.bearerTo_now (s : State) (b : BearerNo) (st : BearerState) : (s.bearerTo b st).now = s.now := rfl
@[simp] theorem State.bearerTo_unit (s : State) (b : BearerNo) (st : BearerState) : (s.bearerTo b st).unit = s.unit := rfl
@[simp] theorem State.bearerTo_errors (s : State) (b : BearerNo) (st : BearerState) : (s.bearerTo b st).errors = s.errors := rfl
@[simp] theorem State.bearerTo_params (s : State) (b : BearerNo) (st : BearerState) : (s.bearerTo b st).params = s.params := rfl
@[simp] theorem State.bearerTo_lines (s : State) (b : BearerNo) (st : BearerState) : (s.bearerTo b st).lines = s.lines := rfl
@[simp] theorem State.bearerTo_active (s : State) (b : BearerNo) (st : BearerState) : (s.bearerTo b st).active = s.active := rfl
@[simp] theorem State.bearerTo_counter (s : State) (b : BearerNo) (st : BearerState) : (s.bearerTo b st).counter = s.counter := rfl
@[simp] theorem State.bearerTo_waiting (s : State) (b : BearerNo) (st : BearerState) : (s.bearerTo b st).waiting = s.waiting := rfl
@[simp] theorem State.bearerTo_ring (s : State) (b : BearerNo) (st : BearerState) : (s.bearerTo b st).ring = s.ring := rfl
@[simp] theorem State.bearerTo_link (s : State) (b : BearerNo) (st : BearerState) : (s.bearerTo b st).link = s.link := rfl
@[simp] theorem State.bearerTo_quality (s : State) (b : BearerNo) (st : BearerState) : (s.bearerTo b st).quality = s.quality := rfl
@[simp] theorem State.bearerTo_coder (s : State) (b : BearerNo) (st : BearerState) : (s.bearerTo b st).coder = s.coder := rfl
@[simp] theorem State.bearerTo_messages (s : State) (b : BearerNo) (st : BearerState) :
    (s.bearerTo b st).messages = s.messages := rfl
@[simp] theorem State.bearerTo_testing (s : State) (b : BearerNo) (st : BearerState) : (s.bearerTo b st).testing = s.testing := rfl
@[simp] theorem State.bearerTo_pins (s : State) (b : BearerNo) (st : BearerState) : (s.bearerTo b st).pins = s.pins := rfl
@[simp] theorem State.bearerTo_pending (s : State) (b : BearerNo) (st : BearerState) : (s.bearerTo b st).pending = s.pending := rfl
@[simp] theorem State.bearerTo_work (s : State) (b : BearerNo) (st : BearerState) : (s.bearerTo b st).work = s.work := rfl
@[simp] theorem State.bearerTo_isUp (s : State) (b : BearerNo) (st : BearerState) : (s.bearerTo b st).isUp = s.isUp := rfl
@[simp] theorem State.bearerTo_inService (s : State) (b : BearerNo) (st : BearerState) :
    (s.bearerTo b st).inService = s.inService := rfl
@[simp] theorem State.bearerTo_param (s : State) (b : BearerNo) (st : BearerState) (p : Param) :
    (s.bearerTo b st).param p = s.param p := rfl
@[simp] theorem State.bearerTo_routing (s : State) (b : BearerNo) (st : BearerState) (k : ErrorKind) :
    (s.bearerTo b st).routing k = s.routing k := rfl
@[simp] theorem State.bearerTo_hears (s : State) (b : BearerNo) (st : BearerState) (p : Port) :
    (s.bearerTo b st).hears p = s.hears p := rfl
@[simp] theorem State.bearerTo_limit (s : State) (b : BearerNo) (st : BearerState) : (s.bearerTo b st).limit = s.limit := rfl
@[simp] theorem State.bearerTo_line (s : State) (b : BearerNo) (st : BearerState) (k : LineNo) :
    (s.bearerTo b st).line k = s.line k := rfl

/-! ### withoutPair -/

@[simp] theorem State.withoutPair_now (s : State) (b : BearerNo) : (s.withoutPair b).now = s.now := rfl
@[simp] theorem State.withoutPair_unit (s : State) (b : BearerNo) : (s.withoutPair b).unit = s.unit := rfl
@[simp] theorem State.withoutPair_errors (s : State) (b : BearerNo) : (s.withoutPair b).errors = s.errors := rfl
@[simp] theorem State.withoutPair_params (s : State) (b : BearerNo) : (s.withoutPair b).params = s.params := rfl
@[simp] theorem State.withoutPair_lines (s : State) (b : BearerNo) : (s.withoutPair b).lines = s.lines := rfl
@[simp] theorem State.withoutPair_bearers (s : State) (b : BearerNo) : (s.withoutPair b).bearers = s.bearers := rfl
@[simp] theorem State.withoutPair_active (s : State) (b : BearerNo) : (s.withoutPair b).active = s.active := rfl
@[simp] theorem State.withoutPair_counter (s : State) (b : BearerNo) : (s.withoutPair b).counter = s.counter := rfl
@[simp] theorem State.withoutPair_waiting (s : State) (b : BearerNo) : (s.withoutPair b).waiting = s.waiting := rfl
@[simp] theorem State.withoutPair_ring (s : State) (b : BearerNo) : (s.withoutPair b).ring = s.ring := rfl
@[simp] theorem State.withoutPair_link (s : State) (b : BearerNo) : (s.withoutPair b).link = s.link := rfl
@[simp] theorem State.withoutPair_messages (s : State) (b : BearerNo) : (s.withoutPair b).messages = s.messages := rfl
@[simp] theorem State.withoutPair_testing (s : State) (b : BearerNo) : (s.withoutPair b).testing = s.testing := rfl
@[simp] theorem State.withoutPair_pins (s : State) (b : BearerNo) : (s.withoutPair b).pins = s.pins := rfl
@[simp] theorem State.withoutPair_pending (s : State) (b : BearerNo) : (s.withoutPair b).pending = s.pending := rfl
@[simp] theorem State.withoutPair_work (s : State) (b : BearerNo) : (s.withoutPair b).work = s.work := rfl
@[simp] theorem State.withoutPair_isUp (s : State) (b : BearerNo) : (s.withoutPair b).isUp = s.isUp := rfl
@[simp] theorem State.withoutPair_inService (s : State) (b : BearerNo) : (s.withoutPair b).inService = s.inService := rfl
@[simp] theorem State.withoutPair_param (s : State) (b : BearerNo) (p : Param) : (s.withoutPair b).param p = s.param p := rfl
@[simp] theorem State.withoutPair_routing (s : State) (b : BearerNo) (k : ErrorKind) : (s.withoutPair b).routing k = s.routing k := rfl
@[simp] theorem State.withoutPair_line (s : State) (b : BearerNo) (l : LineNo) : (s.withoutPair b).line l = s.line l := rfl
@[simp] theorem State.withoutPair_bearer (s : State) (b k : BearerNo) : (s.withoutPair b).bearer k = s.bearer k := rfl
@[simp] theorem State.withoutPair_limit (s : State) (b : BearerNo) : (s.withoutPair b).limit = s.limit := by
  simp only [State.limit, State.withoutPair]
  cases s.quality.plan <;> rfl

/-! ### endTo -/

@[simp] theorem State.endTo_now (s : State) (b : BearerNo) (c : Call) (st : BearerState) : (s.endTo b c st).now = s.now := rfl
@[simp] theorem State.endTo_unit (s : State) (b : BearerNo) (c : Call) (st : BearerState) : (s.endTo b c st).unit = s.unit := rfl
@[simp] theorem State.endTo_errors (s : State) (b : BearerNo) (c : Call) (st : BearerState) : (s.endTo b c st).errors = s.errors := rfl
@[simp] theorem State.endTo_params (s : State) (b : BearerNo) (c : Call) (st : BearerState) : (s.endTo b c st).params = s.params := rfl
@[simp] theorem State.endTo_lines (s : State) (b : BearerNo) (c : Call) (st : BearerState) : (s.endTo b c st).lines = s.lines := rfl
@[simp] theorem State.endTo_counter (s : State) (b : BearerNo) (c : Call) (st : BearerState) :
    (s.endTo b c st).counter = s.counter := rfl
@[simp] theorem State.endTo_waiting (s : State) (b : BearerNo) (c : Call) (st : BearerState) :
    (s.endTo b c st).waiting = s.waiting := rfl
@[simp] theorem State.endTo_ring (s : State) (b : BearerNo) (c : Call) (st : BearerState) : (s.endTo b c st).ring = s.ring := rfl
@[simp] theorem State.endTo_link (s : State) (b : BearerNo) (c : Call) (st : BearerState) : (s.endTo b c st).link = s.link := rfl
@[simp] theorem State.endTo_messages (s : State) (b : BearerNo) (c : Call) (st : BearerState) :
    (s.endTo b c st).messages = s.messages := rfl
@[simp] theorem State.endTo_testing (s : State) (b : BearerNo) (c : Call) (st : BearerState) :
    (s.endTo b c st).testing = s.testing := rfl
@[simp] theorem State.endTo_pins (s : State) (b : BearerNo) (c : Call) (st : BearerState) : (s.endTo b c st).pins = s.pins := rfl
@[simp] theorem State.endTo_pending (s : State) (b : BearerNo) (c : Call) (st : BearerState) :
    (s.endTo b c st).pending = s.pending := rfl
@[simp] theorem State.endTo_work (s : State) (b : BearerNo) (c : Call) (st : BearerState) : (s.endTo b c st).work = s.work := rfl
@[simp] theorem State.endTo_isUp (s : State) (b : BearerNo) (c : Call) (st : BearerState) : (s.endTo b c st).isUp = s.isUp := rfl
@[simp] theorem State.endTo_inService (s : State) (b : BearerNo) (c : Call) (st : BearerState) :
    (s.endTo b c st).inService = s.inService := rfl
@[simp] theorem State.endTo_param (s : State) (b : BearerNo) (c : Call) (st : BearerState) (p : Param) :
    (s.endTo b c st).param p = s.param p := rfl
@[simp] theorem State.endTo_routing (s : State) (b : BearerNo) (c : Call) (st : BearerState) (k : ErrorKind) :
    (s.endTo b c st).routing k = s.routing k := rfl
@[simp] theorem State.endTo_hears (s : State) (b : BearerNo) (c : Call) (st : BearerState) (p : Port) :
    (s.endTo b c st).hears p = s.hears p := rfl
@[simp] theorem State.endTo_line (s : State) (b : BearerNo) (c : Call) (st : BearerState) (k : LineNo) :
    (s.endTo b c st).line k = s.line k := rfl
@[simp] theorem State.endTo_limit (s : State) (b : BearerNo) (c : Call) (st : BearerState) : (s.endTo b c st).limit = s.limit := by
  exact s.withoutPair_limit b

/-! ### withWork -/

@[simp] theorem State.withWork_now (s : State) (w : Work) : (s.withWork w).now = s.now := rfl
@[simp] theorem State.withWork_unit (s : State) (w : Work) : (s.withWork w).unit = s.unit := rfl
@[simp] theorem State.withWork_errors (s : State) (w : Work) : (s.withWork w).errors = s.errors := rfl
@[simp] theorem State.withWork_params (s : State) (w : Work) : (s.withWork w).params = s.params := rfl
@[simp] theorem State.withWork_lines (s : State) (w : Work) : (s.withWork w).lines = s.lines := rfl
@[simp] theorem State.withWork_bearers (s : State) (w : Work) : (s.withWork w).bearers = s.bearers := rfl
@[simp] theorem State.withWork_active (s : State) (w : Work) : (s.withWork w).active = s.active := rfl
@[simp] theorem State.withWork_counter (s : State) (w : Work) : (s.withWork w).counter = s.counter := rfl
@[simp] theorem State.withWork_waiting (s : State) (w : Work) : (s.withWork w).waiting = s.waiting := rfl
@[simp] theorem State.withWork_ring (s : State) (w : Work) : (s.withWork w).ring = s.ring := rfl
@[simp] theorem State.withWork_link (s : State) (w : Work) : (s.withWork w).link = s.link := rfl
@[simp] theorem State.withWork_quality (s : State) (w : Work) : (s.withWork w).quality = s.quality := rfl
@[simp] theorem State.withWork_coder (s : State) (w : Work) : (s.withWork w).coder = s.coder := rfl
@[simp] theorem State.withWork_messages (s : State) (w : Work) : (s.withWork w).messages = s.messages := rfl
@[simp] theorem State.withWork_testing (s : State) (w : Work) : (s.withWork w).testing = s.testing := rfl
@[simp] theorem State.withWork_pins (s : State) (w : Work) : (s.withWork w).pins = s.pins := rfl
@[simp] theorem State.withWork_pending (s : State) (w : Work) : (s.withWork w).pending = s.pending := rfl
@[simp] theorem State.withWork_isUp (s : State) (w : Work) : (s.withWork w).isUp = s.isUp := rfl
@[simp] theorem State.withWork_inService (s : State) (w : Work) : (s.withWork w).inService = s.inService := rfl
@[simp] theorem State.withWork_param (s : State) (w : Work) (p : Param) : (s.withWork w).param p = s.param p := rfl
@[simp] theorem State.withWork_routing (s : State) (w : Work) (k : ErrorKind) : (s.withWork w).routing k = s.routing k := rfl
@[simp] theorem State.withWork_hears (s : State) (w : Work) (p : Port) : (s.withWork w).hears p = s.hears p := rfl
@[simp] theorem State.withWork_limit (s : State) (w : Work) : (s.withWork w).limit = s.limit := rfl
@[simp] theorem State.withWork_line (s : State) (w : Work) (k : LineNo) : (s.withWork w).line k = s.line k := rfl
@[simp] theorem State.withWork_bearer (s : State) (w : Work) (k : BearerNo) : (s.withWork w).bearer k = s.bearer k := rfl

/-! ### queued -/

@[simp] theorem State.queued_now (s : State) (p : Port) (r : Record) : (s.queued p r).now = s.now := by cases p <;> rfl
@[simp] theorem State.queued_unit (s : State) (p : Port) (r : Record) : (s.queued p r).unit = s.unit := by cases p <;> rfl
@[simp] theorem State.queued_errors (s : State) (p : Port) (r : Record) : (s.queued p r).errors = s.errors := by cases p <;> rfl
@[simp] theorem State.queued_params (s : State) (p : Port) (r : Record) : (s.queued p r).params = s.params := by cases p <;> rfl
@[simp] theorem State.queued_lines (s : State) (p : Port) (r : Record) : (s.queued p r).lines = s.lines := by cases p <;> rfl
@[simp] theorem State.queued_bearers (s : State) (p : Port) (r : Record) : (s.queued p r).bearers = s.bearers := by cases p <;> rfl
@[simp] theorem State.queued_active (s : State) (p : Port) (r : Record) : (s.queued p r).active = s.active := by cases p <;> rfl
@[simp] theorem State.queued_counter (s : State) (p : Port) (r : Record) : (s.queued p r).counter = s.counter := by cases p <;> rfl
@[simp] theorem State.queued_waiting (s : State) (p : Port) (r : Record) : (s.queued p r).waiting = s.waiting := by cases p <;> rfl
@[simp] theorem State.queued_ring (s : State) (p : Port) (r : Record) : (s.queued p r).ring = s.ring := by cases p <;> rfl
@[simp] theorem State.queued_link (s : State) (p : Port) (r : Record) : (s.queued p r).link = s.link := by cases p <;> rfl
@[simp] theorem State.queued_quality (s : State) (p : Port) (r : Record) : (s.queued p r).quality = s.quality := by cases p <;> rfl
@[simp] theorem State.queued_coder (s : State) (p : Port) (r : Record) : (s.queued p r).coder = s.coder := by cases p <;> rfl
@[simp] theorem State.queued_testing (s : State) (p : Port) (r : Record) : (s.queued p r).testing = s.testing := by cases p <;> rfl
@[simp] theorem State.queued_pins (s : State) (p : Port) (r : Record) : (s.queued p r).pins = s.pins := by cases p <;> rfl
@[simp] theorem State.queued_pending (s : State) (p : Port) (r : Record) : (s.queued p r).pending = s.pending := by cases p <;> rfl
@[simp] theorem State.queued_work (s : State) (p : Port) (r : Record) : (s.queued p r).work = s.work := by cases p <;> rfl
@[simp] theorem State.queued_line (s : State) (p : Port) (r : Record) (k : LineNo) :
    (s.queued p r).line k = s.line k := by cases p <;> rfl
@[simp] theorem State.queued_bearer (s : State) (p : Port) (r : Record) (k : BearerNo) :
    (s.queued p r).bearer k = s.bearer k := by cases p <;> rfl

/-! ### The records written -/

@[simp] theorem State.withLine_line_same (s : State) (l : LineNo) (r : LineRecord) : (s.withLine l r).line l = r := by
  simp [State.withLine, State.line]

theorem State.withLine_line (s : State) (l k : LineNo) (r : LineRecord) :
    (s.withLine l r).line k = if k = l then r else s.line k := by
  by_cases h : k = l
  · subst h; simp
  · have h' : l.val ≠ k.val := fun e => h (Fin.ext e.symm)
    simp [State.withLine, State.line, h, h']

@[simp] theorem State.withBearer_bearer_same (s : State) (b : BearerNo) (r : BearerRecord) :
    (s.withBearer b r).bearer b = r := by
  simp [State.withBearer, State.bearer]

theorem State.withBearer_bearer (s : State) (b k : BearerNo) (r : BearerRecord) :
    (s.withBearer b r).bearer k = if k = b then r else s.bearer k := by
  by_cases h : k = b
  · subst h; simp
  · have h' : b.val ≠ k.val := fun e => h (Fin.ext e.symm)
    simp [State.withBearer, State.bearer, h, h']

@[simp] theorem State.lineTo_line_same (s : State) (l : LineNo) (st : LineState) :
    (s.lineTo l st).line l = (s.line l).moved st := by
  simp [State.lineTo]

theorem State.lineTo_line (s : State) (l k : LineNo) (st : LineState) :
    (s.lineTo l st).line k = if k = l then (s.line l).moved st else s.line k := by
  simp [State.lineTo, State.withLine_line]

@[simp] theorem State.bearerTo_bearer_same (s : State) (b : BearerNo) (st : BearerState) :
    (s.bearerTo b st).bearer b = (s.bearer b).moved st s.now := by
  simp [State.bearerTo]

theorem State.bearerTo_bearer (s : State) (b k : BearerNo) (st : BearerState) :
    (s.bearerTo b st).bearer k = if k = b then (s.bearer b).moved st s.now else s.bearer k := by
  simp [State.bearerTo, State.withBearer_bearer]

/-- The bearers after the end of a call: its own, and the destination that a relocation had reserved. -/
theorem State.endTo_bearer (s : State) (b k : BearerNo) (c : Call) (st : BearerState) :
    (s.endTo b c st).bearer k = if c.target = some k then ((s.bearerTo b st).bearer k).moved .free s.now
      else (s.bearerTo b st).bearer k := by
  have e : (s.endTo b c st).bearer k = (match c.target with
      | none => s.bearerTo b st
      | some d => (s.bearerTo b st).bearerTo d .free).bearer k := by cases h : c.target <;> simp only [State.endTo, h] <;> rfl
  rw [e]
  cases c.target with
  | none => rfl
  | some d =>
    simp only [Option.some.injEq]
    rw [State.bearerTo_bearer]
    by_cases h : k = d
    · subst h; simp
    · rw [if_neg h, if_neg (fun e => h e.symm)]

@[simp] theorem State.withWork_withWork (s : State) (v w : Work) : (s.withWork v).withWork w = s.withWork w := rfl
@[simp] theorem State.withWork_work (s : State) (w : Work) : (s.withWork w).work = w := rfl
theorem State.withWork_self (s : State) : s.withWork s.work = s := rfl
@[simp] theorem State.begin_withWork (s : State) (t : Time) : (s.begin t).withWork {} = s.begin t := rfl

/-- A state whose work is empty. -/
theorem State.withWork_of_idle {s : State} (h : s.work = {}) : s.withWork {} = s := by
  rw [← h]; rfl

end Sys2Proof.Machine
end

