-- ==== Sys2Proof/Laws/Event.lean ====
section
/-! SUPPORT. What the shared operations around an event can do: parity checks of sound records, the queues, the end of an event that
leaves nothing to do, and the reply. -/

namespace Sys2Proof.Machine

open Sys2Proof

/-! ### Parity -/

theorem State.Clean.parityBad {s : State} (h : s.Clean) (id : RecordId) : s.parityBad id = false := by
  cases id with
  | line l => exact (h.1 l).1
  | bearer b => exact (h.2 b).1

/-- Records that do not mismatch are read without an effect. -/
theorem State.checkParity_eq_self {s : State} {ids : List RecordId} (h : ∀ id ∈ ids, s.parityBad id = false) :
    s.checkParity ids = s := by
  have hf : ids.filter s.newMismatch = [] := by
    rw [List.filter_eq_nil_iff]
    intro id hid
    simp [State.newMismatch, h id hid]
  simp [State.checkParity, State.readParity, hf, State.raiseAll]

theorem State.Clean.checkParity {s : State} (h : s.Clean) (ids : List RecordId) : s.checkParity ids = s :=
  State.checkParity_eq_self (fun id _ => h.parityBad id)

/-! ### Queues -/

/-- A record passed to a port whose queue has room joins its back. -/
theorem State.send_of_room {s : State} {p : Port} {r : Record} (h : s.HasRoom p) : s.send p r = s.queued p r := by
  cases p <;>
  · simp only [State.HasRoom] at h
    simp [State.send, State.push, pushLinkQueue, pushLocalQueue, h, State.queued, State.raiseAll]

/-- A call-control record is discarded while the link is not UP (03, R70). -/
theorem State.sendCall_of_not_up {s : State} {r : Record} (h : s.isUp = false) : s.sendCall r = s := by
  simp [State.sendCall, h]

/-- A call-control record joins the back of a link queue with room while the link is UP. -/
theorem State.sendCall_of_up {s : State} {r : Record} (h : s.isUp = true) (hr : s.HasRoom .link) :
    s.sendCall r = s.queued .link r := by
  simp [State.sendCall, h, State.send_of_room hr]

/-! ### The end of an event -/

/-- Service of an empty waiting queue does nothing. -/
theorem State.serveQueue_of_empty {s : State} (h : s.waiting = []) : s.serveQueue = s := by
  have : ∀ n, serveQueueUpTo n s = s := by
    intro n
    cases n with
    | zero => rfl
    | succ n => simp [serveQueueUpTo, h]
  simp [State.serveQueue, h, this]

/-- Without a step plan in DRAIN there is nothing to evaluate. -/
theorem State.stepPlan_of_noDrain {s : State} (h : s.NoDrain) (force : Bool) : s.stepPlan force = s := by
  unfold State.stepPlan
  split
  · next p hp => split <;> first | rfl | next timer ht => exact absurd ht (h p timer hp)
  · rfl

/-- A state without a step plan has none in DRAIN. -/
theorem State.NoDrain.of_none {s : State} (h : s.quality.plan = none) : s.NoDrain := by
  intro p timer e; rw [h] at e; cases e

/-- Without a step plan there is nothing to evaluate. -/
theorem State.stepPlan_of_none {s : State} (h : s.quality.plan = none) (force : Bool) : s.stepPlan force = s :=
  State.stepPlan_of_noDrain (State.NoDrain.of_none h) force

/-- No line is due, so the sweep chooses none. -/
theorem State.sweepChoice_of_not_due {s : State} (h : ∀ l : LineNo, s.now < (s.line l).testDue) :
    s.sweepChoice = none := by
  have hf : allLines.filter s.eligible = [] := by
    rw [List.filter_eq_nil_iff]
    intro l _
    have := h l
    simp [State.eligible, State.due, Nat.not_le.mpr this]
  simp [State.sweepChoice, hf]

/-- Where no test can start, a choice of a test does nothing. -/
theorem State.chooseTest_of_noTest {s : State} (hc : s.Clean) (h : s.NoTest) : s.chooseTest = s := by
  unfold State.chooseTest
  split
  · rename_i hs
    simp only [Bool.and_eq_true, State.inService, beq_iff_eq] at hs
    rcases h with h | h | h | ⟨hd, h⟩
    · exact absurd hs.1.1 h
    · simp [h] at hs
    · have h2 := hs.2
      cases ht : s.testing.test <;> simp_all
    · simp only [hd, serveDemand]
      rcases h with h | h
      · simp [h]
      · simp [hc.checkParity, State.sweepChoice_of_not_due h]
  · rfl

/-- The account of an event's work with its three flags taken down. -/
def Work.lowered (w : Work) : Work := { w with serve := false, counts := false, choose := false }

/-- Settling a state that leaves nothing to do only takes the flags down. -/
theorem State.settle_of_still {s : State} (hc : s.Clean) (h : s.Still) :
    s.settle = s.withWork s.work.lowered := by
  obtain ⟨hw, hp, ht⟩ := h
  have serve : ∀ w, (s.withWork w).serveQueue = s.withWork w := fun w => State.serveQueue_of_empty hw
  have plan : ∀ w, (s.withWork w).stepPlan false = s.withWork w :=
    fun w => State.stepPlan_of_noDrain (s := s.withWork w) hp false
  have test : ∀ w, (s.withWork w).chooseTest = s.withWork w :=
    fun w => State.chooseTest_of_noTest (s := s.withWork w) hc ht
  have again : ∀ v w, (s.withWork v).withWork w = s.withWork w := fun _ _ => rfl
  have work : ∀ w, (s.withWork w).work = w := fun _ => rfl
  have self : s = s.withWork s.work := rfl
  generalize s.work = v at *
  obtain ⟨found, sv, ct, ch, rp, od⟩ := v
  rw [self]
  cases sv <;> cases ct <;> cases ch <;> simp [State.settle, Work.lowered, serve, plan, test, again]

/-- One round of an event that ordered nothing and owes no reply. -/
theorem State.round_of_still {s : State} (hc : s.Clean) (h : s.Still) (ho : s.work.ordered = [])
    (hr : s.work.reply = none) :
    s.round = s.withWork s.work.lowered := by
  have work : ∀ w, (s.withWork w).work = w := fun _ => rfl
  have again : ∀ v w, (s.withWork v).withWork w = s.withWork w := fun _ _ => rfl
  simp [State.round, State.settle_of_still hc h, State.conclude, State.flushReply, Work.lowered, ho, hr, again]

/-- The end of an event that ordered nothing and owes no reply. -/
theorem State.finish_of_still {s : State} (hc : s.Clean) (h : s.Still) (ho : s.work.ordered = [])
    (hr : s.work.reply = none) : s.finish = s.withWork {} := by
  have work : ∀ w, (s.withWork w).work = w := fun _ => rfl
  have again : ∀ v w, (s.withWork v).withWork w = s.withWork w := fun _ _ => rfl
  have step : ∀ w : Work, w.ordered = [] → w.reply = none → (s.withWork w).round =
      s.withWork w.lowered :=
    fun w ho hr => State.round_of_still (s := s.withWork w) hc h ho hr
  rw [State.finish, State.round_of_still hc h ho hr, step s.work.lowered ho hr, step s.work.lowered.lowered ho hr, again]

/-- A round of an event whose work is empty does nothing. -/
theorem State.round_of_idle {s : State} (h : s.work = {}) : s.round = s := by
  have settle : s.settle = s := by simp [State.settle, h]
  rw [State.round, settle, State.conclude]
  simp only [h, State.flushReply, State.withWork]
  simp [← h]

/-- The end of an event whose work is empty. -/
theorem State.finish_of_idle {s : State} (h : s.work = {}) : s.finish = s := by
  rw [State.finish, State.round_of_idle h, State.round_of_idle h, State.round_of_idle h, State.withWork]
  simp [← h]

/-- A part of an event whose work is empty leaves nothing to settle. -/
theorem State.pause_of_idle {s : State} (h : s.work = {}) : s.pause = s := by
  have settle : s.settle = s := by simp [State.settle, h]
  simp [State.pause, settle, h, State.flushReply]

/-- The end of an event whose only work is a reply to a port whose queue has room. -/
theorem State.finish_of_reply_alone {s : State} {p : Port} {r : Record} (hq : s.HasRoom p) :
    (s.withWork { reply := some (p, r) }).finish = (s.withWork {}).queued p r := by
  have room : (s.withWork {}).send p r = (s.withWork {}).queued p r :=
    State.send_of_room (s := s.withWork {}) (by cases p <;> exact hq)
  have work : ∀ w, (s.withWork w).work = w := fun _ => rfl
  have again : ∀ v w, (s.withWork v).withWork w = s.withWork w := fun _ _ => rfl
  have first : (s.withWork { reply := some (p, r) }).round = (s.withWork {}).queued p r := by
    simp [State.round, State.settle, State.conclude, State.flushReply, again, room]
  have idle : ((s.withWork {}).queued p r).work = {} := by cases p <;> rfl
  have h := State.finish_of_idle idle
  rw [State.finish, State.round_of_idle idle] at h
  rw [State.finish, first]
  exact h

/-- The end of an event that owes a reply to a port whose queue has room. -/
theorem State.finish_of_reply {s : State} (hc : s.Clean) (h : s.Still) (ho : s.work.ordered = []) {p : Port}
    {r : Record} (hr : s.work.reply = some (p, r)) (hq : s.HasRoom p) :
    s.finish = (s.withWork {}).queued p r := by
  have first : s.round = (s.queued p r).withWork { s.work.lowered with reply := none } := by
    have room : ∀ w, (s.withWork w).send p r = (s.withWork w).queued p r :=
      fun w => State.send_of_room (s := s.withWork w) (by cases p <;> exact hq)
    have work : ∀ w, (s.withWork w).work = w := fun _ => rfl
    have again : ∀ v w, (s.withWork v).withWork w = s.withWork w := fun _ _ => rfl
    simp [State.round, State.settle_of_still hc h, State.conclude, State.flushReply, Work.lowered, ho, hr, again, room]
    cases p <;> rfl
  have hc' : (s.queued p r).Clean := by cases p <;> exact hc
  have hs' : (s.queued p r).Still := by cases p <;> exact h
  have step : ∀ w : Work, w.ordered = [] → w.reply = none → ((s.queued p r).withWork w).round =
      (s.queued p r).withWork w.lowered :=
    fun w ho hr => State.round_of_still (s := (s.queued p r).withWork w) hc' hs' ho hr
  rw [State.finish, first, step { s.work.lowered with reply := none } ho rfl,
    step ({ s.work.lowered with reply := none } : Work).lowered ho rfl]
  cases p <;> rfl

end Sys2Proof.Machine
end

