-- ==== Sys2Proof/Laws/Errors.lean ====
section
/-! SUPPORT. What raising an error and passing a record to a port can change: the error records, the two queues, and the restarts put by
for the event's end; how a part of an event after which nothing waits is ended; and the link restart that an error orders. -/

namespace Sys2Proof.Machine

open Sys2Proof

/-- Two states agree but for the error records, the transmit queues and the event's work. -/
structure SameButErrors (s t : State) : Prop where
  now : t.now = s.now
  unit : t.unit = s.unit
  params : t.params = s.params
  lines : t.lines = s.lines
  bearers : t.bearers = s.bearers
  active : t.active = s.active
  counter : t.counter = s.counter
  waiting : t.waiting = s.waiting
  ring : t.ring = s.ring
  link : t.link = s.link
  quality : t.quality = s.quality
  coder : t.coder = s.coder
  testing : t.testing = s.testing
  pins : t.pins = s.pins
  pending : t.pending = s.pending
  routings : t.errors.routings = s.errors.routings
  assembler : t.messages.assembler = s.messages.assembler
  sending : t.messages.sending = s.messages.sending

theorem SameButErrors.refl (s : State) : SameButErrors s s := by constructor <;> rfl

theorem SameButErrors.trans {r s t : State} (h : SameButErrors r s) (k : SameButErrors s t) : SameButErrors r t := by
  obtain ⟨h1, h2, h3, h4, h5, h6, h7, h8, h9, h10, h11, h12, h13, h14, h15, h16, h17, h18⟩ := h
  obtain ⟨k1, k2, k3, k4, k5, k6, k7, k8, k9, k10, k11, k12, k13, k14, k15, k16, k17, k18⟩ := k
  constructor <;> simp_all

theorem State.push_same (s : State) (p : Port) (r : Record) : SameButErrors s (s.push p r).1 := by
  cases p <;> constructor <;> rfl

theorem State.pushBoth_same (s : State) (r : Record) : SameButErrors s (s.pushBoth r).1 :=
  (s.push_same .link r).trans ((s.push .link r).1.push_same .localPort r)

theorem State.recordError_same (s : State) (e : ErrorEvent) : SameButErrors s (s.recordError e).1 := by
  unfold State.recordError State.placeError
  split <;> constructor <;> rfl

theorem State.takeError_same (s : State) (e : ErrorEvent) : SameButErrors s (s.takeError e).1 := by
  unfold State.takeError
  have h := s.recordError_same e
  generalize s.recordError e = x at *
  cases hr : s.routing e.kind <;> simp only
  · exact h
  · split
    · exact h.trans (State.pushBoth_same _ _)
    · exact h
  · refine h.trans ?_
    constructor <;> rfl
  · refine h.trans ?_
    constructor <;> rfl

theorem State.takeErrors_same (s : State) (es : List ErrorEvent) : SameButErrors s (s.takeErrors es).1 := by
  have : ∀ (es : List ErrorEvent) (x : State × List ErrorEvent), SameButErrors s x.1 →
      SameButErrors s (es.foldl (fun acc e => let r := acc.1.takeError e; (r.1, acc.2 ++ r.2)) x).1 := by
    intro es
    induction es with
    | nil => intro x h; exact h
    | cons e es ih => intro x h; exact ih _ (h.trans (State.takeError_same _ _))
  exact this es (s, []) (SameButErrors.refl s)

/-- An error raised changes only the error records, the transmit queues and the restarts ordered (11, R175). -/
theorem State.raise_same (s : State) (e : ErrorEvent) : SameButErrors s (s.raise e) :=
  ((s.takeError_same e).trans (State.takeErrors_same _ _)).trans (State.takeErrors_same _ _)

theorem State.raiseAll_same (s : State) (es : List ErrorEvent) : SameButErrors s (s.raiseAll es) := by
  unfold State.raiseAll
  induction es generalizing s with
  | nil => exact SameButErrors.refl s
  | cons e es ih => exact (s.raise_same e).trans (ih _)

/-- A record passed to a port changes only the error records, the transmit queues and the restarts ordered. -/
theorem State.send_same (s : State) (p : Port) (r : Record) : SameButErrors s (s.send p r) :=
  (s.push_same p r).trans (State.raiseAll_same _ _)

theorem State.sendBoth_same (s : State) (r : Record) : SameButErrors s (s.sendBoth r) :=
  (s.pushBoth_same r).trans (State.raiseAll_same _ _)

theorem State.sendCall_same (s : State) (r : Record) : SameButErrors s (s.sendCall r) := by
  unfold State.sendCall
  split
  · exact s.send_same .link r
  · exact SameButErrors.refl s

theorem State.checkParity_same (s : State) (ids : List RecordId) : SameButErrors s (s.checkParity ids) := by
  refine SameButErrors.trans ?_ (State.raiseAll_same (s.readParity ids).1 (s.readParity ids).2)
  constructor <;> rfl

/-! ### What agreement carries over -/

theorem SameButErrors.line {s t : State} (h : SameButErrors s t) (l : LineNo) : t.line l = s.line l := by
  simp [State.line, h.lines]

theorem SameButErrors.bearer {s t : State} (h : SameButErrors s t) (b : BearerNo) : t.bearer b = s.bearer b := by
  simp [State.bearer, h.bearers]

theorem SameButErrors.clean {s t : State} (h : SameButErrors s t) (hc : s.Clean) : t.Clean := by
  refine ⟨fun l => ?_, fun b => ?_⟩
  · rw [h.line]; exact hc.1 l
  · rw [h.bearer]; exact hc.2 b

theorem SameButErrors.still {s t : State} (h : SameButErrors s t) (hs : s.Still) : t.Still := by
  obtain ⟨h1, h2, h3⟩ := hs
  refine ⟨by rw [h.waiting]; exact h1, by unfold State.NoDrain at *; rw [h.quality]; exact h2, ?_⟩
  unfold State.NoTest State.HeadIdle at *
  rw [h.unit, h.testing, h.ring, h.now]
  simpa [h.line] using h3

theorem SameButErrors.routing {s t : State} (h : SameButErrors s t) (k : ErrorKind) : t.routing k = s.routing k := by
  simp [State.routing, h.routings]

/-! ### Errors that order no restart -/

/-- A routing that takes no action but a report (11, R177). -/
def Routing.isQuiet (r : Routing) : Bool := r == .count || r == .report

theorem State.push_work (s : State) (p : Port) (r : Record) : (s.push p r).1.work = s.work := by
  cases p <;> rfl

theorem State.push_overflow (s : State) (p : Port) (r : Record) : ∀ e ∈ (s.push p r).2, e.kind = .txOverflow := by
  cases p <;> simp [State.push, overflowError]

theorem State.pushBoth_overflow (s : State) (r : Record) : ∀ e ∈ (s.pushBoth r).2, e.kind = .txOverflow := by
  intro e he
  simp only [State.pushBoth, List.mem_append] at he
  exact he.elim (State.push_overflow _ _ _ e) (State.push_overflow _ _ _ e)

theorem State.recordError_work (s : State) (e : ErrorEvent) : (s.recordError e).1.work = s.work := by
  unfold State.recordError State.placeError
  split <;> rfl

theorem State.takeError_quiet {s : State} {e : ErrorEvent} (h : (s.routing e.kind).isQuiet = true) :
    (s.takeError e).1.work = s.work ∧ ∀ x ∈ (s.takeError e).2, x.kind = .txOverflow := by
  unfold State.takeError
  have hw := s.recordError_work e
  generalize s.recordError e = x at *
  cases hr : s.routing e.kind
  · simp [hw]
  · simp only
    split
    · refine ⟨?_, ?_⟩
      · simp [State.pushBoth, State.push_work, hw]
      · exact State.pushBoth_overflow _ _
    · simp [hw]
  · simp [hr, Routing.isQuiet] at h
  · simp [hr, Routing.isQuiet] at h

theorem State.takeErrors_quiet {s : State} {es : List ErrorEvent} (ht : (s.routing .txOverflow).isQuiet = true)
    (h : ∀ e ∈ es, e.kind = .txOverflow) :
    (s.takeErrors es).1.work = s.work ∧ ∀ x ∈ (s.takeErrors es).2, x.kind = .txOverflow := by
  have : ∀ (es : List ErrorEvent) (x : State × List ErrorEvent), (∀ e ∈ es, e.kind = .txOverflow) →
      SameButErrors s x.1 → x.1.work = s.work → (∀ y ∈ x.2, y.kind = .txOverflow) →
      (es.foldl (fun acc e => let r := acc.1.takeError e; (r.1, acc.2 ++ r.2)) x).1.work = s.work ∧
      ∀ y ∈ (es.foldl (fun acc e => let r := acc.1.takeError e; (r.1, acc.2 ++ r.2)) x).2, y.kind = .txOverflow := by
    intro es
    induction es with
    | nil => intro x _ _ hw hy; exact ⟨hw, hy⟩
    | cons e es ih =>
      intro x he hx hw hy
      have hk : e.kind = .txOverflow := he e (by simp)
      have hq : (x.1.routing e.kind).isQuiet = true := by rw [hx.routing, hk]; exact ht
      have hq' := State.takeError_quiet hq
      refine ih _ (fun e' h' => he e' (by simp [h'])) (hx.trans (State.takeError_same _ _)) (by rw [hq'.1, hw]) ?_
      intro y hy'
      simp only [List.mem_append] at hy'
      rcases hy' with h' | h'
      · exact hy y h'
      · exact hq'.2 y h'
  exact this es (s, []) h (SameButErrors.refl s) rfl (by simp)

/-- An error whose routing is COUNT or REPORT, with the routing of TX_OVERFLOW no more, leaves the event's work as it is. -/
theorem State.raise_work {s : State} {e : ErrorEvent} (h : (s.routing e.kind).isQuiet = true)
    (ht : (s.routing .txOverflow).isQuiet = true) : (s.raise e).work = s.work := by
  have h1 := State.takeError_quiet h
  have s1 := s.takeError_same e
  have h2 := State.takeErrors_quiet (s := (s.takeError e).1) (by rw [s1.routing]; exact ht) h1.2
  have s2 := s1.trans (State.takeErrors_same (s.takeError e).1 (s.takeError e).2)
  have h3 := State.takeErrors_quiet (s := ((s.takeError e).1.takeErrors (s.takeError e).2).1)
    (by rw [s2.routing]; exact ht) h2.2
  simp only [State.raise]
  rw [h3.1, h2.1, h1.1]

theorem State.raiseAll_work {s : State} {es : List ErrorEvent} (h : ∀ e ∈ es, (s.routing e.kind).isQuiet = true)
    (ht : (s.routing .txOverflow).isQuiet = true) : (s.raiseAll es).work = s.work := by
  unfold State.raiseAll
  induction es generalizing s with
  | nil => rfl
  | cons e es ih =>
    have hs := s.raise_same e
    rw [List.foldl_cons, ih (fun e' h' => by rw [hs.routing]; exact h e' (by simp [h'])) (by rw [hs.routing]; exact ht)]
    exact State.raise_work (h e (by simp)) ht

/-! ### Locality -/

/-- A state with the error records, the queues and the work of another: all that recording and sending can change. -/
def State.takes (s x : State) : State := { s with errors := x.errors, messages := x.messages, work := x.work }

/-- Two states that recording and sending cannot tell apart. -/
structure SameLocal (s t : State) : Prop where
  errors : t.errors = s.errors
  messages : t.messages = s.messages
  work : t.work = s.work
  now : t.now = s.now
  unit : t.unit = s.unit

theorem SameLocal.takes {s t x : State} (h : SameButErrors s x) : SameLocal x (t.takes x) ↔
    (t.now = s.now ∧ t.unit = s.unit) :=
  ⟨fun k => ⟨by rw [← h.now]; exact k.now, by rw [← h.unit]; exact k.unit⟩,
    fun k => ⟨rfl, rfl, rfl, by rw [h.now]; exact k.1, by rw [h.unit]; exact k.2⟩⟩

theorem State.recordError_local {s t : State} (h : SameLocal s t) (e : ErrorEvent) :
    t.recordError e = (t.takes (s.recordError e).1, (s.recordError e).2) := by
  obtain ⟨h1, h2, h3, h4, h5⟩ := h
  cases hf : s.errors.first <;>
    simp [State.recordError, State.placeError, State.countError, State.takes, State.count, State.isFirst,
      State.inNext, hf, h1, h2, h3, h4, h5]

theorem State.push_local {s t : State} (h : SameLocal s t) (p : Port) (r : Record) :
    t.push p r = (t.takes (s.push p r).1, (s.push p r).2) := by
  obtain ⟨h1, h2, h3, h4, h5⟩ := h
  cases p <;> simp [State.push, State.takes, h1, h2, h3]

theorem State.takes_takes (s x y : State) : (s.takes x).takes y = s.takes y := rfl

theorem State.pushBoth_local {s t : State} (h : SameLocal s t) (r : Record) :
    t.pushBoth r = (t.takes (s.pushBoth r).1, (s.pushBoth r).2) := by
  have h1 : SameLocal (s.push .link r).1 (t.takes (s.push .link r).1) :=
    (SameLocal.takes (s.push_same .link r)).2 ⟨h.now, h.unit⟩
  simp only [State.pushBoth, State.push_local h, State.push_local h1, State.takes_takes]

theorem State.takeError_local {s t : State} (h : SameLocal s t) (e : ErrorEvent) :
    t.takeError e = (t.takes (s.takeError e).1, (s.takeError e).2) := by
  have hr : t.routing e.kind = s.routing e.kind := by simp [State.routing, h.errors]
  have h1 : SameLocal (s.recordError e).1 (t.takes (s.recordError e).1) :=
    (SameLocal.takes (s.recordError_same e)).2 ⟨h.now, h.unit⟩
  simp only [State.takeError, hr, State.recordError_local h]
  generalize s.recordError e = x at *
  cases hk : s.routing e.kind
  · rfl
  · simp only
    split
    · rw [State.pushBoth_local h1]
      rfl
    · rfl
  · rfl
  · rfl

theorem State.takeErrors_local {s t : State} (h : SameLocal s t) (es : List ErrorEvent) :
    t.takeErrors es = (t.takes (s.takeErrors es).1, (s.takeErrors es).2) := by
  have : ∀ (es : List ErrorEvent) (x : State × List ErrorEvent), SameButErrors s x.1 →
      es.foldl (fun acc e => let r := acc.1.takeError e; (r.1, acc.2 ++ r.2)) (t.takes x.1, x.2) =
        (t.takes (es.foldl (fun acc e => let r := acc.1.takeError e; (r.1, acc.2 ++ r.2)) x).1,
          (es.foldl (fun acc e => let r := acc.1.takeError e; (r.1, acc.2 ++ r.2)) x).2) := by
    intro es
    induction es with
    | nil => intro x _; rfl
    | cons e es ih =>
      intro x hx
      have h1 : SameLocal x.1 (t.takes x.1) := (SameLocal.takes hx).2 ⟨h.now, h.unit⟩
      simp only [List.foldl_cons, State.takeError_local h1, State.takes_takes]
      exact ih ((x.1.takeError e).1, x.2 ++ (x.1.takeError e).2) (hx.trans (State.takeError_same _ _))
  have h0 : t.takes s = t := by
    obtain ⟨h1, h2, h3, h4, h5⟩ := h
    simp [State.takes, ← h1, ← h2, ← h3]
  have := this es (s, []) (SameButErrors.refl s)
  rw [h0] at this
  exact this

/-- What raising an error does depends on the error records, the queues, the work and the times alone. -/
theorem State.raise_local {s t : State} (h : SameLocal s t) (e : ErrorEvent) : t.raise e = t.takes (s.raise e) := by
  have h1 : SameLocal (s.takeError e).1 (t.takes (s.takeError e).1) :=
    (SameLocal.takes (s.takeError_same e)).2 ⟨h.now, h.unit⟩
  have s2 := (s.takeError_same e).trans (State.takeErrors_same (s.takeError e).1 (s.takeError e).2)
  have h2 := (SameLocal.takes (t := t) s2).2 ⟨h.now, h.unit⟩
  simp only [State.raise, State.takeError_local h, State.takeErrors_local h1, State.takes_takes,
    State.takeErrors_local h2]

theorem State.raiseAll_local {s t : State} (h : SameLocal s t) (es : List ErrorEvent) :
    t.raiseAll es = t.takes (s.raiseAll es) := by
  unfold State.raiseAll
  induction es generalizing s t with
  | nil =>
    obtain ⟨h1, h2, h3, h4, h5⟩ := h
    simp [State.takes, ← h1, ← h2, ← h3]
  | cons e es ih =>
    have h1 : SameLocal (s.raise e) (t.takes (s.raise e)) :=
      (SameLocal.takes (s.raise_same e)).2 ⟨h.now, h.unit⟩
    rw [List.foldl_cons, List.foldl_cons, State.raise_local h, ih h1, State.takes_takes]

/-- What passing a record to a port does depends on the error records, the queues, the work and the times alone. -/
theorem State.send_local {s t : State} (h : SameLocal s t) (p : Port) (r : Record) :
    t.send p r = t.takes (s.send p r) := by
  have h1 : SameLocal (s.push p r).1 (t.takes (s.push p r).1) :=
    (SameLocal.takes (s.push_same p r)).2 ⟨h.now, h.unit⟩
  simp only [State.send, State.push_local h, State.raiseAll_local h1, State.takes_takes]

theorem State.sendBoth_local {s t : State} (h : SameLocal s t) (r : Record) :
    t.sendBoth r = t.takes (s.sendBoth r) := by
  have h1 : SameLocal (s.pushBoth r).1 (t.takes (s.pushBoth r).1) :=
    (SameLocal.takes (s.pushBoth_same r)).2 ⟨h.now, h.unit⟩
  simp only [State.sendBoth, State.pushBoth_local h, State.raiseAll_local h1, State.takes_takes]

theorem State.takes_self {s t : State} (h : SameLocal s t) : t.takes s = t := by
  obtain ⟨h1, h2, h3, h4, h5⟩ := h
  simp [State.takes, ← h1, ← h2, ← h3]

/-- As for any record, where both states have the link UP or both have not. -/
theorem State.sendCall_local {s t : State} (h : SameLocal s t) (hu : t.isUp = s.isUp) (r : Record) :
    t.sendCall r = t.takes (s.sendCall r) := by
  simp only [State.sendCall, hu]
  split
  · exact State.send_local h .link r
  · exact (State.takes_self h).symm

/-! ### Recording and sending do not read the event's work -/

theorem State.recordError_withWork (s : State) (e : ErrorEvent) (w : Work) :
    (s.withWork w).recordError e = ((s.recordError e).1.withWork w, (s.recordError e).2) := by
  cases hf : s.errors.first <;>
    simp [State.recordError, State.placeError, State.countError, State.withWork, State.count, State.isFirst,
      State.inNext, hf]

theorem State.takeError_withWork {s : State} {e : ErrorEvent} (h : (s.routing e.kind).isQuiet = true) (w : Work) :
    (s.withWork w).takeError e = ((s.takeError e).1.withWork w, (s.takeError e).2) := by
  have hr : (s.withWork w).routing e.kind = s.routing e.kind := rfl
  simp only [State.takeError, hr, State.recordError_withWork]
  generalize s.recordError e = x
  cases hk : s.routing e.kind
  · rfl
  · simp only
    split <;> rfl
  · simp [hk, Routing.isQuiet] at h
  · simp [hk, Routing.isQuiet] at h

theorem State.takeErrors_withWork {s : State} {es : List ErrorEvent} (ht : (s.routing .txOverflow).isQuiet = true)
    (h : ∀ e ∈ es, e.kind = .txOverflow) (w : Work) :
    (s.withWork w).takeErrors es = ((s.takeErrors es).1.withWork w, (s.takeErrors es).2) := by
  have : ∀ (es : List ErrorEvent) (x : State × List ErrorEvent), (∀ e ∈ es, e.kind = .txOverflow) →
      SameButErrors s x.1 →
      es.foldl (fun acc e => let r := acc.1.takeError e; (r.1, acc.2 ++ r.2)) (x.1.withWork w, x.2) =
        ((es.foldl (fun acc e => let r := acc.1.takeError e; (r.1, acc.2 ++ r.2)) x).1.withWork w,
          (es.foldl (fun acc e => let r := acc.1.takeError e; (r.1, acc.2 ++ r.2)) x).2) := by
    intro es
    induction es with
    | nil => intro x _ _; rfl
    | cons e es ih =>
      intro x he hx
      have hk : e.kind = .txOverflow := he e (by simp)
      have hq : (x.1.routing e.kind).isQuiet = true := by rw [hx.routing, hk]; exact ht
      simp only [List.foldl_cons, State.takeError_withWork hq w]
      exact ih ((x.1.takeError e).1, x.2 ++ (x.1.takeError e).2) (fun e' h' => he e' (by simp [h']))
        (hx.trans (State.takeError_same _ _))
  exact this es (s, []) h (SameButErrors.refl s)

/-- An error of a kind that orders no restart is recorded the same whatever the event has left to do. -/
theorem State.raise_withWork {s : State} {e : ErrorEvent} (h : (s.routing e.kind).isQuiet = true)
    (ht : (s.routing .txOverflow).isQuiet = true) (w : Work) : (s.withWork w).raise e = (s.raise e).withWork w := by
  have h1 := State.takeError_quiet h
  have s1 := s.takeError_same e
  have h2 := State.takeErrors_quiet (s := (s.takeError e).1) (by rw [s1.routing]; exact ht) h1.2
  have s2 := s1.trans (State.takeErrors_same (s.takeError e).1 (s.takeError e).2)
  simp only [State.raise, State.takeError_withWork h w]
  rw [State.takeErrors_withWork (by rw [s1.routing]; exact ht) h1.2]
  simp only
  rw [State.takeErrors_withWork (by rw [s2.routing]; exact ht) h2.2]

theorem State.raiseAll_withWork {s : State} {es : List ErrorEvent} (h : ∀ e ∈ es, (s.routing e.kind).isQuiet = true)
    (ht : (s.routing .txOverflow).isQuiet = true) (w : Work) : (s.withWork w).raiseAll es = (s.raiseAll es).withWork w := by
  unfold State.raiseAll
  induction es generalizing s with
  | nil => rfl
  | cons e es ih =>
    have hs := s.raise_same e
    rw [List.foldl_cons, List.foldl_cons, State.raise_withWork (h e (by simp)) ht w,
      ih (fun e' h' => by rw [hs.routing]; exact h e' (by simp [h'])) (by rw [hs.routing]; exact ht)]

theorem State.send_withWork {s : State} {p : Port} {r : Record} (ht : (s.routing .txOverflow).isQuiet = true)
    (w : Work) : (s.withWork w).send p r = (s.send p r).withWork w := by
  have hs := s.push_same p r
  have hp : (s.withWork w).push p r = ((s.push p r).1.withWork w, (s.push p r).2) := by cases p <;> rfl
  simp only [State.send, hp]
  rw [State.raiseAll_withWork _ (by rw [hs.routing]; exact ht)]
  intro e he
  rw [hs.routing, State.push_overflow s p r e he]
  exact ht

theorem State.sendBoth_withWork {s : State} {r : Record} (ht : (s.routing .txOverflow).isQuiet = true)
    (w : Work) : (s.withWork w).sendBoth r = (s.sendBoth r).withWork w := by
  have hs := s.pushBoth_same r
  have hp : (s.withWork w).pushBoth r = ((s.pushBoth r).1.withWork w, (s.pushBoth r).2) := rfl
  simp only [State.sendBoth, hp]
  refine State.raiseAll_withWork (fun e he => ?_) (by rw [hs.routing]; exact ht) w
  rw [hs.routing, State.pushBoth_overflow s r e he]
  exact ht

theorem State.sendCall_withWork {s : State} {r : Record} (ht : (s.routing .txOverflow).isQuiet = true)
    (w : Work) : (s.withWork w).sendCall r = (s.sendCall r).withWork w := by
  have hu : (s.withWork w).isUp = s.isUp := rfl
  simp only [State.sendCall, hu]
  split
  · exact State.send_withWork ht w
  · rfl

/-- The routings that a sound state has for TX_OVERFLOW (11, R174). -/
theorem State.ErrorsOk.overflow {s : State} (h : s.ErrorsOk) : (s.routing .txOverflow).isQuiet = true := by
  have := h.1 .txOverflow
  simp only [ErrorKind.allowed, List.mem_cons, List.not_mem_nil, or_false] at this
  rcases this with h | h <;> simp [h, Routing.isQuiet]

theorem State.send_work {s : State} {p : Port} {r : Record} (ht : (s.routing .txOverflow).isQuiet = true) :
    (s.send p r).work = s.work := by
  have hs := s.push_same p r
  rw [State.send, State.raiseAll_work _ (by rw [hs.routing]; exact ht), State.push_work]
  intro e he
  rw [hs.routing, State.push_overflow s p r e he]
  exact ht

theorem State.sendBoth_work {s : State} {r : Record} (ht : (s.routing .txOverflow).isQuiet = true) :
    (s.sendBoth r).work = s.work := by
  have hs := s.pushBoth_same r
  have hw : (s.pushBoth r).1.work = s.work := by simp [State.pushBoth, State.push_work]
  rw [State.sendBoth, State.raiseAll_work _ (by rw [hs.routing]; exact ht), hw]
  intro e he
  rw [hs.routing, State.pushBoth_overflow s r e he]
  exact ht

theorem State.sendCall_work {s : State} {r : Record} (ht : (s.routing .txOverflow).isQuiet = true) :
    (s.sendCall r).work = s.work := by
  unfold State.sendCall
  split
  · exact State.send_work ht
  · rfl

/-! ### The restarts ordered

An error adds a restart at most; what was ordered before it stays in front (11, R177). -/

theorem State.pushBoth_work (s : State) (r : Record) : (s.pushBoth r).1.work = s.work :=
  (State.push_work _ _ _).trans (s.push_work _ _)

theorem State.takeError_ordered (s : State) (e : ErrorEvent) : s.work.ordered <+: (s.takeError e).1.work.ordered := by
  unfold State.takeError
  dsimp only
  have h := s.recordError_work e
  split
  · rw [h]
  · split
    · rw [State.pushBoth_work, h]
    · rw [h]
  · rw [h]; exact List.prefix_append _ _
  · rw [h]; exact List.prefix_append _ _

theorem State.takeErrors_ordered (s : State) (es : List ErrorEvent) : s.work.ordered <+: (s.takeErrors es).1.work.ordered := by
  have : ∀ (es : List ErrorEvent) (x : State × List ErrorEvent), s.work.ordered <+: x.1.work.ordered →
      s.work.ordered <+: (es.foldl (fun acc e => let r := acc.1.takeError e; (r.1, acc.2 ++ r.2)) x).1.work.ordered := by
    intro es
    induction es with
    | nil => intro x h; exact h
    | cons e es ih => intro x h; exact ih _ (h.trans (State.takeError_ordered _ _))
  exact this es (s, []) List.prefix_rfl

theorem State.raise_ordered (s : State) (e : ErrorEvent) : s.work.ordered <+: (s.raise e).work.ordered :=
  ((s.takeError_ordered e).trans (State.takeErrors_ordered _ _)).trans (State.takeErrors_ordered _ _)

theorem State.raiseAll_ordered (s : State) (es : List ErrorEvent) : s.work.ordered <+: (s.raiseAll es).work.ordered := by
  unfold State.raiseAll
  induction es generalizing s with
  | nil => exact List.prefix_rfl
  | cons e es ih => exact (s.raise_ordered e).trans (ih _)

theorem State.send_ordered (s : State) (p : Port) (r : Record) : s.work.ordered <+: (s.send p r).work.ordered := by
  have h := State.raiseAll_ordered (s.push p r).1 (s.push p r).2
  rwa [State.push_work] at h

theorem State.flushReply_ordered (s : State) : s.work.ordered <+: s.flushReply.work.ordered := by
  unfold State.flushReply
  split
  · exact List.prefix_rfl
  · exact State.send_ordered (s.withWork { s.work with reply := none }) _ _

/-- A part of an event after which nothing waits is ended as an event is (11, R177; log 16). -/
theorem State.finish_of_paused {z : State} (h : z.pause.work = {}) : z.finish = z.pause := by
  have first : z.round = z.pause := by
    unfold State.pause at h ⊢
    unfold State.round State.conclude
    generalize z.settle = a at h ⊢
    dsimp only
    by_cases ha : a.work.ordered.any (·.unit) = true
    · rw [if_pos ha] at h
      rw [h] at ha
      cases ha
    · rw [if_neg ha] at h ⊢
      have none : a.work.ordered = [] := by
        have := State.flushReply_ordered a
        rw [h] at this
        exact List.prefix_nil.mp this
      have self : a.withWork { a.work with ordered := [] } = a := by
        rw [← none]; rfl
      rw [if_neg ha, self, none]
      rfl
  rw [State.finish, first, State.round_of_idle h, State.round_of_idle h, State.withWork]
  simp [← h]

/-! ### The restart of the link that an error orders -/

/-- What a read has found it does not find again in the event (01, R1; log 8). -/
theorem State.readParity_again (s : State) (ids : List RecordId) : (s.readParity ids).1.checkParity ids = (s.readParity ids).1 := by
  have none : ids.filter (s.readParity ids).1.newMismatch = [] := by
    rw [List.filter_eq_nil_iff]
    intro id hid h
    have bad : s.newMismatch id = true := by
      simp only [State.newMismatch, State.readParity, Bool.and_eq_true, Bool.not_eq_true', List.contains_append, Bool.or_eq_false_iff] at h ⊢
      exact ⟨h.1, h.2.1⟩
    have found : (ids.filter s.newMismatch).contains id = true := by
      rw [List.contains_iff_mem]; exact List.mem_filter.mpr ⟨hid, bad⟩
    simp only [State.newMismatch, State.readParity, List.contains_append, found, Bool.or_true, Bool.not_true, Bool.and_false,
      Bool.false_eq_true] at h
  show State.raiseAll { (s.readParity ids).1 with work := { (s.readParity ids).1.work with
    found := (s.readParity ids).1.work.found ++ ids.filter (s.readParity ids).1.newMismatch } }
    ((ids.filter (s.readParity ids).1.newMismatch).map parityError) = _
  rw [none, List.append_nil]
  rfl

/-- Where no record mismatches and the report has room, the ordered restart is the requested one, and it raises nothing. -/
theorem State.restartLinkQuietly_of_clean {s : State} (hc : s.Clean) (hr : s.rehunt.HasRoom .localPort) :
    s.restartLinkQuietly = (s.restartLink, []) := by
  have none : everyRecord.filter s.newMismatch = [] := by
    rw [List.filter_eq_nil_iff]
    intro id _
    simp [State.newMismatch, hc.parityBad id]
  have read : s.readParity everyRecord = (s, []) := by
    unfold State.readParity
    dsimp only
    rw [none, List.append_nil]
    rfl
  unfold State.restartLinkQuietly State.restartLink
  dsimp only
  rw [read]
  dsimp only
  rw [State.send_of_room hr]
  have room : s.rehunt.messages.localQueue.length < Config.queueCapacity := hr
  simp [State.push, pushLocalQueue, room, State.queued]

/-- Where the action raises nothing, the ALARM follows it (11, R176). -/
theorem State.restartByError_of_quiet {s v : State} (h : s.restartAction = (v, [])) (a : Option Record) :
    s.restartByError a = v.sendAlarm a := by
  unfold State.restartByError
  rw [h]
  cases a <;> rfl

/-- The errors of the action are taken once its ALARM is queued (11, R175). -/
theorem State.restartByError_of_room {s v : State} {es : List ErrorEvent} (h : s.restartAction = (v, es)) (r : Record)
    (link : v.HasRoom .link) (here : v.HasRoom .localPort) : s.restartByError (some r) = (v.queuedBoth r).raiseAll es := by
  unfold State.restartByError
  rw [h]
  have l : v.messages.linkQueue.length < Config.queueCapacity := link
  have k : v.messages.localQueue.length < Config.queueCapacity := here
  simp [State.pushBoth, State.push, pushLinkQueue, pushLocalQueue, l, k, State.queuedBoth, State.queued]

end Sys2Proof.Machine
end

