-- ==== Sys2Proof/Laws/Ops.lean ====
section
/-! SUPPORT. What the shared operations on lines and bearers do to a state whose records are sound, each said once. -/

namespace Sys2Proof.Machine

open Sys2Proof

/-! ### Events -/

/-- An event outside HALTED. -/
theorem event_eq {t : Time} {body : State → State} {s : State} (h : s.unit.mode ≠ .halted) :
    event t body s = .next (body (s.begin t)).finish := by
  simp [event, h]

/-- An event that the HALTED unit does not take. -/
theorem event_halted {t : Time} {body : State → State} {s : State} (h : s.unit.mode = .halted) :
    event t body s = .next (s.begin t) := by
  simp [event, h]

/-! ### Work -/

theorem State.Clean.withWork {s : State} (h : s.Clean) (w : Work) : (s.withWork w).Clean := h
theorem State.Still.withWork {s : State} (h : s.Still) (w : Work) : (s.withWork w).Still := h

/-- The end of an event's effect whose work holds no order and no reply. -/
theorem State.finish_withWork {s : State} {w : Work} (hc : s.Clean) (h : s.Still) (ho : w.ordered = [])
    (hr : w.reply = none) : (s.withWork w).finish = s.withWork {} :=
  State.finish_of_still (s := s.withWork w) hc h ho hr

/-! ### Line records -/

/-- A sound record is written as it is. -/
theorem LineRecord.sealed_of_sound {r : LineRecord} (h : r.stuck = false) (hp : r.parityBad = false) : r.sealed = r := by
  cases r; simp_all [LineRecord.sealed]

theorem BearerRecord.sealed_of_sound {r : BearerRecord} (h : r.stuck = false) (hp : r.parityBad = false) :
    r.sealed = r := by
  cases r; simp_all [BearerRecord.sealed]

/-- A line record of a sound state is changed and written. -/
theorem State.updLine_of_clean {s : State} (hc : s.Clean) (l : LineNo) {f : LineRecord → LineRecord}
    (h : (f (s.line l)).stuck = (s.line l).stuck) (hp : (f (s.line l)).parityBad = (s.line l).parityBad) :
    s.updLine l f = s.withLine l (f (s.line l)) := by
  simp only [State.updLine, State.setLine, State.withLine]
  rw [LineRecord.sealed_of_sound (by rw [h]; exact (hc.1 l).2) (by rw [hp]; exact (hc.1 l).1)]

theorem State.Clean.withLine {s : State} (hc : s.Clean) (l : LineNo) {r : LineRecord} (h : r.stuck = false)
    (hp : r.parityBad = false) : (s.withLine l r).Clean := by
  refine ⟨fun k => ?_, fun b => hc.2 b⟩
  rw [State.withLine_line]
  split
  · exact ⟨hp, h⟩
  · exact hc.1 k

theorem State.Clean.withBearer {s : State} (hc : s.Clean) (b : BearerNo) {r : BearerRecord} (h : r.stuck = false)
    (hp : r.parityBad = false) : (s.withBearer b r).Clean := by
  refine ⟨fun l => hc.1 l, fun k => ?_⟩
  rw [State.withBearer_bearer]
  split
  · exact ⟨hp, h⟩
  · exact hc.2 k

theorem State.Clean.lineTo {s : State} (hc : s.Clean) (l : LineNo) (st : LineState) : (s.lineTo l st).Clean :=
  hc.withLine l (r := (s.line l).moved st) (hc.1 l).2 (hc.1 l).1

theorem State.Clean.bearerTo {s : State} (hc : s.Clean) (b : BearerNo) (st : BearerState) : (s.bearerTo b st).Clean :=
  hc.withBearer b (r := (s.bearer b).moved st s.now) (hc.2 b).2 (hc.2 b).1

theorem State.Clean.endTo {s : State} (hc : s.Clean) (b : BearerNo) (c : Call) (st : BearerState) : (s.endTo b c st).Clean := by
  refine ⟨fun l => hc.1 l, fun k => ?_⟩
  rw [State.endTo_bearer]
  split
  · exact (hc.bearerTo b st).2 k
  · exact (hc.bearerTo b st).2 k

/-- A line of a sound state enters a state. -/
theorem State.putLine_of_clean {s : State} (hc : s.Clean) (l : LineNo) (st : LineState) :
    s.putLine l st = s.lineTo l st := by
  simp only [State.putLine, hc.checkParity]
  rw [State.updLine_of_clean hc l rfl rfl]
  rfl

/-- The account of work after a bearer's entry to a state (02, R33). -/
def State.workAfter (s : State) (b : BearerNo) (st : BearerState) : Work :=
  { s.work with
    counts := true
    serve := s.work.serve || (st == .free && decide (b.val < s.limit) && s.isUp) }

/-- A bearer of a sound state enters a state. -/
theorem State.putBearer_of_clean {s : State} (hc : s.Clean) (b : BearerNo) (st : BearerState) :
    s.putBearer b st = (s.bearerTo b st).withWork (s.workAfter b st) := by
  have h : ({ s.bearer b with state := st, entered := s.now, disagreements := 0 } : BearerRecord).sealed =
      (s.bearer b).moved st s.now :=
    BearerRecord.sealed_of_sound (hc.2 b).2 (hc.2 b).1
  simp only [State.putBearer, State.setBearer, h]
  rfl

/-! ### Sending and recording beside a line or bearer record -/

/-- A state that agrees with s but for errors, queues and work is s with those of the other. -/
theorem SameButErrors.eq_takes {s u : State} (h : SameButErrors s u) : u = s.takes u := by
  obtain ⟨h1, h2, h3, h4, h5, h6, h7, h8, h9, h10, h11, h12, h13, h14, h15, h16, h17, h18⟩ := h
  cases u
  simp_all [State.takes]

theorem State.sendCall_withLine (s : State) (r : Record) (l : LineNo) (q : LineRecord) :
    (s.sendCall r).withLine l q = (s.withLine l q).sendCall r := by
  have h : SameLocal s (s.withLine l q) := ⟨rfl, rfl, rfl, rfl, rfl⟩
  rw [State.sendCall_local h rfl]
  conv => lhs; rw [(s.sendCall_same r).eq_takes]
  rfl

theorem State.sendCall_bearerTo (s : State) (r : Record) (b : BearerNo) (st : BearerState) :
    (s.sendCall r).bearerTo b st = (s.bearerTo b st).sendCall r := by
  have h : SameLocal s (s.bearerTo b st) := ⟨rfl, rfl, rfl, rfl, rfl⟩
  rw [State.sendCall_local h rfl]
  conv => lhs; rw [(s.sendCall_same r).eq_takes]
  rfl

theorem State.sendCall_lineTo (s : State) (r : Record) (l : LineNo) (st : LineState) :
    (s.sendCall r).lineTo l st = (s.lineTo l st).sendCall r := by
  have h : SameLocal s (s.lineTo l st) := ⟨rfl, rfl, rfl, rfl, rfl⟩
  rw [State.sendCall_local h rfl]
  conv => lhs; rw [(s.sendCall_same r).eq_takes]
  rfl

theorem State.raise_withLine (s : State) (e : ErrorEvent) (l : LineNo) (q : LineRecord) :
    (s.raise e).withLine l q = (s.withLine l q).raise e := by
  have h : SameLocal s (s.withLine l q) := ⟨rfl, rfl, rfl, rfl, rfl⟩
  rw [State.raise_local h]
  conv => lhs; rw [(s.raise_same e).eq_takes]
  rfl

theorem State.withLine_withLine (s : State) (l : LineNo) (q r : LineRecord) :
    (s.withLine l q).withLine l r = s.withLine l r := by
  simp [State.withLine]

/-! ### What leaves an event nothing to do -/

theorem State.Still.withLine {s : State} (h : s.Still) (l : LineNo) {r : LineRecord}
    (hr : r.testDue = (s.line l).testDue) : (s.withLine l r).Still := by
  obtain ⟨h1, h2, h3⟩ := h
  refine ⟨h1, h2, ?_⟩
  rcases h3 with h3 | h3 | h3 | ⟨h3, h4⟩
  · exact Or.inl h3
  · exact Or.inr (Or.inl h3)
  · exact Or.inr (Or.inr (Or.inl h3))
  · refine Or.inr (Or.inr (Or.inr ⟨h3, ?_⟩))
    rcases h4 with h4 | h4
    · exact Or.inl h4
    · refine Or.inr (fun k => ?_)
      rw [State.withLine_line]
      split
      · next e => rw [hr]; subst e; exact h4 k
      · exact h4 k

theorem State.Still.lineTo {s : State} (h : s.Still) (l : LineNo) (st : LineState) : (s.lineTo l st).Still :=
  h.withLine l (r := (s.line l).moved st) rfl

theorem State.Still.bearerTo {s : State} (h : s.Still) (b : BearerNo) (st : BearerState) : (s.bearerTo b st).Still := h

/-- No step plan is in DRAIN once a pair has left it (07, R133). -/
theorem State.NoDrain.withoutPair {s : State} (h : s.NoDrain) (b : BearerNo) : (s.withoutPair b).NoDrain := by
  intro p timer hp
  have := h
  simp only [State.NoDrain, State.withoutPair] at this hp
  cases hq : s.quality.plan with
  | none => simp [hq] at hp
  | some q =>
    have k := fun timer => this q timer hq
    rw [hq] at hp
    simp only [Option.map_some, Option.some.injEq] at hp
    subst hp
    cases hph : q.phase with
    | drain e => exact absurd hph (k e)
    | countdown pairs => simp

theorem State.Clean.withoutPair {s : State} (h : s.Clean) (b : BearerNo) : (s.withoutPair b).Clean := h

theorem State.Still.endTo {s : State} (h : s.Still) (b : BearerNo) (c : Call) (st : BearerState) : (s.endTo b c st).Still :=
  ⟨h.1, State.NoDrain.withoutPair h.2.1 b, h.2.2⟩

/-! ### The end of a call -/

/-- The account of work after the end of a call: its own bearer's entry, and that of a destination it gives back (02, R33). -/
def State.endWork (s : State) (b : BearerNo) (c : Call) (st : BearerState) : Work :=
  match c.target with
  | none => s.workAfter b st
  | some d => { s.workAfter b st with serve := (s.workAfter b st).serve || (decide (d.val < s.limit) && s.isUp) }

/-- A pair leaves the phase of a step plan (07, R133). -/
theorem PlanPhase.dropSource_eq (p : PlanPhase) (b : BearerNo) :
    p.dropSource b = match p with
      | .drain timer => .drain timer
      | .countdown pairs => .countdown (pairs.filter (fun x => x.source != b)) := by
  cases p <;> rfl

/-- The pair of a call leaves the plan and the coder (05, R104; 07, R133). -/
theorem State.dropPairs_eq (s : State) (b : BearerNo) : s.dropPairs b = s.withoutPair b := by
  simp only [State.dropPairs, State.withoutPair, PlanPhase.dropSource_eq] <;> rfl

/-- The state in the middle of the end of a call: its bearer has left the active list, and its pair the plan and the coder. -/
def State.endHere (s : State) (b : BearerNo) (st : BearerState) : State :=
  { s.bearerTo b st with active := s.active.filter (fun x => x != b) }.dropPairs b

theorem State.endHere_limit (s : State) (b : BearerNo) (st : BearerState) : (s.endHere b st).limit = s.limit := by
  simp only [State.limit, State.endHere, State.dropPairs, State.bearerTo, State.withBearer]
  cases s.quality.plan <;> rfl

theorem State.endTo_eq (s : State) (b : BearerNo) (c : Call) (st : BearerState) :
    s.endTo b c st = match c.target with
      | none => s.endHere b st
      | some d => (s.endHere b st).bearerTo d .free := by
  simp only [State.endTo, State.withoutPair, State.endHere, State.dropPairs, PlanPhase.dropSource_eq]
  cases c.target <;> rfl

/-- A call ends: its bearer enters another state, and its move ends with it (02, R37, R43 and R46). -/
theorem State.endCall_of_clean {s : State} (hc : s.Clean) {b : BearerNo} {c : Call} (st : BearerState)
    (hb : (s.bearer b).state.call? = some c) :
    s.endCall b st = (s.endTo b c st).withWork (s.endWork b c st) := by
  rw [State.endTo_eq, State.endWork, State.endCall, hb]
  simp only [State.putBearer_of_clean hc]
  cases c.target with
  | none => rfl
  | some d =>
    have hd : ((s.endHere b st).withWork (s.workAfter b st)).Clean := hc.bearerTo b st
    refine (State.putBearer_of_clean hd d .free).trans ?_
    have hw : ((s.endHere b st).withWork (s.workAfter b st)).workAfter d .free =
        { s.workAfter b st with
          serve := (s.workAfter b st).serve || (decide (d.val < (s.endHere b st).limit) && s.isUp) } := rfl
    rw [hw, State.endHere_limit]
    rfl

/-- A call ends and its bearer enters GUARD (02, R37). -/
theorem State.guardCall_of_clean {s : State} (hc : s.Clean) {b : BearerNo} {c : Call}
    (hb : (s.bearer b).state.call? = some c) :
    s.guardCall b = (s.guardTo b c).withWork (s.endWork b c (s.guardOf c)) := by
  rw [State.guardCall, hb]
  exact State.endCall_of_clean hc _ hb

end Sys2Proof.Machine
end

