-- ==== Sys2Proof/Laws/Moved.lean ====
section
/-! SUPPORT. What every shared operation keeps: one lemma for each operation, in one preorder on states. -/

/- The lemmas of this file are elaborated one after the other: at once, their threads ask for more memory than the check allows. -/
set_option Elab.async false

namespace Sys2Proof.Machine

open Sys2Proof

/-- A bearer entered its state at the present time. -/
def State.Stamped (s : State) (b : BearerNo) : Prop :=
  (s.bearer b).entered = s.now ∧ (s.bearer b).disagreements = 0

/-- What every part of an event keeps. -/
structure State.Moved (s u : State) : Prop where
  now : u.now = s.now := by rfl
  pending : u.pending = s.pending := by rfl
  params : s.ParamsOk → u.ParamsOk := by exact id
  errors : s.ErrorsOk → u.ErrorsOk := by exact id
  queues : s.QueuesOk → u.QueuesOk := by exact id
  rings : s.RingsOk → u.RingsOk := by exact id
  quality : s.QualityOk → u.QualityOk := by exact id
  lines : s.LinesOk → u.LinesOk := by exact id
  bearers : ∀ b, ((u.bearer b).state.code ≠ (s.bearer b).state.code → u.Stamped b) ∧ (s.Stamped b → u.Stamped b) := by
    exact fun b => ⟨fun h => absurd rfl h, id⟩

theorem State.Moved.refl (s : State) : s.Moved s := {}

theorem State.Moved.trans {r s t : State} (h : r.Moved s) (k : s.Moved t) : r.Moved t where
  now := k.now.trans h.now
  pending := k.pending.trans h.pending
  params := k.params ∘ h.params
  errors := k.errors ∘ h.errors
  queues := k.queues ∘ h.queues
  rings := k.rings ∘ h.rings
  quality := k.quality ∘ h.quality
  lines := k.lines ∘ h.lines
  bearers := fun b => by
    refine ⟨fun hc => ?_, fun hs => (k.bearers b).2 ((h.bearers b).2 hs)⟩
    by_cases e : (s.bearer b).state.code = (r.bearer b).state.code
    · exact (k.bearers b).1 (by rw [e]; exact hc)
    · exact (k.bearers b).2 ((h.bearers b).1 e)

theorem State.Moved.foldl {α : Type} {f : State → α → State} (h : ∀ (s : State) a, s.Moved (f s a)) (l : List α) (s : State) :
    s.Moved (l.foldl f s) := by
  induction l generalizing s with
  | nil => exact .refl s
  | cons a l ih => exact (h s a).trans (ih _)

theorem State.moved_withWork (s : State) (w : Work) : s.Moved (s.withWork w) := {}

/-! ### The operations on queues -/

theorem dropYoungestReport_length {q rest : List Record} {k : Byte} (h : dropYoungestReport q = some (rest, k)) :
    rest.length + 1 = q.length := by
  induction q generalizing rest k with
  | nil => simp [dropYoungestReport] at h
  | cons r q ih =>
    simp only [dropYoungestReport] at h
    split at h
    · next q' k' hq =>
      have := ih hq
      simp only [Option.some.injEq, Prod.mk.injEq] at h
      obtain ⟨rfl, rfl⟩ := h
      simp; omega
    · split at h
      · simp only [Option.some.injEq, Prod.mk.injEq] at h
        obtain ⟨rfl, rfl⟩ := h
        simp
      · cases h

theorem pushLinkQueue_length {q : List Record} (r : Record) (h : q.length ≤ 16) : (pushLinkQueue q r).1.length ≤ 16 := by
  unfold pushLinkQueue
  split
  · next hq => simp [Config.queueCapacity] at hq ⊢; omega
  · split
    · exact h
    · split
      · next hq => have := dropYoungestReport_length hq; simp; omega
      · exact h

theorem pushLocalQueue_length {q : List Record} (r : Record) (h : q.length ≤ 16) : (pushLocalQueue q r).1.length ≤ 16 := by
  unfold pushLocalQueue
  split
  · next hq => simp [Config.queueCapacity] at hq ⊢; omega
  · exact h

theorem State.moved_push (s : State) (p : Port) (r : Record) : s.Moved (s.push p r).1 := by
  cases p
  · exact { queues := fun h => ⟨pushLinkQueue_length r h.1, h.2⟩ }
  · exact { queues := fun h => ⟨h.1, pushLocalQueue_length r h.2⟩ }

theorem State.moved_pushBoth (s : State) (r : Record) : s.Moved (s.pushBoth r).1 :=
  (s.moved_push .link r).trans (State.moved_push _ .localPort r)

theorem ErrorKind.index_inj {j k : ErrorKind} (h : j.index.val = k.index.val) : j = k := by
  cases j <;> cases k <;> first | rfl | (exact absurd h (by decide))

theorem State.ErrorsOk.countError {s : State} (h : s.ErrorsOk) (k : ErrorKind) : (s.countError k).ErrorsOk := by
  refine ⟨h.1, fun j => ?_, h.2.2⟩
  have := h.2.1 j
  have key : (s.countError k).count j = if j = k then min 255 (s.count k + 1) else s.count j := by
    by_cases e : j = k
    · subst e; simp [State.count, State.countError]
    · have : k.index.val ≠ j.index.val := fun h => e (ErrorKind.index_inj h).symm
      simp [State.count, State.countError, e, this]
  rw [key]; split <;> omega

theorem State.ErrorsOk.placeError {s : State} (h : s.ErrorsOk) (e : ErrorEvent) : (s.placeError e).1.ErrorsOk := by
  unfold State.placeError
  split
  · exact ⟨h.1, h.2.1, fun hn => by simp at hn⟩
  · next f hf => exact ⟨h.1, h.2.1, fun hn => by simp [hf] at hn⟩

theorem State.moved_recordError (s : State) (e : ErrorEvent) : s.Moved (s.recordError e).1 := by
  have h : (s.recordError e).1 = { s with errors := (s.recordError e).1.errors } := by
    unfold State.recordError State.placeError State.countError; simp only; split <;> rfl
  have key : ∀ x : Errors, (s.ErrorsOk → ({ s with errors := x } : State).ErrorsOk) → s.Moved { s with errors := x } :=
    fun x hx => { errors := hx }
  rw [h]
  refine key _ (fun hs => ?_)
  rw [← h]
  exact (hs.countError e.kind).placeError e

theorem State.moved_takeError (s : State) (e : ErrorEvent) : s.Moved (s.takeError e).1 := by
  unfold State.takeError
  simp only
  split
  · exact s.moved_recordError e
  · split
    · exact (s.moved_recordError e).trans (State.moved_pushBoth _ _)
    · exact s.moved_recordError e
  · exact (s.moved_recordError e).trans {}
  · exact (s.moved_recordError e).trans {}

theorem State.moved_takeErrors (s : State) (es : List ErrorEvent) : s.Moved (s.takeErrors es).1 := by
  unfold State.takeErrors
  generalize ([] : List ErrorEvent) = z
  induction es generalizing s z with
  | nil => exact .refl s
  | cons e es ih => exact (s.moved_takeError e).trans (ih _ _)

theorem State.moved_raise (s : State) (e : ErrorEvent) : s.Moved (s.raise e) :=
  ((s.moved_takeError e).trans (State.moved_takeErrors _ _)).trans (State.moved_takeErrors _ _)

theorem State.moved_raiseAll (s : State) (es : List ErrorEvent) : s.Moved (s.raiseAll es) :=
  State.Moved.foldl State.moved_raise es s

theorem State.moved_send (s : State) (p : Port) (r : Record) : s.Moved (s.send p r) :=
  (s.moved_push p r).trans (State.moved_raiseAll _ _)

theorem State.moved_sendBoth (s : State) (r : Record) : s.Moved (s.sendBoth r) :=
  (s.moved_pushBoth r).trans (State.moved_raiseAll _ _)

theorem State.moved_sendCall (s : State) (r : Record) : s.Moved (s.sendCall r) := by
  unfold State.sendCall; split
  · exact s.moved_send _ _
  · exact .refl s

theorem State.moved_replyWith (s : State) (p : Port) (r : Record) : s.Moved (s.replyWith p r) := {}

theorem State.moved_readParity (s : State) (ids : List RecordId) : s.Moved (s.readParity ids).1 := {}

theorem State.moved_checkParity (s : State) (ids : List RecordId) : s.Moved (s.checkParity ids) := by
  unfold State.checkParity
  exact (s.moved_readParity ids).trans (State.moved_raiseAll _ _)

/-! ### The operations on lines -/

/-- What a line record must keep. -/
def LineRecord.Keeps (r r' : LineRecord) : Prop :=
  r'.digits ≤ 11 ∧ (r'.state.isConnected = false → r'.digits = 0) ∧ (r.faultCount ≤ 5 → r'.faultCount ≤ 5) ∧ (r'.state.isTesting = true → r'.run = .zero)

theorem State.set_line (s : State) (l k : LineNo) (r : LineRecord) (c : Coder) :
    ({ s with lines := s.lines.set l.val r, coder := c } : State).line k = if k = l then r else s.line k := by
  by_cases h : k = l
  · subst h; simp [State.line]
  · have h' : l.val ≠ k.val := fun e => h (Fin.ext e.symm)
    simp [State.line, h, h']

/-- A line record without a change of state that keeps the bounds. -/
theorem State.moved_setLines (s : State) (l : LineNo) (r : LineRecord)
    (h : s.LinesOk → r.digits ≤ 11 ∧ (r.state.isConnected = false → r.digits = 0) ∧ r.faultCount ≤ 5 ∧
      (r.state.isTesting = true → r.run = .zero) ∧ (r.state.isConnected = true → (s.line l).state.isConnected = true)) :
    s.Moved { s with lines := s.lines.set l.val r } where
  lines := fun hs k => by
    have e := s.set_line l k r s.coder
    have e' : ({ s with lines := s.lines.set l.val r } : State).line k = if k = l then r else s.line k := e
    rw [e']
    split
    · next hk => subst hk; obtain ⟨a, b, c, d, f⟩ := h hs; exact ⟨a, b, c, d, fun hc => (hs k).2.2.2.2 (f hc)⟩
    · exact hs k

theorem State.moved_updLine (s : State) (l : LineNo) (f : LineRecord → LineRecord)
    (h : s.LinesOk → (f (s.line l)).digits ≤ 11 ∧ ((f (s.line l)).state.isConnected = false → (f (s.line l)).digits = 0) ∧ (f (s.line l)).faultCount ≤ 5 ∧
      ((f (s.line l)).state.isTesting = true → (f (s.line l)).run = .zero) ∧ ((f (s.line l)).state.isConnected = true → (s.line l).state.isConnected = true)) :
    s.Moved (s.updLine l f) :=
  s.moved_setLines l (f (s.line l)).sealed h

theorem State.moved_updSupervision (s : State) (l : LineNo) (f : LineRecord → LineRecord)
    (h : s.LinesOk → (f (s.line l)).digits ≤ 11 ∧ ((f (s.line l)).state.isConnected = false → (f (s.line l)).digits = 0) ∧ (f (s.line l)).faultCount ≤ 5 ∧
      ((f (s.line l)).state.isTesting = true → (f (s.line l)).run = .zero) ∧ ((f (s.line l)).state.isConnected = true → (s.line l).state.isConnected = true)) :
    s.Moved (s.updSupervision l f) :=
  s.moved_setLines l (f (s.line l)) h

theorem State.moved_putLine (s : State) (l : LineNo) (st : LineState) : s.Moved (s.putLine l st) := by
  refine (s.moved_checkParity [.line l]).trans ?_
  unfold State.putLine
  generalize s.checkParity [.line l] = s
  refine { lines := fun hs k => ?_ }
  simp only [State.updLine, State.setLine]
  rw [State.set_line]
  have hf := (hs l).2.2.1
  split
  · next hk =>
    subst hk
    refine ⟨by simp [LineRecord.sealed], fun _ => by simp [LineRecord.sealed], hf, ?_, ?_⟩
    · intro ht; simp [LineRecord.sealed] at ht ⊢; simp [ht]
    · intro ht; simp [LineRecord.sealed] at ht ⊢; simp [ht]
  · next hk =>
    have h' : l.val ≠ k.val := fun e => hk (Fin.ext e.symm)
    obtain ⟨a, b, c, d, e⟩ := hs k
    refine ⟨a, b, c, d, fun hc => ?_⟩
    have := e hc
    simpa [h'] using this

/-! ### The operations on bearers -/

theorem State.set_bearer (s : State) (b k : BearerNo) (r : BearerRecord) :
    ({ s with bearers := s.bearers.set b.val r } : State).bearer k = if k = b then r else s.bearer k :=
  s.withBearer_bearer b k r

theorem State.moved_setBearers (s : State) (b : BearerNo) (r : BearerRecord)
    (h : (r.state.code ≠ (s.bearer b).state.code → r.entered = s.now ∧ r.disagreements = 0) ∧ (s.Stamped b → r.entered = s.now ∧ r.disagreements = 0)) :
    s.Moved { s with bearers := s.bearers.set b.val r } where
  bearers := fun k => by
    unfold State.Stamped
    have e := s.set_bearer b k r
    rw [e]
    split
    · next hk => subst hk; exact h
    · exact ⟨fun h => absurd rfl h, id⟩

theorem State.moved_putBearer (s : State) (b : BearerNo) (st : BearerState) : s.Moved (s.putBearer b st) :=
  (s.moved_setBearers b ({ s.bearer b with state := st, entered := s.now, disagreements := 0 } : BearerRecord).sealed
    ⟨fun _ => ⟨rfl, rfl⟩, fun _ => ⟨rfl, rfl⟩⟩).trans {}

theorem State.moved_amendBearer (s : State) (b : BearerNo) (st : BearerState) (h : st.code = (s.bearer b).state.code) :
    s.Moved (s.amendBearer b st) :=
  s.moved_setBearers b ({ s.bearer b with state := st } : BearerRecord).sealed ⟨fun hc => absurd h hc, id⟩

theorem State.moved_setDisagreements (s : State) (b : BearerNo) (n : Nat) (h : n = 0 ∨ ¬ s.Stamped b) :
    s.Moved (s.setDisagreements b n) :=
  s.moved_setBearers b ({ s.bearer b with disagreements := n } : BearerRecord).sealed
    ⟨fun hc => absurd rfl hc, fun hs => by
      rcases h with h | h
      · exact ⟨hs.1, h⟩
      · exact absurd hs h⟩

/-! ### The operations on ringing -/

theorem State.phase_set (s : State) (p q : PhaseNo) (es : List RingEntry) :
    (s.setPhase p es).phase q = if q = p then es else s.phase q := by
  by_cases h : q = p
  · subst h; simp [State.setPhase, State.phase]
  · have h' : p.val ≠ q.val := fun e => h (Fin.ext e.symm)
    simp [State.setPhase, State.phase, h, h']

theorem State.moved_setPhase (s : State) (p : PhaseNo) (es : List RingEntry)
    (h : s.RingsOk → es.length ≤ s.ring.supply.capacity) : s.Moved (s.setPhase p es) where
  rings := fun hs q => by
    rw [State.phase_set]; split
    · exact h hs
    · exact hs q

theorem State.choosePhase_hasRoom {s : State} {p : PhaseNo} (h : s.choosePhase = some p) : s.phaseHasRoom p = true := by
  have key : ∀ (l : List PhaseNo) (z : Option PhaseNo), (∀ q ∈ l, s.phaseHasRoom q = true) →
      (∀ q, z = some q → s.phaseHasRoom q = true) → ∀ q,
      l.foldl (fun best p => match best with | none => some p | some q => if s.phaseBefore p q then some p else some q) z = some q →
        s.phaseHasRoom q = true := by
    intro l
    induction l with
    | nil => intro z _ hz q hq; exact hz q hq
    | cons a l ih =>
      intro z hl hz q hq
      refine ih _ (fun q hq => hl q (List.mem_cons_of_mem _ hq)) ?_ q hq
      intro q hq
      have ha := hl a (List.mem_cons_self ..)
      cases z with
      | none => simp at hq; subst hq; exact ha
      | some r =>
        simp only at hq
        split at hq
        · simp at hq; subst hq; exact ha
        · exact hz q hq
  exact key _ none (fun q hq => (List.mem_filter.mp hq).2) (fun q hq => by cases hq) p h

theorem State.moved_placeEntry (s : State) (p : PhaseNo) (l : LineNo) (n : Nat) (h : s.phaseHasRoom p = true) :
    s.Moved (s.placeEntry p l n) := by
  refine s.moved_setPhase p _ (fun _ => ?_)
  simp only [State.phaseHasRoom, decide_eq_true_eq] at h
  simp; omega

theorem State.moved_ringLine (s : State) (l : LineNo) : s.Moved (s.ringLine l) := by
  unfold State.ringLine
  split
  · next p h => exact s.moved_placeEntry p l 0 (State.choosePhase_hasRoom h)
  · exact {}

theorem moved_serveRingsUpTo (n : Nat) (s : State) : s.Moved (serveRingsUpTo n s) := by
  induction n generalizing s with
  | zero => exact .refl s
  | succ n ih =>
    simp only [serveRingsUpTo]
    split
    · next w rest p hq hp =>
      refine State.Moved.trans ?_ (ih _)
      refine State.Moved.trans (s := { s with ring := { s.ring with queue := rest } }) {} ?_
      exact State.moved_placeEntry _ _ _ _ (State.choosePhase_hasRoom (s := s) hp)
    · exact .refl s

theorem State.moved_serveRings (s : State) : s.Moved s.serveRings := moved_serveRingsUpTo _ s

theorem State.moved_removeRing (s : State) (l : LineNo) : s.Moved (s.removeRing l) where
  rings := fun hs p => by
    have := hs p
    have e : (s.removeRing l).phase p = (s.phase p).filter (fun e => e.line != l) := by
      simp [State.removeRing, State.phase]
    rw [e]
    exact le_trans (List.length_filter_le _ _) this

theorem State.moved_stopRinging (s : State) (l : LineNo) : s.Moved (s.stopRinging l) :=
  (s.moved_removeRing l).trans (State.moved_serveRings _)

theorem State.moved_emptyRings (s : State) : s.Moved s.emptyRings where
  rings := fun hs p => by simp [State.emptyRings, State.phase]

/-- Only the run of a line changes, to none. -/
theorem State.moved_holdSampling (s : State) (l : LineNo) : s.Moved (s.holdSampling l) := by
  refine s.moved_updSupervision l _ (fun hs => ?_)
  obtain ⟨a, b, c, _, _⟩ := hs l
  exact ⟨a, b, c, fun _ => rfl, id⟩

/-! ### The operations on calls -/

theorem State.moved_allocate (s : State) (l : LineNo) (c : CallClass) (r : Time) (b : BearerNo) : s.Moved (s.allocate l c r b) := by
  unfold State.allocate
  have h : s.Moved { s with counter := s.nextReference + 2 } := {}
  exact ((h.trans (State.moved_putBearer _ _ _)).trans (State.moved_putLine _ _ _)).trans (State.moved_sendCall _ _)

theorem moved_serveQueueUpTo (n : Nat) (s : State) : s.Moved (serveQueueUpTo n s) := by
  induction n generalizing s with
  | zero => exact .refl s
  | succ n ih =>
    simp only [serveQueueUpTo]
    split
    · split
      · next e rest b _ _ =>
        refine State.Moved.trans ?_ (ih _)
        exact State.Moved.trans (s := { s with waiting := rest }) {} (State.moved_allocate _ _ _ _ _)
      · exact .refl s
    · exact .refl s

theorem State.moved_serveQueue (s : State) : s.Moved s.serveQueue := by
  unfold State.serveQueue
  refine State.Moved.trans ?_ (moved_serveQueueUpTo _ _)
  split
  · exact s.moved_checkParity _
  · exact .refl s

theorem State.moved_joinQueue (s : State) (l : LineNo) : s.Moved (s.joinQueue l) := by
  unfold State.joinQueue
  have h : ∀ (x : State) q, x.Moved { x with waiting := q } := fun _ _ => {}
  exact ((s.moved_putLine l .waiting).trans (h _ _)).trans (State.moved_serveQueue _)

theorem State.moved_offHook (s : State) (l : LineNo) : s.Moved (s.offHook l) := by
  unfold State.offHook
  refine (s.moved_checkParity everyBearer).trans ?_
  dsimp only
  split
  · split
    · exact State.moved_allocate _ _ _ _ _
    · exact State.moved_joinQueue _ _
  · exact State.moved_joinQueue _ _

theorem State.moved_expireEntry (s : State) (l : LineNo) : s.Moved (s.expireEntry l) := by
  unfold State.expireEntry
  refine State.Moved.trans ?_ (State.moved_raise _ _)
  exact State.Moved.trans (s := s.leaveQueue l) {} (State.moved_putLine _ _ _)

theorem State.moved_expireQueue (s : State) : s.Moved s.expireQueue := by
  unfold State.expireQueue
  generalize s.waiting.filter s.waitExpired = q
  refine State.Moved.foldl (α := WaitEntry) (f := fun s e => s.expireEntry e.line) ?_ q s
  intro s e
  exact s.moved_expireEntry e.line

theorem State.moved_enterIdle (s : State) (l : LineNo) : s.Moved (s.enterIdle l) := by
  unfold State.enterIdle
  have hm := s.moved_putLine l .idle
  dsimp only
  generalize s.putLine l .idle = x at hm ⊢
  have h := hm.trans (x.moved_withWork { x.work with choose := true })
  split
  · exact h.trans (State.moved_offHook _ _)
  · exact h

theorem State.moved_dropLine (s : State) (l : LineNo) (c : LockoutCause) : s.Moved (s.dropLine l c) := by
  unfold State.dropLine
  split
  · exact s.moved_putLine _ _
  · exact s.moved_enterIdle _

theorem State.moved_endCall (s : State) (b : BearerNo) (st : BearerState) : s.Moved (s.endCall b st) := by
  unfold State.endCall
  split
  · exact .refl s
  · refine (s.moved_putBearer b st).trans ?_
    generalize s.putBearer b st = s
    have h : s.Moved (({ s with active := s.active.filter (fun x => x != b) } : State).dropPairs b) := {}
    split
    · exact h
    · exact h.trans (State.moved_putBearer _ _ _)

theorem State.moved_guardCall (s : State) (b : BearerNo) : s.Moved (s.guardCall b) := by
  unfold State.guardCall
  split
  · exact .refl s
  · exact s.moved_endCall _ _

theorem State.moved_connect (s : State) (b : BearerNo) (c : Call) : s.Moved (s.connect b c) := by
  unfold State.connect
  have h : ∀ x : State, x.Moved { x with active := x.active ++ [b] } := fun _ => {}
  exact ((s.moved_putBearer b _).trans (h _)).trans (State.moved_putLine _ _ _)

theorem State.moved_takeCall (s : State) (b : BearerNo) (st : BearerState) (c : LockoutCause) : s.Moved (s.takeCall b st c) := by
  unfold State.takeCall
  split
  · exact (s.moved_endCall _ _).trans (State.moved_dropLine _ _ _)
  · exact ((s.moved_endCall _ _).trans ((State.moved_removeRing _ _).trans (State.moved_serveRings _))).trans (State.moved_enterIdle _ _)
  · exact (s.moved_endCall _ _).trans (State.moved_dropLine _ _ _)
  all_goals exact .refl s

/-! ### The operations on rates -/

theorem State.moved_beginWindow (s : State) : s.Moved s.beginWindow := {}

theorem State.moved_adjustDecoder (s : State) : s.Moved s.adjustDecoder := {}
theorem State.moved_settlePairs (s : State) : s.Moved s.settlePairs := {}

theorem State.moved_setRxRate (s : State) (r : Rate) : s.Moved (s.setRxRate r) := by
  unfold State.setRxRate
  refine State.Moved.trans ?_ (State.moved_settlePairs _)
  dsimp only
  split <;> exact {}

theorem State.moved_announce (s : State) (r : Rate) : s.Moved (s.announce r) := {}

theorem State.moved_preempt (s : State) (b : BearerNo) : s.Moved (s.preempt b) := by
  unfold State.preempt
  split
  · exact .refl s
  · exact ((s.moved_takeCall _ _ _).trans (State.moved_sendCall _ _)).trans (State.moved_raise _ _)

theorem BearerState.withTarget_code (st : BearerState) (t : Option BearerNo) : (st.withTarget t).code = st.code := by
  cases st <;> rfl

theorem State.putBearer_bearer (s : State) (b k : BearerNo) (st : BearerState) (h : k ≠ b) :
    (s.putBearer b st).bearer k = s.bearer k := by
  have := s.set_bearer b k ({ s.bearer b with state := st, entered := s.now, disagreements := 0 } : BearerRecord).sealed
  rw [if_neg h] at this
  exact this

theorem State.moved_reserve (s : State) (p : Pair) (h : p.source ≠ p.dest) : s.Moved (s.reserve p) := by
  unfold State.reserve
  refine (s.moved_putBearer p.dest .heldMove).trans (State.moved_amendBearer _ _ _ ?_)
  rw [BearerState.withTarget_code, State.putBearer_bearer _ _ _ _ h]

theorem State.relocationPairs_ne {s : State} {k : Nat} {p : Pair} (h : p ∈ s.relocationPairs k) : p.source ≠ p.dest := by
  simp only [State.relocationPairs, List.mem_map] at h
  obtain ⟨⟨a, b⟩, hz, rfl⟩ := h
  have ha := (List.of_mem_zip hz).1
  have hb := (List.of_mem_zip hz).2
  simp only [List.mem_filter, isSource, isRoom, Bool.and_eq_true, decide_eq_true_eq] at ha hb
  intro e
  simp only at e
  rw [e] at ha
  omega

theorem State.moved_sendMove (s : State) (p : Pair) : s.Moved (s.sendMove p) := by
  unfold State.sendMove
  split
  · exact .refl s
  · exact s.moved_sendCall _

theorem State.Moved.foldl_mem {α : Type} {f : State → α → State} {l : List α} (h : ∀ a ∈ l, ∀ s : State, s.Moved (f s a)) (s : State) :
    s.Moved (l.foldl f s) := by
  induction l generalizing s with
  | nil => exact .refl s
  | cons a l ih => exact (h a (List.mem_cons_self ..) s).trans (ih (fun a ha => h a (List.mem_cons_of_mem _ ha)) _)

theorem State.moved_relocate (s : State) (p : StepPlan) : s.Moved (s.relocate p) := by
  unfold State.relocate
  have h1 : s.Moved ((s.relocationPairs p.target.capacity).foldl State.reserve s) :=
    State.Moved.foldl_mem (fun a ha s => s.moved_reserve a (State.relocationPairs_ne ha)) s
  have h2 : ∀ (x : State) r, x.Moved { x with coder := { x.coder with relocations := r } } := fun _ _ => {}
  have h3 : ∀ (x : State) r, x.Moved { x with quality := { x.quality with plan := r } } := fun _ _ => {}
  dsimp only
  refine State.Moved.trans ?_ (h3 _ _)
  refine State.Moved.trans ?_ (State.moved_announce _ _)
  refine State.Moved.trans ?_ (State.Moved.foldl State.moved_sendMove _ _)
  split
  · exact h1
  · exact h1.trans (h2 _ _)

theorem State.moved_markForced (s : State) (p : StepPlan) : s.Moved (s.markForced p) := {}

theorem State.moved_stepDrain (s : State) (p : StepPlan) (f : Bool) : s.Moved (s.stepDrain p f) := by
  unfold State.stepDrain
  dsimp only
  split
  · exact s.moved_relocate p
  · split
    · split
      · exact s.moved_markForced p
      · have h : ∀ l : List BearerNo, s.Moved ((l.foldl State.preempt s).markForced p) := fun l =>
          (State.Moved.foldl State.moved_preempt l s).trans (State.moved_markForced _ p)
        split
        · exact (h _).trans (State.moved_relocate _ _)
        · exact h _
    · exact .refl s

theorem State.moved_stepPlan (s : State) (f : Bool) : s.Moved (s.stepPlan f) := by
  unfold State.stepPlan
  split
  · split
    · split
      · exact (s.moved_checkParity _).trans (State.moved_stepDrain _ _ _)
      · exact .refl s
    · exact .refl s
  · exact .refl s

theorem State.moved_createPlan (s : State) (r : Rate) (c : Bool) : s.Moved (s.createPlan r c) := by
  unfold State.createPlan
  have h : ∀ (x : State) r, x.Moved { x with quality := { x.quality with plan := r } } := fun _ _ => {}
  exact (h s _).trans (State.moved_stepPlan _ _)

theorem State.moved_fixedCheck (s : State) : s.Moved s.fixedCheck := by
  unfold State.fixedCheck
  split
  · exact .refl s
  · split
    · split
      · exact s.moved_announce _
      · split
        · exact s.moved_createPlan _ _
        · exact .refl s
    · exact .refl s

theorem State.moved_transfer (s : State) (p : Pair) : s.Moved (s.transfer p) := by
  unfold State.transfer
  split
  · exact .refl s
  · next c _ =>
    have h : ∀ (x : State) r, x.Moved { x with active := r } := fun _ _ => {}
    refine (((s.moved_putBearer _ _).trans (h _ _)).trans (State.moved_checkParity _ _)).trans (State.moved_updLine _ _ _ (fun hs => ?_))
    obtain ⟨a, b, c, d, e⟩ := hs c.line
    refine ⟨a, fun hc => b ?_, c, fun hc => d ?_, fun hc => ?_⟩
    all_goals
      revert hc
      generalize ((_ : State).line _).state = st
      cases st <;> simp [LineState.withBearer, LineState.isConnected, LineState.isTesting]

theorem State.moved_moveBearer (s : State) (b : BearerNo) (st : BearerState) : s.Moved (s.moveBearer b st) := by
  unfold State.moveBearer
  split
  · exact .refl s
  · exact s.moved_putBearer _ _

theorem State.moved_applyCapacity (s : State) : s.Moved s.applyCapacity :=
  State.Moved.foldl (fun _ _ => State.moved_moveBearer _ _ _) _ s

theorem State.moved_switchRate (s : State) (r : Rate) : s.Moved (s.switchRate r) := by
  unfold State.switchRate
  have h : s.Moved { s with link := { s.link with rate := r, switchDue := none, announcement := none } } := {}
  dsimp only
  split
  · exact h
  · exact h.trans (State.moved_setRxRate _ _)

theorem State.moved_takeSwitch (s : State) : s.Moved s.takeSwitch := by
  unfold State.takeSwitch
  split
  · exact .refl s
  · next r _ =>
    have h : ∀ (x : State) w a b c d e, x.Moved { x with
        quality := { x.quality with plan := c, window := w, downRun := a, upRun := b }
        coder := { x.coder with relocations := d, sinceSwitch := e } } := fun _ _ _ _ _ _ _ => {}
    dsimp only
    refine State.Moved.trans ?_ (State.moved_serveQueue _)
    refine State.Moved.trans ?_ (State.moved_settlePairs _)
    refine State.Moved.trans ?_ (h _ _ _ _ _ _ _)
    refine State.Moved.trans ?_ (State.moved_applyCapacity _)
    exact ((s.moved_checkParity _).trans (State.moved_switchRate _ r)).trans (State.Moved.foldl State.moved_transfer _ _)

theorem State.moved_tearLine (s : State) (l : LineNo) : s.Moved (s.tearLine l) := by
  unfold State.tearLine
  split
  · exact s.moved_dropLine _ _
  · exact s.moved_dropLine _ _
  · exact s.moved_enterIdle _
  all_goals exact .refl s

theorem State.moved_tearDown (s : State) : s.Moved s.tearDown := by
  unfold State.tearDown
  have h : ∀ (x : State) r, x.Moved { x with active := r } := fun _ _ => {}
  refine State.Moved.trans ?_ (State.Moved.foldl State.moved_tearLine _ _)
  refine State.Moved.trans ?_ (State.moved_emptyRings _)
  refine State.Moved.trans ?_ (h _ _)
  exact (s.moved_checkParity _).trans (State.Moved.foldl (fun _ _ => State.moved_moveBearer _ _ _) _ _)

theorem State.moved_dropLink (s : State) : s.Moved s.dropLink := {}

theorem State.moved_beginHunt (s : State) : s.Moved s.beginHunt := {}
theorem State.moved_emptyLinkQueue (s : State) : s.Moved s.emptyLinkQueue where
  queues := fun h => ⟨by simp [State.emptyLinkQueue], h.2⟩

theorem State.moved_rehunt (s : State) : s.Moved s.rehunt :=
  (((s.moved_dropLink).trans (State.moved_beginHunt _)).trans (State.moved_emptyLinkQueue _)).trans (State.moved_tearDown _)

theorem State.moved_restartLink (s : State) : s.Moved s.restartLink :=
  (s.moved_rehunt).trans (State.moved_send _ _ _)

theorem State.moved_restartLinkQuietly (s : State) : s.Moved s.restartLinkQuietly.1 := by
  unfold State.restartLinkQuietly
  dsimp only
  have h := s.moved_readParity everyRecord
  generalize (s.readParity everyRecord).1 = x at h ⊢
  exact (h.trans x.moved_rehunt).trans (State.moved_push _ _ _)

theorem State.moved_startTest (s : State) (l : LineNo) (k : TestKind) : s.Moved (s.startTest l k) := by
  unfold State.startTest
  have h : ∀ (x : State) r, x.Moved { x with testing := { x.testing with test := r } } := fun _ _ => {}
  exact (h s _).trans (State.moved_putLine _ _ _)

theorem moved_serveDemand (d : List DemandEntry) (s : State) : s.Moved (serveDemand d s).1 := by
  induction d generalizing s with
  | nil => exact .refl s
  | cons e d ih =>
    have h : s.Moved { s with testing := { s.testing with demand := d } } := {}
    have h2 := h.trans (State.moved_checkParity _ [.line e.line])
    simp only [serveDemand]
    split
    · exact h2.trans (State.moved_startTest _ _ _)
    · exact (h2.trans (State.moved_send _ _ _)).trans (ih _)

theorem State.moved_chooseTest (s : State) : s.Moved s.chooseTest := by
  unfold State.chooseTest
  split
  · have h := moved_serveDemand s.testing.demand s
    dsimp only
    split
    · exact h
    · split
      · exact h
      · have h2 := h.trans (State.moved_checkParity _ everyLine)
        split
        · exact h2.trans (State.moved_startTest _ _ _)
        · exact h2
  · exact .refl s

theorem State.moved_callChoice (s : State) : s.Moved s.callChoice := {}

theorem State.moved_halt (s : State) (k : ErrorKind) : s.Moved (s.halt k) := by
  unfold State.halt
  refine (s.moved_emptyRings).trans ?_
  generalize s.emptyRings = x
  exact { queues := fun _ => ⟨by simp, by simp⟩ }

theorem State.moved_lines (s : State) (v : Vector LineRecord 24)
    (h : s.LinesOk → ∀ l : LineNo, v[l.val].digits ≤ 11 ∧ (v[l.val].state.isConnected = false → v[l.val].digits = 0) ∧
    v[l.val].faultCount ≤ 5 ∧ (v[l.val].state.isTesting = true → v[l.val].run = .zero) ∧
    (v[l.val].state.isConnected = true → s.coder.conceal[l.val].isSome = true)) : s.Moved { s with lines := v } :=
  { lines := h }

theorem State.line_mapLines (s : State) (f : LineNo → LineRecord → LineRecord) (l : LineNo) :
    (s.mapLines f).line l = (f l (s.line l)).sealed := by
  simp [State.mapLines, State.line]

theorem State.bearer_mapBearers (s : State) (f : BearerNo → BearerRecord → BearerRecord) (b : BearerNo) :
    (s.mapBearers f).bearer b = (f b (s.bearer b)).sealed := by
  simp [State.mapBearers, State.bearer]

theorem State.moved_strapStep (s : State) (h : ∀ l, (s.line l).state.isConnected = false) : s.Moved s.strapStep := by
  unfold State.strapStep
  have h1 : s.Moved (s.mapLines s.strapLine) := by
    refine s.moved_lines _ (fun hs l => ?_)
    rw [Vector.getElem_ofFn]
    obtain ⟨a, b, c, d, e⟩ := hs l
    have hd := b (h l)
    have hc := h l
    simp only [LineRecord.sealed, State.strapLine]
    split
    · split
      · exact ⟨a, fun _ => hd, by simp, by simp [LineState.isTesting], by simp [LineState.isConnected]⟩
      · refine ⟨a, fun _ => hd, c, d, fun hx => ?_⟩
        simp only [hc] at hx; cases hx
    · exact ⟨a, fun _ => hd, c, by simp [LineState.isTesting], by simp [LineState.isConnected]⟩
  have h2 : ∀ (x : State) u, x.Moved { x with unit := u } := fun _ _ => {}
  exact h1.trans (h2 _ _)

theorem State.moved_enterStart (s : State) (h : ∀ l, (s.line l).state.isConnected = false) : s.Moved s.enterStart := by
  unfold State.enterStart
  have h1 : s.Moved { s with unit := { s.unit with startSteps := true } } := {}
  dsimp only
  split
  · exact (h1.trans (State.moved_recordError _ _)).trans (State.moved_halt _ _)
  · exact (h1.trans (State.moved_strapStep _ h)).trans (State.moved_send _ _ _)

theorem LineRecord.restartState_rest (r : LineRecord) : r.restartState.isConnected = false ∧ r.restartState.isTesting = false := by
  unfold LineRecord.restartState
  split
  · exact ⟨rfl, rfl⟩
  · exact ⟨rfl, rfl⟩
  · exact ⟨rfl, rfl⟩
  all_goals split <;> exact ⟨rfl, rfl⟩

/-- Everything of a unit restart but the two tables. -/
def State.restartRest (s : State) (c : RestartCause) (v : Vector LineRecord 24) (w : Vector BearerRecord 8) : State :=
  { s with
    lines := v
    bearers := w
    unit := { mode := .start, cause := c, startTime := s.now, strapMask := 0, firstUpPending := false, startSteps := false }
    active := []
    counter := 1
    waiting := []
    ring := { s.ring with phases := Vector.replicate 3 [], queue := [], supply := .normal, candidate := none }
    link := { Link.powerOn with candidate := s.link.lastGood % 2, lastGood := s.link.lastGood % 2 }
    quality := Quality.powerOn
    coder := Coder.powerOn
    messages := { Messages.powerOn with sending := s.messages.sending }
    testing := Testing.powerOn }

theorem State.restartValues_eq (s : State) (c : RestartCause) : s.restartValues c = s.restartRest c
    (Vector.ofFn (fun l => (s.line l).restarted.sealed))
    (Vector.ofFn (fun b => ({ s.bearer b with state := (s.bearer b).state.restarted b, entered := s.now, disagreements := 0 } : BearerRecord).sealed)) := by
  simp only [State.restartValues, State.restartRest, State.mapLines, State.mapBearers, State.bearer, State.line]

theorem State.restartValues_line (s : State) (c : RestartCause) (l : LineNo) :
    (s.restartValues c).line l = (s.line l).restarted.sealed := by
  rw [State.restartValues_eq, State.restartRest, State.line]
  simp only
  rw [Vector.getElem_ofFn]

theorem State.moved_restartRest (s : State) (c : RestartCause) (v : Vector LineRecord 24) (w : Vector BearerRecord 8)
    (hl : s.LinesOk → ∀ l : LineNo, v[l.val].digits ≤ 11 ∧ (v[l.val].state.isConnected = false → v[l.val].digits = 0) ∧
    v[l.val].faultCount ≤ 5 ∧ (v[l.val].state.isTesting = true → v[l.val].run = .zero) ∧ v[l.val].state.isConnected = false)
    (hb : ∀ b : BearerNo, w[b.val].entered = s.now ∧ w[b.val].disagreements = 0) : s.Moved (s.restartRest c v w) where
  queues := fun _ => ⟨Nat.zero_le _, Nat.zero_le _⟩
  rings := fun _ p => by simp [State.restartRest, State.phase]
  quality := fun _ => ⟨Nat.zero_le _, Nat.zero_le _, Nat.zero_le _, Nat.zero_le _⟩
  lines := fun hs l => by
    obtain ⟨a, b, c, d, e⟩ := hl hs l
    exact ⟨a, b, c, d, fun h => absurd (e.symm.trans h) (by decide)⟩
  bearers := fun b => ⟨fun _ => hb b, fun _ => hb b⟩

theorem State.moved_restartValues (s : State) (c : RestartCause) : s.Moved (s.restartValues c) := by
  rw [State.restartValues_eq]
  refine s.moved_restartRest c _ _ (fun hs l => ?_) (fun b => ?_)
  · rw [Vector.getElem_ofFn]
    have := (s.line l).restartState_rest
    exact ⟨Nat.zero_le _, fun _ => rfl, (hs l).2.2.1, fun _ => rfl, this.1⟩
  · rw [Vector.getElem_ofFn]
    exact ⟨rfl, rfl⟩

theorem State.moved_unitRestart (s : State) (c : RestartCause) (follow : State → State)
    (h : ∀ x : State, x.Moved (follow x) ∧ (follow x).lines = x.lines) : s.Moved (s.unitRestart c follow) := by
  unfold State.unitRestart
  have h1 := (s.moved_restartValues c).trans (h _).1
  have h2 : s.Moved (follow (s.restartValues c)).enterStart := by
    refine h1.trans (State.moved_enterStart _ (fun l => ?_))
    have e : (follow (s.restartValues c)).line l = (s.restartValues c).line l := by simp [State.line, (h _).2]
    rw [e, State.restartValues_line]
    exact ((s.line l).restartState_rest).1
  dsimp only
  split
  · exact h2
  · exact h2.trans (State.moved_raiseAll _ _)

theorem State.moved_settle (s : State) : s.Moved s.settle := by
  unfold State.settle
  have h1 : s.Moved (if s.work.serve then (s.withWork { s.work with serve := false }).serveQueue else s) := by
    split
    · exact (s.moved_withWork _).trans (State.moved_serveQueue _)
    · exact .refl s
  dsimp only
  generalize (if s.work.serve then (s.withWork { s.work with serve := false }).serveQueue else s) = x at h1 ⊢
  have h2 : s.Moved (if x.work.counts then (x.withWork { x.work with counts := false }).stepPlan false else x) := by
    split
    · exact (h1.trans (x.moved_withWork _)).trans (State.moved_stepPlan _ _)
    · exact h1
  generalize (if x.work.counts then (x.withWork { x.work with counts := false }).stepPlan false else x) = y at h2 ⊢
  split
  · exact (h2.trans (y.moved_withWork _)).trans (State.moved_chooseTest _)
  · exact h2

theorem State.moved_flushReply (s : State) : s.Moved s.flushReply := by
  unfold State.flushReply
  split
  · exact .refl s
  · exact (s.moved_withWork _).trans (State.moved_send _ _ _)

theorem State.flushReply_lines (s : State) : s.flushReply.lines = s.lines := by
  unfold State.flushReply
  split
  · rfl
  · exact (State.send_same _ _ _).lines

theorem State.moved_sendAlarm (s : State) (a : Option Record) : s.Moved (s.sendAlarm a) := by
  unfold State.sendAlarm
  split
  · exact .refl s
  · exact s.moved_sendBoth _

theorem State.sendAlarm_lines (s : State) (a : Option Record) : (s.sendAlarm a).lines = s.lines := by
  unfold State.sendAlarm
  split
  · rfl
  · exact (State.sendBoth_same _ _).lines

theorem State.moved_restartAction (s : State) : s.Moved s.restartAction.1 := by
  unfold State.restartAction
  split
  · exact s.moved_restartLinkQuietly
  · exact .refl s

theorem State.moved_restartByError (s : State) (a : Option Record) : s.Moved (s.restartByError a) := by
  unfold State.restartByError
  split
  · exact (s.moved_restartAction).trans (State.moved_raiseAll _ _)
  · exact ((s.moved_restartAction).trans (State.moved_pushBoth _ _)).trans (State.moved_raiseAll _ _)

theorem State.moved_takeOrdered (s : State) (o : Ordered) : s.Moved (s.takeOrdered o) := by
  unfold State.takeOrdered
  have h := s.moved_restartByError o.alarm
  split
  · split
    · refine s.moved_unitRestart _ _ (fun x => ⟨(x.moved_flushReply).trans (State.moved_sendAlarm _ _), ?_⟩)
      rw [State.sendAlarm_lines, State.flushReply_lines]
    · exact h
  · split
    · exact (s.moved_withWork _).trans (State.moved_halt _ _)
    · exact h
  · exact .refl s

theorem State.moved_conclude (s : State) : s.Moved s.conclude := by
  unfold State.conclude
  refine State.Moved.trans ?_ (State.Moved.foldl State.moved_takeOrdered _ _)
  have h := s.moved_withWork { s.work with ordered := [] }
  dsimp only
  split
  · exact h
  · exact h.trans (State.moved_flushReply _)

theorem State.moved_round (s : State) : s.Moved s.round := (s.moved_settle).trans (State.moved_conclude _)

theorem State.moved_finish (s : State) : s.Moved s.finish :=
  (((s.moved_round).trans (State.moved_round _)).trans (State.moved_round _)).trans (State.moved_withWork _ _)

/-! ### The operations on requests -/

theorem State.moved_recordFault (s : State) (k src kind) : s.Moved (s.recordFault k src kind) := s.moved_raise _

theorem State.moved_refuseWith (s : State) (p b1 kind c) : s.Moved (s.refuseWith p b1 kind c) := {}
theorem State.moved_done (s : State) (p b1 kind) : s.Moved (s.done p b1 kind) := {}

theorem State.moved_formatFailure (s : State) (p b1 kind) : s.Moved (s.formatFailure p b1 kind) :=
  (s.moved_recordFault _ _ _).trans (State.moved_refuseWith _ _ _ _ _)

theorem State.moved_request {α : Type} (s : State) (p b1 kind) (f : Option α) (act : State → α → State)
    (h : ∀ x, s.Moved (act s x)) : s.Moved (s.request p b1 kind f act) := by
  unfold State.request
  split
  · split
    · exact s.moved_formatFailure _ _ _
    · split
      · exact s.moved_refuseWith _ _ _ _
      · exact h _
  · exact .refl s

theorem State.moved_callControl {α : Type} (s : State) (p b1 kind) (f : Option α) (act : State → α → State)
    (h : ∀ x, s.Moved (act s x)) : s.Moved (s.callControl p b1 kind f act) := by
  unfold State.callControl
  split
  · split
    · exact s.moved_formatFailure _ _ _
    · split
      · exact s.moved_refuseWith _ _ _ _
      · exact h _
  · exact .refl s

end Sys2Proof.Machine
end

