-- ==== Sys2Proof/Laws/Near.lean ====
section
/-! SUPPORT. How an event's effect is followed up to the flags of its work: z is near u when z is u but for the flags that call for a
queue service, new counts or a choice of a test. Each shared operation carries nearness over, and an event whose effect is near a state
that leaves nothing to do ends in that state. -/

namespace Sys2Proof.Machine

open Sys2Proof

/-- z is u but for the flags of its work; nothing is ordered and no reply is owed. -/
def State.Near (z u : State) : Prop :=
  u.work = {} ∧ ∃ w : Work, w.ordered = [] ∧ w.reply = none ∧ z = u.withWork w

theorem State.Near.refl {s : State} (h : s.work = {}) : s.Near s :=
  ⟨h, {}, rfl, rfl, (State.withWork_of_idle h).symm⟩

theorem State.near_begin (s : State) (t : Time) : (s.begin t).Near (s.begin t) := .refl rfl

/-- An update that does not look at the work and leaves it. -/
theorem State.Near.map {z u : State} (h : z.Near u) (f : State → State)
    (hf : ∀ (s : State) (w : Work), f (s.withWork w) = (f s).withWork w) : (f z).Near (f u) := by
  obtain ⟨hu, w, ho, hr, rfl⟩ := h
  refine ⟨?_, w, ho, hr, hf u w⟩
  have := hf u {}
  rw [State.withWork_of_idle hu] at this
  rw [this]
  rfl

theorem State.Near.flag {z u : State} (h : z.Near u) (f : Work → Work) (ho : ∀ w, (f w).ordered = w.ordered)
    (hr : ∀ w, (f w).reply = w.reply) : (z.withWork (f z.work)).Near u := by
  obtain ⟨hu, w, h1, h2, rfl⟩ := h
  exact ⟨hu, f w, (ho w).trans h1, (hr w).trans h2, rfl⟩

theorem State.Near.checkParity {z u : State} (h : z.Near u) (hc : u.Clean) (ids : List RecordId) :
    (z.checkParity ids).Near u := by
  obtain ⟨hu, w, h1, h2, rfl⟩ := h
  rw [State.Clean.checkParity (s := u.withWork w) hc]
  exact ⟨hu, w, h1, h2, rfl⟩

theorem State.Near.putLine {z u : State} (h : z.Near u) (hc : u.Clean) (l : LineNo) (st : LineState) :
    (z.putLine l st).Near (u.lineTo l st) := by
  obtain ⟨hu, w, h1, h2, rfl⟩ := h
  exact ⟨hu, w, h1, h2, State.putLine_of_clean (s := u.withWork w) hc l st⟩

theorem State.Near.updLine {z u : State} (h : z.Near u) (hc : u.Clean) (l : LineNo) {f : LineRecord → LineRecord}
    (hs : (f (u.line l)).stuck = (u.line l).stuck) (hp : (f (u.line l)).parityBad = (u.line l).parityBad) :
    (z.updLine l f).Near (u.withLine l (f (u.line l))) := by
  obtain ⟨hu, w, h1, h2, rfl⟩ := h
  exact ⟨hu, w, h1, h2, State.updLine_of_clean (s := u.withWork w) hc l hs hp⟩

theorem State.Near.updSupervision {z u : State} (h : z.Near u) (l : LineNo) (f : LineRecord → LineRecord) :
    (z.updSupervision l f).Near (u.withLine l (f (u.line l))) := by
  obtain ⟨hu, w, h1, h2, rfl⟩ := h
  exact ⟨hu, w, h1, h2, rfl⟩

theorem State.Near.putBearer {z u : State} (h : z.Near u) (hc : u.Clean) (b : BearerNo) (st : BearerState) :
    (z.putBearer b st).Near (u.bearerTo b st) := by
  obtain ⟨hu, w, h1, h2, rfl⟩ := h
  refine ⟨hu, (u.withWork w).workAfter b st, h1, h2, ?_⟩
  rw [State.putBearer_of_clean (s := u.withWork w) hc b st]
  rfl

/-- A bearer's state changes without an entry. -/
theorem State.Near.amendBearer {z u : State} (h : z.Near u) (hc : u.Clean) (b : BearerNo) (st : BearerState) :
    (z.amendBearer b st).Near (u.withBearer b { u.bearer b with state := st }) := by
  obtain ⟨hu, w, h1, h2, rfl⟩ := h
  refine ⟨hu, w, h1, h2, ?_⟩
  have : ({ u.bearer b with state := st } : BearerRecord).sealed = { u.bearer b with state := st } :=
    BearerRecord.sealed_of_sound (hc.2 b).2 (hc.2 b).1
  simp only [State.amendBearer, State.setBearer]
  exact congrArg (fun r => (u.withBearer b r).withWork w) this

/-- A call ends (02, R37, R43 and R46). -/
theorem State.Near.endCall {z u : State} (h : z.Near u) (hc : u.Clean) {b : BearerNo} {c : Call} (st : BearerState)
    (hb : (u.bearer b).state.call? = some c) : (z.endCall b st).Near (u.endTo b c st) := by
  obtain ⟨hu, w, h1, h2, rfl⟩ := h
  have e := State.endCall_of_clean (s := u.withWork w) hc st hb
  rw [show ((u.withWork w).endTo b c st).withWork ((u.withWork w).endWork b c st) =
    (u.endTo b c st).withWork ((u.withWork w).endWork b c st) by
      rw [State.endTo_eq, State.endTo_eq]; cases c.target <;> rfl] at e
  refine ⟨hu, (u.withWork w).endWork b c st, ?_, ?_, e⟩
  · unfold State.endWork; split <;> exact h1
  · unfold State.endWork; split <;> exact h2

/-- A call ends and its bearer enters GUARD (02, R37). -/
theorem State.Near.guardCall {z u : State} (h : z.Near u) (hc : u.Clean) {b : BearerNo} {c : Call}
    (hb : (u.bearer b).state.call? = some c) : (z.guardCall b).Near (u.guardTo b c) := by
  have e : z.guardCall b = z.endCall b (u.guardOf c) := by
    obtain ⟨_, w, _, _, rfl⟩ := h
    rw [State.guardCall, show ((u.withWork w).bearer b).state.call? = some c from hb]
    rfl
  rw [e]
  exact h.endCall hc _ hb

theorem State.Near.send {z u : State} (h : z.Near u) (hq : (u.routing .txOverflow).isQuiet = true) (p : Port) (r : Record) :
    (z.send p r).Near (u.send p r) := by
  obtain ⟨hu, w, h1, h2, rfl⟩ := h
  exact ⟨(State.send_work hq).trans hu, w, h1, h2, State.send_withWork hq w⟩

theorem State.Near.sendBoth {z u : State} (h : z.Near u) (hq : (u.routing .txOverflow).isQuiet = true) (r : Record) :
    (z.sendBoth r).Near (u.sendBoth r) := by
  obtain ⟨hu, w, h1, h2, rfl⟩ := h
  exact ⟨(State.sendBoth_work hq).trans hu, w, h1, h2, State.sendBoth_withWork hq w⟩

theorem State.Near.sendCall {z u : State} (h : z.Near u) (hq : (u.routing .txOverflow).isQuiet = true) (r : Record) :
    (z.sendCall r).Near (u.sendCall r) := by
  obtain ⟨hu, w, h1, h2, rfl⟩ := h
  exact ⟨(State.sendCall_work hq).trans hu, w, h1, h2, State.sendCall_withWork hq w⟩

theorem State.Near.raise {z u : State} (h : z.Near u) (hq : (u.routing .txOverflow).isQuiet = true) {e : ErrorEvent}
    (he : (u.routing e.kind).isQuiet = true) : (z.raise e).Near (u.raise e) := by
  obtain ⟨hu, w, h1, h2, rfl⟩ := h
  exact ⟨(State.raise_work he hq).trans hu, w, h1, h2, State.raise_withWork he hq w⟩

/-- A line enters IDLE with its loop OPEN. -/
theorem State.Near.enterIdle {z u : State} (h : z.Near u) (hc : u.Clean) {l : LineNo} (ho : (u.line l).loop = .opened) :
    (z.enterIdle l).Near (u.lineTo l .idle) := by
  have hz := h.putLine hc l .idle
  have hl : ((z.putLine l .idle).line l).loop = .opened := by
    obtain ⟨_, w, _, _, e⟩ := hz
    rw [e]
    simpa [LineRecord.moved] using ho
  have : z.enterIdle l = (z.putLine l .idle).withWork { (z.putLine l .idle).work with choose := true } := by
    unfold State.enterIdle
    simp only
    rw [if_neg]
    · rfl
    · intro e
      have h1 := e.1
      rw [State.line] at h1 hl
      simp only at h1
      rw [hl] at h1
      cases h1
  rw [this]
  exact hz.flag (fun w => { w with choose := true }) (fun _ => rfl) (fun _ => rfl)

theorem State.Near.callChoice {z u : State} (h : z.Near u) : z.callChoice.Near u :=
  h.flag (fun w => { w with choose := true }) (fun _ => rfl) (fun _ => rfl)

/-- The end of an event whose effect is near a state that leaves nothing to do. -/
theorem State.Near.finish {z u : State} (h : z.Near u) (hc : u.Clean) (hs : u.Still) : z.finish = u := by
  obtain ⟨hu, w, h1, h2, rfl⟩ := h
  rw [State.finish_withWork hc hs h1 h2, State.withWork_of_idle hu]

/-- The same, for an event that owes a reply to a port whose queue has room. -/
theorem State.Near.finish_reply {z u : State} (h : z.Near u) (hc : u.Clean) (hs : u.Still) {p : Port} {r : Record}
    (hq : u.HasRoom p) : (z.replyWith p r).finish = u.queued p r := by
  obtain ⟨hu, w, h1, h2, rfl⟩ := h
  rw [State.finish_of_reply (s := (u.withWork w).replyWith p r) (p := p) (r := r) hc hs h1 rfl (by cases p <;> exact hq)]
  have : ((u.withWork w).replyWith p r).withWork {} = u := State.withWork_of_idle hu
  rw [this]

/-- Where no bearer can be allocated, service of the waiting queue does nothing. -/
theorem State.serveQueue_of_no_free {s : State} (hc : s.Clean) (h : s.isUp = false ∨ s.lowestFree = none) : s.serveQueue = s := by
  unfold State.serveQueue
  rw [hc.checkParity, ite_self, serveQueueUpTo]
  rcases h with h | h
  · rw [h]; rfl
  · rw [h]
    split
    · cases s.waiting <;> rfl
    · rfl

/-- The end of an event whose effect is near a state in which lines may wait, but none can be served. -/
theorem State.Near.finish_waiting {z u : State} (h : z.Near u) (hc : u.Clean) (hf : u.isUp = false ∨ u.lowestFree = none)
    (hp : u.NoDrain) (ht : u.NoTest) : z.finish = u := by
  obtain ⟨hu, w, h1, h2, rfl⟩ := h
  have plan : ∀ w, (u.withWork w).stepPlan false = u.withWork w :=
    fun w => State.stepPlan_of_noDrain (s := u.withWork w) hp false
  have test : ∀ w, (u.withWork w).chooseTest = u.withWork w :=
    fun w => State.chooseTest_of_noTest (s := u.withWork w) hc ht
  have serve : ∀ w, (u.withWork w).serveQueue = u.withWork w :=
    fun w => State.serveQueue_of_no_free (s := u.withWork w) hc hf
  have again : ∀ v w, (u.withWork v).withWork w = u.withWork w := fun _ _ => rfl
  have round : ∀ w : Work, w.ordered = [] → w.reply = none → (u.withWork w).round = u.withWork w.lowered := by
    intro w h1 h2
    obtain ⟨found, sv, ct, ch, rp, od⟩ := w
    simp only at h1 h2
    subst h1 h2
    unfold State.round State.settle
    cases sv <;> cases ct <;> cases ch <;> simp [again, serve, plan, test, State.conclude, State.flushReply, Work.lowered]
  rw [State.finish, round w h1 h2, round w.lowered h1 h2, round w.lowered.lowered h1 h2, again, State.withWork_of_idle hu]

end Sys2Proof.Machine
end

