-- ==== Sys2Proof/Laws/Calls.lean ====
section
/-! SUPPORT. The parts of a call: a sample that completes a run or none, an allocation, a connection, the ring tables, a call that ends, and the
replies and records that the requests and the call-control records leave. -/

namespace Sys2Proof.Machine

open Sys2Proof

/-- A run of three differing samples is a transition, with the length of the interval it ends (01, R8). -/
theorem State.Accepts.transition {x : State} {l level start} (h : x.Accepts l level start) : (x.line l).transition level = some (start - (x.line l).intervalStart) := by
  unfold LineRecord.transition
  rw [if_neg (fun e => h.level e.symm), h.run]

/-- A sample that completes a run writes the accepted line record and judges the closed or open interval. -/
theorem State.Accepts.sampleLine {x : State} {l level start} (h : x.Accepts l level start) :
    x.sampleLine l level = (((x.withLine l ((x.line l).accepted level start)).judgeTransition l (some (start - (x.line l).intervalStart))).judgeThresholds l) := by
  have hs : x.samples l = true := by simp [State.samples, State.onGrid, h.sampled, h.running]
  unfold State.sampleLine
  rw [if_pos hs]
  dsimp only
  rw [h.clean.checkParity, State.Accepts.transition h]
  have e : x.debounceLine l level = x.withLine l ((x.line l).accepted level start) := by
    unfold State.debounceLine
    rw [State.Accepts.transition h]
    dsimp only
    have hd : (x.line l).debounce x.now level = (x.line l).accepted level start := by
      unfold LineRecord.debounce
      rw [if_neg (fun e => h.level e.symm), h.run]; rfl
    rw [State.updLine_of_clean h.clean, hd]
    · rw [hd]; rfl
    · rw [hd]; rfl
  rw [e]

/-- The command of an accepted transition is that judgement and the end of the event. -/
theorem State.Accepts.acceptedTransition {t : Time} {s x : State} {l level start} (hx : x = s.begin t) (h : x.Accepts l level start) :
    exec (.acceptedTransition t l level) s = .next
      (((x.withLine l ((x.line l).accepted level start)).judgeTransition l (some (start - (x.line l).intervalStart))).judgeThresholds l).finish := by
  subst hx
  have hm : s.unit.mode ≠ .halted := by have := h.service; rw [State.begin_unit] at this; rw [this]; decide
  simp only [exec, execAcceptedTransition]
  rw [event_eq hm]
  rw [State.Accepts.transition h]
  simp only [Option.isSome_some, if_true]
  rw [State.Accepts.sampleLine h]

theorem State.Clean.accepted {x : State} (h : x.Clean) (l level start) : (x.withLine l ((x.line l).accepted level start)).Clean :=
  h.withLine l (h.1 l).2 (h.1 l).1

/-- An allocation writes the bearer, the counter and the line, and sends SEIZE_OUT (03, R52). -/
theorem State.Near.allocate {z u : State} (h : z.Near u) (hc : u.Clean) (hq : (u.routing .txOverflow).isQuiet = true) (l c r b) (call : Call)
    (hcall : call = Call.mk l u.nextReference .outgoing c none) :
    (z.allocate l c r b).Near (({ u.bearerTo b (.heldOut call (u.now + sec (u.param .reservationTimeout)) r) with
      counter := call.reference + 2 }.lineTo l (.originating b)).sendCall (seizeOutRecord l b call.reference c)) := by
  obtain ⟨_, w, _, _, rfl⟩ := id h
  subst hcall
  unfold State.allocate
  have h1 : ({ (u.withWork w) with counter := u.nextReference + 2 } : State).Near { u with counter := u.nextReference + 2 } :=
    h.map (fun s => { s with counter := u.nextReference + 2 }) (fun _ _ => rfl)
  exact ((h1.putBearer hc _ _).putLine (State.Clean.bearerTo (s := { u with counter := u.nextReference + 2 }) hc _ _) _ _).sendCall hq _

theorem State.Plain.stillness {x : State} (h : x.Plain) : x.Still := h.still

/-- The youngest report of a queue is the last record of the report class (08, R147). -/
theorem dropYoungestReport_split (before after : List Record) (q : Record) (hq : isReport q.kind = true) (ha : ∀ a ∈ after, isReport a.kind = false) :
    dropYoungestReport (before ++ q :: after) = some (before ++ after, q.kind) := by
  have h0 : ∀ l : List Record, (∀ a ∈ l, isReport a.kind = false) → dropYoungestReport l = none := by
    intro l hl
    induction l with
    | nil => rfl
    | cons a l ih => simp [dropYoungestReport, ih (fun x hx => hl x (by simp [hx])), hl a (by simp)]
  induction before with
  | nil => simp [dropYoungestReport, h0 after ha, hq]
  | cons a l ih => simp [dropYoungestReport, ih]

/-- Nine steps of 2 from one counter give nine references (02, R34). -/
theorem reference_steps_inj (c : Word) {m n : Nat} (hm : m ≤ 8) (hn : n ≤ 8) (h : c + BitVec.ofNat 16 (2*m) = c + BitVec.ofNat 16 (2*n)) : m = n := by
  have := congrArg BitVec.toNat h
  simp only [BitVec.toNat_add, BitVec.toNat_ofNat] at this
  omega

theorem State.holder_eq_none (s : State) (r : Word) : s.holder r = none ↔ ∀ b : BearerNo, (s.bearer b).state.reference? ≠ some r := by
  unfold State.holder
  rw [List.find?_eq_none]
  constructor
  · intro h b e
    exact h b (by unfold allBearers; fin_cases b <;> simp) (by simp [e])
  · intro h b _ e
    exact h b (by simpa using e)

/-- A kind whose allowed routings are COUNT and REPORT orders no restart. -/
theorem State.ErrorsOk.quiet {s : State} (h : s.ErrorsOk) (k : ErrorKind) (hk : k.allowed = [.count, .report]) : (s.routing k).isQuiet = true := by
  have := h.1 k
  rw [hk] at this
  generalize s.routing k = r at *
  cases r <;> simp_all [Routing.isQuiet]

theorem State.not_halted_of_begin {s : State} {t} (h : (s.begin t).unit.mode = .service) : s.unit.mode ≠ .halted := by
  rw [State.begin_unit] at h; rw [h]; decide

/-- A request on a port that serves it is its rule on its fields. -/
theorem State.request_of_serves {α : Type} {x : State} {p b1 k} {f : Option α} {a : α} {act : State → α → State} (h : x.Serves p) (hf : f = some a) :
    x.request p b1 k f act = act x a := by
  unfold State.request
  rw [if_pos h.2.1, hf]
  dsimp only
  rw [if_neg]; rw [h.1]; decide

theorem State.Serves.room {x : State} {p} (h : x.Serves p) : x.HasRoom p := h.2.2

theorem State.HasRoom.congr {x y : State} {p} (h : x.HasRoom p) (hm : y.messages = x.messages) : y.HasRoom p := by
  cases p <;> (simp only [State.HasRoom] at *; rw [hm]; exact h)

theorem State.withBearer_self (x : State) (b : BearerNo) : x.withBearer b (x.bearer b) = x := by
  unfold State.withBearer State.bearer
  simp

/-- A bearer that enters a state other than FREE leaves none to give where there was none. -/
theorem State.lowestFree_bearerTo {x : State} {b : BearerNo} (st : BearerState) (h : x.lowestFree = none) (hs : st ≠ .free) :
    (x.bearerTo b st).lowestFree = none := by
  unfold State.lowestFree at *
  rw [List.find?_eq_none] at *
  intro k hk
  have := h k hk
  rw [State.bearerTo_bearer]
  split
  · simp [BearerRecord.moved, hs]
  · exact this

/-- A call-control record from the link in UP is its rule on its fields. -/
theorem State.callControl_link {α : Type} {x : State} {b1 k} {f : Option α} {a : α} {act : State → α → State} (hs : x.unit.mode = .service) (hu : x.isUp = true) (hf : f = some a) :
    x.callControl .link b1 k f act = act x a := by
  unfold State.callControl
  have : x.hears .link = true := by simp [State.hears, hu, State.inService, hs]
  rw [if_pos this, hf]

theorem State.stale_finish {x : State} (hw : x.work = {}) (he : x.ErrorsOk) (b r) : (x.stale b r).finish = x.raise
        { kind := .staleMessage, bearer := some b, frame := x.coder.lastGoodNumber, detail := some r } := by
  unfold State.stale State.frameNumber
  rw [State.finish_of_idle]
  rw [State.raise_work]
  · exact hw
  · exact State.ErrorsOk.quiet he _ rfl
  · exact he.overflow

theorem State.sendCall_finish {x : State} (hw : x.work = {}) (he : x.ErrorsOk) (r) : (x.sendCall r).finish = x.sendCall r := by
  rw [State.finish_of_idle]
  rw [State.sendCall_work]
  · exact hw
  · exact he.overflow

/-- A connected call is ACTIVE and last of the active list, and its line CONNECTED (03, R60). -/
theorem State.Near.connect {z u : State} (h : z.Near u) (hc : u.Clean) (b : BearerNo) (c : Call) :
    (z.connect b c).Near ({ u.bearerTo b (.active c) with active := u.active ++ [b] }.lineTo c.line (.connected b)) := by
  have h1 := h.putBearer hc b (.active c)
  have h2 : ({ z.putBearer b (.active c) with active := (z.putBearer b (.active c)).active ++ [b] } : State).Near { u.bearerTo b (.active c) with active := u.active ++ [b] } :=
    h1.map (fun s => { s with active := s.active ++ [b] }) (fun _ _ => rfl)
  exact h2.putLine (State.Clean.bearerTo (s := u) hc b (.active c)) _ _

theorem State.Near.removeRing {z u : State} (h : z.Near u) (l) : (z.removeRing l).Near (u.removeRing l) :=
  h.map (fun s => s.removeRing l) (fun _ _ => rfl)

theorem serveRingsUpTo_withWork (n : Nat) (s : State) (w : Work) : serveRingsUpTo n (s.withWork w) = (serveRingsUpTo n s).withWork w := by
  induction n generalizing s with
  | zero => rfl
  | succ n ih =>
    rw [serveRingsUpTo, serveRingsUpTo]
    have h1 : (s.withWork w).ring = s.ring := rfl
    have h2 : (s.withWork w).choosePhase = s.choosePhase := rfl
    rw [h1, h2]
    cases hq : s.ring.queue with
    | nil => rfl
    | cons a r =>
      cases hc : s.choosePhase with
      | none => rfl
      | some p =>
        dsimp only
        exact ih (State.placeEntry { s with ring := { s.ring with queue := r } } p a.line a.rings)

theorem State.Near.serveRings {z u : State} (h : z.Near u) : z.serveRings.Near u.serveRings :=
  h.map (fun s => s.serveRings) (fun s w => serveRingsUpTo_withWork s.ring.queue.length s w)

/-- The two states differ in the phase tables and the ring queue at most. -/
def SameButRings (s u : State) : Prop := ∃ ph q, u = { s with ring := { s.ring with phases := ph, queue := q } }

theorem SameButRings.refl (s : State) : SameButRings s s := ⟨_, _, rfl⟩

theorem SameButRings.trans {s t u : State} (h : SameButRings s t) (k : SameButRings t u) : SameButRings s u := by
  obtain ⟨_, _, rfl⟩ := h; obtain ⟨_, _, rfl⟩ := k; exact ⟨_, _, rfl⟩

theorem State.removeRing_same (s : State) (l) : SameButRings s (s.removeRing l) := ⟨_, _, rfl⟩

theorem serveRingsUpTo_same (n : Nat) (s : State) : SameButRings s (serveRingsUpTo n s) := by
  induction n generalizing s with
  | zero => exact .refl s
  | succ n ih =>
    rw [serveRingsUpTo]
    split
    · refine SameButRings.trans ?_ (ih _)
      exact ⟨_, _, rfl⟩
    · exact .refl s

theorem State.serveRings_same (s : State) : SameButRings s s.serveRings := serveRingsUpTo_same _ s

theorem State.stopRinging_same (s : State) (l) : SameButRings s (s.stopRinging l) := (State.removeRing_same s l).trans (State.serveRings_same _)

theorem SameButRings.clean {s u : State} (h : SameButRings s u) (hc : s.Clean) : u.Clean := by obtain ⟨_, _, rfl⟩ := h; exact hc

theorem SameButRings.still {s u : State} (h : SameButRings s u) (hc : s.Still) : u.Still := by obtain ⟨_, _, rfl⟩ := h; exact hc

/-- A reference that is 0, odd or held is a bad one (04, R71). -/
theorem State.badReference_of (x : State) (ref : Word) : (ref = 0 ∨ ref.getLsbD 0 = true ∨ (∃ k : BearerNo, (x.bearer k).state.reference? = some ref)) → x.badReference ref = true := by
  intro h
  unfold State.badReference
  rcases h with h | h | ⟨k, h⟩
  · subst h; simp
  · rw [h]; simp
  · have : (x.holder ref).isSome = true := by
      unfold State.holder
      rw [List.find?_isSome]
      exact ⟨k, by unfold allBearers; fin_cases k <;> simp, by simp [h]⟩
    rw [this]; simp

theorem seizeFields_of {line by' l b} (h1 : lineOf line = some l) (h2 : bearerOf by' = some b) : seizeFields line by' = some (l, b) := by
  simp [seizeFields, h1, h2]

theorem State.bearerTo_lineTo (x : State) (b st l sl) : (x.bearerTo b st).lineTo l sl = (x.lineTo l sl).bearerTo b st := rfl

theorem State.Near.ringLine {z u : State} (h : z.Near u) (l) : (z.ringLine l).Near (u.ringLine l) := by
  refine h.map (fun s => s.ringLine l) (fun s w => ?_)
  show (match (s.withWork w).choosePhase with
  | some p => (s.withWork w).placeEntry p l 0
  | none => { (s.withWork w) with ring := { (s.withWork w).ring with queue := (s.withWork w).ring.queue ++ [{ line := l, rings := 0 }] } }) = (match s.choosePhase with
  | some p => s.placeEntry p l 0
  | none => { s with ring := { s.ring with queue := s.ring.queue ++ [{ line := l, rings := 0 }] } } : State).withWork w
  have h2 : (s.withWork w).choosePhase = s.choosePhase := rfl
  rw [h2]
  cases s.choosePhase <;> rfl

theorem State.ringLine_same (s : State) (l) : SameButRings s (s.ringLine l) := by
  unfold State.ringLine
  split
  · exact ⟨_, _, rfl⟩
  · exact ⟨_, _, rfl⟩

theorem State.lineTo_withoutPair (s : State) (l : LineNo) (st : LineState) (b : BearerNo) :
    (s.lineTo l st).withoutPair b = (s.withoutPair b).lineTo l st := rfl

/-- Glare on a claim: its pair is gone, and its line waits again at the front of its section (03, R57; 05, R104). -/
theorem State.settleGlare_of_clean {x : State} (hc : x.Clean) {b : BearerNo} {c : Call} {expiry requested : Time}
    (hb : (x.bearer b).state = .heldOut c expiry requested) :
    x.settleGlare b = ({ (x.withoutPair b).lineTo c.line .waiting with
      waiting := joinFront x.waiting { line := c.line, cls := c.cls, joined := requested } },
      some { line := c.line, cls := c.cls, joined := requested }) := by
  unfold State.settleGlare
  rw [hb]
  dsimp only
  rw [State.putLine_of_clean hc, State.dropPairs_eq, State.lineTo_withoutPair]
  rfl

theorem State.abortForSeize_eq_self {x : State} {l : LineNo} (h : ∀ r, x.testing.test = some r → r.line ≠ l) : x.abortForSeize l = x := by
  unfold State.abortForSeize
  split
  · next r hr => rw [if_neg (h r hr)]
  · rfl

theorem State.testRelay_false {x : State} {l : LineNo} (h : x.testRelay l = false) : ∀ r, x.testing.test = some r → r.line ≠ l := by
  intro r hr
  unfold State.testRelay at h
  rw [hr] at h
  simpa using h

theorem State.refuseWith_finish {x : State} {p} (hw : x.work = {}) (hr : x.HasRoom p) (b1 k c) : (x.refuseWith p b1 k c).finish = x.queued p (replyRecord b1 k (.refused c) 0) := by
  have h := State.finish_of_reply_alone (s := x) (p := p) (r := replyRecord b1 k (.refused c) 0) hr
  have e1 : x.withWork { reply := some (p, replyRecord b1 k (.refused c) 0) } = x.refuseWith p b1 k c := by
    unfold State.refuseWith State.replyWith State.withWork; rw [hw]
  have e2 : x.withWork {} = x := State.withWork_of_idle hw
  rw [e1, e2] at h; exact h

theorem State.callControl_localPort {α : Type} {x : State} {b1 k} {f : Option α} {act : State → α → State} (hf : f.isSome = true) :
    x.callControl .localPort b1 k f act = x.refuseWith .localPort b1 k .wrongPort := by
  obtain ⟨a, rfl⟩ := Option.isSome_iff_exists.mp hf
  unfold State.callControl
  rw [if_pos (show x.hears .localPort = true from rfl)]

theorem State.request_in_start {α : Type} {x : State} {b1 k} {f : Option α} {act : State → α → State} (hm : x.unit.mode = .start) (hf : f.isSome = true) :
    x.request .localPort b1 k f act = x.refuseWith .localPort b1 k .starting := by
  obtain ⟨a, rfl⟩ := Option.isSome_iff_exists.mp hf
  unfold State.request
  rw [if_pos (show x.hears .localPort = true from rfl)]
  dsimp only
  rw [if_pos hm]

/-- A record of a kind that is not listed is not accepted by any rule (08, R142). -/
theorem State.receive_of_notListed {x : State} {p : Port} {r : Record} (h : r.notListed = true) : x.receive p r = x.notAccepted p r := by
  unfold Record.notListed at h
  simp only [Bool.or_eq_true, Bool.and_eq_true, decide_eq_true_eq, beq_iff_eq] at h
  obtain ⟨k, b1, b2, b3, b4, b5, b6⟩ := r
  dsimp only at h
  rcases h with ((h | h) | h) | h
  · unfold State.receive
    dsimp only
    split <;> first | rfl | (exfalso; apply h; next hk => (have : k = BitVec.ofNat 8 k.toNat := by simp); rw [this, hk]; decide)
  · obtain ⟨rfl, h⟩ := h
    show x.takeRateMode p _ = _
    unfold State.takeRateMode
    dsimp only
    have h : 1 < b2.toNat := h
    split <;> first | rfl | omega
  · obtain ⟨rfl, h⟩ := h
    show x.takeLinkControl p _ = _
    unfold State.takeLinkControl
    dsimp only
    have h : 2 < b2.toNat := h
    split <;> first | rfl | omega
  · obtain ⟨rfl, h⟩ := h
    show x.takeQuery p _ = _
    unfold State.takeQuery
    dsimp only
    have h : 6 < b2.toNat := h
    split <;> first | rfl | omega

/-- A sample that completes no run is no transition (01, R8). -/
theorem State.Watches.transition {x : State} {l level} (h : x.Watches l level) : (x.line l).transition level = none := by
  unfold LineRecord.transition
  split
  · rfl
  · next hne =>
    rcases h.run with e | e
    · exact absurd e hne
    · cases hr : (x.line l).run with
      | zero => rfl
      | one _ => rfl
      | two st => exact absurd hr (e st)

theorem State.Watches.debounce {x : State} {l level} (h : x.Watches l level) : (x.line l).debounce x.now level = (x.line l).watched x.now level := by
  unfold LineRecord.debounce LineRecord.watched
  split
  · rfl
  · next hne =>
    rcases h.run with e | e
    · exact absurd e hne
    · cases hr : (x.line l).run with
      | zero => rfl
      | one _ => rfl
      | two st => exact absurd hr (e st)

/-- A sample that completes no run writes the watched line record and judges the thresholds. -/
theorem State.Watches.sampleLine {x : State} {l level} (h : x.Watches l level) :
    x.sampleLine l level = (x.withLine l ((x.line l).watched x.now level)).judgeThresholds l := by
  have hs : x.samples l = true := by simp [State.samples, State.onGrid, h.sampled, h.running]
  unfold State.sampleLine
  rw [if_pos hs]
  dsimp only
  rw [h.clean.checkParity, State.Watches.transition h]
  have e : x.debounceLine l level = x.withLine l ((x.line l).watched x.now level) := by
    unfold State.debounceLine
    rw [State.Watches.transition h]
    dsimp only
    rw [← State.Watches.debounce h]; rfl
  rw [e]; rfl

theorem State.Watches.clean_watched {x : State} {l level} (h : x.Watches l level) : (x.withLine l ((x.line l).watched x.now level)).Clean :=
  h.clean.withLine l (h.clean.1 l).2 (h.clean.1 l).1

/-- A call that its line clears: the bearer in GUARD, RELEASE with cause SUBSCRIBER, the line IDLE (03, R67). -/
theorem State.Near.clearCall {z u : State} (h : z.Near u) (hc : u.Clean) (he : u.ErrorsOk) {l b c} (hb : (u.bearer b).state.call? = some c) (ho : (u.line l).loop = .opened) :
    (z.clearCall l b).Near (((u.guardTo b c).sendCall (releaseRecord (some l) b c.reference .subscriber)).lineTo l .idle) := by
  have hr : (((z.bearer b).state.reference?).getD 0) = c.reference := by
    obtain ⟨_, w, _, _, e⟩ := h
    rw [e]
    show (((u.bearer b).state.reference?).getD 0) = _
    generalize (u.bearer b).state = st at *
    cases st <;> simp_all [BearerState.call?, BearerState.reference?]
  unfold State.clearCall
  dsimp only
  rw [hr]
  have n1 := (h.guardCall hc hb).sendCall (r := releaseRecord (some l) b c.reference .subscriber) he.overflow
  have hs := State.sendCall_same (u.guardTo b c) (releaseRecord (some l) b c.reference .subscriber)
  exact n1.enterIdle (hs.clean (hc.endTo b c _)) (by rw [hs.line]; exact ho)

theorem State.Near.stopRinging {z u : State} (h : z.Near u) (l) : (z.stopRinging l).Near (u.stopRinging l) :=
  State.Near.serveRings (State.Near.removeRing h l)

/-- An answer: the call connected, ANSWER sent, the line off the Ring Scheduler (04, R81). -/
theorem State.Near.answer {z u : State} (h : z.Near u) (hc : u.Clean) (he : u.ErrorsOk) {l b c} (hb : (u.bearer b).state = .heldIn c) (hl : c.line = l) :
    (z.answer l b).Near ((({ u.bearerTo b (.active c) with active := u.active ++ [b] }.lineTo l (.connected b)).sendCall (answerRecord l b c.reference)).stopRinging l) := by
  subst hl
  have hz : (z.bearer b).state = .heldIn c := by obtain ⟨_, _, _, _, e⟩ := h; rw [e]; exact hb
  unfold State.answer
  rw [hz]
  dsimp only
  exact State.Near.stopRinging ((State.Near.connect h hc b c).sendCall he.overflow _) _

theorem State.Near.answer_finish {z u : State} {l b c} (hc : u.Clean) (hst : u.Still)
   (h : z.Near ((({ u.bearerTo b (.active c) with active := u.active ++ [b] }.lineTo l (.connected b)).sendCall (answerRecord l b c.reference)).stopRinging l)) :
   z.finish = ((({ u.bearerTo b (.active c) with active := u.active ++ [b] }.lineTo l (.connected b)).sendCall (answerRecord l b c.reference)).stopRinging l) := by
  have hs := State.sendCall_same ({ u.bearerTo b (.active c) with active := u.active ++ [b] }.lineTo l (.connected b)) (answerRecord l b c.reference)
  have c1 : State.Clean { u.bearerTo b (.active c) with active := u.active ++ [b] } := hc.bearerTo b (.active c)
  have s1 : State.Still { u.bearerTo b (.active c) with active := u.active ++ [b] } := hst.bearerTo b (.active c)
  exact h.finish ((State.stopRinging_same _ l).clean (hs.clean (c1.lineTo _ _))) ((State.stopRinging_same _ l).still (hs.still (s1.lineTo _ _)))

theorem provisionFields_of {line i c : Byte} {l} (h : lineOf line = some l) (hi : i.toNat ≤ 1) (hc : c.toNat ≤ 1) :
    provisionFields line i c = some (l, decide (i.toNat = 1), if c.toNat = 1 then .priority else .ordinary) := by
  unfold provisionFields
  rw [h]
  dsimp only
  rw [if_pos ⟨hi, hc⟩]
  have e1 : (i == 1) = decide (i.toNat = 1) := by
    rw [Bool.eq_iff_iff]; simp only [beq_iff_eq, decide_eq_true_eq]
    exact ⟨fun h => by rw [h]; rfl, fun h => BitVec.eq_of_toNat_eq h⟩
  have e2 : (c = 1) ↔ c.toNat = 1 := ⟨fun h => by rw [h]; rfl, fun h => BitVec.eq_of_toNat_eq h⟩
  rw [e1]
  simp only [e2]

theorem State.Plain.withQFar {x : State} (h : x.Plain) (q : Nat) : State.Plain { x with quality := { x.quality with qFar := q } } :=
  ⟨h.service, h.clean, h.errors, ⟨h.still.1, h.still.2.1, h.still.2.2⟩⟩

theorem State.Near.setDis {z u : State} (h : z.Near u) (hc : u.Clean) (b : BearerNo) (n : Nat) :
    (z.setDisagreements b n).Near (u.withBearer b { u.bearer b with disagreements := n }) := by
  obtain ⟨hu, w, h1, h2, rfl⟩ := h
  refine ⟨hu, w, h1, h2, ?_⟩
  have : ({ u.bearer b with disagreements := n } : BearerRecord).sealed = { u.bearer b with disagreements := n } :=
    BearerRecord.sealed_of_sound (hc.2 b).2 (hc.2 b).1
  simp only [State.setDisagreements, State.setBearer]
  exact congrArg (fun r => (u.withBearer b r).withWork w) this

theorem State.Near.line {z u : State} (h : z.Near u) (l) : z.line l = u.line l := by obtain ⟨_, _, _, _, rfl⟩ := h; rfl

theorem State.Near.bearer {z u : State} (h : z.Near u) (l) : z.bearer l = u.bearer l := by obtain ⟨_, _, _, _, rfl⟩ := h; rfl

theorem State.Near.limit {z u : State} (h : z.Near u) : z.limit = u.limit := by obtain ⟨_, _, _, _, rfl⟩ := h; rfl

theorem State.Near.quality {z u : State} (h : z.Near u) : z.quality = u.quality := by obtain ⟨_, _, _, _, rfl⟩ := h; rfl

theorem State.Near.dropLine {z u : State} (h : z.Near u) (hc : u.Clean) (l c) :
    (z.dropLine l c).Near (u.lineTo l (if (u.line l).loop = .closed then .lockout c else .idle)) := by
  unfold State.dropLine
  rw [State.Near.line h]
  cases ho : (u.line l).loop with
  | closed => exact h.putLine hc _ _
  | opened => exact h.enterIdle hc ho

theorem State.raise_finish {x : State} (hw : x.work = {}) (he : x.ErrorsOk) (e : ErrorEvent) (h : (x.routing e.kind).isQuiet = true) : (x.raise e).finish = x.raise e :=
  State.finish_of_idle (by rw [State.raise_work h he.overflow, hw])

theorem bearerOf_ne_none_index {i : Byte} {b} (h : bearerOf i = some b) : i ≠ 0xFF := by
  intro e
  subst e
  have : bearerOf 0xFF = none := by decide
  rw [this] at h; cases h

/-- A disagreement resolved by an action near u: the count is 0 and AUDIT_CONFLICT is recorded (09, R156). -/
theorem State.Near.resolve_finish {y u : State} {b far r} {line : Option LineNo} (hl : y.tornLine b = line) (hn : (y.actOn b far r).Near u) (hc : u.Clean) (hs : u.Still)
    (he : u.ErrorsOk) (hq : (u.routing .auditConflict).isQuiet = true) (fr) (hf : u.coder.lastGoodNumber = fr) :
    (y.resolve b far r).finish = (u.withBearer b { u.bearer b with disagreements := 0 }).raise
      { kind := .auditConflict, line := line, bearer := some b, frame := fr, detail := some r } := by
  unfold State.resolve
  dsimp only
  have N := State.Near.setDis hn hc b 0
  have hfr : (State.setDisagreements (y.actOn b far r) b 0).frameNumber = fr := by
    obtain ⟨_, _, _, _, e⟩ := N; rw [e]; exact hf
  rw [hl, hfr]
  have hc' : (u.withBearer b { u.bearer b with disagreements := 0 }).Clean := hc.withBearer b (hc.2 b).2 (hc.2 b).1
  have N2 := N.raise (e := { kind := .auditConflict, line := line, bearer := some b, frame := fr, detail := some r }) he.overflow hq
  have S := State.raise_same (u.withBearer b { u.bearer b with disagreements := 0 }) { kind := .auditConflict, line := line, bearer := some b, frame := fr, detail := some r }
  exact N2.finish (S.clean hc') (S.still hs)

theorem State.withBearer_no_disagreements {u : State} {b} (h : (u.bearer b).disagreements = 0) : u.withBearer b { u.bearer b with disagreements := 0 } = u := by
  have : ({ u.bearer b with disagreements := 0 } : BearerRecord) = u.bearer b := by
    generalize u.bearer b = r at h; cases r; simp_all
  rw [this, State.withBearer_self]

theorem State.ErrorsOk.sendCall {u : State} (he : u.ErrorsOk) (r) : (u.sendCall r).ErrorsOk := (State.moved_sendCall u r).errors he

theorem State.Quietly.isQuiet {x : State} {k} (h : x.Quietly k) : (x.routing k).isQuiet = true := by
  rcases h with h | h <;> rw [h] <;> rfl

end Sys2Proof.Machine
end

