-- ==== Sys2Proof/Laws/Slots.lean ====
section
/-! SUPPORT. The downstream slots: what a tone block and a delivery change at one line, and that they change no other. -/

namespace Sys2Proof.Machine

open Sys2Proof

/-- The two states differ in the slots, the tones heard and the concealment records at most. -/
structure Slots (s u : State) : Prop where
  eq : u = { s with
        pins := { s.pins with voiceOut := u.pins.voiceOut, hearing := u.pins.hearing }
        coder := { s.coder with conceal := u.coder.conceal } }

theorem Slots.refl (s : State) : Slots s s := ⟨rfl⟩

theorem Slots.trans {s t u : State} (h : Slots s t) (k : Slots t u) : Slots s u := by
  constructor
  have h1 := h.eq; have k1 := k.eq
  generalize t.pins.voiceOut = a at *; generalize t.pins.hearing = b at *; generalize t.coder.conceal = c at *
  rw [k1, h1]

/-- The two states have the same slot, tone heard and concealment record of one line. -/
def SameAt (s u : State) (l : LineNo) : Prop :=
  u.pins.hearing[l.val] = s.pins.hearing[l.val] ∧ u.pins.voiceOut[l.val] = s.pins.voiceOut[l.val] ∧ u.coder.conceal[l.val] = s.coder.conceal[l.val]

theorem State.placeTone_slots (s : State) (l t) : Slots s (s.placeTone l t) := ⟨rfl⟩

theorem State.deliverLine_slots (s : State) (l t) : Slots s (s.deliverLine l t) := ⟨rfl⟩

theorem State.blockFor_slots (s : State) (l) : Slots s (s.blockFor l) := by
  unfold State.blockFor
  split
  · exact State.placeTone_slots _ _ _
  · split
    · exact .refl s
    · exact State.deliverLine_slots _ _ _

theorem getElem_set_vector {α} {n} (v : Vector α n) (i j : Nat) (hi : i < n) (hj : j < n) (a : α) : (v.set i a hi)[j] = if j = i then a else v[j] := by
  rw [Vector.getElem_set]; simp only [eq_comm]

theorem lineNo_val_ne {l k : LineNo} (h : l ≠ k) : ¬ l.val = k.val := fun e => h (Fin.ext e)

theorem State.blockFor_other (s : State) (l k) (h : l ≠ k) : SameAt s (s.blockFor k) l := by
  have hn := lineNo_val_ne h
  unfold State.blockFor
  split
  · unfold State.placeTone SameAt
    dsimp only
    rw [getElem_set_vector, getElem_set_vector, if_neg hn, if_neg hn]
    exact ⟨rfl, rfl, rfl⟩
  · split
    · exact ⟨rfl, rfl, rfl⟩
    · unfold State.deliverLine SameAt
      dsimp only
      rw [getElem_set_vector, getElem_set_vector, getElem_set_vector, if_neg hn, if_neg hn, if_neg hn]
      exact ⟨rfl, rfl, rfl⟩

theorem State.blockFor_local {s u : State} (h : Slots s u) (l) (hs : SameAt s u l) : SameAt (s.blockFor l) (u.blockFor l) l := by
  obtain ⟨h1, h2, h3⟩ := hs
  have e := h.eq
  have et : u.toneOf l = s.toneOf l := by rw [e]; rfl
  have eu : u.isUp = s.isUp := by rw [e]; rfl
  unfold State.blockFor
  rw [et, eu]
  cases s.toneOf l with
  | some t =>
    dsimp only
    unfold State.placeTone SameAt
    dsimp only
    rw [getElem_set_vector, getElem_set_vector, getElem_set_vector, getElem_set_vector, if_pos rfl, if_pos rfl, if_pos rfl, if_pos rfl, h1]
    exact ⟨rfl, rfl, h3⟩
  | none =>
    dsimp only
    split
    · exact ⟨h1, h2, h3⟩
    · unfold State.deliverLine SameAt
      dsimp only
      rw [getElem_set_vector, getElem_set_vector, getElem_set_vector, getElem_set_vector, getElem_set_vector, getElem_set_vector, if_pos rfl, if_pos rfl, if_pos rfl, if_pos rfl, if_pos rfl, if_pos rfl, h3]
      exact ⟨rfl, rfl, rfl⟩

theorem SameAt.trans {s t u l} (h : SameAt s t l) (k : SameAt t u l) : SameAt s u l :=
  ⟨k.1.trans h.1, k.2.1.trans h.2.1, k.2.2.trans h.2.2⟩

/-- Tone blocks for several lines change each of them as one block for it would, and no other line. -/
theorem State.blockFor_fold (L : List LineNo) (hn : L.Nodup) (s : State) :
    Slots s (L.foldl State.blockFor s) ∧ (∀ l, l ∉ L → SameAt s (L.foldl State.blockFor s) l) ∧
    (∀ l ∈ L, SameAt (s.blockFor l) (L.foldl State.blockFor s) l) := by
  induction L generalizing s with
  | nil => exact ⟨.refl s, fun _ _ => ⟨rfl, rfl, rfl⟩, fun _ h => by cases h⟩
  | cons k L ih =>
    obtain ⟨h1, h2⟩ := List.nodup_cons.mp hn
    obtain ⟨i1, i2, i3⟩ := ih h2 (s.blockFor k)
    refine ⟨(State.blockFor_slots s k).trans i1, fun l hl => ?_, fun l hl => ?_⟩
    · rw [List.mem_cons, not_or] at hl
      exact (State.blockFor_other s l k hl.1).trans (i2 l hl.2)
    · rw [List.mem_cons] at hl
      by_cases he : l = k
      · subst he; exact i2 l h1
      · have hm := hl.resolve_left he
        exact SameAt.trans (State.blockFor_local (State.blockFor_slots s k) l (State.blockFor_other s l k he)) (i3 l hm)

theorem allLines_mem (l : LineNo) : l ∈ allLines := by unfold allLines; fin_cases l <;> simp

theorem allLines_nodup : allLines.Nodup := by decide

theorem State.blockFor_halted_fold (x : State) (hm : x.unit.mode = .halted) (L : List LineNo) :
    L.foldl State.blockFor x = { x with pins := { x.pins with voiceOut := (L.foldl State.blockFor x).pins.voiceOut, hearing := (L.foldl State.blockFor x).pins.hearing } } := by
  induction L generalizing x with
  | nil => rfl
  | cons l L ih =>
    have e : x.blockFor l = x.placeTone l .silence := by
      unfold State.blockFor State.toneOf State.inService; rw [hm]; rfl
    have := ih (x.blockFor l) (by rw [e]; exact hm)
    rw [List.foldl_cons]
    generalize List.foldl State.blockFor (x.blockFor l) L = u at *
    rw [this, e]; rfl

/-- What a frame delivers for one bearer (05, R101). -/
def State.deliverBearer (f : RxFrame) (s : State) (b : BearerNo) : State :=
  match (s.bearer b).state with
  | .active c => s.deliverLine c.line (if damaged f then none else some (s.unitFor f b))
  | .unavailable _ | .free | .heldOut _ _ _ | .heldIn _ | .heldMove | .guarded _ _ _ | .blocked _ => s

theorem State.deliverFrame_eq_fold (s : State) (f) : s.deliverFrame f = allBearers.foldl (State.deliverBearer f) s := rfl

theorem Slots.bearer {s u : State} (h : Slots s u) (b) : u.bearer b = s.bearer b := by rw [h.eq]; rfl

theorem Slots.unitFor {s u : State} (h : Slots s u) (f b) : u.unitFor f b = s.unitFor f b := by rw [h.eq]; rfl

theorem State.deliverBearer_slots (f) (s : State) (b) : Slots s (State.deliverBearer f s b) := by
  unfold State.deliverBearer
  split
  · exact State.deliverLine_slots _ _ _
  all_goals exact .refl s

theorem State.deliverLine_other (s : State) (k l : LineNo) (g) (h : l ≠ k) : SameAt s (s.deliverLine k g) l := by
  have hn := lineNo_val_ne h
  unfold State.deliverLine SameAt
  dsimp only
  rw [getElem_set_vector, getElem_set_vector, getElem_set_vector, if_neg hn, if_neg hn, if_neg hn]
  exact ⟨rfl, rfl, rfl⟩

theorem State.deliverLine_local {s u : State} (l : LineNo) (g) (h : SameAt s u l) : SameAt (s.deliverLine l g) (u.deliverLine l g) l := by
  obtain ⟨h1, h2, h3⟩ := h
  unfold State.deliverLine SameAt
  dsimp only
  rw [getElem_set_vector, getElem_set_vector, getElem_set_vector, getElem_set_vector, getElem_set_vector, getElem_set_vector, if_pos rfl, if_pos rfl, if_pos rfl, if_pos rfl, if_pos rfl, if_pos rfl, h3]
  exact ⟨rfl, rfl, rfl⟩

/-- Deliveries for several bearers of different lines change each line as one delivery to it would, and no other line. -/
theorem State.deliverBearer_fold (f) (L : List BearerNo) (hn : L.Nodup) (s : State)
    (hu : ∀ b k c d, (s.bearer b).state = .active c → (s.bearer k).state = .active d → c.line = d.line → b = k) :
    Slots s (L.foldl (State.deliverBearer f) s) ∧
    (∀ l, (∀ b ∈ L, ∀ c, (s.bearer b).state = .active c → c.line ≠ l) → SameAt s (L.foldl (State.deliverBearer f) s) l) ∧
    (∀ b ∈ L, ∀ c, (s.bearer b).state = .active c →
      SameAt (s.deliverLine c.line (if damaged f then none else some (s.unitFor f b))) (L.foldl (State.deliverBearer f) s) c.line) := by
  induction L generalizing s with
  | nil => exact ⟨.refl s, fun _ _ => ⟨rfl, rfl, rfl⟩, fun _ h => by cases h⟩
  | cons k L ih =>
    obtain ⟨h1, h2⟩ := List.nodup_cons.mp hn
    have S := State.deliverBearer_slots f s k
    obtain ⟨i1, i2, i3⟩ := ih h2 (State.deliverBearer f s k) (fun b k c d => by rw [S.bearer, S.bearer]; exact hu b k c d)
    simp only [S.bearer, S.unitFor] at i2 i3
    have hk : ∀ l, (∀ c, (s.bearer k).state = .active c → c.line ≠ l) → SameAt s (State.deliverBearer f s k) l := by
      intro l hl
      unfold State.deliverBearer
      split
      · rename_i c hc; exact State.deliverLine_other _ _ _ _ (hl c hc).symm
      all_goals exact ⟨rfl, rfl, rfl⟩
    refine ⟨S.trans i1, fun l hl => ?_, fun b hb c hc => ?_⟩
    · exact (hk l (hl k (by simp))).trans (i2 l fun b hb => hl b (by simp [hb]))
    · rw [List.mem_cons] at hb
      by_cases he : b = k
      · subst he
        have : State.deliverBearer f s b = s.deliverLine c.line (if damaged f then none else some (s.unitFor f b)) := by
          unfold State.deliverBearer; rw [hc]
        rw [List.foldl_cons, this]
        rw [this] at i2
        refine i2 c.line fun q hq d hd e => ?_
        have := hu b q c d hc hd e.symm
        subst this; exact h1 hq
      · have hm := hb.resolve_left he
        refine SameAt.trans (State.deliverLine_local _ _ (hk c.line fun d hd e => ?_)) (i3 b hm c hc)
        exact he (hu b k c d hc hd e.symm)

theorem allBearers_nodup : allBearers.Nodup := by decide

theorem allBearers_mem (b : BearerNo) : b ∈ allBearers := by fin_cases b <;> decide

theorem State.isUp_of_up {x : State} {a n} (h : x.link.state = .up a n) : x.isUp = true := by unfold State.isUp; rw [h]; rfl

/-- The number of a frame: kept and the next expected, with FRAME_SLIP for a number out of order (05, R99 and R100). -/
theorem State.takeNumber_of {x y : State} {f : RxFrame} (h : damaged f = true ∨ x.coder.expected = none ∨ x.coder.expected = some (frameNumberOf f) → y = x)
    (h2 : ∀ e, damaged f = false → x.coder.expected = some e → e ≠ frameNumberOf f →
        y = x.raise { kind := .frameSlip, frame := some (frameNumberOf f), detail := some (toWord 0 e) }) :
    x.takeNumber f = { y with coder := { x.coder with
            expected := if damaged f then x.coder.expected.map (· + 1) else some (frameNumberOf f + 1)
            lastGoodNumber := if damaged f then x.coder.lastGoodNumber else some (frameNumberOf f) } } := by
  unfold State.takeNumber
  by_cases hd : damaged f = true
  · rw [if_pos hd, h (.inl hd), if_pos hd, if_pos hd]
  · rw [if_neg hd]
    simp only [if_neg hd]
    cases he : x.coder.expected with
    | none => rw [h (.inr (.inl he))]
    | some e =>
      dsimp only
      by_cases hn : e = frameNumberOf f
      · rw [if_pos hn, h (.inr (.inr (by rw [he, hn])))]
      · rw [if_neg hn, h2 e (by simpa using hd) he hn]
        rw [State.raise_local (s := x) (by constructor <;> rfl)]
        have S := x.raise_same { kind := .frameSlip, frame := some (frameNumberOf f), detail := some (toWord 0 e) }
        generalize x.raise _ = z at *
        rw [S.eq_takes]
        rfl

theorem State.ErrorsOk.frameSlip {x : State} (h : x.ErrorsOk) : (x.routing .frameSlip).isQuiet = true := by
  have := h.1 .frameSlip
  simp [ErrorKind.allowed] at this
  rcases this with h | h <;> rw [h] <;> rfl

end Sys2Proof.Machine
end

