-- ==== Sys2Proof/Laws/Starts.lean ====
section
/-! SUPPORT. The START sequence on sound records, and the settings. -/

namespace Sys2Proof.Machine

open Sys2Proof

/-- No record reads back wrong where no place is stuck (11, R178). -/
theorem State.failedRecord_eq_none {s : State} (hl : ∀ l : LineNo, (s.line l).stuck = false) (hb : ∀ b : BearerNo, (s.bearer b).stuck = false) : s.failedRecord = none := by
  unfold State.failedRecord
  rw [List.find?_eq_none]
  intro id _
  cases id with
  | line l => simp [State.stuck, hl l]
  | bearer b => simp [State.stuck, hb b]

theorem State.line_ofFn (s : State) (f : LineNo → LineRecord) (l : LineNo) : State.line { s with lines := Vector.ofFn f } l = f l := by
  unfold State.line; simp

theorem State.bearer_ofFn (s : State) (f : BearerNo → BearerRecord) (l : BearerNo) : State.bearer { s with bearers := Vector.ofFn f } l = f l := by
  unfold State.bearer; simp

theorem State.send_localPort_of_room {s : State} (r) (h : s.messages.localQueue.length < 16) : s.send .localPort r = s.queued .localPort r :=
  State.send_of_room (s := s) (p := .localPort) h

theorem bearersPowerOn_sealed (f : BearerNo → Bool) (h : ∀ b, f b = false) : (Vector.ofFn (fun b : BearerNo => ({ BearerRecord.powerOn b with stuck := f b } : BearerRecord).sealed)) = bearersPowerOn := by
  have : f = fun _ => false := funext h
  subst this
  decide

/-- The START steps on sound records: the straps, and UNIT_REPORT on the local port (11, R172). -/
theorem State.enterStart_of_sound {s : State} (hl : ∀ l : LineNo, (s.line l).stuck = false) (hb : ∀ b : BearerNo, (s.bearer b).stuck = false) (hq : s.messages.localQueue.length < 16) :
   ∃ u, s.enterStart = u ∧ u = { s with
     unit := { s.unit with strapMask := s.straps, startSteps := true }
     lines := u.lines
     messages := { s.messages with localQueue := s.messages.localQueue ++ [u.unitReport] } } ∧
   ∀ l, u.line l = (s.strapLine l (s.line l)).sealed := by
  unfold State.enterStart
  dsimp only
  rw [State.failedRecord_eq_none (s := { s with unit := { s.unit with startSteps := true } }) hl hb]
  dsimp only
  unfold State.strapStep State.mapLines
  dsimp only
  have hs : ∀ (v : State) r, v.messages = s.messages → v.send .localPort r = v.queued .localPort r :=
    fun v r h => State.send_localPort_of_room r (by rw [h]; exact hq)
  refine ⟨_, hs _ _ rfl, ?_⟩
  refine ⟨rfl, fun l => ?_⟩
  show State.line { s with lines := Vector.ofFn _ } l = _
  rw [State.line_ofFn]
  rfl

/-- The off-hook check at the end of START locks out the IDLE lines whose loop is CLOSED, and no other (01, R25). -/
theorem State.checkOff_fold (L : List LineNo) (hn : L.Nodup) (s : State) (hc : s.Clean) :
    (L.foldl State.checkOffHook s) = { s with lines := (L.foldl State.checkOffHook s).lines, coder := { s.coder with conceal := (L.foldl State.checkOffHook s).coder.conceal } } ∧
    ∀ l, (l ∈ L ∧ (s.line l).state = .idle ∧ (s.line l).loop = .closed → (L.foldl State.checkOffHook s).line l = (s.line l).moved (.lockout .restart) ∧ (L.foldl State.checkOffHook s).coder.conceal[l.val] = none) ∧
      (¬(l ∈ L ∧ (s.line l).state = .idle ∧ (s.line l).loop = .closed) → (L.foldl State.checkOffHook s).line l = (s.line l) ∧ (L.foldl State.checkOffHook s).coder.conceal[l.val] = s.coder.conceal[l.val]) := by
  induction L generalizing s with
  | nil => exact ⟨rfl, fun l => ⟨fun h => by simp at h, fun _ => ⟨rfl, rfl⟩⟩⟩
  | cons k L ih =>
    obtain ⟨h1, h2⟩ := List.nodup_cons.mp hn
    rw [List.foldl_cons]
    by_cases hk : (s.line k).state = .idle ∧ (s.line k).loop = .closed
    · have e : s.checkOffHook k = s.lineTo k (.lockout .restart) := by
        unfold State.checkOffHook; rw [if_pos hk, State.putLine_of_clean hc]
      rw [e]
      obtain ⟨i1, i2⟩ := ih h2 _ (hc.lineTo k (.lockout .restart))
      generalize List.foldl State.checkOffHook (s.lineTo k (.lockout .restart)) L = u at *
      have hcon : ∀ l : LineNo, (s.lineTo k (.lockout .restart)).coder.conceal[l.val] = if l.val = k.val then none else s.coder.conceal[l.val] := by
        intro l
        show (s.coder.conceal.set k.val _)[l.val] = _
        rw [getElem_set_vector]; rfl
      refine ⟨i1, fun l => ⟨fun h => ?_, fun h => ?_⟩⟩
      · by_cases hl : l = k
        · subst hl
          have := (i2 l).2 (fun h => h1 h.1)
          rw [this.1, this.2, State.lineTo_line_same, hcon, if_pos rfl]
          exact ⟨rfl, rfl⟩
        · have hm : l ∈ L := by simpa [hl] using h.1
          have := (i2 l).1 ⟨hm, by rw [State.lineTo_line, if_neg hl]; exact h.2⟩
          rw [State.lineTo_line, if_neg hl] at this
          exact this
      · by_cases hl : l = k
        · subst hl; exact absurd ⟨by simp, hk⟩ h
        · have := (i2 l).2 (fun hh => h ⟨by simp [hh.1], by rw [State.lineTo_line, if_neg hl] at hh; exact hh.2⟩)
          rw [State.lineTo_line, if_neg hl, hcon, if_neg (lineNo_val_ne hl)] at this
          exact this
    · have e : s.checkOffHook k = s := by unfold State.checkOffHook; rw [if_neg hk]
      rw [e]
      obtain ⟨i1, i2⟩ := ih h2 s hc
      refine ⟨i1, fun l => ⟨fun h => ?_, fun h => ?_⟩⟩
      · have hl : l ≠ k := fun e => hk (e ▸ h.2)
        have hm : l ∈ L := by simpa [hl] using h.1
        exact (i2 l).1 ⟨hm, h.2⟩
      · exact (i2 l).2 (fun hh => h ⟨by simp [hh.1], hh.2⟩)

theorem State.noTest_of_idle_lines {x u : State} (hi : x.HeadIdle) (ht : u.testing = x.testing) (hr : u.ring.supply = x.ring.supply) (hn : u.now = x.now)
   (hl : ∀ l, (u.line l).testDue = (x.line l).testDue) : u.NoTest := by
  right
  rcases hi with h | h | ⟨h, h'⟩
  · left; rw [ht]; exact h
  · right; left; rw [ht]; exact h
  · right; right; refine ⟨by rw [ht]; exact h, ?_⟩
    rcases h' with h' | h'
    · left; rw [hr]; exact h'
    · right; intro l; rw [hn, hl]; exact h' l

/-- A choice of a test where none can start changes nothing. -/
theorem State.callChoice_finish {u : State} (hw : u.work = {}) (hc : u.Clean) (hn : u.NoTest) : u.callChoice.finish = u := by
  have e1 : u.callChoice = u.withWork { choose := true } := by unfold State.callChoice; rw [hw]; rfl
  rw [e1]
  have r1 : (u.withWork { choose := true }).round = u.withWork {} := by
    have test : ∀ w, (u.withWork w).chooseTest = u.withWork w :=
      fun w => State.chooseTest_of_noTest (s := u.withWork w) hc hn
    have again : ∀ v w, (u.withWork v).withWork w = u.withWork w := fun _ _ => rfl
    unfold State.round State.settle
    simp [again, test, State.conclude, State.flushReply]
  have h := State.finish_of_idle hw
  rw [State.finish] at h ⊢
  rw [r1, State.withWork_of_idle hw, State.round_of_idle hw, State.round_of_idle hw, State.withWork_of_idle hw]

theorem LineRecord.sealed_eq {r : LineRecord} (h : r.stuck = false) (hp : r.parityBad = false) : r.sealed = r := LineRecord.sealed_of_sound h hp

theorem paramOf_value (q : Param) (id : Byte) (h : id.toNat = q.index.val + 1) : paramOf id = some (.value q) := by
  unfold paramOf
  rw [h]
  cases q <;> rfl

theorem paramOf_routing (k : ErrorKind) (id : Byte) (h : id.toNat = k.code + 63) : paramOf id = some (.routing k) := by
  unfold paramOf
  rw [h]
  cases k <;> rfl

theorem State.replyWith_finish {x : State} {p} (hw : x.work = {}) (hr : x.HasRoom p) (r) : (x.replyWith p r).finish = x.queued p r := by
  have h := State.finish_of_reply_alone (s := x) (p := p) (r := r) hr
  have e1 : x.withWork { reply := some (p, r) } = x.replyWith p r := by
    unfold State.replyWith State.withWork; rw [hw]
  have e2 : x.withWork {} = x := State.withWork_of_idle hw
  rw [e1, e2] at h; exact h

/-- The routing written is an allowed one and the nearest to the one asked for, the lower of two (11, R174). -/
theorem ErrorKind.nearestRouting_nearest (k : ErrorKind) (a : Fin 4) : (k.nearestRouting (Routing.ofCode a.val)) ∈ k.allowed ∧ ∀ r' ∈ k.allowed, r' ≠ k.nearestRouting (Routing.ofCode a.val) →
   ((k.nearestRouting (Routing.ofCode a.val)).code - a.val) + (a.val - (k.nearestRouting (Routing.ofCode a.val)).code) < (r'.code - a.val) + (a.val - r'.code) ∨
   (((k.nearestRouting (Routing.ofCode a.val)).code - a.val) + (a.val - (k.nearestRouting (Routing.ofCode a.val)).code) = (r'.code - a.val) + (a.val - r'.code) ∧ (k.nearestRouting (Routing.ofCode a.val)).code < r'.code) := by
  revert a; cases k <;> decide

end Sys2Proof.Machine
end

