-- ==== Sys2Proof/Laws/Tests.lean ====
section
/-! SUPPORT. A test started, the choice of the line to test, and the off-hook arrival of a line that a test gives back. -/

namespace Sys2Proof.Machine

open Sys2Proof

/-- A test started: the test record in SETTLING, the line TESTING (10, R165). -/
theorem State.startTest_of_clean {u : State} (hc : u.Clean) (l k) : u.startTest l k =
   ({ u with testing := { u.testing with test := some { line := l, kind := k, phase := .settling, timer := u.now + ms 200 } } }.lineTo l (.testing (u.line l).state.park?)) :=
  State.putLine_of_clean (s := { u with testing := { u.testing with test := some { line := l, kind := k, phase := .settling, timer := u.now + ms 200 } } }) hc _ _

/-- An event that leaves only the choice of a test, with or without a reply. -/
theorem State.round_of_choice {u v : State} (hw : u.work = {}) (hv : v.work = {}) (h : ∀ w, (u.withWork w).chooseTest = v.withWork w) :
    (u.callChoice).finish = v ∧ ∀ p r, v.HasRoom p → ((u.callChoice).replyWith p r).finish = v.queued p r := by
  have e1 : u.callChoice = u.withWork { choose := true } := by unfold State.callChoice State.withWork; rw [hw]
  have e2 : ∀ p r, (u.callChoice).replyWith p r = u.withWork { choose := true, reply := some (p, r) } := by
    intro p r; rw [e1]; rfl
  have again : ∀ (u : State) v w, (u.withWork v).withWork w = u.withWork w := fun _ _ _ => rfl
  have work : ∀ (u : State) w, (u.withWork w).work = w := fun _ _ => rfl
  constructor
  · rw [e1]
    have : (u.withWork { choose := true }).round = v := by
      unfold State.round State.settle State.conclude State.flushReply
      simp only [work, again, h, Bool.false_eq_true, if_false, if_true, List.any_nil, List.foldl_nil]
      exact State.withWork_of_idle hv
    unfold State.finish
    rw [this, State.round_of_idle hv, State.round_of_idle hv, State.withWork_of_idle hv]
  · intro p r hr
    rw [e2]
    have : (u.withWork { choose := true, reply := some (p, r) }).round = v.queued p r := by
      unfold State.round State.settle State.conclude State.flushReply
      simp only [work, again, h, Bool.false_eq_true, if_false, if_true, List.any_nil, List.foldl_nil]
      rw [← State.withWork_of_idle hv]
      simp only [again]
      rw [State.send_of_room (by cases p <;> exact hr)]
    have hq : (v.queued p r).work = {} := by cases p <;> exact hv
    unfold State.finish
    rw [this, State.round_of_idle hq, State.round_of_idle hq, State.withWork_of_idle hq]

theorem serveDemand_of_testable {u : State} (hc : u.Clean) {l p} (ht : (u.line l).state.testable = true) :
    serveDemand [{ line := l, port := p }] u = (State.startTest { u with testing := { u.testing with demand := [] } } l (.demand p), true) := by
  unfold serveDemand
  dsimp only
  rw [State.Clean.checkParity (by exact hc), if_pos (by exact ht)]

/-- One step of the choice of the line with the earliest test due time (10, R163). -/
def sweepPick (x : State) (best : Option LineNo) (l : LineNo) : Option LineNo :=
      match best with
      | none => some l
      | some k => if (x.line l).testDue < (x.line k).testDue then some l else some k

theorem sweepPick_none (x : State) (l) : sweepPick x none l = some l := rfl

theorem sweepPick_some (x : State) (k l) : sweepPick x (some k) l = if (x.line l).testDue < (x.line k).testDue then some l else some k := rfl

theorem sweepPick_stays (x : State) (a : LineNo) (L : List LineNo) (h : ∀ k ∈ L, ¬ (x.line k).testDue < (x.line a).testDue) : L.foldl (sweepPick x) (some a) = some a := by
  induction L with
  | nil => rfl
  | cons b L ih =>
    rw [List.foldl_cons, sweepPick_some, if_neg (h b (by simp))]
    exact ih (fun k hk => h k (List.mem_cons_of_mem _ hk))

/-- The choice finds the line with the earliest due time, the lower number of two (10, R163). -/
theorem State.sweepChoice_fold (x : State) (L : List LineNo) (l : LineNo) (hL : l ∈ L) (hs : L.Pairwise (· < ·))
   (hmin : ∀ k ∈ L, k ≠ l → (x.line l).testDue < (x.line k).testDue ∨ ((x.line l).testDue = (x.line k).testDue ∧ l < k)) :
   ∀ acc, (acc = none ∨ ∃ k, acc = some k ∧ k ≠ l ∧ ((x.line l).testDue < (x.line k).testDue)) →
   L.foldl (sweepPick x) acc = some l := by
  induction L with
  | nil => cases hL
  | cons a L ih =>
    intro acc hacc
    rw [List.foldl_cons]
    by_cases hal : a = l
    · subst hal
      have h1 : sweepPick x acc a = some a := by
        rcases hacc with rfl | ⟨k, rfl, _, h2⟩
        · rfl
        · rw [sweepPick_some, if_pos h2]
      rw [h1]
      apply sweepPick_stays
      intro k hk
      have hne : k ≠ a := by rintro rfl; exact absurd (List.rel_of_pairwise_cons hs hk) (by simp)
      rcases hmin k (List.mem_cons_of_mem _ hk) hne with h | ⟨h, _⟩
      · simp only [Time] at *; omega
      · simp only [Time] at *; omega
    · have hlL : l ∈ L := by rcases List.mem_cons.mp hL with h | h; exact absurd h.symm hal; exact h
      have hla : a < l := List.rel_of_pairwise_cons hs hlL
      have hda : (x.line l).testDue < (x.line a).testDue := by
        rcases hmin a (by simp) hal with h | ⟨_, h⟩
        · exact h
        · exact absurd h (by simp only [Fin.lt_def] at *; omega)
      apply ih hlL (List.Pairwise.of_cons hs) (fun k hk => hmin k (List.mem_cons_of_mem _ hk))
      right
      rcases hacc with rfl | ⟨k, rfl, h1, h2⟩
      · exact ⟨a, rfl, hal, hda⟩
      · rw [sweepPick_some]
        split
        · exact ⟨a, rfl, hal, hda⟩
        · exact ⟨k, rfl, h1, h2⟩

theorem State.Near.sendResult {z u : State} (h : z.Near u) (he : u.ErrorsOk) (k r) : (z.sendResult k r).Near (u.sendResult k r) := by
  unfold State.sendResult
  cases k with
  | routine => exact h.sendBoth he.overflow r
  | demand p => exact h.send he.overflow p r

theorem State.sendResult_same (u : State) (k r) : SameButErrors u (u.sendResult k r) := by
  unfold State.sendResult
  cases k with
  | routine => exact State.sendBoth_same u r
  | demand p => exact State.send_same u p r

theorem State.line_withLine_same (x : State) (l r) : (x.withLine l r).line l = r := State.withLine_line_same ..

theorem State.ErrorsOk.raise {u : State} (he : u.ErrorsOk) (e) : (u.raise e).ErrorsOk := (State.moved_raise u e).errors he

theorem SameButErrors.noTest {s t : State} (h : SameButErrors s t) (hs : s.NoTest) : t.NoTest := by
  unfold State.NoTest State.HeadIdle at *
  rw [h.unit, h.testing, h.ring, h.now]
  simpa only [h.line] using hs

theorem State.Near.setOutcome {z u : State} (h : z.Near u) (hc : u.Clean) (l o) : (z.setOutcome l o).Near (u.withLine l { u.line l with lastOutcome := some o }) :=
  h.updLine hc l (f := fun r => { r with lastOutcome := some o }) rfl rfl

/-- A line that finds no bearer stands in the waiting queue (03, R54). -/
theorem State.joinQueue_of_no_free {v : State} (hc : v.Clean) (hwt : v.waiting = []) (hn : v.isUp = false ∨ v.lowestFree = none) (l) (w : Work) :
    (v.withWork w).joinQueue l = State.withWork { v.lineTo l .waiting with waiting := [{ line := l, cls := (v.line l).cls, joined := v.now }] } w := by
  unfold State.joinQueue
  dsimp only
  rw [State.putLine_of_clean (by exact hc)]
  have hj : joinBack ((v.withWork w).lineTo l .waiting).waiting { line := l, cls := ((v.withWork w).line l).cls, joined := (v.withWork w).now } = [{ line := l, cls := (v.line l).cls, joined := v.now }] := by
    have : ((v.withWork w).lineTo l .waiting).waiting = [] := hwt
    rw [this]; unfold joinBack
    cases h : ((v.withWork w).line l).cls <;> (dsimp only; have : (v.line l).cls = _ := h; rw [this]; rfl)
  rw [hj]
  rw [State.serveQueue_of_no_free (by exact hc.lineTo l .waiting) (by exact hn)]
  rfl

/-- An off-hook arrival without a bearer to give: the line is WAITING (03, R51). -/
theorem State.offHook_of_no_free {v : State} (hc : v.Clean) (hwt : v.waiting = []) (hn : v.isUp = false ∨ v.lowestFree = none) (l) (w : Work) :
    (v.withWork w).offHook l = State.withWork { v.lineTo l .waiting with waiting := [{ line := l, cls := (v.line l).cls, joined := v.now }] } w := by
  rw [← State.joinQueue_of_no_free hc hwt hn]
  unfold State.offHook
  dsimp only
  rw [State.Clean.checkParity (by exact hc)]
  have : (v.withWork w).lowestFree = v.lowestFree := rfl
  rw [this]
  rcases hn with h | h
  · have : (v.withWork w).isUp = false := h
    rw [this]
    cases v.lowestFree <;> simp
  · rw [h]

/-- An off-hook arrival with a bearer to give: the lowest is allocated (03, R51 and R52). -/
theorem State.offHook_of_free {v : State} (hc : v.Clean) (hwt : v.waiting = []) {b} (hu : v.isUp = true) (hn : v.lowestFree = some b) (l) (w : Work) :
    (v.withWork w).offHook l = (v.withWork w).allocate l (v.line l).cls v.now b := by
  unfold State.offHook
  dsimp only
  rw [State.Clean.checkParity (by exact hc)]
  have : (v.withWork w).lowestFree = some b := hn
  rw [this]
  dsimp only
  rw [if_pos]
  · rfl
  · have : (v.withWork w).isUp = true := hu
    have h2 : (v.withWork w).waiting = [] := hwt
    rw [this, h2]; rfl

/-- A line that enters IDLE with its loop CLOSED makes an off-hook arrival (01, R18). -/
theorem State.enterIdle_of_closed {z u : State} (h : z.Near u) (hc : u.Clean) (hs : u.inService = true) {l} (ho : (u.line l).loop = .closed) :
    ∃ w : Work, w.ordered = [] ∧ w.reply = none ∧ z.enterIdle l = ((u.lineTo l .idle).withWork w).offHook l := by
  have N := (h.putLine hc l .idle).flag (fun w => { w with choose := true }) (fun _ => rfl) (fun _ => rfl)
  obtain ⟨_, w, h1, h2, e⟩ := N
  refine ⟨w, h1, h2, ?_⟩
  rw [← e]
  unfold State.enterIdle
  simp only
  rw [if_pos]
  · rfl
  · have e2 : ({ z.putLine l .idle with work := { (z.putLine l .idle).work with choose := true } } : State) = (u.lineTo l .idle).withWork w := e
    rw [e2]
    exact ⟨by show ((u.lineTo l .idle).line l).loop = _; simp [State.lineTo, LineRecord.moved, ho], hs⟩

end Sys2Proof.Machine
end

