-- ==== Sys2Proof/Laws/TearDown.lean ====
section
/-! SUPPORT. Every bearer and every line moved at once, and the teardown of every call. -/

namespace Sys2Proof.Machine

open Sys2Proof

theorem State.Near.finish_reply_waiting {z u : State} (h : z.Near u) (hc : u.Clean) (hf : u.isUp = false ∨ u.lowestFree = none)
    (hp : u.NoDrain) (ht : u.NoTest) {p r} (hr : u.HasRoom p) : (z.replyWith p r).finish = u.queued p r := by
  obtain ⟨hu, w, h1, h2, rfl⟩ := h
  have plan : ∀ w, (u.withWork w).stepPlan false = u.withWork w :=
    fun w => State.stepPlan_of_noDrain (s := u.withWork w) hp false
  have test : ∀ w, (u.withWork w).chooseTest = u.withWork w :=
    fun w => State.chooseTest_of_noTest (s := u.withWork w) hc ht
  have serve : ∀ w, (u.withWork w).serveQueue = u.withWork w :=
    fun w => State.serveQueue_of_no_free (s := u.withWork w) hc hf
  have again : ∀ v w, (u.withWork v).withWork w = u.withWork w := fun _ _ => rfl
  have room : ∀ w, (u.withWork w).send p r = (u.queued p r).withWork w := by
    intro w
    rw [State.send_of_room (by cases p <;> exact hr)]
    cases p <;> rfl
  have hq : (u.queued p r).work = {} := by cases p <;> exact hu
  have hcq : (u.queued p r).Clean := by cases p <;> exact hc
  have hn : ((u.queued p r).withWork { w.lowered with reply := none }).Near (u.queued p r) := ⟨hq, { w.lowered with reply := none }, h1, rfl, rfl⟩
  have e : ((u.withWork w).replyWith p r) = u.withWork { w with reply := some (p, r) } := rfl
  have round : (u.withWork { w with reply := some (p, r) }).round = (u.queued p r).withWork { w.lowered with reply := none } := by
    obtain ⟨found, sv, ct, ch, rp, od⟩ := w
    simp only at h1 h2
    subst h1 h2
    unfold State.round State.settle
    cases sv <;> cases ct <;> cases ch <;> simp [again, serve, plan, test, State.conclude, State.flushReply, Work.lowered, room]
  have hfq : (u.queued p r).isUp = false ∨ (u.queued p r).lowestFree = none := by cases p <;> exact hf
  have key := State.Near.finish_waiting hn hcq hfq (by cases p <;> exact hp) (by cases p <;> exact ht)
  rw [e]
  unfold State.finish at key ⊢
  rw [round]
  have idem : ∀ w : Work, w.ordered = [] → w.reply = none → ((u.queued p r).withWork w).round = (u.queued p r).withWork w.lowered := by
    intro w h1 h2
    have plan : ∀ w, ((u.queued p r).withWork w).stepPlan false = (u.queued p r).withWork w :=
      fun w => State.stepPlan_of_noDrain (by cases p <;> exact hp) false
    have test : ∀ w, ((u.queued p r).withWork w).chooseTest = (u.queued p r).withWork w :=
      fun w => State.chooseTest_of_noTest hcq (by cases p <;> exact ht)
    have serve : ∀ w, ((u.queued p r).withWork w).serveQueue = (u.queued p r).withWork w :=
      fun w => State.serveQueue_of_no_free hcq (by cases p <;> exact hf)
    have again : ∀ v w, ((u.queued p r).withWork v).withWork w = (u.queued p r).withWork w := fun _ _ => rfl
    obtain ⟨found, sv, ct, ch, rp, od⟩ := w
    simp only at h1 h2
    subst h1 h2
    unfold State.round State.settle
    cases sv <;> cases ct <;> cases ch <;> simp [again, serve, plan, test, State.conclude, State.flushReply, Work.lowered]
  rw [idem { w.lowered with reply := none } h1 rfl, idem (Work.lowered { w.lowered with reply := none }) h1 rfl]
  exact State.withWork_of_idle hq

/-- One bearer in the state that a rule gives it, if that is another. -/
def State.movedTo (g : BearerNo → BearerState → BearerState) (s : State) (b : BearerNo) : State :=
  if (s.bearer b).state = g b (s.bearer b).state then s else s.bearerTo b (g b (s.bearer b).state)

theorem State.Clean.movedTo {s : State} (h : s.Clean) (g b) : (State.movedTo g s b).Clean := by
  unfold State.movedTo; split
  · exact h
  · exact h.bearerTo _ _

theorem State.Near.moveBearer {z u : State} (h : z.Near u) (hc : u.Clean) (g : BearerNo → BearerState → BearerState) (b) :
    (z.moveBearer b (g b (z.bearer b).state)).Near (State.movedTo g u b) := by
  unfold State.moveBearer State.movedTo
  rw [State.Near.bearer h]
  split
  · exact h
  · exact h.putBearer hc _ _

theorem State.Near.moves {z u : State} (h : z.Near u) (hc : u.Clean) (g : BearerNo → BearerState → BearerState) (L : List BearerNo) :
    (L.foldl (fun s b => s.moveBearer b (g b (s.bearer b).state)) z).Near (L.foldl (State.movedTo g) u) ∧ (L.foldl (State.movedTo g) u).Clean := by
  induction L generalizing z u with
  | nil => exact ⟨h, hc⟩
  | cons b L ih => exact ih (State.Near.moveBearer h hc g b) (State.Clean.movedTo hc g b)

theorem State.bearerTo_other (s : State) (b k : BearerNo) (st) (h : k ≠ b) : (s.bearerTo b st).bearer k = s.bearer k := by
  show (s.bearers.set b.val _)[k.val] = _
  have : b.val ≠ k.val := fun e => h (Fin.ext e.symm)
  rw [Vector.getElem_set_ne _ _ this]; rfl

/-- Several bearers moved: each as one move of it would, and no other. -/
theorem State.movedTo_fold (g : BearerNo → BearerState → BearerState) (L : List BearerNo) (hn : L.Nodup) (s : State) :
    L.foldl (State.movedTo g) s = { s with bearers := (L.foldl (State.movedTo g) s).bearers } ∧
    ∀ b, (b ∈ L → (L.foldl (State.movedTo g) s).bearer b = if (s.bearer b).state = g b (s.bearer b).state then s.bearer b else (s.bearer b).moved (g b (s.bearer b).state) s.now) ∧
      (b ∉ L → (L.foldl (State.movedTo g) s).bearer b = s.bearer b) := by
  induction L generalizing s with
  | nil => exact ⟨rfl, fun b => ⟨fun h => by simp at h, fun _ => rfl⟩⟩
  | cons k L ih =>
    obtain ⟨h1, h2⟩ := List.nodup_cons.mp hn
    rw [List.foldl_cons]
    obtain ⟨i1, i2⟩ := ih h2 (State.movedTo g s k)
    have hfr : State.movedTo g s k = { s with bearers := (State.movedTo g s k).bearers } := by unfold State.movedTo; split <;> rfl
    have hk : (State.movedTo g s k).bearer k = if (s.bearer k).state = g k (s.bearer k).state then s.bearer k else (s.bearer k).moved (g k (s.bearer k).state) s.now := by
      unfold State.movedTo; split
      · rfl
      · rw [State.bearerTo_bearer_same]
    have ho : ∀ b, b ≠ k → (State.movedTo g s k).bearer b = s.bearer b := by
      intro b hb; unfold State.movedTo; split
      · rfl
      · exact State.bearerTo_other s k b _ hb
    have hnow : (State.movedTo g s k).now = s.now := by rw [hfr]
    generalize State.movedTo g s k = v at *
    generalize List.foldl (State.movedTo g) v L = u at *
    refine ⟨?_, fun b => ⟨fun hb => ?_, fun hb => ?_⟩⟩
    · rw [i1, hfr]
    · by_cases e : b = k
      · subst e; rw [(i2 b).2 h1]; exact hk
      · have hm : b ∈ L := by simpa [e] using hb
        rw [(i2 b).1 hm, ho b e, hnow]
    · have : ¬ b = k ∧ b ∉ L := by simpa using hb
      rw [(i2 b).2 this.2, ho b this.1]

/-- One line in the state that a rule gives it, if it gives one. -/
def State.lineMoved (g : LineRecord → Option LineState) (s : State) (l : LineNo) : State :=
  match g (s.line l) with
  | some st => s.lineTo l st
  | none => s

theorem State.Clean.lineMoved {s : State} (h : s.Clean) (g l) : (State.lineMoved g s l).Clean := by
  unfold State.lineMoved; split
  · exact h.lineTo _ _
  · exact h

/-- Several lines moved: each as one move of it would, and no other. -/
theorem State.lineMoved_fold (g : LineRecord → Option LineState) (L : List LineNo) (hn : L.Nodup) (s : State) :
    L.foldl (State.lineMoved g) s = { s with lines := (L.foldl (State.lineMoved g) s).lines, coder := { s.coder with conceal := (L.foldl (State.lineMoved g) s).coder.conceal } } ∧
    ∀ l : LineNo, (l ∈ L → (∀ st, g (s.line l) = some st → (L.foldl (State.lineMoved g) s).line l = (s.line l).moved st ∧
         (L.foldl (State.lineMoved g) s).coder.conceal[l.val] = if st.isConnected then some { lastGood := none, run := 0 } else none)) ∧
      ((l ∉ L ∨ g (s.line l) = none) → (L.foldl (State.lineMoved g) s).line l = s.line l ∧ (L.foldl (State.lineMoved g) s).coder.conceal[l.val] = s.coder.conceal[l.val]) := by
  induction L generalizing s with
  | nil => exact ⟨rfl, fun b => ⟨fun h => by simp at h, fun _ => ⟨rfl, rfl⟩⟩⟩
  | cons k L ih =>
    obtain ⟨h1, h2⟩ := List.nodup_cons.mp hn
    rw [List.foldl_cons]
    obtain ⟨i1, i2⟩ := ih h2 (State.lineMoved g s k)
    have hfr : State.lineMoved g s k = { s with lines := (State.lineMoved g s k).lines, coder := { s.coder with conceal := (State.lineMoved g s k).coder.conceal } } := by unfold State.lineMoved; split <;> rfl
    have hk : ∀ st, g (s.line k) = some st → (State.lineMoved g s k).line k = (s.line k).moved st ∧ (State.lineMoved g s k).coder.conceal[k.val] = if st.isConnected then some { lastGood := none, run := 0 } else none := by
      intro st h; unfold State.lineMoved; rw [h]; dsimp only
      refine ⟨State.lineTo_line_same .., ?_⟩
      show (s.coder.conceal.set k.val _)[k.val] = _
      rw [getElem_set_vector, if_pos rfl]
    have hk0 : g (s.line k) = none → State.lineMoved g s k = s := by intro h; unfold State.lineMoved; rw [h]
    have ho : ∀ l, l ≠ k → (State.lineMoved g s k).line l = s.line l ∧ (State.lineMoved g s k).coder.conceal[l.val] = s.coder.conceal[l.val] := by
      intro l hb; unfold State.lineMoved; split
      · refine ⟨by rw [State.lineTo_line, if_neg hb], ?_⟩
        show (s.coder.conceal.set k.val _)[l.val] = _
        rw [getElem_set_vector, if_neg (lineNo_val_ne hb)]
      · exact ⟨rfl, rfl⟩
    generalize State.lineMoved g s k = v at *
    generalize List.foldl (State.lineMoved g) v L = u at *
    refine ⟨?_, fun b => ⟨fun hb st hst => ?_, fun hb => ?_⟩⟩
    · rw [i1, hfr]
    · by_cases e : b = k
      · subst e
        have := (i2 b).2 (Or.inl h1)
        rw [this.1, this.2]; exact hk st hst
      · have hm : b ∈ L := by simpa [e] using hb
        have := (i2 b).1 hm st (by rw [(ho b e).1]; exact hst)
        rw [(ho b e).1] at this; exact this
    · by_cases e : b = k
      · subst e
        have hg : g (s.line b) = none := by rcases hb with hb | hb; exact absurd (by simp) hb; exact hb
        have := (i2 b).2 (Or.inl h1)
        rw [this.1, this.2, hk0 hg]; exact ⟨rfl, rfl⟩
      · have := (i2 b).2 (by rcases hb with hb | hb
                             · left; exact fun h => hb (List.mem_cons_of_mem _ h)
                             · right; rw [(ho b e).1]; exact hb)
        rw [(ho b e).1, (ho b e).2] at this; exact this

/-- The state of a line whose call is torn down (01, R26). -/
def LineRecord.torn (r : LineRecord) : Option LineState :=
  if r.state.bearer?.isSome then some (if r.loop = .closed then .lockout .linkLost else .idle) else none

theorem State.Near.tearLine {z u : State} (h : z.Near u) (hc : u.Clean) (l) (hr : ∀ b, (u.line l).state = .ringing b → (u.line l).loop = .opened) :
    (z.tearLine l).Near (State.lineMoved LineRecord.torn u l) := by
  unfold State.tearLine State.lineMoved LineRecord.torn
  rw [State.Near.line h]
  cases hs : (u.line l).state with
  | originating b => exact State.Near.dropLine h hc l .linkLost
  | connected b => exact State.Near.dropLine h hc l .linkLost
  | ringing b =>
    have ho := hr b hs
    have : (if (u.line l).loop = .closed then LineState.lockout .linkLost else .idle) = .idle := by rw [ho]; rfl
    dsimp only [LineState.bearer?, Option.isSome]
    simp only [if_true]
    rw [this]
    exact h.enterIdle hc ho
  | parked c => exact h
  | idle => exact h
  | waiting => exact h
  | lockout c => exact h
  | testing c => exact h

theorem State.lineMoved_other (s : State) (k : LineNo) (l) (hb : l ≠ k) (g) : (State.lineMoved g s k).line l = s.line l := by
  unfold State.lineMoved; split
  · rw [State.lineTo_line, if_neg hb]
  · rfl

theorem State.Near.tears (L : List LineNo) (hn : L.Nodup) {z u : State} (h : z.Near u) (hc : u.Clean)
    (hr : ∀ l ∈ L, ∀ b, (u.line l).state = .ringing b → (u.line l).loop = .opened) :
    (L.foldl State.tearLine z).Near (L.foldl (State.lineMoved LineRecord.torn) u) ∧ (L.foldl (State.lineMoved LineRecord.torn) u).Clean := by
  induction L generalizing z u with
  | nil => exact ⟨h, hc⟩
  | cons k L ih =>
    obtain ⟨h1, h2⟩ := List.nodup_cons.mp hn
    refine ih h2 (State.Near.tearLine h hc k (hr k (by simp))) (State.Clean.lineMoved hc _ k) (fun l hl => ?_)
    have hne : l ≠ k := by rintro rfl; exact h1 hl
    rw [State.lineMoved_other u k l hne]
    exact hr l (by simp [hl])

/-- The state after the teardown of every call (02, R47). -/
def State.tornTo (y : State) : State :=
  allLines.foldl (State.lineMoved LineRecord.torn) (State.emptyRings { (allBearers.foldl (State.movedTo (fun b st => st.tornDown b)) y) with active := [] })

/-- The teardown of every call. -/
theorem State.Near.tearDown {z y : State} (h : z.Near y) (hc : y.Clean) (hr : ∀ l b, (y.line l).state = .ringing b → (y.line l).loop = .opened) :
    (z.tearDown).Near (State.tornTo y) ∧ (State.tornTo y).Clean := by
  unfold State.tearDown State.tornTo
  dsimp only
  have N0 := h.checkParity hc everyRecord
  have N1' := State.Near.moves N0 hc (fun b st => st.tornDown b) allBearers
  have F := (State.movedTo_fold (fun b st => BearerState.tornDown st b) allBearers (by decide) y).1
  generalize List.foldl (State.movedTo fun b st => st.tornDown b) y allBearers = v at *
  obtain ⟨N1, C1⟩ := N1'
  generalize List.foldl (fun s b => s.moveBearer b ((s.bearer b).state.tornDown b)) (z.checkParity everyRecord) allBearers = z1 at *
  have N2 := (N1.map (fun s => { s with active := [] }) (fun _ _ => rfl)).map State.emptyRings (fun _ _ => rfl)
  have C2 : (State.emptyRings { v with active := [] }).Clean := C1
  refine State.Near.tears _ allLines_nodup N2 C2 (fun l _ b hb => ?_)
  have hl : (State.emptyRings { v with active := [] }).line l = y.line l := by
    show v.line l = _
    rw [F]; rfl
  rw [hl] at hb ⊢
  exact hr l b hb

/-- What the teardown leaves as it is. -/
theorem State.tornTo_frame (y : State) : State.tornTo y = { y with
    bearers := (State.tornTo y).bearers, lines := (State.tornTo y).lines, active := []
    ring := { y.ring with phases := Vector.replicate 3 [], queue := [] }
    coder := { y.coder with conceal := (State.tornTo y).coder.conceal } } := by
  unfold State.tornTo
  have F := (State.movedTo_fold (fun b st => BearerState.tornDown st b) allBearers (by decide) y).1
  generalize List.foldl (State.movedTo fun b st => st.tornDown b) y allBearers = v at *
  generalize hv : State.emptyRings { v with active := [] } = v2
  have G := (State.lineMoved_fold LineRecord.torn allLines allLines_nodup v2).1
  generalize List.foldl (State.lineMoved LineRecord.torn) v2 allLines = w at *
  have hv2 : v2 = { y with bearers := v.bearers, active := [], ring := { y.ring with phases := Vector.replicate 3 [], queue := [] } } := by
    rw [← hv, F]; rfl
  rw [G, hv2]

theorem State.tornTo_bearer (y : State) (b) : (State.tornTo y).bearer b = if (y.bearer b).state = (y.bearer b).state.tornDown b then y.bearer b else (y.bearer b).moved ((y.bearer b).state.tornDown b) y.now := by
  have F := ((State.movedTo_fold (fun b st => BearerState.tornDown st b) allBearers (by decide) y).2 b).1 (by unfold allBearers; fin_cases b <;> simp)
  unfold State.tornTo
  generalize List.foldl (State.movedTo fun b st => st.tornDown b) y allBearers = v at *
  have G := (State.lineMoved_fold LineRecord.torn allLines allLines_nodup (State.emptyRings { v with active := [] })).1
  generalize List.foldl (State.lineMoved LineRecord.torn) (State.emptyRings { v with active := [] }) allLines = w at *
  rw [← F]
  have : w.bearers = v.bearers := by rw [G]; rfl
  unfold State.bearer; rw [this]

theorem State.tornTo_line (y : State) (l : LineNo) :
    (∀ st, LineRecord.torn (y.line l) = some st → (State.tornTo y).line l = (y.line l).moved st ∧ (State.tornTo y).coder.conceal[l.val] = if st.isConnected then some { lastGood := none, run := 0 } else none) ∧
    (LineRecord.torn (y.line l) = none → (State.tornTo y).line l = y.line l ∧ (State.tornTo y).coder.conceal[l.val] = y.coder.conceal[l.val]) := by
  have F := (State.movedTo_fold (fun b st => BearerState.tornDown st b) allBearers (by decide) y).1
  unfold State.tornTo
  generalize List.foldl (State.movedTo fun b st => st.tornDown b) y allBearers = v at *
  have hl : (State.emptyRings { v with active := [] }).line l = y.line l := by
    show v.line l = _
    rw [F]; rfl
  have hco : (State.emptyRings { v with active := [] }).coder.conceal = y.coder.conceal := by
    show v.coder.conceal = _
    rw [F]
  have G := (State.lineMoved_fold LineRecord.torn allLines allLines_nodup (State.emptyRings { v with active := [] })).2 l
  rw [hl] at G
  generalize List.foldl (State.lineMoved LineRecord.torn) (State.emptyRings { v with active := [] }) allLines = w at *
  refine ⟨fun st h => G.1 (allLines_mem l) st h, fun h => ?_⟩
  have := G.2 (Or.inr h)
  rw [this.1, this.2]
  exact ⟨rfl, congrArg (fun v : Vector (Option Conceal) 24 => v[l.val]) hco⟩

theorem State.isUp_of_disabled {x : State} (h : x.link.state = .disabled) : x.isUp = false := by unfold State.isUp; rw [h]; rfl

theorem State.HeadIdle.noTest {x u : State} (hi : x.HeadIdle) (ht : u.testing = x.testing) (hr : u.ring.supply = x.ring.supply) (hn : u.now = x.now)
   (hl : ∀ l, (u.line l).testDue = (x.line l).testDue) : u.NoTest := State.noTest_of_idle_lines hi ht hr hn hl

theorem State.tornTo_testDue (y : State) (l) : ((State.tornTo y).line l).testDue = (y.line l).testDue := by
  have T := State.tornTo_line y l
  cases h : LineRecord.torn (y.line l) with
  | none => rw [(T.2 h).1]
  | some st => rw [(T.1 st h).1]; rfl

end Sys2Proof.Machine
end

