-- ==== Sys2Proof/Laws/Assembly.lean ====
section
/-! SUPPORT. The frame that an assembly gives to the modem, and the transmit switch. -/

namespace Sys2Proof.Machine

open Sys2Proof

theorem recordWire_length (r : Record) : (recordWire r).length = 8 := rfl

theorem auditBytes_length (a b c d e) : (auditBytes a b c d e).length = 8 := rfl

theorem blockBytes_length (b : Block) : (blockBytes b).length = 20 := rfl

theorem payload_length (r : Rate) (f : BearerNo → Block) : ((allBearers.filter (fun k => decide (k.val < r.capacity))).flatMap (fun k => blockBytes (f k))).length = 20 * r.capacity := by
  rw [List.length_flatMap]
  simp only [blockBytes_length]
  cases r <;> rfl

theorem frameBytes_length (r : Rate) (a b c d : Byte) (au : List Byte) (hau : au.length = 8) (m : Record) (f : BearerNo → Block) :
   ([a, b, c, d] ++ au ++ recordWire m ++ (allBearers.filter (fun k => decide (k.val < r.capacity))).flatMap (fun k => blockBytes (f k))).length * 8 = r.infoBits := by
  simp only [List.length_append, payload_length, recordWire_length, hau, List.length_cons, List.length_nil]
  cases r <;> rfl

theorem State.checkParity_frameKind {x : State} (hc : x.Clean) : (if x.frameKind = .bare then x else x.checkParity everyBearer) = x := by
  rw [hc.checkParity]; split <;> rfl

/-- The link record after a frame: the announcement counted down, the switch due after countdown 1 (05, R97 and R103). -/
def State.linkAfterFrame (x : State) : Link := { x.link with
          announcement := x.link.announcement.bind (fun a =>
            if a.countdown ≤ 1 then none else some { a with countdown := a.countdown - 1 })
          switchDue := x.link.announcement.bind (fun a => if a.countdown ≤ 1 then some a.next else none) }

/-- The link queue after a frame (05, R96). -/
def State.queueAfterFrame (x : State) : List Record := match x.frameKind with
  | .full => x.messages.linkQueue.tail
  | _ => x.messages.linkQueue

set_option linter.unusedSimpArgs false in
/-- One frame given to the modem where no rate switch is due. -/
theorem State.sendFrame_of_no_switch {x : State} (hc : x.Clean) (hs : x.link.switchDue = none) : x.sendFrame = { x with
        link := State.linkAfterFrame x
        coder := { x.coder with
          stages := (encodeBits (x.frameRate x.frameKind) 0 x.coder.stages (scrambleFrame (bitsOf (x.frameInfo x.frameKind)))).2
          txNumber := x.coder.txNumber + 1
          sinceSwitch := x.coder.sinceSwitch.map (fun n => min 16 (n + 1)) }
        messages := { x.messages with linkQueue := State.queueAfterFrame x }
        pins := { x.pins with
          frame := some { rate := x.frameRate x.frameKind, info := x.frameInfo x.frameKind
                          coded := (encodeBits (x.frameRate x.frameKind) 0 x.coder.stages (scrambleFrame (bitsOf (x.frameInfo x.frameKind)))).1 } } } := by
  unfold State.sendFrame
  dsimp only
  rw [State.checkParity_frameKind hc]
  unfold State.emit
  dsimp only
  generalize x.frameInfo x.frameKind = info
  generalize x.frameRate x.frameKind = r
  generalize encodeBits r 0 x.coder.stages (scrambleFrame (bitsOf info)) = cod
  unfold State.linkAfterFrame State.queueAfterFrame
  generalize x.frameKind = k
  have h : x.link.switchDue = none := hs
  cases hm : x.messages
  cases hl : x.link
  rename_i st rt cd lg an sd wd ca
  rw [hl] at h
  dsimp only at h
  subst h
  cases an with
  | none => cases k <;> (simp only [State.popMessage, State.countDown, State.countSince, hm, hl]; rfl)
  | some a =>
    by_cases ha : a.countdown ≤ 1
    · cases k <;> (simp only [State.popMessage, State.countDown, State.countSince, hm, hl]; rw [if_pos ha]; simp [ha])
    · cases k <;> (simp only [State.popMessage, State.countDown, State.countSince, hm, hl]; rw [if_neg ha]; simp [ha])

/-- One pair's call at its destination (07, R134). -/
def State.transferred (u : State) (p : Pair) : State :=
  match (u.bearer p.source).state.call? with
  | none => u
  | some c =>
    State.withLine { u.bearerTo p.dest ((u.bearer p.source).state.withTarget none) with
      active := u.active.map (fun b => if b = p.source then p.dest else b) } c.line
      { u.line c.line with state := (u.line c.line).state.withBearer p.dest }

theorem State.Clean.transferred {u : State} (hc : u.Clean) (p) : (State.transferred u p).Clean := by
  unfold State.transferred
  split
  · exact hc
  · rename_i c _
    refine State.Clean.withLine (s := { u.bearerTo p.dest ((u.bearer p.source).state.withTarget none) with
      active := u.active.map (fun b => if b = p.source then p.dest else b) }) (hc.bearerTo _ _) c.line (hc.1 c.line).2 (hc.1 c.line).1

theorem State.Near.transfer {z u : State} (h : z.Near u) (hc : u.Clean) (p) : (z.transfer p).Near (State.transferred u p) := by
  unfold State.transfer State.transferred
  rw [State.Near.bearer h]
  cases hcall : (u.bearer p.source).state.call? with
  | none => exact h
  | some c =>
    dsimp only
    have N1 := (h.putBearer hc p.dest ((u.bearer p.source).state.withTarget none)).map
      (fun s => { s with active := s.active.map (fun b => if b = p.source then p.dest else b) }) (fun _ _ => rfl)
    exact (N1.checkParity (hc.bearerTo _ _) _).updLine (hc.bearerTo _ _) c.line (f := fun r => { r with state := r.state.withBearer p.dest }) rfl rfl

theorem State.Near.transfers {z u : State} (h : z.Near u) (hc : u.Clean) (L : List Pair) : (L.foldl State.transfer z).Near (L.foldl State.transferred u) ∧ (L.foldl State.transferred u).Clean := by
  induction L generalizing z u with
  | nil => exact ⟨h, hc⟩
  | cons p L ih => exact ih (State.Near.transfer h hc p) (State.Clean.transferred hc p)

/-- The pairs of a relocation: different sources, different destinations, a call at every source whose line names it. -/
structure PairsOk (u : State) (k : Nat) (L : List Pair) : Prop where
  src : (L.map (·.source)).Nodup
  dst : (L.map (·.dest)).Nodup
  ok : ∀ p ∈ L, k ≤ p.source.val ∧ p.dest.val < k ∧ ∃ c, (u.bearer p.source).state.call? = some c ∧ (u.line c.line).state.bearer? = some p.source

theorem State.withLine_other (s : State) (k l : LineNo) (r) (h : l ≠ k) : (s.withLine k r).line l = s.line l := by
  show (s.lines.set k.val _)[l.val] = _
  rw [getElem_set_vector, if_neg (lineNo_val_ne h)]; rfl

theorem State.transferred_facts {u : State} {p : Pair} {c} (hcall : (u.bearer p.source).state.call? = some c) :
    State.transferred u p = { u with bearers := (State.transferred u p).bearers, lines := (State.transferred u p).lines, active := u.active.map (fun b => if b = p.source then p.dest else b) } ∧
    (State.transferred u p).bearer p.dest = (u.bearer p.dest).moved ((u.bearer p.source).state.withTarget none) u.now ∧
    (∀ b, b ≠ p.dest → (State.transferred u p).bearer b = u.bearer b) ∧
    (State.transferred u p).line c.line = { u.line c.line with state := (u.line c.line).state.withBearer p.dest } ∧
    (∀ l, l ≠ c.line → (State.transferred u p).line l = u.line l) := by
  unfold State.transferred
  rw [hcall]
  dsimp only
  refine ⟨rfl, ?_, fun b hb => ?_, ?_, fun l hl => ?_⟩
  · show (u.bearerTo p.dest _).bearer p.dest = _
    rw [State.bearerTo_bearer_same]
  · show (u.bearerTo p.dest _).bearer b = _
    exact State.bearerTo_other u p.dest b _ hb
  · exact State.line_withLine_same ..
  · rw [State.withLine_other _ _ _ _ hl]; rfl

theorem ne_of_nodup_map_cons {α β : Type} {f : α → β} {p : α} {L : List α} (h : ((p :: L).map f).Nodup) : ∀ q ∈ L, f q ≠ f p := by
  intro q hq e
  exact (List.nodup_cons.mp h).1 (e ▸ List.mem_map.mpr ⟨q, hq, rfl⟩)

theorem PairsOk.tail {u : State} {k p L} (h : PairsOk u k (p :: L)) {c} (hc : (u.bearer p.source).state.call? = some c)
    (hb : (u.line c.line).state.bearer? = some p.source) : PairsOk (State.transferred u p) k L := by
  obtain ⟨h1, h2, h3⟩ := h
  have n1 := List.nodup_cons.mp h1
  have F := State.transferred_facts hc
  refine ⟨n1.2, (List.nodup_cons.mp h2).2, fun q hq => ?_⟩
  obtain ⟨a1, a2, c', a3, a4⟩ := h3 q (by simp [hq])
  have hp := h3 p (by simp)
  have hne : q.source ≠ p.dest := by intro e; rw [e] at a1; omega
  have hs : q.source ≠ p.source := by
    exact ne_of_nodup_map_cons h1 q hq
  refine ⟨a1, a2, c', by rw [F.2.2.1 _ hne]; exact a3, ?_⟩
  have hl : c'.line ≠ c.line := by
    intro e; rw [e, hb] at a4; exact hs (Option.some.inj a4).symm
  rw [F.2.2.2.2 _ hl]; exact a4

/-- The transfers of a relocation: what each destination, the active list and each line get, and what stays. -/
theorem State.transferred_fold (L : List Pair) (k : Nat) (u : State) (h : PairsOk u k L) :
    L.foldl State.transferred u = { u with bearers := (L.foldl State.transferred u).bearers, lines := (L.foldl State.transferred u).lines, active := u.active.map (fun b => ((L.find? (fun p => p.source == b)).map (·.dest)).getD b) } ∧
    (∀ p ∈ L, (L.foldl State.transferred u).bearer p.dest = (u.bearer p.dest).moved ((u.bearer p.source).state.withTarget none) u.now) ∧
    (∀ b, (∀ p ∈ L, p.dest ≠ b) → (L.foldl State.transferred u).bearer b = u.bearer b) ∧
    (∀ p ∈ L, ∀ c, (u.bearer p.source).state.call? = some c → (L.foldl State.transferred u).line c.line = { u.line c.line with state := (u.line c.line).state.withBearer p.dest }) ∧
    (∀ l, (∀ p ∈ L, ∀ c, (u.bearer p.source).state.call? = some c → c.line ≠ l) → (L.foldl State.transferred u).line l = u.line l) := by
  induction L generalizing u with
  | nil => exact ⟨by simp, by simp, fun _ _ => rfl, by simp, fun _ _ => rfl⟩
  | cons p L ih =>
    obtain ⟨a1, a2, c, a3, a4⟩ := h.ok p (by simp)
    have F := State.transferred_facts a3
    have T := h.tail a3 a4
    obtain ⟨i1, i2, i3, i4, i5⟩ := ih _ T
    rw [List.foldl_cons]
    have n1 := List.nodup_cons.mp h.src
    have n2 := List.nodup_cons.mp h.dst
    have hsrc : ∀ q ∈ L, (State.transferred u p).bearer q.source = u.bearer q.source := by
      intro q hq
      have := h.ok q (by simp [hq])
      exact F.2.2.1 _ (by intro e; have h1 := this.1; rw [e] at h1; omega)
    have hlin : ∀ q ∈ L, ∀ c', (u.bearer q.source).state.call? = some c' → c'.line ≠ c.line := by
      intro q hq c' hc' e
      obtain ⟨_, _, c2, b3, b4⟩ := h.ok q (by simp [hq])
      rw [hc'] at b3
      cases b3
      rw [e, a4] at b4
      exact ne_of_nodup_map_cons h.src q hq (Option.some.inj b4).symm
    have hnow : (State.transferred u p).now = u.now := by rw [F.1]
    have hact : (State.transferred u p).active = u.active.map (fun b => if b = p.source then p.dest else b) := by rw [F.1]
    have hfr := F.1
    obtain ⟨_, f2, f3, f4, f5⟩ := F
    generalize State.transferred u p = v at *
    generalize List.foldl State.transferred v L = w at *
    refine ⟨?_, fun q hq => ?_, fun b hb => ?_, fun q hq c' hc' => ?_, fun l hl => ?_⟩
    · have hact2 : w.active = u.active.map (fun b => (((p :: L).find? (fun p => p.source == b)).map (·.dest)).getD b) := by
        rw [i1]
        dsimp only
        rw [hact, List.map_map]
        apply List.map_congr_left
        intro b _
        show ((L.find? (fun q => q.source == if b = p.source then p.dest else b)).map (·.dest)).getD (if b = p.source then p.dest else b) = _
        by_cases hb : b = p.source
        · rw [if_pos hb]
          have : L.find? (fun q => q.source == p.dest) = none := by
            rw [List.find?_eq_none]
            intro q hq e
            have := h.ok q (by simp [hq])
            have e2 : q.source = p.dest := by simpa using e
            have h1 := this.1; rw [e2] at h1; omega
          rw [this]
          rw [List.find?_cons_of_pos (by simp [hb])]
          rfl
        · rw [if_neg hb, List.find?_cons_of_neg (by simpa using fun e => hb e.symm)]
      rw [← hact2]
      have i1' : w = { v with bearers := w.bearers, lines := w.lines, active := w.active } := by
        conv_rhs => rw [show w.active = _ from congrArg State.active i1]
        exact i1
      conv_lhs => rw [i1', hfr]
    · rcases List.mem_cons.mp hq with rfl | hq
      · rw [i3 _ (fun q' hq' e => ne_of_nodup_map_cons h.dst q' hq' e)]
        exact f2
      · have hne : q.dest ≠ p.dest := ne_of_nodup_map_cons h.dst q hq
        rw [i2 q hq, f3 _ hne, hsrc q hq, hnow]
    · rw [i3 b (fun q hq => hb q (by simp [hq])), f3 b (fun e => hb p (by simp) e.symm)]
    · rcases List.mem_cons.mp hq with rfl | hq
      · rw [a3] at hc'; cases hc'
        rw [i5 _ (fun q' hq' c' hc' => by rw [hsrc q' hq'] at hc'; exact hlin q' hq' c' hc')]
        exact f4
      · rw [i4 q hq c' (by rw [hsrc q hq]; exact hc'), f5 _ (hlin q hq c' hc')]
    · rw [i5 l (fun q hq c' hc' => by rw [hsrc q hq] at hc'; exact hl q (by simp [hq]) c' hc'), f5 l (fun e => hl p (by simp) c a3 e.symm)]

theorem State.moveBearer_under_fold (L : List BearerNo) (z : State) : L.foldl (fun s b => s.moveBearer b ((s.bearer b).state.under s.capacity b)) z =
    L.foldl (fun s b => s.moveBearer b ((fun b st => BearerState.under st z.capacity b) b (s.bearer b).state)) z := by
  have key : ∀ (L : List BearerNo) (z : State) (k : Nat), z.capacity = k → L.foldl (fun s b => s.moveBearer b ((s.bearer b).state.under s.capacity b)) z =
    L.foldl (fun s b => s.moveBearer b ((fun b st => BearerState.under st k b) b (s.bearer b).state)) z := by
    intro L
    induction L with
    | nil => intro z k _; rfl
    | cons b L ih =>
      intro z k hk
      rw [List.foldl_cons, List.foldl_cons, hk]
      apply ih
      rw [← hk]
      unfold State.moveBearer
      split <;> rfl
  exact key L z _ rfl

/-- Every bearer in the state that the capacity gives it (02, R30). -/
def State.capped (u : State) : State := allBearers.foldl (State.movedTo (fun b st => st.under u.capacity b)) u

theorem State.Near.applyCapacity {z u : State} (h : z.Near u) (hc : u.Clean) : z.applyCapacity.Near (State.capped u) ∧ (State.capped u).Clean := by
  unfold State.applyCapacity State.capped
  rw [State.moveBearer_under_fold]
  have : z.capacity = u.capacity := by obtain ⟨_, _, _, _, rfl⟩ := h; rfl
  rw [this]
  exact State.Near.moves h hc (fun b st => st.under u.capacity b) allBearers

theorem State.capped_facts (u : State) : State.capped u = { u with bearers := (State.capped u).bearers } ∧ ∀ b, (State.capped u).bearer b =
   if (u.bearer b).state = (u.bearer b).state.under u.capacity b then u.bearer b else (u.bearer b).moved ((u.bearer b).state.under u.capacity b) u.now := by
  have M := State.movedTo_fold (fun b st => BearerState.under st u.capacity b) allBearers (by decide) u
  unfold State.capped
  generalize List.foldl (State.movedTo fun b st => st.under u.capacity b) u allBearers = v at *
  exact ⟨M.1, fun b => (M.2 b).1 (by unfold allBearers; fin_cases b <;> simp)⟩

theorem State.settlePairs_withWork (s : State) (w) : (s.withWork w).settlePairs = s.settlePairs.withWork w := rfl

theorem State.settlePairs_frame (s : State) : s.settlePairs = { s with coder := { s.coder with relocations := s.settlePairs.coder.relocations } } := rfl

/-- The end of a transmit switch: no plan, no BER window, the runs 0 (07, R134). -/
def State.switchEnded (s : State) : State := { s with
      quality := { s.quality with plan := none, window := none, downRun := 0, upRun := 0 }
      coder := { s.coder with
        relocations := s.coder.relocations.map (fun x : Relocation => { x with switched := true })
        sinceSwitch := if s.coder.rxRate = s.link.rate then none else some 0 } }

/-- The link record at the announced rate (05, R103). -/
def State.rateTo (x : State) (r : Rate) : State := { x with link := { x.link with rate := r, switchDue := none, announcement := none } }

/-- The transmit switch of a link in UP with no line waiting, in its four parts. -/
theorem State.takeSwitch_near {x : State} {r pairs} (hw : x.work = {}) (hc : x.Clean) (hu : x.isUp = true) (hwa : x.waiting = []) (hs : x.link.switchDue = some r) (hp : x.planPairs = pairs) :
    x.takeSwitch.Near ((State.switchEnded (State.capped (pairs.foldl State.transferred (State.rateTo x r)))).settlePairs) ∧ ((State.switchEnded (State.capped (pairs.foldl State.transferred (State.rateTo x r)))).settlePairs).Clean ∧
    ((State.switchEnded (State.capped (pairs.foldl State.transferred (State.rateTo x r)))).settlePairs).waiting = [] := by
  unfold State.takeSwitch
  rw [hs]
  dsimp only
  rw [hc.checkParity]
  have e1 : x.switchRate r = State.rateTo x r := by
    unfold State.switchRate
    dsimp only
    rw [if_pos (by exact hu)]
    rfl
  rw [e1]
  have e2 : (State.rateTo x r).planPairs = pairs := hp
  rw [e2]
  have hc1 : (State.rateTo x r).Clean := hc
  obtain ⟨N1, C1⟩ := State.Near.transfers (State.Near.refl (s := State.rateTo x r) hw) hc1 pairs
  have hwt : (List.foldl State.transferred (State.rateTo x r) pairs).waiting = [] := by
    have : ∀ (L : List Pair) (u : State), (L.foldl State.transferred u).waiting = u.waiting := by
      intro L
      induction L with
      | nil => intro u; rfl
      | cons p L ih => intro u; rw [List.foldl_cons, ih]; unfold State.transferred; split <;> rfl
    rw [this]; exact hwa
  generalize List.foldl State.transferred (State.rateTo x r) pairs = v at *
  generalize List.foldl State.transfer (State.rateTo x r) pairs = z at *
  obtain ⟨N2, C2⟩ := State.Near.applyCapacity N1 C1
  have hw2 : (State.capped v).waiting = [] := by rw [(State.capped_facts v).1]; exact hwt
  generalize State.capped v = v2 at *
  generalize z.applyCapacity = z2 at *
  have N3 := N2.map State.switchEnded (fun _ _ => rfl)
  have C3 : (State.switchEnded v2).Clean := C2
  have hw3 : (State.switchEnded v2).waiting = [] := hw2
  have N4 := N3.map State.settlePairs State.settlePairs_withWork
  have hfr := State.settlePairs_frame (State.switchEnded v2)
  have C4 : (State.switchEnded v2).settlePairs.Clean := by rw [hfr]; exact C3
  have hw4 : (State.switchEnded v2).settlePairs.waiting = [] := by rw [hfr]; exact hw3
  refine ⟨?_, C4, hw4⟩
  have : (State.switchEnded z2).settlePairs.serveQueue = (State.switchEnded z2).settlePairs := by
    apply State.serveQueue_of_empty
    obtain ⟨_, _, _, _, e⟩ := N4
    rw [e]; exact hw4
  show (State.switchEnded z2).settlePairs.serveQueue.Near _
  rw [this]; exact N4

/-- The frame assembly carries nearness over. -/
theorem State.Near.sendFrame {z u : State} (h : z.Near u) (hc : u.Clean) (hs : u.link.switchDue = none) : z.sendFrame.Near u.sendFrame := by
  obtain ⟨hu, w, h1, h2, rfl⟩ := h
  refine ⟨?_, w, h1, h2, ?_⟩
  · rw [State.sendFrame_of_no_switch hc hs]; exact hu
  · rw [State.sendFrame_of_no_switch (x := u.withWork w) hc hs, State.sendFrame_of_no_switch hc hs]; rfl

theorem State.frameInfo_length (y : State) : (y.frameInfo y.frameKind).length * 8 = (y.frameRate y.frameKind).infoBits := by
  unfold State.frameInfo State.header
  refine frameBytes_length _ _ _ _ _ _ ?_ _ _
  cases y.frameKind <;> rfl

end Sys2Proof.Machine
end

