-- ==== Sys2Proof/Laws/Coding.lean ====
section
/-! SUPPORT. The scrambling sequence of a received frame, and the lengths that the scrambler and the coder keep. -/

namespace Sys2Proof.Machine

open Sys2Proof

theorem scramble_length (r : Scrambler) (bits : List Bool) : (scramble r bits).length = bits.length := by
  induction bits generalizing r with
  | nil => rfl
  | cons b bits ih => simp [scramble, ih]

/-- The sequence of n bits after what has been gathered takes n bits more. -/
theorem sequenceFrom_lt (n : Nat) (r : Scrambler) (gathered : BitVec 1440) (k : Nat) (h : gathered.toNat < 2 ^ k) :
    (sequenceFrom n r gathered).toNat < 2 ^ (k + n) := by
  induction n generalizing r gathered k with
  | zero => exact h
  | succ n ih =>
    have e : k + (n + 1) = k + 1 + n := by omega
    rw [sequenceFrom, e]
    refine ih _ _ _ ?_
    rw [BitVec.toNat_or]
    refine Nat.or_lt_two_pow ?_ ?_
    · rw [BitVec.toNat_shiftLeft]
      refine lt_of_le_of_lt (Nat.mod_le _ _) ?_
      rw [Nat.shiftLeft_eq, pow_succ]
      exact Nat.mul_lt_mul_of_pos_right h (by decide)
    · rw [BitVec.toNat_setWidth]
      refine lt_of_le_of_lt (Nat.mod_le _ _) (lt_of_lt_of_le (BitVec.isLt _) ?_)
      exact Nat.pow_le_pow_right (by decide) (by omega)

/-- The upper part of two joined words. -/
theorem extractLsb'_append_high {v w : Nat} (a : BitVec w) (b : BitVec v) (k n : Nat) (h : v ≤ k) :
    (a ++ b).extractLsb' k n = a.extractLsb' (k - v) n := by
  apply BitVec.eq_of_getLsbD_eq
  intro i hi
  have e : ¬ k + i < v := by omega
  have e2 : k + i - v = k - v + i := by omega
  simp [BitVec.getLsbD_append, hi, e, e2]

/-- The lower part of two joined words. -/
theorem extractLsb'_append_low {v w : Nat} (a : BitVec w) (b : BitVec v) (k n : Nat) (h : k + n ≤ v) :
    (a ++ b).extractLsb' k n = b.extractLsb' k n := by
  apply BitVec.eq_of_getLsbD_eq
  intro i hi
  have e : k + i < v := by omega
  simp [BitVec.getLsbD_append, hi, e]

/-- The scrambling sequence leaves the alignment word (05, R91). -/
theorem frameSequence_head : frameSequence.extractLsb' 1424 16 = 0 := by
  have h : frameSequence.toNat < 2 ^ (0 + 1424) := sequenceFrom_lt 1424 _ 0 0 (by simp)
  rw [Nat.zero_add] at h
  apply BitVec.eq_of_toNat_eq
  rw [BitVec.extractLsb'_toNat, Nat.shiftRight_eq_div_pow, Nat.div_eq_of_lt h]
  rfl

end Sys2Proof.Machine
end

