-- ==== Sys2Proof/Laws/Sync.lean ====
section
/-! SUPPORT. The receive rate, the loss of synchronism, the search, the frame taken in UP, and a step plan without a call to move. -/

namespace Sys2Proof.Machine

open Sys2Proof

theorem Rate.ofCode_eq_some (n : Nat) (r : Rate) : Rate.ofCode n = some r ↔ n = r.code := by
  rcases n with _ | _ | _ | n <;> cases r <;> simp [Rate.ofCode, Rate.code]

theorem Rate.ofCode_isSome_iff (n : Nat) : (∃ r, Rate.ofCode n = some r) ↔ n ≤ 2 := by
  rcases n with _ | _ | _ | n <;> simp [Rate.ofCode]

theorem Rate.ofCode_eq_none (n : Nat) : Rate.ofCode n = none ↔ 2 < n := by
  rcases n with _ | _ | _ | n <;> simp [Rate.ofCode]

/-- The receive countdown that a good frame announces (05, R102). -/
theorem State.announcedBy_eq_some (x : State) (f : RxFrame) (r : Rate) (c : Nat) : x.announcedBy f = some { next := r, count := c } ↔
   (damaged f = false ∧ currentCode (controlOf f) ≤ 2 ∧ nextCode (controlOf f) = r.code ∧
      r ≠ x.coder.rxRate ∧ 1 ≤ c ∧ c = countdownOf (controlOf f) ∧ x.ownTarget r = true) := by
  unfold State.announcedBy
  dsimp only
  by_cases hd : damaged f = true
  · simp [hd]
  · rw [if_neg hd]
    have hd' : damaged f = false := by simpa using hd
    cases h1 : Rate.ofCode (currentCode (controlOf f)) with
    | none =>
      have := (Rate.ofCode_eq_none _).1 h1
      simp [hd']; omega
    | some q =>
      have a := (Rate.ofCode_isSome_iff _).1 ⟨q, h1⟩
      cases h2 : Rate.ofCode (nextCode (controlOf f)) with
      | none =>
        have := (Rate.ofCode_eq_none _).1 h2
        simp only [reduceCtorEq, false_iff]
        rintro ⟨_, _, h, _⟩
        rw [h] at this
        cases r <;> simp [Rate.code] at this
      | some n =>
        have b := (Rate.ofCode_eq_some _ _).1 h2
        dsimp only
        have inj : nextCode (controlOf f) = r.code ↔ n = r := by
          rw [b]; constructor
          · intro h; cases n <;> cases r <;> first | rfl | cases h
          · rintro rfl; rfl
        rw [inj]
        split
        · rename_i h
          simp only [Option.some.injEq, RxCountdown.mk.injEq, hd', a, true_and]
          constructor
          · rintro ⟨rfl, rfl⟩; exact ⟨rfl, h.1, h.2.1, rfl, h.2.2⟩
          · rintro ⟨rfl, _, _, rfl, _⟩; exact ⟨rfl, rfl⟩
        · rename_i h
          simp only [reduceCtorEq, false_iff]
          rintro ⟨_, _, rfl, h1, h2, rfl, h3⟩
          exact h ⟨h1, h2, h3⟩

theorem State.countDamage_of_up {v : State} {f : RxFrame} {bad n : Nat} (h : v.link.state = .up bad n) (hd : damaged f = false ∨ n < 3) :
    v.countDamage f = { v with link := { v.link with state := .up bad (if damaged f then n + 1 else 0) } } := by
  unfold State.countDamage
  rw [h]
  dsimp only
  rcases hd with h | h
  · rw [h]; simp
  · split
    · rw [if_neg (by omega)]
    · rfl

/-- A change of the receive rate (05, R102; 06, R108; 07, R122). -/
theorem State.setRxRate_of_ne (v : State) {R : Rate} (hv : v.coder.rxRate ≠ R) : v.setRxRate R = { v with
        link := { v.link with
          candidate := v.link.candidate % 2
          lastGood := v.link.lastGood % 2
          window := v.link.window.map (fun _ => v.param .windowLength)
          carried := false
          state := v.link.state.restartSearch }
        quality := { v.quality with window := none }
        coder := { v.coder with
          rxRate := R
          sinceSwitch := if R = v.link.rate then none else v.coder.sinceSwitch
          relocations := settleIn R false v.coder.relocations } } := by
  unfold State.setRxRate
  dsimp only
  rw [if_pos (by simpa using hv)]
  rfl

theorem State.begin_not_halted {s x : State} {t} (hx : x = s.begin t) (hs : x.unit.mode = .service) : s.unit.mode ≠ .halted := by
  rw [hx] at hs
  intro e; rw [show (s.begin t).unit = s.unit from rfl, e] at hs; cases hs

theorem State.work_of_begin {s x : State} {t} (hx : x = s.begin t) : x.work = {} := by rw [hx]; rfl

theorem State.send_finish {x : State} (h : x.work = {}) (he : (x.routing .txOverflow).isQuiet = true) (p r) : (x.send p r).finish = x.send p r :=
  State.finish_of_idle ((State.send_work he).trans h)

/-- A receive rate set to what it is. -/
theorem State.setRxRate_of_eq (v : State) {R : Rate} (hv : v.coder.rxRate = R) (hl : v.link.rate = R) : v.setRxRate R = { v with
        coder := { v.coder with
          sinceSwitch := none
          relocations := settleIn R false v.coder.relocations } } := by
  unfold State.setRxRate
  dsimp only
  rw [if_neg (by simpa using hv), if_pos hl.symm, ← hv]
  rfl

/-- Loss of synchronism where the receive rate is that of the link record (06, R115). -/
theorem State.loseSync_of_same_rate (v : State) (h : v.coder.rxRate = v.link.rate) : v.loseSync = State.send { v with
      link := { v.link with
        state := .hunt { cycle := 0, noSync := false, hold := some (v.now + sec (v.param .holdTime)) }
        candidate := v.link.lastGood, carried := true }
      quality := { v.quality with window := none }
      coder := { v.coder with
        expected := none, lastGoodNumber := none, rxCountdown := none, sinceSwitch := none
        relocations := settleIn v.link.rate false v.coder.relocations } } .localPort
      (State.linkStateRecord { v with
      link := { v.link with
        state := .hunt { cycle := 0, noSync := false, hold := some (v.now + sec (v.param .holdTime)) }
        candidate := v.link.lastGood } } .lost) := by
  unfold State.loseSync
  dsimp only
  rw [State.setRxRate_of_eq _ (by exact h) rfl]
  rfl

theorem State.ErrorsOk.linkNoSync {x : State} (h : x.ErrorsOk) : (x.routing .linkNoSync).isQuiet = true := by
  have := h.1 .linkNoSync
  simp [ErrorKind.allowed] at this
  rcases this with h | h <;> rw [h] <;> rfl

theorem State.raise_finish_of_quiet {x : State} (h : x.work = {}) (he : (x.routing .txOverflow).isQuiet = true) (e : ErrorEvent) (h2 : (x.routing e.kind).isQuiet = true) :
   (x.raise e).finish = x.raise e := State.finish_of_idle ((State.raise_work h2 he).trans h)

/-- The trials after one position of the search (06, R112). -/
theorem trials_after_word (ts after : List Trial) (F p : Nat) (w : Word) (live : List Trial) (hl : live = ts.filter (fun q => decide (p ≤ q.expected F)))
   (h1 : w ≠ 0xD35A → after = live.filter (fun q => decide (q.expected F ≠ p)))
   (h2 : w = 0xD35A → (∀ q ∈ live, q.expected F ≠ p) → after = live ++ [{ position := p, confirmations := 0 }])
   (h3 : w = 0xD35A → (∃ q ∈ live, q.expected F = p) → after = live.map (fun q =>
          if q.expected F = p then { q with confirmations := q.confirmations + 1 } else q)) :
   trialsAfter ts F p (w == Config.alignmentWord) = after := by
  unfold trialsAfter
  dsimp only
  rw [← hl]
  have hw : (w == Config.alignmentWord) = decide (w = 0xD35A) := by
    by_cases h : w = 0xD35A
    · rw [h]; rfl
    · simp only [h, decide_false]; exact beq_false_of_ne h
  rw [hw]
  by_cases hd : w = 0xD35A
  · rw [decide_eq_true hd]
    by_cases ha : ∃ q ∈ live, q.expected F = p
    · rw [if_pos (by simpa using ha), if_pos rfl, h3 hd ha]
    · rw [if_neg (by simpa using ha), if_pos rfl, h2 hd (by simpa using ha)]
  · rw [decide_eq_false hd, h1 hd]
    have e : live.filter (fun r => r.expected F != p) = live.filter (fun q => decide (q.expected F ≠ p)) := by
      congr 1; funext q; by_cases h : q.expected F = p <;> simp [h]
    split
    · rw [if_neg (by simp), e]
    · rename_i h
      rw [if_neg (by simp)]
      symm
      rw [List.filter_eq_self]
      intro q hq
      simp at h ⊢
      exact h q hq

/-- A candidate given up: the next one of the cycle, or LINK_NO_SYNC once in an episode (06, R111). -/
theorem State.giveUp_of (v : State) (e : Episode) (n : Nat) (hn : v.decoderRate.candidates = n) (z : State) (hz : z = { v with link := { v.link with
      state := .hunt (if e.cycle + 1 < n then { e with cycle := e.cycle + 1 }
          else { e with cycle := 0, noSync := true })
      candidate := (v.link.candidate + 1) % n, window := some (v.param .windowLength), carried := false } }) :
   v.giveUp e = if e.cycle + 1 < n ∨ e.noSync = true then z
        else z.raise { kind := .linkNoSync, detail := some (BitVec.ofNat 16 v.link.rate.code) } := by
  have ga : e.afterGivingUp n = if e.cycle + 1 < n then { e with cycle := e.cycle + 1 } else { e with cycle := 0, noSync := true } := by
    unfold Episode.afterGivingUp
    by_cases h : e.cycle + 1 < n
    · rw [if_pos h, if_neg (by omega)]
    · rw [if_neg h, if_pos (by omega)]
  unfold State.giveUp
  rw [hn]
  dsimp only
  rw [ga, ← hz]
  by_cases h : e.cycle + 1 < n
  · rw [if_pos h, if_neg (by simp), if_pos (.inl h)]
  · rw [if_neg h]
    by_cases h2 : e.noSync = true
    · rw [if_neg (by simp [h2]), if_pos (.inr h2)]
    · rw [if_pos (by simp [h2]), if_neg (by simp [h, h2])]

/-- The counts of a frame taken in UP at an unchanged receive rate (05, R102; 06, R114; 07, R122). -/
theorem State.closeFrame_of_up {v : State} {f : RxFrame} {bad n : Nat} (hs : v.unit.mode = .service) (hup : v.link.state = .up bad n)
    (hr : v.rateAfter f = v.coder.rxRate) (hd : damaged f = false ∨ n < 3) :
    v.closeFrame f = State.countFrame { v with
      link := { v.link with state := .up bad (if damaged f then n + 1 else 0) }
      coder := { v.coder with rxCountdown := v.rxCountdownAfter f } } (disagreementsOf v.coder.rxRate f) := by
  have ht : v.takesFrames = true := by simp [State.takesFrames, State.isUp_of_up hup, State.inService, hs]
  have hf : v.followRate f = { v with coder := { v.coder with rxCountdown := v.rxCountdownAfter f } } := by
    unfold State.followRate
    dsimp only
    rw [if_pos hr]
  unfold State.closeFrame
  dsimp only
  rw [if_pos ht, hf, State.countDamage_of_up (bad := bad) (n := n) (by exact hup) hd, if_pos (by exact ⟨rfl, rfl⟩)]

/-- The frame that fills a BER window judges it (07, R123). -/
theorem State.countFrame_of_full (v : State) (m : Nat) (w : BerWindow) (hw : v.windowWith m = w) (hl : w.length ≤ w.frames) : v.countFrame m = v.judgeBer w := by
  unfold State.countFrame
  rw [hw]; dsimp only; rw [if_pos hl]

theorem State.countA_eq_zero (v : State) (k : Nat) (h : ∀ b : BearerNo, k ≤ b.val → (v.bearer b).state.call? = none) : v.countA k = 0 := by
  unfold State.countA State.countBearers
  rw [List.length_eq_zero_iff, List.filter_eq_nil_iff]
  intro b _
  unfold isSource
  by_cases hk : k ≤ b.val
  · rw [h b hk]; simp
  · simp [hk]

theorem State.relocationPairs_eq_nil (v : State) (k : Nat) (h : ∀ b : BearerNo, k ≤ b.val → (v.bearer b).state.call? = none) : v.relocationPairs k = [] := by
  unfold State.relocationPairs
  have : allBearers.filter (fun b => isSource k b (v.bearer b).state) = [] := by
    rw [List.filter_eq_nil_iff]
    intro b _
    unfold isSource
    by_cases hk : k ≤ b.val
    · rw [h b hk]; simp
    · simp [hk]
  rw [this]; rfl

/-- A step plan with no call to move is at once in COUNTDOWN and announced (07, R129). -/
theorem State.createPlan_of_no_calls (v : State) (r : Rate) (c : Bool) (hu : v.isUp = true) (hc : v.Clean) (h : ∀ b : BearerNo, r.capacity ≤ b.val → (v.bearer b).state.call? = none) :
    v.createPlan r c = { v with
      link := { v.link with announcement := some { next := r, countdown := 8 } }
      quality := { v.quality with plan := some { target := r, phase := .countdown [], forced := false } } } := by
  unfold State.createPlan State.stepPlan
  dsimp only
  rw [if_pos (by exact hu), State.Clean.checkParity (by exact hc)]
  unfold State.stepDrain
  dsimp only
  rw [if_pos (by rw [State.countA_eq_zero _ _ (by exact h)]; exact Nat.zero_le _)]
  unfold State.relocate
  dsimp only
  rw [State.relocationPairs_eq_nil _ _ (by exact h)]
  rfl

end Sys2Proof.Machine
end

