-- ==== Sys2Proof/Laws/Rings.lean ====
section
/-! SUPPORT. The ring tables at an on-interval and at a downgrade. -/

namespace Sys2Proof.Machine

open Sys2Proof

/-- The runs of several lines set to 0, and no other line. -/
theorem State.holdSampling_fold (es : List RingEntry) (v : State) :
    es.foldl (fun s e => s.holdSampling e.line) v = { v with lines := (es.foldl (fun s e => s.holdSampling e.line) v).lines } ∧
    ∀ l, (es.foldl (fun s e => s.holdSampling e.line) v).line l = if ∃ e ∈ es, e.line = l then { v.line l with run := .zero } else v.line l := by
  induction es generalizing v with
  | nil => exact ⟨rfl, fun l => by simp⟩
  | cons e es ih =>
    obtain ⟨i1, i2⟩ := ih (v.holdSampling e.line)
    rw [List.foldl_cons]
    generalize es.foldl (fun s e => s.holdSampling e.line) (v.holdSampling e.line) = u at *
    have hv : v.holdSampling e.line = v.withLine e.line { v.line e.line with run := .zero } := rfl
    refine ⟨by rw [i1, hv]; rfl, fun l => ?_⟩
    rw [i2 l, hv]
    by_cases h : l = e.line
    · subst h
      rw [State.withLine_line_same]
      simp
    · rw [State.withLine_other _ _ _ _ h]
      have : (∃ e' ∈ e :: es, e'.line = l) ↔ ∃ e' ∈ es, e'.line = l := by
        simp; intro h2; exact absurd h2.symm h
      simp only [this]

theorem State.Plain.begins {s x : State} {t} (hx : x = s.begin t) (hs : x.Plain) : s.unit.mode ≠ .halted ∧ x.work = {} := ⟨State.begin_not_halted hx hs.service, State.work_of_begin hx⟩

/-- Service of the ring queue changes the phases and the ring queue only. -/
theorem State.serveRings_frame (v : State) : v.serveRings = { v with ring := { v.ring with phases := v.serveRings.ring.phases, queue := v.serveRings.ring.queue } } := by
  unfold State.serveRings
  generalize v.ring.queue.length = n
  induction n generalizing v with
  | zero => rfl
  | succ n ih =>
    unfold serveRingsUpTo
    split
    · rename_i w rest p _ _
      have := ih ({ v with ring := { v.ring with queue := rest } }.placeEntry p w.line w.rings)
      rw [this]; rfl
    · rfl

theorem State.Still.rings {v : State} {ph q} (h : v.Still) : State.Still { v with ring := { v.ring with phases := ph, queue := q } } := h

theorem insertByPlaced_perm (e : RingEntry) (l : List RingEntry) : (insertByPlaced e l).Perm (e :: l) := by
  induction l with
  | nil => exact .refl _
  | cons x l ih =>
    unfold insertByPlaced
    split
    · exact .refl _
    · exact (ih.cons x).trans (List.Perm.swap e x l)

theorem insertByPlaced_sorted (e : RingEntry) (l : List RingEntry) (h : l.Pairwise (fun i j => i.placed ≤ j.placed)) :
    (insertByPlaced e l).Pairwise (fun i j => i.placed ≤ j.placed) := by
  induction l with
  | nil => simp [insertByPlaced]
  | cons x l ih =>
    unfold insertByPlaced
    have h' := List.pairwise_cons.1 h
    split
    · rename_i hlt
      simp only [Time] at *
      rw [List.pairwise_cons]
      refine ⟨fun a ha => ?_, h⟩
      rcases List.mem_cons.1 ha with rfl | ha
      · omega
      · have := h'.1 a ha; omega
    · rename_i hlt
      simp only [Time] at *
      rw [List.pairwise_cons]
      refine ⟨fun a ha => ?_, ih h'.2⟩
      rcases List.mem_cons.1 ((insertByPlaced_perm e l).mem_iff.1 ha) with rfl | ha
      · omega
      · exact h'.1 a ha

/-- Entries inserted by their placement times: the same entries, in the order of those times (04, R86). -/
theorem insertByPlaced_fold (L acc : List RingEntry) (h : acc.Pairwise (fun i j => i.placed ≤ j.placed)) :
    (L.foldl (fun acc e => insertByPlaced e acc) acc).Perm (L ++ acc) ∧
    (L.foldl (fun acc e => insertByPlaced e acc) acc).Pairwise (fun i j => i.placed ≤ j.placed) := by
  induction L generalizing acc with
  | nil => exact ⟨.refl _, h⟩
  | cons e L ih =>
    obtain ⟨i1, i2⟩ := ih _ (insertByPlaced_sorted e acc h)
    refine ⟨?_, i2⟩
    rw [List.foldl_cons]
    refine i1.trans ?_
    refine ((insertByPlaced_perm e acc).append_left L).trans ?_
    exact List.perm_middle

end Sys2Proof.Machine
end

