-- ==== Sys2Proof/Laws/Plans.lean ====
section
/-! SUPPORT. Events that end with a step plan in COUNTDOWN or DRAIN: the reservations, the MOVE records, the relocation and a preemption. -/

namespace Sys2Proof.Machine

open Sys2Proof

/-- A state whose queue service, plan evaluation and choice of a test change nothing. -/
structure Rests (u : State) : Prop where
  serve : ∀ w, (u.withWork w).serveQueue = u.withWork w
  plan : ∀ w, (u.withWork w).stepPlan false = u.withWork w
  test : ∀ w, (u.withWork w).chooseTest = u.withWork w

theorem Rests.round {u : State} (h : Rests u) (w : Work) (h1 : w.ordered = []) (h2 : w.reply = none) : (u.withWork w).round = u.withWork w.lowered := by
  obtain ⟨serve, plan, test⟩ := h
  have again : ∀ v w, (u.withWork v).withWork w = u.withWork w := fun _ _ => rfl
  obtain ⟨found, sv, ct, ch, rp, od⟩ := w
  simp only at h1 h2
  subst h1 h2
  unfold State.round State.settle
  cases sv <;> cases ct <;> cases ch <;> simp [again, serve, plan, test, State.conclude, State.flushReply, Work.lowered]

/-- An event whose effect is near a resting state ends in it. -/
theorem Rests.finish {z u : State} (r : Rests u) (h : z.Near u) : z.finish = u := by
  obtain ⟨hu, w, h1, h2, rfl⟩ := h
  have again : ∀ v w, (u.withWork v).withWork w = u.withWork w := fun _ _ => rfl
  rw [State.finish, r.round w h1 h2, r.round w.lowered h1 h2, r.round w.lowered.lowered h1 h2, again, State.withWork_of_idle hu]

/-- The same with a reply. -/
theorem Rests.finish_reply {z u : State} (rs : Rests u) (h : z.Near u) {p r} (rq : Rests (u.queued p r)) (hr : u.HasRoom p) : (z.replyWith p r).finish = u.queued p r := by
  obtain ⟨hu, w, h1, h2, rfl⟩ := h
  have again : ∀ v w, (u.withWork v).withWork w = u.withWork w := fun _ _ => rfl
  have room : ∀ w, (u.withWork w).send p r = (u.queued p r).withWork w := by
    intro w
    rw [State.send_of_room (by cases p <;> exact hr)]
    cases p <;> rfl
  have hq : (u.queued p r).work = {} := by cases p <;> exact hu
  have e : ((u.withWork w).replyWith p r) = u.withWork { w with reply := some (p, r) } := rfl
  have serve := rs.serve
  have plan := rs.plan
  have test := rs.test
  have round : (u.withWork { w with reply := some (p, r) }).round = (u.queued p r).withWork { w.lowered with reply := none } := by
    obtain ⟨found, sv, ct, ch, rp, od⟩ := w
    simp only at h1 h2
    subst h1 h2
    unfold State.round State.settle
    cases sv <;> cases ct <;> cases ch <;> simp [again, serve, plan, test, State.conclude, State.flushReply, Work.lowered, room]
  rw [e]
  unfold State.finish
  rw [round, rq.round { w.lowered with reply := none } h1 rfl, rq.round (Work.lowered { w.lowered with reply := none }) h1 rfl]
  exact State.withWork_of_idle hq

/-- A plan in COUNTDOWN rests. -/
theorem Rests.countdown {u : State} (hc : u.Clean) (hw : u.waiting = []) (ht : u.NoTest) {r pairs f} (hp : u.quality.plan = some { target := r, phase := .countdown pairs, forced := f }) : Rests u where
  serve := fun w => State.serveQueue_of_empty (s := u.withWork w) hw
  plan := fun w => by
    unfold State.stepPlan
    have : (u.withWork w).quality.plan = some { target := r, phase := .countdown pairs, forced := f } := hp
    rw [this]
  test := fun w => State.chooseTest_of_noTest (s := u.withWork w) hc ht

/-- One pair reserved: the destination HELD_MOVE, the source with its target (07, R129). -/
def State.reserved (u : State) (m : Pair) : State :=
  (u.bearerTo m.dest .heldMove).withBearer m.source
    { (u.bearerTo m.dest .heldMove).bearer m.source with state := (u.bearer m.source).state.withTarget (some m.dest) }

theorem State.Clean.reserved {u : State} (hc : u.Clean) (m) : (State.reserved u m).Clean := by
  have c1 := hc.bearerTo m.dest .heldMove
  exact c1.withBearer m.source (c1.2 m.source).2 (c1.2 m.source).1

theorem State.Near.reserve {z u : State} (h : z.Near u) (hc : u.Clean) (m) : (z.reserve m).Near (State.reserved u m) := by
  unfold State.reserve
  have hb : (z.bearer m.source).state = (u.bearer m.source).state := by rw [State.Near.bearer h]
  rw [hb]
  exact (h.putBearer hc m.dest .heldMove).amendBearer (hc.bearerTo _ _) _ _

theorem State.Near.reserves {z u : State} (h : z.Near u) (hc : u.Clean) (L : List Pair) : (L.foldl State.reserve z).Near (L.foldl State.reserved u) ∧ (L.foldl State.reserved u).Clean := by
  induction L generalizing z u with
  | nil => exact ⟨h, hc⟩
  | cons m L ih => exact ih (State.Near.reserve h hc m) (State.Clean.reserved hc m)

theorem State.withBearer_other (s : State) (b k : BearerNo) (r) (h : k ≠ b) : (s.withBearer b r).bearer k = s.bearer k := by
  unfold State.withBearer State.bearer
  dsimp only
  rw [getElem_set_vector, if_neg]
  intro e; exact h (Fin.ext e)

theorem State.reserved_facts {u : State} {m : Pair} (hne : m.source ≠ m.dest) :
    State.reserved u m = { u with bearers := (State.reserved u m).bearers } ∧
    (State.reserved u m).bearer m.dest = (u.bearer m.dest).moved .heldMove u.now ∧
    (State.reserved u m).bearer m.source = { u.bearer m.source with state := (u.bearer m.source).state.withTarget (some m.dest) } ∧
    ∀ b, b ≠ m.source → b ≠ m.dest → (State.reserved u m).bearer b = u.bearer b := by
  refine ⟨rfl, ?_, ?_, fun b h1 h2 => ?_⟩
  · unfold State.reserved; rw [State.withBearer_other _ _ _ _ hne.symm, State.bearerTo_bearer_same]
  · unfold State.reserved; rw [State.withBearer_bearer_same, State.bearerTo_other _ _ _ _ hne]
  · unfold State.reserved; rw [State.withBearer_other _ _ _ _ h1, State.bearerTo_other _ _ _ _ h2]

/-- The reservations of a relocation: what each destination and source get, and what stays. -/
theorem State.reserved_fold (L : List Pair) (k : Nat) (u : State) (hs : (L.map (·.source)).Nodup) (hd : (L.map (·.dest)).Nodup)
    (hk : ∀ m ∈ L, k ≤ m.source.val ∧ m.dest.val < k) :
    L.foldl State.reserved u = { u with bearers := (L.foldl State.reserved u).bearers } ∧
    (∀ m ∈ L, (L.foldl State.reserved u).bearer m.dest = (u.bearer m.dest).moved .heldMove u.now ∧
      (L.foldl State.reserved u).bearer m.source = { u.bearer m.source with state := (u.bearer m.source).state.withTarget (some m.dest) }) ∧
    ∀ b, (∀ m ∈ L, m.source ≠ b ∧ m.dest ≠ b) → (L.foldl State.reserved u).bearer b = u.bearer b := by
  induction L generalizing u with
  | nil => exact ⟨rfl, fun _ h => by simp at h, fun _ _ => rfl⟩
  | cons m L ih =>
    have hne : m.source ≠ m.dest := by
      intro e
      have := hk m (by simp)
      rw [e] at this; omega
    obtain ⟨f1, f2, f3, f4⟩ := State.reserved_facts (u := u) hne
    have ns := ne_of_nodup_map_cons hs
    have nd := ne_of_nodup_map_cons hd
    obtain ⟨i1, i2, i3⟩ := ih (State.reserved u m) (by simp at hs; exact hs.2) (by simp at hd; exact hd.2) (fun q hq => hk q (by simp [hq]))
    rw [List.foldl_cons]
    have hm := hk m (by simp)
    generalize L.foldl State.reserved (State.reserved u m) = v at *
    refine ⟨by rw [i1, f1], fun q hq => ?_, fun b hb => ?_⟩
    · rw [List.mem_cons] at hq
      rcases hq with rfl | hq
      · constructor
        · rw [i3 q.dest fun r hr => ⟨fun e => ?_, nd r hr⟩, f2]
          have := hk r (by simp [hr]); rw [e] at this; omega
        · rw [i3 q.source fun r hr => ⟨ns r hr, fun e => ?_⟩, f3]
          have := hk r (by simp [hr]); rw [e] at this; omega
      · obtain ⟨j1, j2⟩ := i2 q hq
        have hqk := hk q (by simp [hq])
        have e1 : q.dest ≠ m.source := fun e => by rw [e] at hqk; omega
        have e2 : q.source ≠ m.dest := fun e => by rw [e] at hqk; omega
        rw [j1, j2, f4 q.dest e1 (nd q hq), f4 q.source (ns q hq) e2]
        exact ⟨by rw [f1], rfl⟩
    · rw [i3 b fun q hq => hb q (by simp [hq]), f4 b (hb m (by simp)).1.symm (hb m (by simp)).2.symm]

/-- The MOVE record of a pair (07, R129). -/
def State.moveOf (v : State) (m : Pair) : Option Record := (v.bearer m.source).state.call?.map (fun c => moveRecord c.line m.source c.reference m.dest)

/-- Records at the back of the link queue. -/
def State.pushed (v : State) (rs : List Record) : State := { v with messages := { v.messages with linkQueue := v.messages.linkQueue ++ rs } }

theorem State.Near.moveRecords {z u : State} (h : z.Near u) (L : List Pair) (hup : u.isUp = true) (hl : u.messages.linkQueue.length + L.length < 16) (hov : (u.routing .txOverflow).isQuiet = true) :
    (L.foldl State.sendMove z).Near (State.pushed u (L.filterMap (State.moveOf u))) := by
  induction L generalizing z u with
  | nil =>
    have : State.pushed u (List.filterMap (State.moveOf u) []) = u := by unfold State.pushed; simp
    rw [this]; exact h
  | cons m L ih =>
    rw [List.foldl_cons]
    unfold State.sendMove
    rw [State.Near.bearer h]
    simp only [List.length_cons] at hl
    cases hc : (u.bearer m.source).state.call? with
    | none =>
      dsimp only
      have : State.moveOf u m = none := by unfold State.moveOf; rw [hc]; rfl
      rw [List.filterMap_cons_none this]
      exact ih h hup (by omega) hov
    | some c =>
      dsimp only
      have hm : State.moveOf u m = some (moveRecord c.line m.source c.reference m.dest) := by unfold State.moveOf; rw [hc]; rfl
      rw [List.filterMap_cons_some hm]
      have N := h.sendCall hov (moveRecord c.line m.source c.reference m.dest)
      rw [State.sendCall_of_up hup (by unfold State.HasRoom Config.queueCapacity; dsimp only; omega)] at N
      have := ih N hup (by simp [State.queued]; omega) hov
      have e : State.pushed (u.queued .link (moveRecord c.line m.source c.reference m.dest)) (L.filterMap (State.moveOf (u.queued .link (moveRecord c.line m.source c.reference m.dest)))) =
         State.pushed u (moveRecord c.line m.source c.reference m.dest :: L.filterMap (State.moveOf u)) := by
        unfold State.pushed State.queued
        dsimp only
        rw [List.append_assoc]
        rfl
      rw [e] at this
      exact this

theorem State.countA_eq_length (x : State) (k : Nat) : x.countA k = (allBearers.filter (fun b => (x.bearer b).state.call?.isSome && decide (k ≤ b.val))).length := rfl

theorem State.countF_eq_length (x : State) (k : Nat) : x.countF k = (allBearers.filter (fun b => decide ((x.bearer b).state = .free) && decide (b.val < k))).length := by
  unfold State.countF State.countBearers isRoom
  congr 2

theorem nodup_zip_fst {α β} (a : List α) (b : List β) (h : a.Nodup) : ((a.zip b).map (·.1)).Nodup := by
  have : ((a.zip b).map (·.1)).Sublist a := by
    induction a generalizing b with
    | nil => simp
    | cons x a ih =>
      cases b with
      | nil => simp
      | cons y b =>
        simp only [List.zip_cons_cons, List.map_cons]
        exact (ih b (List.nodup_cons.1 h).2).cons_cons x
  exact this.nodup h

theorem nodup_zip_snd {α β} (a : List α) (b : List β) (h : b.Nodup) : ((a.zip b).map (·.2)).Nodup := by
  have : ((a.zip b).map (·.2)).Sublist b := by
    induction b generalizing a with
    | nil => simp
    | cons y b ih =>
      cases a with
      | nil => simp
      | cons x a =>
        simp only [List.zip_cons_cons, List.map_cons]
        exact (ih a (List.nodup_cons.1 h).2).cons_cons y
  exact this.nodup h

theorem BearerState.withTarget_call (st : BearerState) (t) : (st.withTarget t).call? = st.call?.map (fun c => { c with target := t }) := by
  cases st <;> rfl

/-- The pairs that the Link Coder keeps (05, R104). -/
def State.keepPairs (v : State) (pairs : List Pair) (t : Rate) : State :=
  if pairs.isEmpty then v else { v with coder := { v.coder with
    relocations := { pairs := pairs, target := t, switched := false } :: v.coder.relocations } }

/-- One step plan. -/
def State.withPlan (v : State) (p : StepPlan) : State := { v with quality := { v.quality with plan := some p } }

theorem State.relocate_eq_parts (u : State) (p : StepPlan) (pairs : List Pair) (h : u.relocationPairs p.target.capacity = pairs) :
    u.relocate p = State.withPlan ((pairs.foldl State.sendMove (State.keepPairs (pairs.foldl State.reserve u) pairs p.target)).announce p.target) { p with phase := .countdown pairs } := by
  subst h; rfl

theorem State.createPlan_eq_step (y : State) (r : Rate) (c : Bool) : y.createPlan r c =
   (State.withPlan y { target := r, phase := .drain (some (y.now + sec (y.param .drainLimit))), forced := false }).stepPlan (c || y.param .drainLimit == 0) := rfl

/-- A relocation with room in the link queue, whole (07, R129). -/
theorem State.relocate_of_room {u : State} {r : Rate} {p : StepPlan} {pairs : List Pair} (hr : p.target = r) (hpairs : u.relocationPairs r.capacity = pairs)
    (hs : (pairs.map (·.source)).Nodup) (hd : (pairs.map (·.dest)).Nodup) (hk : ∀ m ∈ pairs, r.capacity ≤ m.source.val ∧ m.dest.val < r.capacity)
    (hw : u.work = {}) (hc : u.Clean) (hup : u.isUp = true) (hov : (u.routing .txOverflow).isQuiet = true)
    (hroom : u.messages.linkQueue.length + pairs.length < 16) :
    ∃ v : State, (u.relocate p).Near v ∧ v = { u with
            bearers := v.bearers
            link := { u.link with announcement := some { next := r, countdown := 8 } }
            quality := { u.quality with plan := some { p with phase := .countdown pairs } }
            coder := { u.coder with
              relocations := if pairs = [] then u.coder.relocations
                else { pairs := pairs, target := r, switched := false } :: u.coder.relocations }
            messages := { u.messages with linkQueue := u.messages.linkQueue ++ pairs.filterMap (State.moveOf u) } } ∧ v.Clean ∧
          (∀ m ∈ pairs, v.bearer m.dest = (u.bearer m.dest).moved .heldMove u.now ∧
            v.bearer m.source = { u.bearer m.source with state := (u.bearer m.source).state.withTarget (some m.dest) }) ∧
          (∀ b : BearerNo, (∀ m ∈ pairs, m.source ≠ b ∧ m.dest ≠ b) → v.bearer b = u.bearer b) := by
  subst hr
  obtain ⟨f1, f2, f3⟩ := State.reserved_fold pairs p.target.capacity u hs hd hk
  obtain ⟨N1, C1⟩ := State.Near.reserves (.refl hw) hc pairs
  have hmv : (fun m => State.moveOf (pairs.foldl State.reserved u) m) = fun m => State.moveOf (pairs.foldl State.reserved u) m := rfl
  have hmo : pairs.filterMap (State.moveOf (pairs.foldl State.reserved u)) = pairs.filterMap (State.moveOf u) := by
    apply List.filterMap_congr
    intro m hm
    unfold State.moveOf
    rw [(f2 m hm).2]
    dsimp only
    rw [BearerState.withTarget_call, Option.map_map]
    rfl
  generalize hv : pairs.foldl State.reserved u = v at *
  have N2 : (State.keepPairs (pairs.foldl State.reserve u) pairs p.target).Near
      { v with coder := { v.coder with relocations := if pairs = [] then u.coder.relocations
        else { pairs := pairs, target := p.target, switched := false } :: u.coder.relocations } } := by
    unfold State.keepPairs
    cases pairs with
    | nil =>
      simp only [List.isEmpty_nil, if_true]
      have : v = u := by rw [← hv]; rfl
      rw [this]
      exact .refl hw
    | cons m L =>
      simp only [List.isEmpty_cons, Bool.false_eq_true, if_false, reduceCtorEq]
      have := N1.map (fun s => { s with coder := { s.coder with
        relocations := { pairs := m :: L, target := p.target, switched := false } :: s.coder.relocations } }) (fun _ _ => rfl)
      rwa [show v.coder.relocations = u.coder.relocations from by rw [f1]] at this
  have N3 := State.Near.moveRecords N2 pairs (by rw [f1]; exact hup) (by rw [f1]; exact hroom) (by rw [f1]; exact hov)
  have N4 := N3.map (fun s => s.announce p.target) (fun _ _ => rfl)
  have N5 := N4.map (fun s => State.withPlan s { p with phase := .countdown pairs }) (fun _ _ => rfl)
  rw [State.relocate_eq_parts u p pairs hpairs]
  refine ⟨_, N5, ?_, ?_, ?_, ?_⟩
  · unfold State.pushed State.announce State.withPlan
    dsimp only
    have : pairs.filterMap (State.moveOf { v with coder := { v.coder with relocations := if pairs = [] then u.coder.relocations
        else { pairs := pairs, target := p.target, switched := false } :: u.coder.relocations } }) = pairs.filterMap (State.moveOf u) := hmo
    rw [this, f1]
  · exact C1
  · exact f2
  · exact f3

/-- SET_RATE_MODE FIXED on a port that serves it (07, R136). -/
theorem State.takeRateFixed_of_serves {x : State} {p b1} (r : Rate) (h : x.Serves p) : x.takeRateFixed p b1 (byte r.code) =
   (((x.setMode (.fixed r)).setRuns 0 0).fixedCheck).done p b1 0x26 := by
  have hf : Rate.ofCode (byte r.code).toNat = some r := by cases r <;> rfl
  unfold State.takeRateFixed
  rw [State.request_of_serves h hf]

/-- The FIXED check below the present rate makes a plan (07, R136). -/
theorem State.fixedCheck_of_lower {y : State} {r : Rate} (hm : y.quality.mode = .fixed r) (hu : y.isUp = true) (h1 : y.quality.plan = none) (h2 : y.link.announcement = none) (h3 : y.link.switchDue = none)
    (hlt : r.code < y.link.rate.code) : y.fixedCheck = y.createPlan r false := by
  unfold State.fixedCheck
  rw [hm]
  dsimp only
  rw [if_pos, if_neg (by omega), if_pos hlt]
  unfold State.changing
  rw [hu, h1, h2, h3]; rfl

/-- A filter that lets one element fewer pass. -/
theorem length_filter_drop {α} [DecidableEq α] (L : List α) (hn : L.Nodup) (b : α) (hb : b ∈ L) (P P' : α → Bool) (h : ∀ k, k ≠ b → P' k = P k) (h1 : P b = true) (h2 : P' b = false) :
    (L.filter P').length + 1 = (L.filter P).length := by
  induction L with
  | nil => cases hb
  | cons a L ih =>
    obtain ⟨n1, n2⟩ := List.nodup_cons.1 hn
    by_cases e : a = b
    · subst e
      rw [List.filter_cons_of_pos h1, List.filter_cons_of_neg (by rw [h2]; simp)]
      have : L.filter P' = L.filter P := List.filter_congr (fun k hk => h k (by rintro rfl; exact n1 hk))
      rw [this]; rfl
    · have hb' : b ∈ L := by
        rcases List.mem_cons.1 hb with rfl | hb
        · exact absurd rfl e
        · exact hb
      have := ih n2 hb'
      by_cases hp : P a = true
      · rw [List.filter_cons_of_pos hp, List.filter_cons_of_pos (by rw [h a e]; exact hp)]
        simp only [List.length_cons]; omega
      · rw [List.filter_cons_of_neg hp, List.filter_cons_of_neg (by rw [h a e]; exact hp)]
        exact this

/-- With no call being set up, the youngest ORDINARY ACTIVE call is preempted first (07, R131). -/
theorem State.preemptOrder_head {x : State} {b c before after} (hset : ∀ i : BearerNo, (x.bearer i).state.isSetup = false) (ha : x.active = before ++ b :: after)
    (hb : (x.bearer b).state = .active c) (hc : c.cls = .ordinary) (hp : ∀ i ∈ after, ∃ c, (x.bearer i).state = .active c ∧ c.cls = .priority) :
    x.preemptionOrder.take 1 = [b] := by
  unfold State.preemptionOrder
  dsimp only
  have h0 : allBearers.reverse.filter (fun b => (x.bearer b).state.isSetup) = [] := by
    rw [List.filter_eq_nil_iff]; intro i _; rw [hset]; simp
  rw [h0, ha]
  have h1 : (after.reverse.filter (fun i => x.bearerClass i == some .ordinary)) = [] := by
    rw [List.filter_eq_nil_iff]
    intro i hi
    obtain ⟨d, h1, h2⟩ := hp i (by simpa using hi)
    unfold State.bearerClass
    rw [h1]
    simp [BearerState.call?, h2]
  have h2 : x.bearerClass b = some .ordinary := by unfold State.bearerClass; rw [hb]; simp [BearerState.call?, hc]
  simp only [List.foldl_nil, List.nil_append, List.reverse_append, List.reverse_cons, List.append_assoc, List.filter_append, h1]
  simp [h2]

theorem State.sendCall_withPlan (u : State) (p : StepPlan) (r) : (State.withPlan u p).sendCall r = State.withPlan (u.sendCall r) p := by
  rw [State.sendCall_local (s := u) (t := State.withPlan u p) (by constructor <;> rfl) rfl]
  exact congrArg (fun v => State.withPlan v p) (u.sendCall_same r).eq_takes.symm

theorem State.raise_withPlan (u : State) (p : StepPlan) (e) : (State.withPlan u p).raise e = State.withPlan (u.raise e) p := by
  rw [State.raise_local (s := u) (t := State.withPlan u p) (by constructor <;> rfl)]
  exact congrArg (fun v => State.withPlan v p) (u.raise_same e).eq_takes.symm

theorem State.ErrorsOk.capacityPreempt {x : State} (h : x.ErrorsOk) : (x.routing .capacityPreempt).isQuiet = true := by
  have := h.1 .capacityPreempt
  simp [ErrorKind.allowed] at this
  rcases this with h | h <;> rw [h] <;> rfl

theorem State.markForced_eq_withPlan (s : State) (p : StepPlan) : s.markForced p = State.withPlan s { p with phase := .drain none, forced := true } := rfl

/-- A plan in DRAIN without room rests. -/
theorem Rests.forced {u : State} (hc : u.Clean) (hw : u.waiting = []) (ht : u.NoTest) (hu : u.isUp = true) {r} (hp : u.quality.plan = some { target := r, phase := .drain none, forced := true })
    (hA : u.countF r.capacity < u.countA r.capacity) (hB : u.countA r.capacity - u.countF r.capacity ≤ u.countG r.capacity ∨ u.countB ≤ u.countU r.capacity) : Rests u where
  serve := fun w => State.serveQueue_of_empty (s := u.withWork w) hw
  plan := fun w => by
    have hq : (u.withWork w).quality.plan = some { target := r, phase := .drain none, forced := true } := hp
    have hk : ∀ v : State, v.quality.plan = some { target := r, phase := .drain none, forced := true } → v.markForced { target := r, phase := .drain none, forced := true } = v := by
      intro v hv; rw [State.markForced_eq_withPlan]; unfold State.withPlan; dsimp only; rw [← hv]
    unfold State.stepPlan
    rw [hq]
    dsimp only
    rw [if_pos (show (u.withWork w).isUp = true from hu), State.Clean.checkParity (s := u.withWork w) hc]
    unfold State.stepDrain
    dsimp only
    rw [if_neg (show ¬ (u.withWork w).countA r.capacity ≤ (u.withWork w).countF r.capacity from Nat.not_le.2 hA), if_pos (show (false || true) = true from rfl), hk _ hq]
    by_cases hg : u.countA r.capacity - u.countF r.capacity ≤ u.countG r.capacity
    · rw [if_pos (show (u.withWork w).countA r.capacity - (u.withWork w).countF r.capacity ≤ (u.withWork w).countG r.capacity from hg)]
    · rw [if_neg (show ¬ (u.withWork w).countA r.capacity - (u.withWork w).countF r.capacity ≤ (u.withWork w).countG r.capacity from hg)]
      have h0 : (u.withWork w).countB - (u.withWork w).countU r.capacity = 0 := Nat.sub_eq_zero_of_le (hB.resolve_left hg)
      rw [h0]
      simp only [List.take_zero, List.foldl_nil, hk _ hq]
      rw [if_neg (show ¬ (u.withWork w).countA r.capacity ≤ (u.withWork w).countF r.capacity from Nat.not_le.2 hA)]
  test := fun w => State.chooseTest_of_noTest (s := u.withWork w) hc ht

end Sys2Proof.Machine
end

