-- ==== Sys2Proof/Laws/Queue.lean ====
section
/-! SUPPORT. The service of the waiting queue: what each line that is given a bearer gets, and what the whole service keeps (03, R52 and
R55). -/

namespace Sys2Proof.Machine

open Sys2Proof

/-- A line of sound tables is given a bearer: the outgoing call under the next reference, the counter, the line, SEIZE_OUT (03, R52). -/
def State.given (s : State) (l : LineNo) (c : CallClass) (requested : Time) (b : BearerNo) : State :=
  let call := Call.mk l s.nextReference .outgoing c none
  ({ s.bearerTo b (.heldOut call (s.now + sec (s.param .reservationTimeout)) requested) with
    counter := call.reference + 2 }.lineTo l (.originating b)).sendCall (seizeOutRecord l b call.reference c)

/-- The head entry of the waiting queue is given a bearer (03, R55). -/
def State.givenHead (s : State) (e : WaitEntry) (rest : List WaitEntry) (b : BearerNo) : State :=
  State.given { s with waiting := rest } e.line e.cls e.joined b

theorem State.allocate_of_clean {s : State} (hc : s.Clean) (hq : (s.routing .txOverflow).isQuiet = true) (l : LineNo) (c : CallClass)
    (requested : Time) (b : BearerNo) :
    s.allocate l c requested b = (s.given l c requested b).withWork { s.work with counts := true } := by
  have h1 : State.Clean { s with counter := s.nextReference + 2 } := hc
  have hw : State.workAfter { s with counter := s.nextReference + 2 } b
      (.heldOut (Call.mk l s.nextReference .outgoing c none) (s.now + sec (s.param .reservationTimeout)) requested) =
      { s.work with counts := true } := by
    simp only [State.workAfter]
    cases s.work
    simp
  unfold State.allocate
  refine (congrArg (fun z => (z.putLine l (.originating b)).sendCall (seizeOutRecord l b s.nextReference c))
    (State.putBearer_of_clean h1 b _)).trans ?_
  rw [show State.param { s with counter := s.nextReference + 2 } .reservationTimeout = s.param .reservationTimeout from rfl, hw]
  refine (congrArg (fun z => z.sendCall (seizeOutRecord l b s.nextReference c))
    (State.putLine_of_clean ((h1.bearerTo b _).withWork { s.work with counts := true }) l _)).trans ?_
  exact State.sendCall_withWork (s := State.lineTo { s.bearerTo b _ with counter := s.nextReference + 2 } l (.originating b)) hq _

/-- What the service of the waiting queue keeps, and where it may leave a line. -/
structure Served (s u : State) : Prop where
  now : u.now = s.now
  unit : u.unit = s.unit
  params : u.params = s.params
  ring : u.ring = s.ring
  link : u.link = s.link
  quality : u.quality = s.quality
  testing : u.testing = s.testing
  work : u.work = s.work
  routings : u.errors.routings = s.errors.routings
  clean : s.Clean → u.Clean
  line : ∀ l, u.line l = s.line l ∨ ∃ b, u.line l = (s.line l).moved (.originating b)

theorem Served.refl (s : State) : Served s s :=
  ⟨rfl, rfl, rfl, rfl, rfl, rfl, rfl, rfl, rfl, id, fun _ => .inl rfl⟩

theorem Served.trans {r s t : State} (h : Served r s) (k : Served s t) : Served r t where
  now := k.now.trans h.now
  unit := k.unit.trans h.unit
  params := k.params.trans h.params
  ring := k.ring.trans h.ring
  link := k.link.trans h.link
  quality := k.quality.trans h.quality
  testing := k.testing.trans h.testing
  work := k.work.trans h.work
  routings := k.routings.trans h.routings
  clean := k.clean ∘ h.clean
  line := fun l => by
    rcases k.line l with e | ⟨b, e⟩
    · rw [e]; exact h.line l
    · refine .inr ⟨b, ?_⟩
      rcases h.line l with e1 | ⟨a, e1⟩
      · rw [e, e1]
      · rw [e, e1]; rfl

theorem State.given_served {s : State} (hq : (s.routing .txOverflow).isQuiet = true) (l c r b) : Served s (s.given l c r b) := by
  unfold State.given
  dsimp only
  generalize hu : State.lineTo _ l (.originating b) = u
  have same := u.sendCall_same (seizeOutRecord l b s.nextReference c)
  have hw : (u.sendCall (seizeOutRecord l b s.nextReference c)).work = u.work := State.sendCall_work (by rw [← hu]; exact hq)
  refine ⟨?_, ?_, ?_, ?_, ?_, ?_, ?_, ?_, ?_, fun hc => same.clean ?_, fun k => ?_⟩
  · rw [same.now, ← hu]; rfl
  · rw [same.unit, ← hu]; rfl
  · rw [same.params, ← hu]; rfl
  · rw [same.ring, ← hu]; rfl
  · rw [same.link, ← hu]; rfl
  · rw [same.quality, ← hu]; rfl
  · rw [same.testing, ← hu]; rfl
  · rw [hw, ← hu]; rfl
  · rw [same.routings, ← hu]; rfl
  · rw [← hu]
    exact State.Clean.lineTo (s := { s.bearerTo b _ with counter := _ }) (hc.bearerTo b _) l _
  · rw [same.line, ← hu, State.lineTo_line]
    by_cases h : k = l
    · subst h; rw [if_pos rfl]; exact .inr ⟨b, rfl⟩
    · rw [if_neg h]; exact .inl rfl

theorem State.givenHead_served {s : State} (hq : (s.routing .txOverflow).isQuiet = true) (e rest b) : Served s (s.givenHead e rest b) := by
  have h := State.given_served (s := { s with waiting := rest }) hq e.line e.cls e.joined b
  exact ⟨h.now, h.unit, h.params, h.ring, h.link, h.quality, h.testing, h.work, h.routings, h.clean, h.line⟩

theorem State.given_withWork {s : State} (hq : (s.routing .txOverflow).isQuiet = true) (l c r b) (w : Work) :
    (s.withWork w).given l c r b = (s.given l c r b).withWork w := by
  unfold State.given
  exact State.sendCall_withWork (s := State.lineTo { s.bearerTo b _ with counter := s.nextReference + 2 } l (.originating b)) hq w

/-- Service of the waiting queue of sound tables, for at most n entries (03, R55). -/
def servedUpTo : Nat → State → State
  | 0, s => s
  | n + 1, s =>
    if s.isUp then
      match s.waiting, s.lowestFree with
      | e :: rest, some b => servedUpTo n (s.givenHead e rest b)
      | _, _ => s
    else s

theorem Served.routing {s u : State} (h : Served s u) (k : ErrorKind) : u.routing k = s.routing k := by
  simp [State.routing, h.routings]

theorem servedUpTo_served (n : Nat) {s : State} (hq : (s.routing .txOverflow).isQuiet = true) : Served s (servedUpTo n s) := by
  induction n generalizing s with
  | zero => exact .refl s
  | succ n ih =>
    unfold servedUpTo
    split
    · split
      · have h := State.givenHead_served hq (s := s)
        exact (h _ _ _).trans (ih (by rw [(h _ _ _).routing]; exact hq))
      · exact .refl s
    · exact .refl s

theorem servedUpTo_withWork (n : Nat) {s : State} (hq : (s.routing .txOverflow).isQuiet = true) (w : Work) :
    servedUpTo n (s.withWork w) = (servedUpTo n s).withWork w := by
  induction n generalizing s with
  | zero => rfl
  | succ n ih =>
    unfold servedUpTo
    rw [show (s.withWork w).isUp = s.isUp from rfl, show (s.withWork w).waiting = s.waiting from rfl,
      show (s.withWork w).lowestFree = s.lowestFree from rfl]
    split
    · split
      · next e rest b _ _ =>
        have h := State.givenHead_served hq (s := s) e rest b
        rw [show (s.withWork w).givenHead e rest b = (s.givenHead e rest b).withWork w from
          State.given_withWork (s := { s with waiting := rest }) hq _ _ _ _ _]
        exact ih (by rw [h.routing]; exact hq)
      · rfl
    · rfl

/-- The service is that of the sound tables, and calls for the counts if it gives a bearer. -/
theorem serveQueueUpTo_of_clean (n : Nat) {s : State} (hc : s.Clean) (hq : (s.routing .txOverflow).isQuiet = true) :
    ∃ counts, serveQueueUpTo n s = (servedUpTo n s).withWork { s.work with counts := counts } := by
  induction n generalizing s with
  | zero => exact ⟨s.work.counts, rfl⟩
  | succ n ih =>
    unfold serveQueueUpTo servedUpTo
    by_cases hu : s.isUp = true
    · rw [if_pos hu, if_pos hu]
      cases hw : s.waiting with
      | nil => exact ⟨s.work.counts, rfl⟩
      | cons e rest =>
        cases hb : s.lowestFree with
        | none => exact ⟨s.work.counts, rfl⟩
        | some b =>
          have h := State.givenHead_served hq (s := s) e rest b
          have hs : State.allocate { s with waiting := rest } e.line e.cls e.joined b =
              (s.givenHead e rest b).withWork { s.work with counts := true } :=
            State.allocate_of_clean (s := { s with waiting := rest }) hc hq _ _ _ _
          have hq' : ((s.givenHead e rest b).routing .txOverflow).isQuiet = true := by rw [h.routing]; exact hq
          obtain ⟨c, hc'⟩ := ih (s := (s.givenHead e rest b).withWork { s.work with counts := true }) (h.clean hc) hq'
          refine ⟨c, ?_⟩
          dsimp only
          rw [hs, hc', servedUpTo_withWork n hq']
          rfl
    · rw [if_neg hu, if_neg hu]
      exact ⟨s.work.counts, rfl⟩

/-- Service of the waiting queue of sound tables. -/
def State.served (s : State) : State := servedUpTo 8 s

theorem State.serveQueue_of_clean {s : State} (hc : s.Clean) (hq : (s.routing .txOverflow).isQuiet = true) :
    ∃ counts, s.serveQueue = s.served.withWork { s.work with counts := counts } := by
  unfold State.serveQueue
  rw [hc.checkParity, ite_self]
  exact serveQueueUpTo_of_clean 8 hc hq

theorem State.served_served {s : State} (hq : (s.routing .txOverflow).isQuiet = true) : Served s s.served :=
  servedUpTo_served 8 hq

/-! ### Each service gives one bearer fewer -/

/-- The FREE bearers. -/
def State.freeCount (s : State) : Nat := (allBearers.filter (fun b => decide ((s.bearer b).state = .free))).length

theorem State.lowestFree_free {s : State} {b : BearerNo} (h : s.lowestFree = some b) : (s.bearer b).state = .free := by
  unfold State.lowestFree at h
  have := List.find?_some h
  simp only [Bool.and_eq_true, beq_iff_eq, decide_eq_true_eq] at this
  exact this.1

theorem State.givenHead_freeCount {s : State} {b : BearerNo} (h : s.lowestFree = some b) (e rest) :
    (s.givenHead e rest b).freeCount < s.freeCount := by
  have hb := State.lowestFree_free h
  unfold State.freeCount
  have hst : ∀ k, ((s.givenHead e rest b).bearer k).state = if k = b then
      .heldOut (Call.mk e.line s.nextReference .outgoing e.cls none) (s.now + sec (s.param .reservationTimeout)) e.joined
      else (s.bearer k).state := by
    intro k
    have same := State.sendCall_same (State.lineTo { (State.bearerTo { s with waiting := rest } b (.heldOut
      (Call.mk e.line s.nextReference .outgoing e.cls none) (s.now + sec (s.param .reservationTimeout)) e.joined)) with
      counter := s.nextReference + 2 } e.line (.originating b)) (seizeOutRecord e.line b s.nextReference e.cls)
    have e1 : (s.givenHead e rest b).bearer k = (s.bearerTo b (.heldOut
      (Call.mk e.line s.nextReference .outgoing e.cls none) (s.now + sec (s.param .reservationTimeout)) e.joined)).bearer k := same.bearer k
    rw [e1, State.bearerTo_bearer]
    split
    · rfl
    · rfl
  have key : ∀ L : List BearerNo, (L.filter (fun k => decide (((s.givenHead e rest b).bearer k).state = .free))).length ≤
      (L.filter (fun k => decide ((s.bearer k).state = .free))).length ∧
      (b ∈ L → (L.filter (fun k => decide (((s.givenHead e rest b).bearer k).state = .free))).length <
        (L.filter (fun k => decide ((s.bearer k).state = .free))).length) := by
    intro L
    induction L with
    | nil => exact ⟨Nat.le_refl _, fun h => by cases h⟩
    | cons a L ih =>
      by_cases ha : a = b
      · subst ha
        rw [List.filter_cons_of_neg (by rw [hst, if_pos rfl]; simp), List.filter_cons_of_pos (by simpa using hb)]
        exact ⟨Nat.le_succ_of_le ih.1, fun _ => Nat.lt_succ_of_le ih.1⟩
      · have e1 : decide (((s.givenHead e rest b).bearer a).state = .free) = decide ((s.bearer a).state = .free) := by
          rw [hst, if_neg ha]
        simp only [List.filter_cons, e1]
        have hm : b ∈ a :: L → b ∈ L := fun h => (List.mem_cons.1 h).resolve_left (fun e => ha e.symm)
        split
        · exact ⟨Nat.succ_le_succ ih.1, fun h => Nat.succ_lt_succ (ih.2 (hm h))⟩
        · exact ⟨ih.1, fun h => ih.2 (hm h)⟩
  exact (key allBearers).2 (by unfold allBearers; fin_cases b <;> simp)

/-- As many rounds as there are FREE bearers serve the queue. -/
theorem servedUpTo_enough (n : Nat) {s : State} (h : s.freeCount ≤ n) : servedUpTo (n + 1) s = servedUpTo n s := by
  induction n generalizing s with
  | zero =>
    have hf : s.lowestFree = none := by
      cases hf : s.lowestFree with
      | none => rfl
      | some b =>
        have := State.givenHead_freeCount hf ⟨0, .ordinary, 0⟩ []
        omega
    unfold servedUpTo
    rw [hf]
    split
    · split
      · next h => cases h
      · rfl
    · rfl
  | succ n ih =>
    conv_lhs => unfold servedUpTo
    conv_rhs => unfold servedUpTo
    split
    · split
      · next e rest b _ hb =>
        have := State.givenHead_freeCount hb e rest
        exact ih (by omega)
      · rfl
    · rfl

theorem State.freeCount_le (s : State) : s.freeCount ≤ 8 := by
  unfold State.freeCount
  exact (List.length_filter_le _ _).trans (by decide)

/-- The service gives the head entry the lowest FREE bearer below the limit, and goes on (03, R55). -/
theorem State.served_cons {s : State} {e : WaitEntry} {rest : List WaitEntry} {b : BearerNo} (hu : s.isUp = true)
    (hw : s.waiting = e :: rest) (hb : s.lowestFree = some b) : s.served = (s.givenHead e rest b).served := by
  have h := State.givenHead_freeCount hb e rest
  have h8 := s.freeCount_le
  have e1 : s.served = servedUpTo 7 (s.givenHead e rest b) := by
    unfold State.served
    conv_lhs => unfold servedUpTo
    rw [hu, hw, hb]
    rfl
  rw [e1, ← servedUpTo_enough 7 (by omega)]
  rfl

/-- An event that leaves new counts to a step plan that is not in DRAIN is at its end. -/
theorem State.finish_of_counts {u : State} (hd : u.NoDrain) (c : Bool) : (u.withWork { counts := c }).finish = u.withWork {} := by
  have plan : ∀ w, (u.withWork w).stepPlan false = u.withWork w :=
    fun w => State.stepPlan_of_noDrain (s := u.withWork w) hd false
  have again : ∀ v w, (u.withWork v).withWork w = u.withWork w := fun _ _ => rfl
  have round : ∀ c : Bool, (u.withWork { counts := c }).round = u.withWork {} := by
    intro c
    unfold State.round State.settle
    cases c <;> simp [again, plan, State.conclude, State.flushReply]
  rw [State.finish, round c, round false, round false, again]

/-- An event whose last act is a service of the waiting queue. -/
theorem State.serveQueue_finish {u : State} (hw : u.work = {}) (hc : u.Clean) (hq : (u.routing .txOverflow).isQuiet = true)
    (hd : u.NoDrain) : u.serveQueue.finish = u.serveQueue.withWork {} := by
  obtain ⟨c, h⟩ := State.serveQueue_of_clean hc hq
  have hs := State.served_served hq
  rw [h, hw]
  have e : State.NoDrain u.served := by unfold State.NoDrain; rw [hs.quality]; exact hd
  exact State.finish_of_counts e c

/-- The sections of a queue whose PRIORITY entries stand before its ORDINARY ones (03, R53). -/
theorem sections {priority ordinary : List WaitEntry} (hp : ∀ w ∈ priority, w.cls = .priority) (ho : ∀ w ∈ ordinary, w.cls = .ordinary) :
    (priority ++ ordinary).filter (fun x => x.cls == .priority) = priority ∧
      (priority ++ ordinary).filter (fun x => x.cls == .ordinary) = ordinary := by
  have a : ordinary.filter (fun x => x.cls == .priority) = [] := List.filter_eq_nil_iff.2 (fun w h => by simp [ho w h])
  have b : priority.filter (fun x => x.cls == .ordinary) = [] := List.filter_eq_nil_iff.2 (fun w h => by simp [hp w h])
  rw [List.filter_append, List.filter_append, a, b, List.append_nil, List.nil_append]
  exact ⟨List.filter_eq_self.2 (fun w h => by simp [hp w h]), List.filter_eq_self.2 (fun w h => by simp [ho w h])⟩

/-- The back of a section (03, R53 and R54). -/
theorem joinBack_sections {priority ordinary : List WaitEntry} (hp : ∀ w ∈ priority, w.cls = .priority)
    (ho : ∀ w ∈ ordinary, w.cls = .ordinary) (e : WaitEntry) :
    joinBack (priority ++ ordinary) e = match e.cls with
      | .priority => priority ++ e :: ordinary
      | .ordinary => priority ++ ordinary ++ [e] := by
  have h := sections hp ho
  cases he : e.cls <;> simp only [joinBack, h.1, h.2, he]

/-- The front of a section (03, R57). -/
theorem joinFront_sections {priority ordinary : List WaitEntry} (hp : ∀ w ∈ priority, w.cls = .priority)
    (ho : ∀ w ∈ ordinary, w.cls = .ordinary) (e : WaitEntry) :
    joinFront (priority ++ ordinary) e = match e.cls with
      | .priority => e :: (priority ++ ordinary)
      | .ordinary => priority ++ e :: ordinary := by
  have h := sections hp ho
  cases he : e.cls <;> simp only [joinFront, h.1, h.2, he]

end Sys2Proof.Machine
end

