-- ==== Sys2Proof/Tests/Slice0.lean ====
section
/-! SUPPORT. Tests: ill-formed commands refused, worked examples of the spec on single operations and single steps, and for every statement
with hypotheses a state and operands that meet them. Expected values are the spec's (the rule or section is named) or computed by hand
from it. -/

namespace Sys2Proof.Tests

open Sys2Proof Sys2Proof.Machine

/-! ### The checks of the operands -/

/-- A frame as received, all zeros, which is damaged; at Robust only its first 960 bits are the frame's. -/
def frame : RxFrame := { bits := 0, hard := 0, before := 0 }

/-- Straps with two moves. -/
def moved (first second : Time) : Straps := { levels := 7, moves := [⟨first, 3⟩, ⟨second, 1⟩] }

/-- A record of a kind, with a mode, action or subject in byte 2. -/
def record (kind b2 : Byte) : Record := { kind := kind, b1 := 0, b2 := b2, b3 := 0, b4 := 0, b5 := 0, b6 := 0 }

theorem test_listed_kind_is_refused : (Instr.notListedKind 0 .link (record 0x11 0)).wellFormed = false := by decide
theorem test_listed_mode_is_refused : (Instr.notListedKind 0 .link (record 0x26 1)).wellFormed = false := by decide
theorem test_unlisted_kind_is_accepted : (Instr.notListedKind 0 .link (record 0x10 0)).wellFormed = true := by decide
theorem test_unlisted_action_is_accepted : (Instr.notListedKind 0 .link (record 0x27 3)).wellFormed = true := by decide
theorem test_moves_out_of_order_are_refused : (Instr.powerOnReset (moved 5 4)).wellFormed = false := by decide
theorem test_moves_at_one_time_are_refused : (Instr.powerOnReset (moved 5 5)).wellFormed = false := by decide
theorem test_moves_in_order_are_accepted : (Instr.powerOnReset (moved 5 6)).wellFormed = true := by decide

/-! ### Words: the table gives no row any bits -/

theorem test_no_word_spells_a_command : decodeTableWord 16 0x1234 = none := by decide
theorem test_no_word_is_queued : State.reset.withFetchWord 16 0x1234 = State.reset := by rfl

/-! ### Worked values -/

/-- R138 of 08: the record EMPTY has check byte 0. A single 1 in the last place gives the generator's low part, 0x07. -/
theorem test_check_byte_of_empty : checkByte [0, 0, 0, 0, 0, 0, 0] = 0 := by decide +kernel
theorem test_check_byte_of_one : checkByte [0, 0, 0, 0, 0, 0, 1] = 0x07 := by decide +kernel

/-- R141 of 08, as R147 lays it out: the two nibbles of a byte. -/
theorem test_nibbles : nibbles 5 1 = 0x51 := by decide

/-- R174 of 11: TABLE_PARITY takes REPORT or RESTART_UNIT, so COUNT becomes REPORT; AUDIT_CONFLICT takes RESTART_UNIT as RESTART_LINK. -/
theorem test_nearest_routing : ErrorKind.tableParity.nearestRouting .count = .report ∧
    ErrorKind.auditConflict.nearestRouting .restartUnit = .restartLink := by decide

/-- 10, section 10.8: resistance 10,000, insulation 6 and voltage 3 are MARGINAL; insulation 180 and voltage 0 are GOOD. -/
theorem test_sweep_outcomes : (codesOf 10000 60000 3000).outcome = .marginal ∧ (codesOf 10000 1800000 0).outcome = .good := by decide

/-! ### States -/

/-- 100 s after a power-on reset with no record stored wrong: in SERVICE, the link UP at Robust, every line IDLE. -/
def base : State := { State.reset with
  now := sec 100
  unit := { UnitRecord.powerOn with mode := .service, startSteps := true, strapMask := 7 }
  link := { Link.powerOn with state := .up 0 0, window := some 4096 } }

/-- An ORDINARY outgoing call of a line. -/
def callOf (l : LineNo) (reference : Word) : Call :=
  { line := l, reference := reference, direction := .outgoing, cls := .ordinary, target := none }

/-- One line in a state. -/
def lineIn (s : State) (l : LineNo) (st : LineState) : State := s.withLine l { LineRecord.powerOn with state := st }

/-- One bearer in a state, entered 10 s after reset. -/
def bearerIn (s : State) (b : BearerNo) (st : BearerState) : State :=
  s.withBearer b { BearerRecord.powerOn b with state := st, entered := sec 10 }

/-- Line 3 CONNECTED on bearer 0 by call 1. -/
def talking : State :=
  { bearerIn (lineIn base 3 (.connected 0)) 0 (.active (callOf 3 1)) with active := [0] }

/-- Line 3 RINGING on bearer 0 by call 2, in phase 0. -/
def ringing (relay : Bool) : State :=
  { bearerIn (lineIn base 3 (.ringing 0)) 0 (.heldIn { callOf 3 2 with direction := .incoming }) with
    ring := { Ring.powerOn with phases := Vector.replicate 3 [] |>.set 0 [{ line := 3, rings := 2, placed := sec 90, relay := relay }] } }

/-- Line 3 ORIGINATING on bearer 0 by call 1, whose reservation timer runs out at a time. -/
def reserved (expiry : Time) : State :=
  bearerIn (lineIn base 3 (.originating 0)) 0 (.heldOut (callOf 3 1) expiry (sec 99))

/-- One line's record changed. -/
def onLine (s : State) (l : LineNo) (f : LineRecord → LineRecord) : State := s.withLine l (f (s.line l))

/-- A test of line 3. -/
def testing (kind : TestKind) (phase : TestPhase) (timer : Time) (st : LineState) : State :=
  { lineIn base 3 st with testing := { Testing.powerOn with test := some { line := 3, kind := kind, phase := phase, timer := timer } } }

/-- No bearer FREE. -/
def full (s : State) : State :=
  bearerIn (bearerIn (bearerIn (bearerIn (bearerIn s 0 (.blocked .maintenance)) 1 (.blocked .maintenance)) 2 (.blocked .maintenance)) 3
    (.blocked .maintenance)) 4 (.blocked .maintenance)

/-! The conditions of Sys2Proof/Safety.lean as tests. -/

/-- The test of State.Clean. -/
def cleanB (s : State) : Bool :=
  decide ((∀ l : LineNo, (s.line l).parityBad = false ∧ (s.line l).stuck = false) ∧
    ∀ b : BearerNo, (s.bearer b).parityBad = false ∧ (s.bearer b).stuck = false)

/-- The test of State.HeadIdle. -/
def headIdleB (s : State) : Bool :=
  decide (s.testing.inService = false ∨ s.testing.test.isSome = true ∨
    (s.testing.demand = [] ∧ (s.ring.supply = .reserve ∨ ∀ l : LineNo, s.now < (s.line l).testDue)))

/-- The test of State.ErrorsOk. -/
def errorsB (s : State) : Bool :=
  decide ((∀ k ∈ allKinds, s.routing k ∈ k.allowed ∧ s.count k ≤ 255) ∧
    (s.errors.first.isSome = true ∨ ∀ k ∈ allKinds, s.inNext k = false))

/-- The test of State.Sound. -/
def soundB (s : State) : Bool := decide (s.unit.mode = .service) && cleanB s && errorsB s

/-- The test of State.NoDrain. -/
def noDrainB (s : State) : Bool :=
  match s.quality.plan with
  | none => true
  | some p =>
    match p.phase with
    | .drain _ => false
    | .countdown _ => true

/-- The test of State.Plain. -/
def plainB (s : State) : Bool := soundB s && decide (s.waiting = []) && noDrainB s && headIdleB s

theorem clean_of {s : State} (h : cleanB s = true) : s.Clean := by
  unfold State.Clean; exact of_decide_eq_true h

theorem headIdle_of {s : State} (h : headIdleB s = true) : s.HeadIdle := by
  unfold State.HeadIdle; exact of_decide_eq_true h

theorem allKinds_mem (k : ErrorKind) : k ∈ allKinds := by cases k <;> decide

theorem errors_of {s : State} (h : errorsB s = true) : s.ErrorsOk := by
  have h := of_decide_eq_true h
  refine ⟨fun k => (h.1 k (allKinds_mem k)).1, fun k => (h.1 k (allKinds_mem k)).2, fun hf k => ?_⟩
  rcases h.2 with h | h
  · rw [hf] at h; cases h
  · exact h k (allKinds_mem k)

theorem sound_of {s : State} (h : soundB s = true) : s.Sound := by
  simp only [soundB, Bool.and_eq_true, decide_eq_true_eq] at h
  exact ⟨h.1.1, clean_of h.1.2, errors_of h.2⟩

theorem noDrain_of {s : State} (h : noDrainB s = true) : s.NoDrain := by
  intro p timer hp ht
  rw [noDrainB, hp] at h
  simp only [ht] at h
  cases h

theorem plain_of {s : State} (h : plainB s = true) : s.Plain := by
  simp only [plainB, Bool.and_eq_true, decide_eq_true_eq] at h
  have k := sound_of h.1.1.1
  exact ⟨k.service, k.clean, k.errors, h.1.1.2, noDrain_of h.1.2, .inr (headIdle_of h.2)⟩

theorem accepts_of {s : State} {l : LineNo} {level : Loop} {start : Time} (h : soundB s = true)
    (k : (decide (s.now % ms 5 = 0) && !s.samplingHeld l && decide ((s.line l).loop ≠ level) &&
      decide ((s.line l).run = .two start)) = true) : s.Accepts l level start := by
  simp only [Bool.and_eq_true, decide_eq_true_eq, Bool.not_eq_true'] at k
  exact ⟨(sound_of h).service, (sound_of h).clean, k.1.1.1, k.1.1.2, k.1.2, k.2⟩

theorem watches_of {s : State} {l : LineNo} {level : Loop} (h : soundB s = true)
    (k : (decide (s.now % ms 5 = 0) && !s.samplingHeld l && decide (level = (s.line l).loop)) = true) : s.Watches l level := by
  simp only [Bool.and_eq_true, decide_eq_true_eq, Bool.not_eq_true'] at k
  exact ⟨(sound_of h).service, (sound_of h).clean, k.1.1, k.1.2, .inl k.2⟩

theorem serves_of {s : State} {p : Port} (h : (decide (s.unit.mode = .service) && s.hears p) = true)
    (k : s.messages.linkQueue.length < 16 ∧ s.messages.localQueue.length < 16) : s.Serves p := by
  simp only [Bool.and_eq_true, decide_eq_true_eq] at h
  exact ⟨h.1, h.2, by cases p <;> [exact k.1; exact k.2]⟩

theorem room_of {s : State} {p : Port} (k : s.messages.linkQueue.length < 16 ∧ s.messages.localQueue.length < 16) : s.HasRoom p := by
  cases p <;> [exact k.1; exact k.2]

/-- The state at which a command of the present time acts, between events. -/
theorem begins {s : State} (h : s.work = {}) : s = s.begin s.now := by
  unfold State.begin State.advance State.withWork
  cases s
  simp_all

theorem test_base_is_plain : base.Plain := plain_of (by decide)

/-! ### Worked steps -/

/-- 01, section 1.6: samples of open at 1,000, 1,005 and 1,010 ms give the opening, dated 1,000. -/
theorem test_debounce_of_an_opening :
    let r : LineRecord := { LineRecord.powerOn with loop := .closed }
    ((r.debounce (ms 1000) .opened).debounce (ms 1005) .opened).debounce (ms 1010) .opened =
      { r with loop := .opened, intervalStart := ms 1000 } := by decide

/-- 01, section 1.6: the interval 1,000-1,060 is a dial break, classed at sample 1,070. -/
theorem test_dial_break_of_60_ms :
    let s := { onLine talking 3 (fun r => { r with loop := .opened, intervalStart := ms 1000, run := .two (ms 1060) }) with now := ms 1070 }
    ∃ u, exec (.loopSample (ms 1070) 3 .closed) s = .next u ∧ (u.line 3).digits = 1 ∧ (u.line 3).intervalStart = ms 1060 :=
  ⟨_, rfl, by decide, by decide⟩

/-- 01, section 1.6: the interval 2,110-2,130 is a hit. -/
theorem test_hit_of_20_ms :
    let s := { onLine talking 3 (fun r =>
      { r with loop := .opened, digits := 1, intervalStart := ms 2110, run := .two (ms 2130) }) with now := ms 2140 }
    ∃ u, exec (.loopSample (ms 2140) 3 .closed) s = .next u ∧ (u.line 3).digits = 1 := ⟨_, rfl, by decide⟩

/-- 07, section 7.5: the estimate and Q_near of windows 1 to 4 at Wide. -/
theorem test_estimates_of_the_worked_case :
    [(77, 350), (115, 356), (130, 386), (140, 422)].map (fun w : Nat × Nat =>
      (min 65535 (w.1 * 1000000 / (100 * 1920)), (7 * w.2 + min 65535 (w.1 * 1000000 / (100 * 1920)) + 4) / 8)) =
      [(401, 356), (598, 386), (677, 422), (729, 460)] := by decide

/-- 09, section 9.8: at 1,350 the second disagreement over BUSY 77 against GUARD sends RELEASE AUDIT for 77 and leaves the bearer in GUARD
with its count at 0. -/
theorem test_audit_repairs_a_lost_release :
    let s : State := { base with now := ms 1350 }.withBearer 2
      { BearerRecord.powerOn 2 with state := .guarded 77 (ms 1400) false, entered := ms 1000, disagreements := 1 }
    ∃ u, exec (.auditRecord (ms 1350) { index := 2, view := 1, line := 5, reference := 77, quality := 0 }) s = .next u ∧
      u.bearer 2 = { s.bearer 2 with disagreements := 0 } ∧
      u.messages.linkQueue.head? = some (releaseRecord none 2 77 .audit) ∧ u.count .auditConflict = 1 :=
  ⟨_, rfl, by decide, by decide, by decide⟩

/-- 02, section 2.12: line 20's off-hook arrival takes the lowest FREE bearer, 3, with reference 65533, and the counter becomes 65535. -/
theorem test_off_hook_takes_the_lowest_bearer :
    let s := { onLine (bearerIn (bearerIn (bearerIn base 0 (.blocked .maintenance)) 1 (.blocked .maintenance)) 2 (.blocked .maintenance)) 20
      (fun r => { r with run := .two (sec 100 - ms 10) }) with counter := 65533 }
    ∃ u, exec (.acceptedTransition (sec 100) 20 .closed) s = .next u ∧ (u.line 20).state = .originating 3 ∧
      (u.bearer 3).state.reference? = some 65533 ∧ u.counter = 65535 := ⟨_, rfl, by decide, by decide, by decide⟩

/-! ### States that meet the hypotheses of the statements

witness_<Name> is for Obligations.<Name>; the state at which the command acts is the state of the theorem (test_begins), and where a
statement has several clauses there is a state for each, at the ends of its ranges. -/

theorem test_begins : base = base.begin base.now ∧ talking = talking.begin talking.now :=
  ⟨begins rfl, begins rfl⟩

theorem witness_StepTakesTheFrontCommand :
    ({ base with pending := [.empty 0 .link] } : State).pending = .empty 0 .link :: [] ∧ base.pending = [] := ⟨rfl, rfl⟩

theorem witness_HaltedUnitStays :
    ({ base with unit := { base.unit with mode := .halted } } : State).unit.mode = .halted ∧
      ∀ straps, Instr.toneBlock (sec 100) ≠ .powerOnReset straps := ⟨rfl, nofun⟩

/-- BLOCK_BEARER waits, with a call up. -/
def busy : State :=
  { talking with
    pending := [.blockBearer (sec 100) .link 1]
    coder := { talking.coder with conceal := talking.coder.conceal.set 3 (some { lastGood := none, run := 0 }) } }

theorem witness_ValuesStayInRange : ∃ u, step busy = .next u ∧ busy.ParamsOk ∧ busy.QualityOk ∧ busy.QueuesOk :=
  ⟨_, rfl, ⟨fun p => by cases p <;> decide, by decide, by decide⟩, by unfold State.QualityOk; decide, by unfold State.QueuesOk; decide⟩

theorem witness_ErrorRecordsStaySound : ∃ u, step busy = .next u ∧ busy.ErrorsOk := ⟨_, rfl, errors_of (by decide)⟩

theorem witness_LineRecordsStaySound : ∃ u, step busy = .next u ∧ busy.LinesOk :=
  ⟨_, rfl, by unfold State.LinesOk; decide⟩

theorem witness_RingCapacityFollowsTheSupply : ∃ u, step busy = .next u ∧ busy.RingsOk :=
  ⟨_, rfl, by unfold State.RingsOk; decide⟩

theorem witness_BearerEntriesAreStamped :
    ∃ u, step busy = .next u ∧ (u.bearer 1).state.code ≠ (busy.bearer 1).state.code := ⟨_, rfl, by decide⟩

theorem witness_SampleIsDebounced :
    (base.unit.mode ≠ .halted ∧ base.Clean ∧ base.now % ms 5 = 0) ∧
    ((ringing true).Clean ∧ (ringing true).samplingHeld 3 = true) ∧
    ({ base with now := sec 100 + 1 } : State).now % ms 5 ≠ 0 ∧
    (let x := lineIn base 4 (.parked .fault)
     x.Clean ∧ x.samplingHeld 4 = false ∧ x.now % ms 5 = 0 ∧ ∃ c, (x.line 4).state = .parked c) ∧
    (let x : State := { base with unit := UnitRecord.powerOn }
     x.Clean ∧ x.samplingHeld 4 = false ∧ x.now % ms 5 = 0 ∧ x.unit.mode = .start) :=
  ⟨⟨by decide, clean_of (by decide), by decide⟩, ⟨clean_of (by decide), by decide⟩, by decide,
    ⟨clean_of (by decide), by decide, by decide, _, rfl⟩, clean_of (by decide), by decide, by decide, rfl⟩

/-- Line 3 CONNECTED with an open interval of a length whose closure is completed by the next sample, and some breaks counted. -/
def closing (length : Time) (digits : Nat) : State :=
  onLine talking 3 (fun r =>
    { r with loop := .opened, intervalStart := sec 100 - ms 10 - length, run := .two (sec 100 - ms 10), digits := digits })

/-- Lengths at the ends of the classes of R11 of 01. -/
def lengths : List Nat := [0, 29, 30, 120, 121, 299, 300, 799, 800]

theorem test_closings_are_judged : ∀ n ∈ lengths, ∀ d ∈ [0, 1], (soundB (closing (ms n) d) &&
    (decide ((closing (ms n) d).now % ms 5 = 0) && !(closing (ms n) d).samplingHeld 3 &&
      decide (((closing (ms n) d).line 3).loop ≠ .closed) && decide (((closing (ms n) d).line 3).run = .two (sec 100 - ms 10)))) = true := by
  decide +kernel

theorem witness_DialBreaksMakeDigits :
    (∀ n ∈ lengths, ∀ d ∈ [0, 1], let x := closing (ms n) d
      x.Accepts 3 .closed (sec 100 - ms 10) ∧ x.ErrorsOk ∧ (x.line 3).state = .connected 0 ∧ (x.bearer 0).state = .active (callOf 3 1) ∧
      x.now < sec 100 - ms 10 + ms 250 ∧ (x.line 3).digits = d ∧ ms n = sec 100 - ms 10 - (x.line 3).intervalStart) ∧
    (let x := onLine talking 3 (fun r => { r with loop := .closed, digits := 1, intervalStart := sec 100 - ms 250 })
     x.Watches 3 .closed ∧ x.ErrorsOk ∧ (x.line 3).state = .connected 0 ∧ (x.bearer 0).state = .active (callOf 3 1) ∧
     0 < (x.line 3).digits ∧ (x.line 3).intervalStart + ms 250 = x.now) := by
  refine ⟨fun n hn d hd => ?_, watches_of (by decide) (by decide), errors_of (by decide), rfl, rfl, by decide, rfl⟩
  have h := test_closings_are_judged n hn d hd
  rw [Bool.and_eq_true] at h
  have hl : ms n = sec 100 - ms 10 - (sec 100 - ms 10 - ms n) :=
    (by decide : ∀ n ∈ lengths, ms n = sec 100 - ms 10 - (sec 100 - ms 10 - ms n)) n hn
  exact ⟨accepts_of h.1 h.2, (sound_of h.1).errors, rfl, rfl, (by decide : sec 100 < sec 100 - ms 10 + ms 250), rfl, hl⟩

/-- The loop of an IDLE line closes at the next sample. -/
def lifting (s : State) : State := onLine s 7 (fun r => { r with run := .two (sec 100 - ms 10) })

/-- Lines 8 and 9 wait, one of each class. -/
def queue : List WaitEntry :=
  [{ line := 8, cls := .priority, joined := sec 98 }, { line := 9, cls := .ordinary, joined := sec 97 }]

theorem test_queue_sections : queue = queue.take 1 ++ queue.drop 1 ∧ (∀ w ∈ queue.take 1, w.cls = .priority) ∧
    ∀ w ∈ queue.drop 1, w.cls = .ordinary := by decide

/-- Line 7, of a class, has its loop closed by the next sample. -/
def liftingAs (s : State) (cls : CallClass) : State := onLine (lifting s) 7 (fun r => { r with cls := cls })

theorem witness_OffHookIsAllocatedOrWaits :
    ((lifting base).Accepts 7 .closed (sec 100 - ms 10) ∧ (lifting base).Plain ∧ ((lifting base).line 7).state = .idle ∧
      (lifting base).isUp = true ∧ (lifting base).lowestFree = some 0) ∧
    ((lifting (full base)).Accepts 7 .closed (sec 100 - ms 10) ∧ (lifting (full base)).Plain ∧
      ((lifting (full base)).line 7).state = .idle ∧ (lifting (full base)).lowestFree = none) ∧
    ∀ cls ∈ [CallClass.priority, .ordinary], ∀ s ∈ [{ base with waiting := queue }, { full base with waiting := queue }],
      let x := liftingAs s cls
      x.Accepts 7 .closed (sec 100 - ms 10) ∧ x.ErrorsOk ∧ x.NoDrain ∧ (x.line 7).state = .idle ∧ (x.line 7).cls = cls ∧
        x.waiting = queue ∧ x.waiting ≠ [] ∧ x.isUp = true ∧ (x.lowestFree = some 0 ∨ x.lowestFree = none) := by
  refine ⟨⟨accepts_of (by decide) (by decide), plain_of (by decide), rfl, rfl, by decide⟩,
    ⟨accepts_of (by decide) (by decide), plain_of (by decide), rfl, by decide⟩, ?_⟩
  intro cls hc s hs
  simp only [List.mem_cons, List.not_mem_nil, or_false] at hc hs
  rcases hc with rfl | rfl <;> rcases hs with rfl | rfl <;>
    exact ⟨accepts_of (by decide) (by decide), errors_of (by decide), noDrain_of rfl, rfl, rfl, rfl, by decide, rfl, by decide⟩

/-- A step-down to Robust is planned that moves line 3's call from bearer 5 to bearer 0; line 3 has its loop open for 800 ms. -/
def moving : State :=
  let x := bearerIn (bearerIn (lineIn base 3 (.connected 5)) 5 (.active { callOf 3 1 with target := some 0 })) 0 .heldMove
  onLine { x with
    active := [5]
    link := { base.link with rate := .standard, announcement := some { next := .robust, countdown := 8 } }
    quality := { Quality.powerOn with plan := some { target := .robust, phase := .countdown [⟨5, 0⟩], forced := false } }
    coder := { Coder.powerOn with rxRate := .standard, relocations := [{ pairs := [⟨5, 0⟩], target := .robust, switched := false }] } }
    3 (fun r => { r with loop := .opened, intervalStart := sec 100 - ms 800 })

/-- Line 3 with its loop open for 800 ms. -/
def hanging (s : State) : State := onLine s 3 (fun r => { r with loop := .opened, intervalStart := sec 100 - ms 800 })

theorem witness_LongOpenClearsTheLine :
    ((hanging talking).Watches 3 .opened ∧ (hanging talking).Plain ∧
      ((hanging talking).line 3).state = .connected 0 ∧ ((hanging talking).bearer 0).state = .active (callOf 3 1) ∧
      ((hanging talking).line 3).longOpen = false ∧ ((hanging talking).line 3).intervalStart + ms 800 = (hanging talking).now) ∧
    (let x := hanging { lineIn (full base) 3 .waiting with waiting := [{ line := 3, cls := .ordinary, joined := sec 99 }] }
     x.Watches 3 .opened ∧ x.HeadIdle ∧ (x.line 3).state = .waiting) ∧
    (let x := hanging (lineIn base 3 (.lockout .farClear))
     x.Watches 3 .opened ∧ x.HeadIdle ∧ (x.line 3).state = .lockout .farClear) ∧
    (let x := hanging (reserved (sec 103))
     x.Watches 3 .opened ∧ x.Plain ∧ x.HeadIdle ∧ (x.line 3).state = .originating 0 ∧
     (x.bearer 0).state = .heldOut (callOf 3 1) (sec 103) (sec 99)) ∧
    (moving.Watches 3 .opened ∧ moving.Plain ∧ (moving.line 3).state = .connected 5 ∧
      (moving.bearer 5).state = .active { callOf 3 1 with target := some 0 }) :=
  ⟨⟨watches_of (by decide) (by decide), plain_of (by decide), rfl, rfl, rfl, rfl⟩,
    ⟨watches_of (by decide) (by decide), headIdle_of (by decide), rfl⟩,
    ⟨watches_of (by decide) (by decide), headIdle_of (by decide), rfl⟩,
    ⟨watches_of (by decide) (by decide), plain_of (by decide), headIdle_of (by decide), rfl, rfl⟩,
    watches_of (by decide) (by decide), plain_of (by decide), rfl, rfl⟩

theorem witness_AnswerConnectsTheCall :
    (∀ relay, (ringing relay).Plain ∧ ((ringing relay).line 3).state = .ringing 0 ∧
      ((ringing relay).bearer 0).state = .heldIn { callOf 3 2 with direction := .incoming } ∧ (callOf 3 2).line = 3 ∧
      (ringing relay).ringRelay 3 = relay ∧ (ringing relay).now % ms 5 = 0) ∧
    (onLine (ringing false) 3 (fun r => { r with run := .two (sec 100 - ms 10) })).Accepts 3 .closed (sec 100 - ms 10) ∧
    (talking.Clean ∧ ∀ b, (talking.line 3).state ≠ .ringing b) ∧
    (let x : State := { ringing true with now := sec 100 + 1 }
     x.Clean ∧ x.ringRelay 3 = true ∧ x.now % ms 5 ≠ 0) :=
  ⟨fun relay => by cases relay <;> exact ⟨plain_of (by decide), rfl, rfl, rfl, by decide, by decide⟩,
    accepts_of (by decide) (by decide), ⟨clean_of (by decide), nofun⟩, clean_of (by decide), by decide, by decide⟩

theorem witness_ToneBlocksFollowTheState :
    busy.Clean ∧ busy.now % ms 10 = 0 ∧ busy.unit.mode = .service ∧ busy.isUp = true ∧ (busy.line 4).state.tone = some .silence ∧
      (busy.line 3).state.tone = none ∧ busy.coder.conceal[(3 : LineNo).val] = some { lastGood := none, run := 0 } ∧
    (let x : State := { busy with link := { busy.link with state := .hunt Episode.fresh } }
     x.Clean ∧ x.isUp = false ∧ (x.line 3).state.tone = none) ∧
    (let x : State := { base with unit := UnitRecord.powerOn, now := ms 5 }
     x.Clean ∧ x.unit.mode ≠ .service ∧ x.now % ms 10 ≠ 0) ∧
    ∀ st ∈ [LineState.waiting, .lockout .congestion, .lockout .withdrawn], ∀ n ∈ [0, 9, 10, 199],
      let x : State := { lineIn base 4 st with pins := { base.pins with hearing := base.pins.hearing.set 4 (some { tone := .howler, block := n }) } }
      x.Clean ∧ x.now % ms 10 = 0 ∧ x.unit.mode = .service ∧ (x.line 4).state = st ∧
        x.pins.hearing[(4 : LineNo).val] = some { tone := .howler, block := n } :=
  ⟨clean_of (by decide), by decide, rfl, rfl, rfl, rfl, rfl, ⟨clean_of (by decide), rfl, rfl⟩,
    ⟨clean_of (by decide), by decide, by decide⟩, fun _ _ _ _ => ⟨clean_of rfl, (by decide : sec 100 % ms 10 = 0), rfl, rfl, rfl⟩⟩

theorem witness_ProvisionFollowsTheLinesState :
    base.Plain ∧ base.Serves .link ∧ base.Serves .localPort ∧ lineOf 23 = some 23 ∧ (0 : Byte).toNat ≤ 1 ∧ (1 : Byte).toNat = 1 ∧
      (base.line 23).state = .idle ∧
    (∀ c : ParkCause, let x := lineIn base 23 (.parked c)
      x.Plain ∧ x.Serves .link ∧ (x.line 23).state = .parked c ∧ (x.line 23).loop = .opened) ∧
    (∀ c ∈ [ParkCause.outOfService, .fault], ∀ s ∈ [base, full base],
      let x := onLine (lineIn s 23 (.parked c)) 23 (fun r => { r with loop := .closed })
      x.Plain ∧ x.Serves .link ∧ (x.line 23).state = .parked c ∧ (x.line 23).loop = .closed ∧ x.isUp = true) ∧
    (∀ p, State.HasRoom (State.sendCall (State.lineTo { base.bearerTo 0 (.heldOut (callOf 23 1) (sec 103) (sec 100)) with counter := 3 } 23
      (.originating 0)) (seizeOutRecord 23 0 1 .ordinary)) p) ∧ base.lowestFree = some 0 ∧ (full base).lowestFree = none ∧
    (talking.Plain ∧ talking.Serves .link ∧ (∀ c, (talking.line 3).state ≠ .parked c) ∧ (talking.line 3).state ≠ .idle) :=
  ⟨test_base_is_plain, serves_of rfl (by decide), serves_of rfl (by decide), rfl, by decide, rfl, rfl,
    fun c => by cases c <;> exact ⟨plain_of (by decide), serves_of rfl (by decide), rfl, rfl⟩,
    fun c h s hs => by
      simp only [List.mem_cons, List.not_mem_nil, or_false] at h hs
      rcases h with rfl | rfl <;> rcases hs with rfl | rfl <;>
        exact ⟨plain_of (by decide), serves_of rfl (by decide), rfl, rfl, rfl⟩,
    fun p => by cases p <;> exact room_of (by decide), by decide, by decide, plain_of (by decide), serves_of rfl (by decide), nofun, by decide⟩

/-- One error recorded before, and one kind in the next-error set. -/
def faulty : State := { base with errors := { base.errors with
  first := some { error := { kind := .frameSlip }, seconds := 1 }, next := base.errors.next.set 7 true } }

/-- A kind routed otherwise than by default. -/
def routed (s : State) (k : ErrorKind) (r : Routing) : State := s.writeRouting k r

/-- Line 3's record reads back wrong, and so does bearer 2's. -/
def broken (s : State) : State :=
  (onLine s 3 (fun r => { r with parityBad := true })).withBearer 2 { s.bearer 2 with parityBad := true }

theorem witness_ErrorIsRecorded :
    (base.routing .frameSlip = .count ∧ faulty.routing .txOverflow = .report ∧ faulty.isNew { kind := .txOverflow } = false) ∧
    (faulty.routing .lineFault = .report ∧ faulty.isNew { kind := .lineFault } = true ∧ faulty.HasRoom .link ∧ faulty.HasRoom .localPort) ∧
    ((routed base .msgCheck .restartLink).routing .msgCheck = .restartLink ∧
      (routed base .tableParity .restartUnit).routing .tableParity = .restartUnit) ∧
    (let x := routed (broken base) .tableParity .report
     x.unit.mode = .service ∧ x.ErrorsOk ∧ x.hears .link = true ∧ x.hears .localPort = true ∧ bearerOf 2 = some 2 ∧
     (x.bearer 2).parityBad = true ∧ lineOf 3 = some 3 ∧ (x.line 3).parityBad = true ∧ x.routing .tableParity = .report ∧
     ∀ p, (x.raise { kind := .tableParity, bearer := some 2, detail := some (toWord 1 (bearerByte 2)) }).HasRoom p ∧
       (x.raise { kind := .tableParity, line := some 3, detail := some (toWord 0 (lineByte 3)) }).HasRoom p) ∧
    (let x := routed (onLine base 3 (fun r => { r with parityBad := true })) .tableParity .restartUnit
     x.unit.mode = .service ∧ x.ErrorsOk ∧ (x.line 3).parityBad = true ∧ x.routing .tableParity = .restartUnit ∧
     ((x.recorded { kind := .tableParity, line := some 3, detail := some (toWord 0 (lineByte 3)) }).withLine 3
       { x.line 3 with parityBad := false }).Clean) ∧
    (let x := routed { base with link := { Link.powerOn with state := .disabled } } .msgCheck .restartLink
     x.Sound ∧ x.hearsSource .localPort = true ∧ x.routing .msgCheck = .restartLink ∧ x.link.state = .disabled ∧ x.HasRoom .link ∧
     x.HasRoom .localPort) ∧
    (let x := routed (ringing true) .msgCheck .restartLink
     x.Sound ∧ x.hearsSource .linkMessage = true ∧ x.isUp = true ∧ x.HeadIdle ∧
     (∀ l b, (x.line l).state = .ringing b → (x.line l).loop = .opened) ∧ x.messages.localQueue.length < 14) ∧
    (let x := routed (broken { base with unit := UnitRecord.powerOn }) .tableParity .restartUnit
     x.unit.mode = .start ∧ x.routing .tableParity = .restartUnit ∧ (x.line 3).parityBad = true ∧ x.samplingHeld 3 = false ∧
     x.now % ms 5 = 0) :=
  ⟨⟨rfl, rfl, rfl⟩, ⟨rfl, rfl, room_of (by decide), room_of (by decide)⟩, ⟨rfl, rfl⟩,
    ⟨rfl, errors_of (by decide), rfl, rfl, rfl, rfl, rfl, rfl, rfl, fun _ => ⟨room_of (by decide), room_of (by decide)⟩⟩,
    ⟨rfl, errors_of (by decide), rfl, rfl, clean_of (by decide)⟩,
    ⟨sound_of (by decide), rfl, rfl, rfl, room_of (by decide), room_of (by decide)⟩,
    ⟨sound_of (by decide), rfl, rfl, headIdle_of (by decide), by decide, by decide⟩, rfl, rfl, rfl, rfl, by decide⟩

/-- 16 records of a kind. -/
def sixteen (kind : Byte) : List Record := List.replicate 16 (record kind 0)

/-- The local queue is full, and the link's restart is ordered by MSG_CHECK. -/
def crammed : State :=
  let x := routed base .msgCheck .restartLink
  { x with messages := { x.messages with localQueue := List.replicate 16 (record 0x27 0) } }

/-- 11, R175: the TX_OVERFLOW of the restart's own report comes after the ALARM of the error that ordered it. -/
theorem test_alarm_comes_before_the_restarts_errors :
    (crammed.takeMismatch .linkMessage 0x11).finish.messages.linkQueue.map (·.b1) =
      [byte ErrorKind.msgCheck.code, byte ErrorKind.txOverflow.code] := by decide +kernel

theorem witness_RecordsJoinTheirQueues :
    (base.HasRoom .link ∧ base.HasRoom .localPort ∧ base.isUp = true) ∧
    (let x : State := { base with messages := { Messages.powerOn with localQueue := sixteen 0x30, linkQueue := sixteen 0x10 } }
     ¬ x.HasRoom .localPort ∧ ¬ x.HasRoom .link ∧ (∀ q ∈ x.messages.linkQueue, isReport q.kind = false) ∧
     isReport (record 0x3B 0).kind = true) ∧
    (let x : State := { base with messages := { Messages.powerOn with
       linkQueue := List.replicate 14 (record 0x10 0) ++ record 0x30 0 :: [record 0x17 0] } }
     ¬ x.HasRoom .link ∧ isReport (record 0x14 0).kind = false ∧ isReport (record 0x30 0).kind = true ∧
     ∀ a ∈ [record 0x17 0], isReport a.kind = false) ∧
    (let x : State := { base with messages := { Messages.powerOn with linkQueue := sixteen 0x10 } }
     isReport (record 0x3B 0).kind = true ∧ ¬ x.HasRoom .link ∧ x.HasRoom .localPort) ∧
    (let x : State := { base with messages := { Messages.powerOn with localQueue := sixteen 0x30 } }
     x.HasRoom .link ∧ ¬ x.HasRoom .localPort) ∧
    State.reset.isUp = false :=
  ⟨⟨room_of (by decide), room_of (by decide), rfl⟩, ⟨by unfold State.HasRoom; decide, by unfold State.HasRoom; decide, by decide, by decide⟩,
    ⟨by unfold State.HasRoom; decide, by decide⟩, ⟨by decide, by unfold State.HasRoom; decide, by unfold State.HasRoom; decide⟩,
    ⟨by unfold State.HasRoom; decide, by unfold State.HasRoom; decide⟩, rfl⟩

theorem witness_PuncturingKeeps1920Bits : ∀ r : Rate, (List.replicate r.infoBits true).length = r.infoBits :=
  fun _ => List.length_replicate

/-- The oldest stage of the scrambler after each shift: the history of R91. -/
def history (n : Nat) : Bool := (Nat.repeat Scrambler.advance n Scrambler.start).getLsbD 14

theorem test_scrambler_shifts (r : Scrambler) (i : Nat) (h : i < 14) :
    (Scrambler.advance r).getLsbD (i + 1) = r.getLsbD i ∧ (Scrambler.advance r).getLsbD 0 = (r.getLsbD 13 != r.getLsbD 14) := by
  unfold Scrambler.advance Scrambler.feedback
  constructor
  · simp [show i + 1 < 15 by omega, BitVec.getLsbD_eq_getElem (show i < 15 by omega)]
  · simp

theorem witness_FramesAreScrambledAndCoded :
    (5 < 6 ∧ 5 < (List.replicate 6 true).length) ∧ (∀ n < 15, history n = true) ∧ ∀ n, history (n + 15) = (history (n + 1) != history n) := by
  refine ⟨by decide, by decide, fun n => ?_⟩
  have shift : ∀ k ≤ 14, history (n + 1 + k) = (Nat.repeat Scrambler.advance (n + 1) Scrambler.start).getLsbD (14 - k) := by
    have : ∀ k (r : Scrambler), k ≤ 14 → (Nat.repeat Scrambler.advance k r).getLsbD 14 = r.getLsbD (14 - k) := by
      intro k
      induction k with
      | zero => intro r _; rfl
      | succ k ih =>
        intro r hk
        have e : Nat.repeat Scrambler.advance (k + 1) r = Nat.repeat Scrambler.advance k (Scrambler.advance r) := by
          clear ih hk
          induction k with
          | zero => rfl
          | succ k ih => exact congrArg Scrambler.advance ih
        rw [e, ih _ (by omega), show 14 - k = (14 - (k + 1)) + 1 by omega]
        exact (test_scrambler_shifts r _ (by omega)).1
    intro k hk
    rw [← this k _ hk]
    unfold history
    congr 1
    clear hk this
    induction k with
    | zero => rfl
    | succ k ih => exact congrArg Scrambler.advance ih
  have h14 := shift 14 (by omega)
  rw [show n + 1 + 14 = n + 15 by omega] at h14
  rw [h14]
  show (Scrambler.advance (Nat.repeat Scrambler.advance n Scrambler.start)).getLsbD 0 = _
  rw [(test_scrambler_shifts _ 0 (by omega)).2]
  show (_ != history n) = (history (n + 1) != history n)
  congr 1
  exact (test_scrambler_shifts _ 13 (by omega)).1.symm

theorem witness_PlacementTakesTheEmptiestPhase :
    (base.choosePhase = some 1 ∧ base.ring.queue = []) ∧
    (let x : State := { base with ring := { Ring.powerOn with
       phases := Vector.replicate 3 (List.replicate 4 { line := 3, rings := 0, placed := 0, relay := false })
       queue := [{ line := 4, rings := 1 }] } }
     x.choosePhase = none ∧ ∀ p : PhaseNo, x.ring.supply.capacity ≤ (x.phase p).length) ∧
    (let x : State := { base with ring := { Ring.powerOn with queue := [{ line := 4, rings := 1 }] } }
     x.ring.queue = { line := 4, rings := 1 } :: [] ∧ x.choosePhase = some 1) :=
  ⟨by decide, by decide, by decide⟩

theorem witness_CallTimersLockTheLineOut :
    ((reserved (sec 100)).Plain ∧
      ((reserved (sec 100)).bearer 0).state = .heldOut (callOf 3 1) (reserved (sec 100)).now (sec 99)) ∧
    ((reserved (sec 100 + 1)).Plain ∧ (reserved (sec 100 + 1)).now < sec 100 + 1) ∧
    (∀ joined ∈ [sec 70, sec 70 + 1], let x : State := { lineIn (full base) 3 .waiting with waiting := [{ line := 3, cls := .ordinary, joined := joined }] }
      x.Sound ∧ (x.waiting.find? (fun e => e.line == 3) = some { line := 3, cls := .ordinary, joined := joined })) ∧
    sec 70 + sec (base.param .waitLimit) = base.now :=
  ⟨⟨plain_of (by decide), rfl⟩, ⟨plain_of (by decide), by decide⟩,
    fun _ _ => ⟨sound_of (by rfl), rfl⟩, by decide⟩

/-- Bearer 0 in GUARD with reference 5, whose timer runs out at a time. -/
def guarded (s : State) (expiry : Time) (block : Bool) : State := bearerIn s 0 (.guarded 5 expiry block)

theorem witness_GuardExpiryFreesTheBearer :
    (let z : State := { base with waiting := queue }
     z.Clean ∧ z.ErrorsOk ∧ z.isUp = true ∧ z.waiting = { line := 8, cls := .priority, joined := sec 98 } :: queue.tail ∧
     z.lowestFree = some 0) ∧ (base.waiting = [] ∧ (full base).lowestFree = none ∧ State.reset.isUp = false) ∧
    (∀ block, (guarded base (sec 100) block).Plain ∧ ((guarded base (sec 100) block).bearer 0).state = .guarded 5 base.now block) ∧
    ((guarded base (sec 100 + 1) false).Plain ∧ base.now < sec 100 + 1) ∧
    (let x := guarded { lineIn (full base) 3 .waiting with waiting := [{ line := 3, cls := .priority, joined := sec 99 }] } (sec 100) false
     x.Sound ∧ x.HeadIdle ∧ x.quality.plan = none ∧ x.isUp = true ∧ x.waiting = { line := 3, cls := .priority, joined := sec 99 } :: [] ∧
     x.lowestFree = none ∧ (0 : BearerNo).val < x.limit ∧ (x.bearer 0).state = .guarded 5 x.now false) :=
  ⟨⟨clean_of (by decide), errors_of (by decide), rfl, rfl, by decide⟩, ⟨rfl, by decide, rfl⟩,
    fun block => by cases block <;> exact ⟨plain_of (by decide), rfl⟩, ⟨plain_of (by decide), by decide⟩,
    sound_of (by decide), headIdle_of (by decide), rfl, rfl, rfl, by decide, by decide, rfl⟩

theorem witness_BlocksFollowTheBearersState :
    bearerOf 0 = some 0 ∧
    ∀ st ∈ [BearerState.free, .guarded 5 (sec 101) false, .guarded 5 (sec 101) true, .active (callOf 3 1), .blocked .maintenance,
        .blocked .far, .unavailable true, .unavailable false],
      (bearerIn base 0 st).Plain ∧ (bearerIn base 0 st).Serves .link ∧ ((bearerIn base 0 st).bearer 0).state = st :=
  ⟨rfl, fun _ _ => ⟨plain_of (by rfl), serves_of rfl ⟨(by decide : 0 < 16), (by decide : 0 < 16)⟩, rfl⟩⟩

theorem witness_AcceptConnectsTheCall :
    ((reserved (sec 103)).Plain ∧ (reserved (sec 103)).isUp = true ∧ bearerOf 0 = some 0 ∧ (callOf 3 1).reference = 1 ∧
      ((reserved (sec 103)).bearer 0).state = .heldOut (callOf 3 1) (sec 103) (sec 99)) ∧
    ((guarded base (sec 101) false).Plain ∧ ((guarded base (sec 101) false).bearer 0).state = .guarded 5 (sec 101) false) ∧
    (base.Plain ∧ (base.bearer 0).state.reference? ≠ some 1) ∧
    (talking.Plain ∧ (talking.bearer 0).state.reference? = some 1 ∧ ∃ c, (talking.bearer 0).state = .active c) :=
  ⟨⟨plain_of (by decide), rfl, rfl, rfl, rfl⟩, ⟨plain_of (by decide), rfl⟩, ⟨test_base_is_plain, by decide⟩, plain_of (by decide), rfl, _, rfl⟩

theorem witness_HeadEndClearsTheCall :
    ((reserved (sec 103)).Plain ∧ (reserved (sec 103)).isUp = true ∧ bearerOf 0 = some 0 ∧
      ((reserved (sec 103)).bearer 0).state = .heldOut (callOf 3 1) (sec 103) (sec 99)) ∧
    (talking.Plain ∧ (talking.bearer 0).state = .active (callOf 3 1) ∧ (talking.line 3).loop = .opened) ∧
    ((ringing true).Plain ∧ ((ringing true).line 3).loop = .opened) ∧
    ((guarded base (sec 101) true).Plain ∧ ((guarded base (sec 101) true).bearer 0).state = .guarded 5 (sec 101) true) ∧
    (base.Plain ∧ (base.bearer 0).state.reference? ≠ some 1) ∧
    (moving.Plain ∧ moving.isUp = true ∧ bearerOf 5 = some 5 ∧ (moving.bearer 5).state = .active { callOf 3 1 with target := some 0 } ∧
      (0 : BearerNo) ≠ 5 ∧ moving.quality.plan = some { target := .robust, phase := .countdown [⟨5, 0⟩], forced := false } ∧
      moving.coder.relocations = [{ pairs := [⟨5, 0⟩], target := .robust, switched := false }]) :=
  ⟨⟨plain_of (by decide), rfl, rfl, rfl⟩, ⟨plain_of (by decide), rfl, rfl⟩, ⟨plain_of (by decide), rfl⟩, ⟨plain_of (by decide), rfl⟩,
    ⟨test_base_is_plain, by decide⟩, plain_of (by decide), rfl, rfl, rfl, by decide, rfl, rfl⟩

theorem witness_SeizeInIsTested :
    (talking.Sound ∧ talking.isUp = true ∧ lineOf 3 = some 3 ∧ bearerOf 4 = some 4 ∧ bearerOf 5 = some 5 ∧
      (3 : Word).getLsbD 0 = true ∧ talking.badReference 2 = false ∧ (talking.line 3).state.bearer?.isSome = true ∧
      (talking.bearer 0).state.reference? = some 1) ∧
    (∀ st ∈ [LineState.parked .fault, .testing (some .fault), .waiting, .lockout .farClear, .testing none],
      (lineIn base 3 st).Sound ∧ (lineIn base 3 st).badReference 2 = false ∧ ((lineIn base 3 st).line 3).state = st) ∧
    (base.Sound ∧ (base.line 3).state = .idle ∧ (base.bearer 5).state = .unavailable false) ∧
    (let x : State := { bearerIn base 5 .free with
       link := { base.link with rate := .standard }
       quality := { base.quality with plan := some { target := .robust, phase := .countdown [], forced := false } } }
     x.Sound ∧ x.isUp = true ∧ x.badReference 2 = false ∧ (x.line 3).state = .idle ∧ (x.bearer 5).state = .free ∧
     x.limit = (5 : BearerNo).val) ∧
    (∀ st ∈ [BearerState.guarded 5 (sec 101) false, .heldMove, .heldIn (callOf 9 4), .active (callOf 9 4), .blocked .far],
     (bearerIn base 0 st).Sound ∧ (bearerIn base 0 st).badReference 2 = false ∧ ((bearerIn base 0 st).bearer 0).state = st) ∧
    (∀ st ∈ [BearerState.guarded 5 (sec 101) false, .active (callOf 9 4), .unavailable true], let x := bearerIn moving 6 st
     x.Sound ∧ x.isUp = true ∧ x.badReference 2 = false ∧ (x.line 4).state = .idle ∧ (x.bearer 6).state = st ∧
     x.limit ≤ (6 : BearerNo).val ∧ ∃ p pairs, x.quality.plan = some p ∧ p.phase = .countdown pairs) ∧
    (∀ p pairs, base.quality.plan = some p → p.phase ≠ .countdown pairs) :=
  ⟨⟨sound_of (by decide), rfl, rfl, rfl, rfl, by decide, by decide, rfl, rfl⟩, fun _ _ => ⟨sound_of (by rfl), by rfl, rfl⟩,
    ⟨sound_of (by decide), rfl, rfl⟩, ⟨sound_of (by decide), rfl, by decide, rfl, rfl, by decide⟩,
    fun st h => by
      simp only [List.mem_cons, List.not_mem_nil, or_false] at h
      rcases h with rfl | rfl | rfl | rfl | rfl <;> exact ⟨sound_of (by decide), by decide, rfl⟩,
    fun st h => by
      simp only [List.mem_cons, List.not_mem_nil, or_false] at h
      rcases h with rfl | rfl | rfl <;> exact ⟨sound_of (by decide), rfl, by decide, rfl, rfl, by decide, _, _, rfl, rfl⟩,
    fun _ _ h => nomatch h⟩

theorem witness_SeizeInRingsTheLine :
    (base.Plain ∧ base.isUp = true ∧ lineOf 23 = some 23 ∧ bearerOf 4 = some 4 ∧ base.badReference 2 = false ∧ (base.line 23).state = .idle ∧
      base.testRelay 23 = false ∧ (base.bearer 4).state = .free ∧ (4 : BearerNo).val < base.limit ∧ base.choosePhase = some 1) ∧
    (let x : State := { base with ring := { Ring.powerOn with
       supply := .reserve, phases := Vector.replicate 3 [{ line := 9, rings := 0, placed := 0, relay := false }] } }
     x.Plain ∧ x.badReference 2 = false ∧ (x.line 23).state = .idle ∧ (x.bearer 4).state = .free ∧ x.choosePhase = none) ∧
    (∀ kind ∈ [TestKind.routine, .demand .link], let x := testing kind .settling (sec 101) (.testing none)
      x.Sound ∧ x.waiting = [] ∧ x.quality.plan = none ∧ x.isUp = true ∧ x.badReference 2 = false ∧ (x.line 3).state = .testing none ∧
      (∃ r, x.testing.test = some r ∧ r.line = 3 ∧ r.kind = kind) ∧ x.testing.demand = [] ∧ (∀ k : LineNo, x.now < (x.line k).testDue) ∧
      (x.bearer 4).state = .free ∧ (4 : BearerNo).val < x.limit ∧ x.choosePhase = some 1 ∧
      State.choosePhase { x with ring := { x.ring with
        supply := .reserve, phases := Vector.replicate 3 [{ line := 9, rings := 0, placed := 0, relay := false }] } } = none) :=
  ⟨⟨test_base_is_plain, rfl, rfl, rfl, by decide, rfl, rfl, rfl, by decide, by decide⟩,
    ⟨plain_of (by decide), by decide, rfl, rfl, by decide⟩,
    fun kind h => by
      simp only [List.mem_cons, List.not_mem_nil, or_false] at h
      rcases h with rfl | rfl <;> exact ⟨sound_of (by decide), rfl, rfl, rfl, by decide, rfl, ⟨_, rfl, rfl, rfl⟩, rfl, by decide, rfl,
        by decide, by decide, by decide⟩⟩

/-- Line 3's reservation stands on the last bearer. -/
def lastBearer (requested : Time) : State :=
  bearerIn (lineIn (full base) 3 (.originating 0)) 0 (.heldOut (callOf 3 1) (sec 103) requested)

/-- Line 3's claim has been moved to bearer 0 by a step-down whose receive switch is to come. -/
def relocated : State :=
  { reserved (sec 103) with coder := { Coder.powerOn with
    rxRate := .standard, relocations := [{ pairs := [⟨5, 0⟩], target := .robust, switched := true }] } }

theorem witness_GlareIsSettledForTheHeadEnd :
    ((reserved (sec 103)).Plain ∧ (reserved (sec 103)).isUp = true ∧ lineOf 23 = some 23 ∧ bearerOf 0 = some 0 ∧
      (reserved (sec 103)).badReference 2 = false ∧ ((reserved (sec 103)).line 23).state = .idle ∧ (reserved (sec 103)).testRelay 23 = false ∧
      ((reserved (sec 103)).bearer 0).state = .heldOut (callOf 3 1) (sec 103) (sec 99) ∧ (0 : BearerNo).val < (reserved (sec 103)).limit ∧
      (callOf 3 1).line ≠ 23 ∧ (reserved (sec 103)).lowestFree = some 1) ∧
    (∀ requested ∈ [sec 70, sec 70 + 1], let x := lastBearer requested
      x.Plain ∧ x.badReference 2 = false ∧ x.lowestFree = none ∧ (x.bearer 0).state = .heldOut (callOf 3 1) (sec 103) requested) ∧
    (∀ cls ∈ [CallClass.priority, .ordinary], let c := { callOf 3 1 with cls := cls }
      let x : State := { bearerIn (lastBearer (sec 99)) 0 (.heldOut c (sec 103) (sec 99)) with waiting := queue }
      x.Sound ∧ x.NoDrain ∧ x.NoTest ∧ x.isUp = true ∧ x.badReference 2 = false ∧ (x.line 23).state = .idle ∧ x.testRelay 23 = false ∧
      (x.bearer 0).state = .heldOut c (sec 103) (sec 99) ∧ (0 : BearerNo).val < x.limit ∧ c.line ≠ 23 ∧ x.waiting = queue ∧
      x.lowestFree = none ∧ x.now < sec 99 + sec (x.param .waitLimit)) ∧
    sec 70 + sec (base.param .waitLimit) = base.now ∧ relocated.Plain :=
  ⟨⟨plain_of (by decide), rfl, rfl, rfl, by decide, rfl, rfl, rfl, by decide, by decide, by decide⟩,
    fun _ _ => ⟨plain_of (by rfl), by rfl, by rfl, rfl⟩,
    fun cls h => by
      simp only [List.mem_cons, List.not_mem_nil, or_false] at h
      rcases h with rfl | rfl <;> exact ⟨sound_of (by decide), noDrain_of rfl, .inr (headIdle_of (by decide)), rfl, by decide, rfl, rfl, rfl,
        by decide, by decide, rfl, by decide, by decide⟩,
    by decide, plain_of (by decide)⟩

/-- 05, R104: the claim's pair goes with it, at the transmit switch's far side too. -/
theorem test_glare_takes_the_pair :
    (relocated.takeSeize 23 0 2).coder.relocations.map (·.pairs) = [[]] ∧
      ((relocated.takeSeize 23 0 2).bearer 0).state.reference? = some 2 := by decide

theorem witness_RequestsAreTurnedAway :
    (bearerOf 7).isSome = true ∧ (base.unit.mode ≠ .halted ∧ base.HasRoom .localPort ∧ (lineOf 23).isSome = true) ∧
    (let x : State := { base with unit := UnitRecord.powerOn }
     x.unit.mode = .start ∧ x.HasRoom .localPort) ∧
    (1 : Byte).toNat ≤ 1 ∧ (paramOf 21).isSome = true ∧ (paramOf 78).isSome = true ∧ (2 : Byte).toNat ≤ 2 ∧ (3 : Byte).toNat ≤ 3 ∧
    (17 : Byte).toNat ≤ 17 :=
  ⟨by decide, ⟨by decide, room_of (by decide), by decide⟩, ⟨rfl, room_of (by decide)⟩, by decide, by decide, by decide, by decide, by decide,
    by decide⟩

theorem witness_UnusableRecordsAreRecorded :
    (base.Sound ∧ base.isUp = true ∧ base.Quietly .msgCheck ∧ (0x3B : Byte) ∉ inboundKinds ∧ isReport 0x3B = true ∧
      (record 0x26 2).notListed = true ∧ isReport 0x26 = false ∧ base.HasRoom .link) ∧
    (base.unit.mode ≠ .halted ∧ base.hears .link = true ∧ base.hears .localPort = true) ∧
    (∀ kind ∈ [(0x11 : Byte), 0x20, 0x2A], ∀ p, (base.raise { kind := .msgFormat, frame := if p = .link then base.coder.lastGoodNumber else none
                                                              detail := some (toWord (Source.code (portSource p)) kind) }).HasRoom p) ∧
    24 ≤ (24 : Byte).toNat ∧ 8 ≤ (8 : Byte).toNat ∧ 2 ≤ (2 : Byte).toNat ∧ (0 : Byte) = 0 ∧ (22 ≤ (22 : Byte).toNat ∧ (63 : Byte).toNat ≤ 63) ∧
    79 ≤ (79 : Byte).toNat ∧ 3 ≤ (3 : Byte).toNat ∧ 4 ≤ (4 : Byte).toNat ∧ 18 ≤ (18 : Byte).toNat ∧ 1 ≤ (1 : Byte).toNat :=
  ⟨⟨sound_of (by decide), rfl, .inl rfl, by decide, by decide, by decide, by decide, room_of (by decide)⟩, ⟨by decide, rfl, rfl⟩,
    fun kind h p => by
      simp only [List.mem_cons, List.not_mem_nil, or_false] at h
      rcases h with rfl | rfl | rfl <;> cases p <;> exact room_of (by decide),
    by decide⟩

theorem witness_PowerOnResetEntersStart :
    ((∀ l : LineNo, (base.line l).stuck = false) ∧ ∀ b : BearerNo, (base.bearer b).stuck = false) ∧
    everyRecord.find? (onLine base 23 (fun r => { r with stuck := true })).stuck = some (.line 23) := by decide

/-- In START, a given time after its entry, the loop of line 5 CLOSED. -/
def starting (t : Time) : State :=
  { onLine State.reset 5 (fun r => { r with loop := .closed }) with now := t, unit := { UnitRecord.powerOn with startSteps := true } }

theorem witness_EndOfStartEntersService :
    ∀ t ∈ [ms 50 - 1, ms 50], (starting t).Clean ∧ (starting t).HeadIdle ∧ (starting t).unit.mode = .start ∧
      (starting t).unit.startSteps = true ∧ ((starting t).line 5).state = .idle ∧ ((starting t).line 5).loop = .closed ∧
      ((starting t).line 6).loop = .opened := by
  have h : ∀ t ∈ [ms 50 - 1, ms 50], headIdleB (starting t) = true := by decide
  exact fun t ht => ⟨clean_of rfl, headIdle_of (h t ht), rfl, rfl, rfl, rfl, rfl⟩

theorem witness_RestartUnitEntersStart :
    (∀ st ∈ [LineState.parked .unfitted, .testing (some .fault), .parked .fault, .connected 0, .idle], ∀ straps ∈ [(0 : BitVec 3), 7],
      let x : State := { lineIn base 3 st with pins := { base.pins with straps := { levels := straps, moves := [] } } }
      x.Clean ∧ x.Serves .link ∧ (x.line 3).state = st ∧ x.pins.straps.moves = [] ∧ x.straps = straps) ∧
    (let x : State := { base with pins := { base.pins with straps := moved (sec 100) (sec 100 + 1) } }
     x.Clean ∧ x.Serves .link ∧ x.pins.straps.moves = [] ++ ⟨sec 100, 3⟩ :: [⟨sec 100 + 1, 1⟩] ∧ sec 100 ≤ x.now ∧
     x.now < sec 100 + 1 ∧ x.straps = 3) ∧
    (let x : State := { base with pins := { base.pins with straps := moved (sec 100 + 1) (sec 101) } }
     (∀ m ∈ x.pins.straps.moves, x.now < m.time) ∧ x.straps = 7) :=
  ⟨fun _ _ _ _ => ⟨clean_of rfl, serves_of rfl ⟨(by decide : 0 < 16), (by decide : 0 < 16)⟩, rfl, rfl, rfl⟩,
    ⟨clean_of (by decide), serves_of rfl (by decide), rfl, by decide, by decide, by decide⟩, by decide, by decide⟩

theorem witness_SettingsAreWritten :
    base.Plain ∧ base.Serves .link ∧ (1 : Byte).toNat = Param.waitLimit.index.val + 1 ∧ (21 : Byte).toNat = Param.headTimeout.index.val + 1 ∧
      (64 : Byte).toNat = ErrorKind.linkNoSync.code + 63 ∧ (78 : Byte).toNat = ErrorKind.tableParity.code + 63 ∧
      base.param .downS ≤ max 10 (min 19999 1500) ∧ max 20 (min 20000 200) ≤ base.param .upR ∧
      base.param .downW ≤ max 10 (min 19999 400) ∧ max 20 (min 20000 60) ≤ base.param .upS :=
  ⟨test_base_is_plain, serves_of rfl (by decide), by decide, by decide, by decide, by decide, by decide, by decide, by decide, by decide⟩

theorem witness_QueriesAreAnswered :
    base.Clean ∧ base.Serves .link ∧ base.Serves .localPort ∧ lineOf 23 = some 23 ∧ bearerOf 7 = some 7 ∧
      (15 : Byte).toNat = ErrorKind.tableParity.code ∧ (21 : Byte).toNat = Param.headTimeout.index.val + 1 ∧
      (78 : Byte).toNat = ErrorKind.tableParity.code + 63 ∧ base.errors.first = none ∧ faulty.errors.first.isSome = true ∧
      (faulty.Clean ∧ faulty.Serves .link) ∧ (moving.Clean ∧ moving.Serves .link ∧ moving.quality.plan.isSome = true) ∧
      (let x : State := { base with waiting := queue }
       x.Clean ∧ x.waiting[(1 : Byte).toNat]?.isSome = true ∧ x.waiting[(2 : Byte).toNat]? = none) ∧
      ∃ set : Word, (∀ k : ErrorKind, set.getLsbD (k.code - 1) = faulty.inNext k) ∧ set.getLsbD 15 = false :=
  ⟨clean_of (by decide), serves_of rfl (by decide), serves_of rfl (by decide), rfl, rfl, by decide, by decide, by decide, rfl, rfl,
    ⟨clean_of (by decide), serves_of rfl (by decide)⟩, ⟨clean_of (by decide), serves_of rfl (by decide), rfl⟩,
    ⟨clean_of (by decide), by decide, by decide⟩, 0x80, fun k => by cases k <;> decide, by decide⟩

/-- 08, R141, by hand: LINE_STATUS of line 23, IDLE and in service. -/
theorem test_status_of_an_idle_line :
    base.lineStatus 23 = { kind := 0x31, b1 := 23, b2 := 0x10, b3 := 0xFF, b4 := 0x80, b5 := 0, b6 := 5 } := by decide

theorem witness_LocalPortMovesItsRecords :
    (base.Sound ∧ base.messages.assembler = .hunting) ∧
    (∀ last ∈ [sec 100 - ms 20, sec 100 - ms 20 - 1], let x : State := { base with messages := { Messages.powerOn with
        assembler := .collecting [0x2A, 0, 0, 0, 0, 0] last } }
      x.Sound ∧ x.messages.assembler = .collecting [0x2A, 0, 0, 0, 0, 0] last) ∧
    (sec 100 - ms 20) + ms 20 = base.now ∧ recordBytes (record 0x2A 0) = [0x2A, 0, 0, 0, 0, 0, 0] ∧
    (∀ y, base.messages.sending = some y → y.until_ ≤ base.now) ∧
    (let x : State := { base with messages := { Messages.powerOn with
       localQueue := [record 0x30 0], sending := some { record := record 0x30 0, wire := [], until_ := sec 100 } } }
     (∀ y, x.messages.sending = some y → y.until_ ≤ x.now) ∧ x.messages.localQueue = record 0x30 0 :: []) :=
  ⟨⟨sound_of (by decide), rfl⟩, fun _ _ => ⟨sound_of (by rfl), rfl⟩, by decide, by decide, nofun,
    fun y hy => by cases hy; decide, rfl⟩

theorem witness_RecordsAreTakenByTheirKind (take : Byte → Host.Outcome State Fault Refusal)
    (h : take = fun k => exec (.notListedKind 0 .link { record k 0 with kind := k }) base) :
    ∀ k, take k = exec (.notListedKind 0 .link { kind := k, b1 := 0, b2 := 0, b3 := 0, b4 := 0, b5 := 0, b6 := 0 }) base :=
  fun k => by rw [h]; rfl

/-- A far record of the audit for bearer 0. -/
def audit (view : Byte) (reference : Word) (line : Byte := 0xFF) : AuditSlot :=
  { index := 0, view := view, line := line, reference := reference, quality := 300 }

/-- Bearer 0 in a state entered at a time, with a disagreement count. -/
def audited (st : BearerState) (entered : Time) (count : Nat) : State :=
  { base with link := { base.link with rate := .wide } }.withBearer 0
    { BearerRecord.powerOn 0 with state := st, entered := entered, disagreements := count }

theorem witness_AuditRecordIsJudged :
    bearerOf (audit 0 0).index = some 0 ∧ (audit 0 0).line = 0xFF ∧ (audit 0 0 23).line.toNat < 24 ∧ 24 ≤ (audit 0 0 24).line.toNat ∧
    4 ≤ (audit 4 0).view.toNat ∧ (∀ v ∈ [(0, View.idle), (1, .busy), (2, .blocked), (3, .unavailable)], viewOf v.1 = some v.2) ∧
    (sec 100 - ms 200) + ms 200 = base.now ∧ base.now < sec 100 - ms 200 + 1 + ms 200 ∧
    (∀ st ∈ [BearerState.free, .active (callOf 3 1), .blocked .far, .blocked .maintenance, .heldMove],
      ∀ entered ∈ [sec 100 - ms 200, sec 100 - ms 200 + 1], let x := audited st entered 0
      x.Plain ∧ x.isUp = true ∧ (x.bearer 0).state = st ∧ (x.bearer 0).entered = entered ∧ (x.bearer 0).disagreements = 0) ∧
    (BearerState.free.view = .idle ∧ (BearerState.active (callOf 3 1)).view = .busy ∧
      (BearerState.active (callOf 3 1)).reference? = some (audit 1 1).reference ∧ (BearerState.blocked .far).view = .blocked) :=
  ⟨by decide, rfl, by decide, by decide, by decide, by decide, by decide, by decide,
    fun _ _ _ _ => ⟨plain_of (by rfl), rfl, rfl, rfl, rfl⟩, by decide⟩

theorem witness_AuditDisagreementIsResolved :
    base.Quietly .auditConflict ∧
    (∀ st ∈ [BearerState.free, .guarded 77 (sec 101) false, .guarded 77 (sec 101) true, .unavailable false], let x := audited st (sec 99) 1
      x.Plain ∧ x.isUp = true ∧ (x.bearer 0).state = st ∧ (x.bearer 0).entered + ms 200 ≤ x.now ∧ 1 ≤ (x.bearer 0).disagreements) ∧
    (∀ x ∈ [talking, ringing true, reserved (sec 103)],
      soundB x = true ∧ (x.bearer 0).entered + ms 200 ≤ x.now ∧ (x.line 3).loop = .opened) ∧
    (callOf 3 1).reference ≠ (audit 1 77).reference :=
  ⟨.inr rfl, fun st h => by
      simp only [List.mem_cons, List.not_mem_nil, or_false] at h
      rcases h with rfl | rfl | rfl | rfl <;> exact ⟨plain_of (by decide), rfl, rfl, by decide, by decide⟩,
    by decide, by decide⟩

/-- Four lines listed for tests. -/
def listed : List DemandEntry := [⟨8, .link⟩, ⟨9, .link⟩, ⟨10, .localPort⟩, ⟨11, .link⟩]

theorem witness_TestRequestsAreJudged :
    (base.Sound ∧ base.waiting = [] ∧ base.quality.plan = none ∧ base.Serves .link ∧ lineOf 3 = some 3 ∧ (base.line 3).state = .idle ∧
      base.testing.inService = true ∧ base.testing.demand = [] ∧ base.testing.test = none) ∧
    ((lineIn base 3 (.parked .unfitted)).Sound ∧ ((lineIn base 3 (.parked .unfitted)).line 3).state = .parked .unfitted) ∧
    (talking.Sound ∧ talking.Serves .link ∧ (talking.line 3).state ≠ .idle ∧ ∀ c, (talking.line 3).state ≠ .parked c) ∧
    (let x : State := { base with testing := { Testing.powerOn with inService := false } }
     x.Sound ∧ x.Serves .link ∧ x.testing.inService = false) ∧
    (let x : State := { base with testing := { Testing.powerOn with demand := listed, test := some ⟨7, .routine, .settling, sec 101⟩ } }
     x.Sound ∧ x.Serves .link ∧ (∃ e ∈ x.testing.demand, e.line = 8) ∧ (∀ e ∈ x.testing.demand, e.line ≠ 3) ∧ 4 ≤ x.testing.demand.length) ∧
    (let x : State := { base with testing := { Testing.powerOn with demand := listed.tail, test := some ⟨7, .routine, .settling, sec 101⟩ } }
     x.Sound ∧ x.Serves .link ∧ (∀ e ∈ x.testing.demand, e.line ≠ 3) ∧ x.testing.demand.length < 4 ∧ x.testing.test.isSome = true) :=
  ⟨⟨sound_of (by decide), rfl, rfl, serves_of rfl (by decide), rfl, rfl, rfl, rfl, rfl⟩, ⟨sound_of (by decide), rfl⟩,
    ⟨sound_of (by decide), serves_of rfl (by decide), by decide, nofun⟩, ⟨sound_of (by decide), serves_of rfl (by decide), rfl⟩,
    ⟨sound_of (by decide), serves_of rfl (by decide), by decide, by decide, by decide⟩,
    sound_of (by decide), serves_of rfl (by decide), by decide, by decide, rfl⟩

theorem witness_TestsAreStarted :
    (base.Sound ∧ base.Serves .link ∧ base.testing.demand = [] ∧ (∀ k : LineNo, base.now < (base.line k).testDue)) ∧
    (let x := onLine (onLine base 9 (fun r => { r with testDue := sec 99 })) 4 (fun r => { r with testDue := sec 99 })
     x.Sound ∧ x.waiting = [] ∧ x.quality.plan = none ∧ x.testing.inService = true ∧ x.testing.test = none ∧ x.testing.demand = [] ∧
     x.ring.supply ≠ .reserve ∧ (x.line 4).state = .idle ∧ (x.line 4).testDue ≤ x.now ∧
     ∀ k : LineNo, k ≠ 4 → (x.line k).state = .idle ∨ (x.line k).state = .parked .fault → (x.line k).testDue ≤ x.now →
        (x.line 4).testDue < (x.line k).testDue ∨ ((x.line 4).testDue = (x.line k).testDue ∧ 4 < k)) ∧
    (∀ timer ∈ [sec 100, sec 100 + 1], (testing .routine .settling timer (.testing none)).Sound) ∧
    (testing .routine .measuring (sec 103) (.testing none)).Sound :=
  ⟨⟨sound_of (by decide), serves_of rfl (by decide), rfl, by decide⟩,
    ⟨sound_of (by decide), rfl, rfl, rfl, rfl, rfl, by decide, rfl, by decide, by decide⟩,
    fun _ _ => sound_of (by rfl), sound_of (by decide)⟩

theorem witness_MeasurementEndsTheTest :
    (∀ kind ∈ [TestKind.routine, .demand .localPort], ∀ phase ∈ [TestPhase.settling, .measuring],
      ∀ st ∈ [LineState.testing none, .testing (some .fault), .testing (some .outOfService)], let x := testing kind phase (sec 103) st
      x.Sound ∧ x.waiting = [] ∧ x.quality.plan = none ∧ x.testing.test = some { line := 3, kind := kind, phase := phase, timer := sec 103 } ∧
      x.testing.demand = [] ∧ (x.line 3).state = st ∧ (x.line 3).loop = .opened) ∧
    0 < base.param .sweepPeriod ∧ (∀ k : LineNo, k ≠ 3 → base.now < (base.line k).testDue) ∧
    (codesOf 1999 150000 0).outcome = .faulty ∧ (codesOf 2000 150000 10000).outcome = .good ∧ (codesOf 2000 149999 0).outcome = .marginal ∧
    base.param .parkThreshold ≤ min 5 (1 + 1) ∧ min 5 (0 + 1) < base.param .parkThreshold :=
  ⟨fun _ _ _ _ _ _ => ⟨sound_of (by rfl), rfl, rfl, rfl, rfl, rfl, rfl⟩, by decide, by decide, by decide, by decide, by decide, by decide, by decide⟩

theorem witness_TestsAreAborted :
    (∀ timer ∈ [sec 100, sec 100 + 1], ∀ st ∈ [LineState.testing none, .testing (some .fault)], let x := testing .routine .measuring timer st
      x.Sound ∧ x.waiting = [] ∧ x.quality.plan = none ∧ x.testing.demand = [] ∧ (x.line 3).state = st ∧ (x.line 3).loop = .opened ∧
      x.isUp = true) ∧
    (∀ k : LineNo, base.now < (base.line k).testDue) ∧ base.lowestFree = some 0 ∧ (full base).lowestFree = none ∧
    (let x := testing .routine .measuring (sec 100) (.testing none)
     let y : State := { x with testing := { x.testing with timeoutRun := 1 } }
     y.Sound ∧ 0 < y.testing.timeoutRun) :=
  ⟨fun _ _ _ _ => ⟨sound_of (by rfl), rfl, rfl, rfl, rfl, rfl, rfl⟩, by decide, by decide, by decide, sound_of (by decide), by decide⟩

theorem witness_LinkControlIsAnswered :
    (let x : State := { base with link := { base.link with state := .disabled, window := none } }
     x.unit.mode = .service ∧ x.Serves .localPort ∧ x.link.state = .disabled ∧ x.messages.localQueue.length < 15) ∧
    (base.Serves .link ∧ base.link.state ≠ .disabled) ∧
    (let x : State := { base with link := { base.link with state := .hunt { cycle := 0, noSync := false, hold := some (sec 100 + 1) } } }
     ∀ expiry, x.link.state.hold? = some expiry → x.now < expiry) :=
  ⟨⟨rfl, serves_of rfl (by decide), rfl, by decide⟩, ⟨serves_of rfl (by decide), by decide⟩,
    fun _ h => by cases h; decide⟩

theorem witness_LinkIsTakenDown :
    (∀ l b, ((ringing true).line l).state = .ringing b → ((ringing true).line l).loop = .opened) ∧
    ((ringing true).Sound ∧ (ringing true).HeadIdle ∧ (ringing true).Serves .link ∧ (ringing true).link.state ≠ .disabled ∧
      (ringing true).messages.localQueue.length < 15) ∧
    (let x : State := { talking with link := { base.link with state := .hunt { cycle := 0, noSync := false, hold := some (sec 100) } } }
     x.Sound ∧ x.HeadIdle ∧ x.Quietly .linkLost ∧ ∃ expiry, x.link.state.hold? = some expiry ∧ expiry ≤ x.now) :=
  ⟨by decide, ⟨sound_of (by decide), headIdle_of (by decide), serves_of rfl (by decide), by decide, by decide⟩,
    sound_of (by decide), headIdle_of (by decide), .inr rfl, _, rfl, by decide⟩

theorem witness_FrameIsAssembled :
    (base.unit.mode = .service ∧ base.Clean ∧ base.now % ms 10 = 0 ∧ base.link.switchDue = none ∧ base.link.state ≠ .disabled ∧
      base.isUp = true ∧ (0 : BearerNo).val = base.coder.txNumber.toNat % 8) ∧
    (let x : State := { base with unit := UnitRecord.powerOn }
     x.unit.mode = .start ∧ x.Clean ∧ x.now % ms 10 = 0 ∧ x.link.switchDue = none) ∧
    (let x : State := { base with link := { base.link with state := .hunt Episode.fresh, announcement := some { next := .standard, countdown := 1 } } }
     x.Clean ∧ x.isUp = false ∧ x.link.state ≠ .disabled ∧ x.link.switchDue = none) ∧
    ({ base with now := sec 100 + 1 } : State).now % ms 10 ≠ 0 :=
  ⟨⟨rfl, clean_of (by decide), by decide, rfl, by decide, rfl, by decide⟩, ⟨rfl, clean_of (by decide), by decide, rfl⟩,
    ⟨clean_of (by decide), rfl, by decide, rfl⟩, by decide⟩

/-- The step-down of moving is due. -/
def switching : State :=
  { moving with link := { moving.link with announcement := none, switchDue := some .robust } }

theorem witness_SwitchMovesTheCalls :
    (switching.Sound ∧ switching.HeadIdle ∧ switching.isUp = true ∧ switching.waiting = [] ∧ switching.now % ms 10 = 0 ∧
      switching.link.switchDue = some .robust ∧ switching.quality.mode = .auto ∧
      switching.quality.plan = some { target := .robust, phase := .countdown [⟨5, 0⟩], forced := false } ∧
      switching.coder.relocations = [{ pairs := [⟨5, 0⟩], target := .robust, switched := false }] ∧
      ([⟨5, 0⟩].map Pair.source).Nodup ∧ ([⟨5, 0⟩].map Pair.dest).Nodup ∧
      Rate.robust.capacity ≤ (5 : BearerNo).val ∧ (0 : BearerNo).val < Rate.robust.capacity ∧
      ∃ c, (switching.bearer 5).state.call? = some c ∧ (switching.line c.line).state.bearer? = some 5) ∧
    (let x : State := { base with link := { base.link with switchDue := some .standard } }
     x.Sound ∧ x.HeadIdle ∧ x.quality.plan = none) :=
  ⟨⟨sound_of (by decide), headIdle_of (by decide), rfl, rfl, by decide, rfl, rfl, rfl, rfl, by decide, by decide, by decide, by decide, _, rfl,
      rfl⟩, sound_of (by decide), headIdle_of (by decide), rfl⟩

/-- A frame with its alignment word, a number and a control byte, and zeros after them: a record of bearer 0 as IDLE, and EMPTY. -/
def goodFrame (number control : Byte) : RxFrame :=
  { bits := frameSequence ^^^ ((0xD35A : BitVec 16) ++ number ++ control ++ (0 : BitVec 1408)), hard := 0, before := 0 }

theorem test_good_frame_descrambles (n c : Byte) :
    descrambled (goodFrame n c) = (0xD35A : BitVec 16) ++ n ++ c ++ (0 : BitVec 1408) := by
  unfold descrambled goodFrame
  rw [BitVec.xor_comm, ← BitVec.xor_assoc, BitVec.xor_self, BitVec.zero_xor]

theorem test_good_frame_is_not_damaged (n c : Byte) : damaged (goodFrame n c) = false := by
  have h : (goodFrame n c).bits.extractLsb' 1424 16 = 0xD35A := by
    rw [goodFrame, BitVec.extractLsb'_xor, frameSequence_head, extractLsb'_append_high _ _ _ _ (by decide),
      extractLsb'_append_high _ _ _ _ (by decide), extractLsb'_append_high _ _ _ _ (by decide)]
    decide
  unfold damaged alignmentErrors
  rw [h]
  decide

theorem test_good_frame_number (n c : Byte) : frameNumberOf (goodFrame n c) = n ∧ controlOf (goodFrame n c) = c := by
  unfold frameNumberOf controlOf
  rw [test_good_frame_descrambles, extractLsb'_append_high _ _ _ _ (by decide), extractLsb'_append_high _ _ _ _ (by decide),
    extractLsb'_append_low _ _ _ _ (by decide), extractLsb'_append_high _ _ _ _ (by decide),
    extractLsb'_append_low _ _ _ _ (by decide)]
  exact ⟨BitVec.extractLsb'_eq_self, BitVec.extractLsb'_eq_self⟩

/-- The re-encoded bits are 1920 (05, R93). -/
theorem test_disagreements_are_bounded (r : Rate) (f : RxFrame) : disagreementsOf r f ≤ 1920 := by
  unfold disagreementsOf hardDecisions
  refine Nat.le_trans (List.length_filter_le _ _) ?_
  rw [List.length_zip]
  simp only [List.length_map, List.length_range]
  exact Nat.min_le_right _ _

/-- Line 3 CONNECTED, some damaged frames in a row, frame 7 expected or none, some frames of the BER window seen. -/
def listening (frames disagreements damaged : Nat) (expected : Option Byte) : State :=
  { busy with
    pending := []
    link := { base.link with state := .up 0 damaged }
    quality := { Quality.powerOn with window := some { frames := frames, disagreements := disagreements, length := 100 }, firstWindow := false }
    coder := { busy.coder with expected := expected } }

/-- Line 3's call on a bearer, and the pairs of step-downs that the Link Coder keeps, at a receive rate. -/
def relocating (b : BearerNo) (rate : Rate) (relocations : List Relocation) : State :=
  { bearerIn (lineIn base 3 (.connected b)) b (.active (callOf 3 1)) with
    active := [b], coder := { Coder.powerOn with rxRate := rate, relocations := relocations } }

/-- The pair of a step-down to Robust whose transmit switch is to come, and the pair of one to Standard, whose call it moves on. -/
def second : Relocation := { pairs := [⟨5, 0⟩], target := .robust, switched := false }

/-- The older step-down, after its transmit switch. -/
def first : Relocation := { pairs := [⟨7, 5⟩], target := .standard, switched := true }

theorem test_one_bearer_is_active (b : BearerNo) (rate : Rate) (rs : List Relocation) :
    let x := relocating b rate rs
    ∀ i k c d, (x.bearer i).state = .active c → (x.bearer k).state = .active d → c.line = d.line → i = k := by
  intro x i k c d hi hk _
  have one : ∀ j : BearerNo, j ≠ b → (x.bearer j).state.call? = none := by
    have : ∀ b j : BearerNo, j ≠ b → ((relocating b .robust []).bearer j).state.call? = none := by decide
    exact this b
  by_cases h : i = b
  · by_cases j : k = b
    · rw [h, j]
    · have := one k j; rw [hk] at this; cases this
  · have := one i h; rw [hi] at this; cases this

/-- The state in which the last part of an arrival of a good frame is taken. -/
theorem test_good_frame_arrival :
    let y := (listening 99 9999 2 (some 7)).beforeClose (goodFrame 7 0)
    soundB y = true ∧ y.link = (listening 99 9999 2 (some 7)).link ∧ y.rateAfter (goodFrame 7 0) = y.coder.rxRate ∧
      y.coder.rxRate = .robust ∧ y.quality.window = some { frames := 99, disagreements := 9999, length := 100 } ∧
      y.quality.mode = .auto ∧ y.quality.plan = none ∧ y.quality.qFar = 0 ∧ y.changing = false := by decide +kernel

/-- The state in which the last part of an arrival of a damaged frame is taken, the third and the fourth in a row. -/
theorem test_damaged_frame_arrival : ∀ n ∈ [2, 3],
    let x := listening 98 0 n none
    let y := x.beforeClose frame
    damaged frame = true ∧ soundB y = true ∧ y.link = x.link ∧ y.rateAfter frame = y.coder.rxRate ∧ y.coder.rxRate = y.link.rate ∧
      y.quality.window = some { frames := 98, disagreements := 0, length := 100 } := by decide +kernel

/-- Nothing waits for the end of that arrival after the audit slot, nor after the message slot. -/
theorem test_parts_leave_nothing : let x := listening 98 0 2 none
    ((x.part (·.openFrame frame)).part (·.takeAuditSlot frame)).work = {} ∧ (x.beforeClose frame).work = {} := by decide +kernel

/-- 11, R177: TABLE_PARITY, routed RESTART_UNIT and found as the frame arrives, waits until the frame has been counted. -/
theorem test_restart_follows_the_counts :
    let x := (listening 98 0 2 none).writeRouting .tableParity .restartUnit
    let s := x.withBearer 1 { x.bearer 1 with parityBad := true }
    let y := s.beforeClose frame
    y.takesFrames = true ∧ y.work.ordered.map (·.kind) = [.tableParity] ∧ (y.closeFrame frame).link.state = .up 0 3 ∧
      (s.takeFrame frame).unit.mode = .start ∧ (s.takeFrame frame).unit.cause = .error .tableParity := by decide +kernel

theorem test_field_bytes (hi lo : Byte) : hiByte (toWord hi lo) = hi ∧ loByte (toWord hi lo) = lo := by
  unfold hiByte loByte toWord
  rw [extractLsb'_append_high _ _ _ _ (by decide), extractLsb'_append_low _ _ _ _ (by decide)]
  exact ⟨BitVec.extractLsb'_eq_self, BitVec.extractLsb'_eq_self⟩

/-- Every frame's two slots are a record of the audit and a record, with their check bytes (05, R90). -/
theorem test_slots (f : RxFrame) : ∃ (a : AuditSlot) (check : Byte) (r : Record) (c : Byte),
    slotOf f 4 = [a.index, a.view, a.line, hiByte a.reference, loByte a.reference, hiByte a.quality, loByte a.quality, check] ∧
      slotOf f 12 = [r.kind, r.b1, r.b2, r.b3, r.b4, r.b5, r.b6, c] :=
  let b (i : Nat) : Byte := (descrambled f).extractLsb' (1432 - 8 * (4 + i)) 8
  ⟨{ index := b 0, view := b 1, line := b 2, reference := toWord (b 3) (b 4), quality := toWord (b 5) (b 6) }, b 7,
    ⟨_, _, _, _, _, _, _⟩, _, by
      simp only [(test_field_bytes _ _).1, (test_field_bytes _ _).2]
      rfl, rfl⟩

theorem witness_FrameIsTaken :
    (State.reset.isUp = false ∧ ({ base with unit := UnitRecord.powerOn } : State).unit.mode ≠ .service) ∧
    (∀ expected ∈ [none, some (7 : Byte), some 9], let x := listening 98 0 2 expected
      x.Sound ∧ x.isUp = true ∧ x.coder.expected = expected ∧
      ∀ c, (x.bearer 0).state = .active c → x.coder.conceal[c.line.val] = some { lastGood := none, run := 0 }) ∧
    (∀ w ∈ [((5 : BearerNo), Rate.robust, [second]), (5, .standard, [second]), (5, .standard, [second, first]), (5, .wide, [second, first]),
        (0, .robust, [{ second with switched := true }])],
      let x := relocating w.1 w.2.1 w.2.2
      x.Sound ∧ x.isUp = true ∧ (x.bearer w.1).state = .active (callOf 3 1) ∧ ∀ m ∈ x.coder.relocations, (m.pairs.map m.bearerOf).Nodup) ∧
    (second.bearerOf ⟨5, 0⟩ = 5 ∧ first.bearerOf ⟨7, 5⟩ = 5 ∧ (5 : BearerNo).val < Rate.standard.capacity ∧
      (7 : BearerNo).val < Rate.wide.capacity ∧ (0 : BearerNo).val < Rate.robust.capacity) ∧
    (∃ (a : AuditSlot) (check : Byte) (r : Record) (c : Byte),
      slotOf frame 4 = [a.index, a.view, a.line, hiByte a.reference, loByte a.reference, hiByte a.quality, loByte a.quality, check] ∧
      slotOf frame 12 = [r.kind, r.b1, r.b2, r.b3, r.b4, r.b5, r.b6, c]) ∧
    (let y := (listening 98 0 2 none).beforeClose frame
     y.unit.mode = .service ∧ y.link.state = .up 0 2 ∧ y.rateAfter frame = y.coder.rxRate ∧ 98 + 1 < 100) ∧ (2 : Nat) < 3 ∧
    (let x := listening 98 0 2 none
     ((x.part (·.openFrame frame)).part (·.takeAuditSlot frame)).work = {} ∧ (x.beforeClose frame).work = {}) := by
  have h := test_damaged_frame_arrival 2 (by decide)
  refine ⟨⟨rfl, by decide⟩, fun _ _ => ⟨sound_of (by rfl), rfl, rfl, fun c hc => ?_⟩, fun w hw => ?_, by decide, test_slots frame, ⟨(sound_of h.2.1).service, ?_, h.2.2.2.1, by decide⟩, by decide, test_parts_leave_nothing⟩
  · have : callOf 3 1 = c := BearerState.active.inj hc
    subst this; rfl
  · simp only [List.mem_cons, List.not_mem_nil, or_false] at hw
    rcases hw with rfl | rfl | rfl | rfl | rfl <;> exact ⟨sound_of (by decide), rfl, rfl, by decide⟩
  · rw [h.2.2.1]; rfl

/-- A link with an announcement of Standard, whose receive rate is still Robust; and the frame at which the receive rate changes. -/
def announcing : State :=
  { base with link := { base.link with announcement := some { next := .standard, countdown := 3 } } }

theorem test_switch_frame_arrival :
    let y := announcing.beforeClose (goodFrame 7 0x11)
    y.unit.mode = .service ∧ y.link.state = .up 0 0 ∧ y.rateAfter (goodFrame 7 0x11) ≠ y.coder.rxRate := by decide +kernel

theorem witness_ReceiveRateFollows :
    (announcing.coder.sinceSwitch = none ∧ damaged (goodFrame 7 0x11) = false ∧ nextCode 0x11 = Rate.standard.code ∧ currentCode 0x11 ≤ 2 ∧
      countdownOf 0x11 = 1 ∧ countdownOf 0x1F = 15 ∧ ∃ a, announcing.link.announcement = some a ∧ a.next = .standard) ∧
    (∀ k ∈ [15, 16], let x : State := { base with link := { base.link with rate := .standard }, coder := { Coder.powerOn with sinceSwitch := some k } }
     x.coder.sinceSwitch = some k ∧ x.coder.rxRate ≠ x.link.rate) ∧
    (∀ n ∈ [2, 3], let x : State := { base with link := { base.link with rate := .standard }
                                                coder := { Coder.powerOn with rxCountdown := some { next := .standard, count := n } } }
     x.coder.rxCountdown = some { next := .standard, count := n }) ∧
    (let y := announcing.beforeClose (goodFrame 7 0x11)
     y.unit.mode = .service ∧ y.link.state = .up 0 0 ∧ y.rateAfter (goodFrame 7 0x11) ≠ y.coder.rxRate) ∧
    (second.switched = false ∧ first.switched = true) :=
  ⟨⟨rfl, test_good_frame_is_not_damaged _ _, by decide, by decide, by decide, by decide, _, rfl, rfl⟩,
    fun _ _ => ⟨rfl, (by decide : Rate.robust ≠ .standard)⟩, fun _ _ => rfl, test_switch_frame_arrival, rfl, rfl⟩

theorem witness_SyncLossBeginsTheHold :
    (∀ bad ∈ [0, 1], let x : State := { base with link := { base.link with state := .up bad 3 } }
      x.unit.mode = .service ∧ x.ErrorsOk ∧ x.link.state = .up bad 3 ∧ x.coder.rxRate = x.link.rate ∧ x.link.window = some 4096) ∧
    (¬ base.threshold base.link.rate < base.threshold base.link.rate) ∧ base.threshold base.link.rate < 41 ∧
    (∀ n ∈ [2, 3], let v := (listening 98 0 n none).beforeClose frame
      v.unit.mode = .service ∧ v.link.state = .up 0 n ∧ damaged frame = true ∧ v.rateAfter frame = v.coder.rxRate ∧
      v.coder.rxRate = v.link.rate) ∧
    (let x := listening 98 0 3 none
     x.Sound ∧ x.isUp = true ∧ (x.bearer 0).state = .active (callOf 3 1) ∧
     x.coder.conceal[(callOf 3 1).line.val] = some { lastGood := none, run := 0 }) ∧
    ∀ b c, ((listening 98 0 3 none).bearer b).state = .active c → c.line = 3 → b = 0 := by
  refine ⟨fun _ _ => ⟨rfl, errors_of (by rfl), rfl, rfl, rfl⟩, by decide, by decide, fun n hn => ?_, ⟨sound_of (by decide), rfl, rfl, rfl⟩, ?_⟩
  · have h := test_damaged_frame_arrival n hn
    exact ⟨(sound_of h.2.1).service, by rw [h.2.2.1]; rfl, h.1, h.2.2.2.1, h.2.2.2.2.1⟩
  · intro b c hb _
    have one : ∀ j : BearerNo, j ≠ 0 → ((listening 98 0 3 none).bearer j).state.call? = none := by decide
    by_cases h : b = 0
    · exact h
    · have := one b h; rw [hb] at this; cases this

/-- A search with one trial that expects the word at 960. -/
def searching (confirmations : Nat) : State :=
  { base with link := { base.link with state := .verify Episode.fresh [{ position := 0, confirmations := confirmations }] } }

theorem witness_SearchFollowsItsWindowsAndWords :
    ((searching 0).Sound ∧ (searching 0).link.window = some 4096 ∧ (searching 0).link.rate.infoBits = 960 ∧ 8 * 960 ≤ 7680 ∧ 7679 < 8 * 960 ∧
      7664 + 16 ≤ 8 * 960 ∧ 8 * 960 < 7665 + 16) ∧
    (∀ after ∈ [[{ position := 0, confirmations := 1 }], [], [⟨0, 0⟩, ⟨100, 0⟩]], ∀ q ∈ after, (q : Trial).confirmations < 3) ∧
    (∀ e ∈ [Episode.fresh, { cycle := 1, noSync := false, hold := none }], ∀ carried,
      let x : State := { base with link := { base.link with state := .hunt e, carried := carried } }
      x.Sound ∧ x.link.state = .hunt e ∧ x.link.carried = carried) ∧
    (Episode.fresh.cycle + 1 < base.link.rate.candidates ∧ ¬ 1 + 1 < base.link.rate.candidates) ∧ base.link.state = .up 0 0 ∧
    ∀ rate : Rate, 0 < rate.candidates ∧ 0 < rate.period :=
  ⟨⟨sound_of (by decide), rfl, rfl, by decide, by decide, by decide, by decide⟩, by decide, fun _ _ _ => ⟨sound_of (by rfl), rfl, rfl⟩,
    by decide, rfl, fun rate => by cases rate <;> decide⟩

theorem witness_ThirdConfirmationEntersUp :
    (searching 2).Plain ∧ (searching 2).link.state = .verify Episode.fresh [{ position := 0, confirmations := 2 }] ∧
      (searching 2).quality.mode = .auto ∧ 2880 + 16 ≤ 8 * (searching 2).link.rate.infoBits ∧
      ∃ q ∈ [({ position := 0, confirmations := 2 } : Trial)], q.confirmations = 2 ∧ q.position + (searching 2).link.rate.infoBits * 3 = 2880 :=
  ⟨plain_of (by decide), rfl, rfl, by decide, by decide⟩

/-- A frame arrival that completes a BER window: the rate, the disagreements so far and the quality record. -/
def judging (rate : Rate) (disagreements : Nat) (quality : Quality → Quality) : State :=
  let x := (listening 99 disagreements 2 (some 7)).writeParam .upR 12000
  { x with link := { x.link with rate := rate }, coder := { x.coder with rxRate := rate }, quality := quality x.quality }

/-- The cases of R123 to R127: an up run begins, a step-up, a critical decision, the mode FIXED, a down run begins, no run. -/
def judgings : List State :=
  [judging .robust 0 id, judging .robust 0 (fun q => { q with upRun := 9 }), judging .standard 9999 (fun q => { q with firstWindow := true }),
    judging .robust 0 (fun q => { q with mode := .fixed .robust }),
    (judging .standard 300 (fun q => { q with firstWindow := true })).writeParam .critical 20000,
    judging .robust 9999 (fun q => { q with firstWindow := true })]

theorem test_judged_arrival : ∀ x ∈ judgings,
    let y := x.beforeClose (goodFrame 7 0)
    soundB y = true ∧ y.link = x.link ∧ y.params = x.params ∧ y.quality = { x.quality with qFar := 0 } ∧ y.coder.rxRate = x.coder.rxRate ∧
      y.rateAfter (goodFrame 7 0) = y.coder.rxRate ∧ ∀ b ∈ allBearers, 5 ≤ b.val → (y.bearer b).state.call? = none := by decide +kernel

theorem witness_BerWindowIsJudged :
    (∀ x ∈ judgings, let y := x.beforeClose (goodFrame 7 0)
      y.Sound ∧ y.link.state = .up 0 2 ∧ y.rateAfter (goodFrame 7 0) = y.coder.rxRate ∧ damaged (goodFrame 7 0) = false ∧
      y.changing = false ∧ y.quality.plan = none ∧ y.quality.qFar = 0 ∧ y.quality.window = x.quality.window ∧ y.link.rate = x.link.rate ∧
      (∀ p, y.param p = x.param p) ∧ ∀ b : BearerNo, 5 ≤ b.val → (y.bearer b).state.call? = none) ∧
    (∀ x ∈ judgings.take 2, x.quality.window = some { frames := 99, disagreements := 0, length := 100 } ∧ x.quality.qNear = 0 ∧
      x.quality.mode = .auto ∧ x.param .upR = 12000) ∧
    (∀ d ≤ 1920, ∀ e, e = min 65535 ((0 + d) * 1000000 / ((99 + 1) * 1920)) → max ((7 * 0 + e + 4) / 8) 0 < 12000) ∧
    (∀ d ≤ 1920, ∀ e, e = min 65535 ((9999 + d) * 1000000 / ((99 + 1) * 1920)) → base.param .critical < max e 0 ∧ 12000 ≤ max e 0) ∧
    (∀ d ≤ 1920, ∀ e, e = min 65535 ((300 + d) * 1000000 / ((99 + 1) * 1920)) → base.param .downS < max e 0 ∧ max e 0 ≤ 20000) ∧
    0 + 1 < base.param .upRunLength ∧ base.param .upRunLength ≤ 9 + 1 ∧ 0 + 1 < base.param .downRunLength := by
  have pc : base.param .critical = 8000 := by decide
  have pd : base.param .downS = 1500 := by decide
  refine ⟨fun x hx => ?_, by decide, fun d hd e he => by omega, fun d hd e he => by omega, fun d hd e he => by omega, by decide, by decide,
    by decide⟩
  obtain ⟨h1, h2, h3, h4, h5, h6, h7⟩ := test_judged_arrival x hx
  have c : ∀ x ∈ judgings, x.link.state = .up 0 2 ∧ x.quality.plan = none ∧ x.changing = false := by decide
  obtain ⟨c1, c2, c3⟩ := c x hx
  refine ⟨sound_of h1, by rw [h2]; exact c1, h6, test_good_frame_is_not_damaged _ _, ?_, by rw [h4]; exact c2, by rw [h4], by rw [h4],
    by rw [h2], fun p => by unfold State.param; rw [h3], fun b hb => h7 b (by unfold allBearers; fin_cases b <;> simp) hb⟩
  unfold State.changing at c3 ⊢
  rw [h2, h4]
  exact c3

/-- At Standard, with line 3's call on bearer 5. -/
def crowded : State :=
  { bearerIn (lineIn base 3 (.connected 5)) 5 (.active (callOf 3 1)) with
    active := [5], link := { base.link with rate := .standard }, coder := { Coder.powerOn with rxRate := .standard } }

/-- Bearers 0 to 3 BLOCKED, ORDINARY calls on bearer 4 and on bearer 5. -/
def overfull : State :=
  { bearerIn (bearerIn (lineIn (full crowded) 9 (.connected 4)) 4 (.active (callOf 9 3))) 5 (.active (callOf 3 1)) with active := [5, 4] }

/-- The calls, and the bearers below 5 that are lost to them. -/
def calls (s : State) : List BearerNo := allBearers.filter (fun b => (s.bearer b).state.call?.isSome)

theorem witness_StepDownIsPlannedAndForced :
    (crowded.Sound ∧ crowded.HeadIdle ∧ crowded.waiting = [] ∧ crowded.isUp = true ∧ crowded.Serves .link ∧
      crowded.quality.plan = none ∧ crowded.link.announcement = none ∧ crowded.link.switchDue = none ∧
      Rate.robust.code < crowded.link.rate.code ∧
      (allBearers.filter (fun b => (crowded.bearer b).state.call?.isSome && decide (5 ≤ b.val))).length ≤
        (allBearers.filter (fun b => decide ((crowded.bearer b).state = .free) && decide (b.val < 5))).length ∧
      crowded.messages.linkQueue.length + 1 < 16) ∧
    (let x := full crowded
     x.Sound ∧ x.HeadIdle ∧ x.Serves .link ∧ (allBearers.filter (fun b => decide ((x.bearer b).state = .free) && decide (b.val < 5))).length <
       (allBearers.filter (fun b => (x.bearer b).state.call?.isSome && decide (5 ≤ b.val))).length ∧ x.param .drainLimit ≠ 0) ∧
    (∀ expiry ∈ [sec 100, sec 100 + 1],
      let x : State := { overfull with
        quality := { Quality.powerOn with plan := some { target := .robust, phase := .drain (some expiry), forced := false } } }
      x.Sound ∧ x.HeadIdle ∧ x.waiting = [] ∧ x.isUp = true) ∧
    (let x := bearerIn (full crowded) 4 (.guarded 7 (sec 101) false)
     (allBearers.filter (fun b => (x.bearer b).state.call?.isSome && decide (5 ≤ b.val))).length ≤
       (allBearers.filter (fun b => decide ((x.bearer b).state = .free) && decide (b.val < 5))).length +
       (allBearers.filter (fun b => (x.bearer b).state.isClearing && decide (b.val < 5))).length) ∧
    (let x := overfull
     let count : (BearerNo → Bool) → Nat := fun f => (allBearers.filter f).length
     count (fun b => decide ((x.bearer b).state = .free) && decide (b.val < 5)) +
       count (fun b => (x.bearer b).state.isClearing && decide (b.val < 5)) <
       count (fun b => (x.bearer b).state.call?.isSome && decide (5 ≤ b.val)) ∧ (4 : BearerNo).val < 5 ∧
     (∀ i : BearerNo, (x.bearer i).state.isSetup = false) ∧ x.active = [5] ++ 4 :: [] ∧ (x.bearer 4).state = .active (callOf 9 3) ∧
     (4 : BearerNo) ∉ [(5 : BearerNo)] ++ [] ∧
     count (fun b => (x.bearer b).state.call?.isSome) + count (fun b => (x.bearer b).state.isLost && decide (b.val < 5)) = 5 + 1) :=
  ⟨⟨sound_of (by decide), headIdle_of (by decide), rfl, rfl, serves_of rfl (by decide), rfl, rfl, rfl, by decide,
      by decide, by decide⟩,
    ⟨sound_of (by decide), headIdle_of (by decide), serves_of rfl (by decide), by decide, by decide⟩,
    fun _ _ => ⟨sound_of (by rfl), headIdle_of (by rfl), rfl, rfl⟩, by decide, by decide, by decide, by decide, rfl, rfl, by decide, by decide⟩

theorem witness_OnIntervalsRingTheirPhase :
    ((ringing true).Plain ∧ (ringing true).now % sec 3 = sec (1 : PhaseNo).val ∧ (ringing true).now % sec 3 ≠ sec (0 : PhaseNo).val ∧
      (ringing true).now % sec 3 = sec ((0 : PhaseNo).val + 1) % sec 3 ∧
      (∀ e ∈ (ringing true).phase 0, e.relay = true → e.rings + 1 < (ringing true).param .ringLimit)) ∧
    (let x : State := { ringing true with ring := { Ring.powerOn with
       phases := (Vector.replicate 3 []).set 0 [{ line := 3, rings := 14, placed := sec 50, relay := true }] } }
     x.Plain ∧ (x.phase 0).filter (fun e => e.relay && decide (x.param .ringLimit ≤ e.rings + 1)) =
       [{ line := 3, rings := 14, placed := sec 50, relay := true }] ∧ (x.line 3).state = .ringing 0 ∧ (x.line 3).loop = .opened) ∧
    ({ base with now := sec 101 } : State).now % sec 3 = sec (2 : PhaseNo).val ∧
    ({ base with now := sec 102 } : State).now % sec 3 = sec ((2 : PhaseNo).val + 1) % sec 3 :=
  ⟨⟨plain_of (by decide), by decide, by decide, by decide, by decide⟩, ⟨plain_of (by decide), by decide, rfl, rfl⟩,
    by decide, by decide⟩

theorem witness_SupplyStatesAreAccepted :
    (base.Plain ∧ base.testing.demand = [] ∧ (∀ l : LineNo, base.now < (base.line l).testDue) ∧ base.now % ms 5 = 0 ∧
      base.ring.supply = .normal ∧ base.ring.candidate = none) ∧
    (∀ since ∈ [sec 95, sec 95 + 1], let x : State := { base with ring := { Ring.powerOn with candidate := some { state := .reserve, since := since } } }
      x.Plain ∧ x.ring.candidate = some { state := .reserve, since := since } ∧ Supply.reserve.capacity < x.ring.supply.capacity) ∧
    (let x : State := { base with ring := { Ring.powerOn with supply := .reserve, candidate := some { state := .economy, since := sec 95 } } }
     x.Plain ∧ x.ring.supply.capacity < Supply.economy.capacity) ∧ sec 95 + sec 5 = base.now :=
  ⟨⟨test_base_is_plain, rfl, by decide, by decide, rfl, rfl⟩, fun _ _ => ⟨plain_of (by rfl), rfl, (by decide : 1 < 4)⟩,
    ⟨plain_of (by decide), by decide⟩, by decide⟩

end Sys2Proof.Tests
end

section
/-! The bounds of the ring tables (04, R76): every part of every event keeps them. What the operations of Sys2Proof/Laws/Moved.lean do to
the ring tables is cited from there; this file follows the commands' own meanings down to them. -/

namespace Sys2Proof.Machine

open Sys2Proof

/-! ### How the bounds pass through an event -/

theorem State.RingsOk.moved {s u : State} (h : s.RingsOk) (m : s.Moved u) : u.RingsOk := m.rings h

theorem State.RingsOk.of_ring {s u : State} (h : s.RingsOk) (e : u.ring = s.ring) : u.RingsOk := by
  unfold State.RingsOk State.phase at *
  rwa [e]

theorem State.ringsOk_ite {c : Prop} [Decidable c] {a b : State} (ha : a.RingsOk) (hb : b.RingsOk) :
    State.RingsOk (if c then a else b) := by
  split
  · exact ha
  · exact hb

theorem State.ringsOk_foldl {α : Type} {f : State → α → State} (hf : ∀ (x : State) a, x.RingsOk → (f x a).RingsOk)
    (l : List α) {s : State} (h : s.RingsOk) : (l.foldl f s).RingsOk := by
  induction l generalizing s with
  | nil => exact h
  | cons a l ih => exact ih (hf s a h)

theorem next_ringsOk {u v : State} (e : Host.Outcome.next v = (Host.Outcome.next u : Host.Outcome State Fault Refusal)) (h : v.RingsOk) :
    u.RingsOk := by
  injection e with e
  exact e ▸ h

section
variable {s : State} (h : s.RingsOk)
include h

theorem State.RingsOk.withLink (x) : State.RingsOk { s with link := x } := h

theorem State.RingsOk.withReceiver (x y z) : State.RingsOk { s with link := x, quality := y, coder := z } := h

theorem State.RingsOk.withCoder (x) : State.RingsOk { s with coder := x } := h

theorem State.RingsOk.begin (t : Time) : (s.begin t).RingsOk := h

theorem State.RingsOk.finish : s.finish.RingsOk := h.moved s.moved_finish

theorem State.RingsOk.checkParity (ids) : (s.checkParity ids).RingsOk := h.moved (s.moved_checkParity ids)

theorem State.RingsOk.raise (e) : (s.raise e).RingsOk := h.moved (s.moved_raise e)

theorem State.RingsOk.send (p r) : (s.send p r).RingsOk := h.moved (s.moved_send p r)

theorem State.RingsOk.sendBoth (r) : (s.sendBoth r).RingsOk := h.moved (s.moved_sendBoth r)

theorem State.RingsOk.sendCall (r) : (s.sendCall r).RingsOk := h.moved (s.moved_sendCall r)

theorem State.RingsOk.putLine (l st) : (s.putLine l st).RingsOk := h.moved (s.moved_putLine l st)

theorem State.RingsOk.updLine (l f) : (s.updLine l f).RingsOk := h

theorem State.RingsOk.updSupervision (l f) : (s.updSupervision l f).RingsOk := h

theorem State.RingsOk.putBearer (b st) : (s.putBearer b st).RingsOk := h

theorem State.RingsOk.setDisagreements (b n) : (s.setDisagreements b n).RingsOk := h

theorem State.RingsOk.guardCall (b) : (s.guardCall b).RingsOk := h.moved (s.moved_guardCall b)

theorem State.RingsOk.enterIdle (l) : (s.enterIdle l).RingsOk := h.moved (s.moved_enterIdle l)

theorem State.RingsOk.removeRing (l) : (s.removeRing l).RingsOk := h.moved (s.moved_removeRing l)

theorem State.RingsOk.serveRings : s.serveRings.RingsOk := h.moved s.moved_serveRings

theorem State.RingsOk.takeCall (b st c) : (s.takeCall b st c).RingsOk := h.moved (s.moved_takeCall b st c)

theorem State.RingsOk.stepPlan (forced) : (s.stepPlan forced).RingsOk := h.moved (s.moved_stepPlan forced)

theorem State.RingsOk.fixedCheck : s.fixedCheck.RingsOk := h.moved s.moved_fixedCheck

theorem State.RingsOk.pause : s.pause.RingsOk :=
  ringsOk_ite (h.moved s.moved_settle) (h.moved (s.moved_settle.trans (State.moved_flushReply _)))

theorem State.RingsOk.part {body : State → State} (hb : ∀ x : State, x.RingsOk → (body x).RingsOk) : (s.part body).RingsOk :=
  ringsOk_ite h (hb s h).pause

theorem event_ringsOk {t : Time} {body : State → State} {u : State} (e : event t body s = .next u)
    (hb : ∀ x : State, x.RingsOk → (body x).RingsOk) : u.RingsOk :=
  next_ringsOk e (State.ringsOk_ite (h.begin t) (hb _ (h.begin t)).finish)

theorem anyEvent_ringsOk {t : Time} {body : State → State} {u : State} (e : anyEvent t body s = .next u)
    (hb : ∀ x : State, x.RingsOk → (body x).RingsOk) : u.RingsOk :=
  next_ringsOk e (hb _ (h.begin t)).finish

/-! ### Requests (08, R142) -/

theorem State.RingsOk.recordFault (k src kind) : (s.recordFault k src kind).RingsOk := h.moved (s.moved_recordFault k src kind)

theorem State.RingsOk.refuseWith (p b1 kind c) : (s.refuseWith p b1 kind c).RingsOk := h

theorem State.RingsOk.done (p b1 kind) : (s.done p b1 kind).RingsOk := h

theorem State.RingsOk.formatFailure (p b1 kind) : (s.formatFailure p b1 kind).RingsOk := h.moved (s.moved_formatFailure p b1 kind)

theorem State.RingsOk.request {α : Type} (p b1 kind) (f : Option α) {act : State → α → State} (ha : ∀ x, (act s x).RingsOk) :
    (s.request p b1 kind f act).RingsOk := by
  unfold State.request
  refine ringsOk_ite ?_ h
  cases f with
  | none => exact h.formatFailure p b1 kind
  | some x => exact ringsOk_ite (h.refuseWith p b1 kind _) (ha x)

theorem State.RingsOk.callControl {α : Type} (p b1 kind) (f : Option α) {act : State → α → State} (ha : ∀ x, (act s x).RingsOk) :
    (s.callControl p b1 kind f act).RingsOk := by
  unfold State.callControl
  refine ringsOk_ite ?_ h
  cases f with
  | none => exact h.formatFailure p b1 kind
  | some x =>
    cases p with
    | localPort => exact h.refuseWith .localPort b1 kind _
    | link => exact ha x

/-! ### Call control (03; 04, R71, R72 and R83) -/

theorem State.RingsOk.stale (b r) : (s.stale b r).RingsOk := h.raise _

theorem State.RingsOk.abandon (b c) : (s.abandon b c).RingsOk := (((h.removeRing _).guardCall _).enterIdle _).serveRings

theorem State.RingsOk.accept (b r) : (s.accept b r).RingsOk := by
  have hc := h.checkParity everyBearer
  refine ringsOk_ite ?_ (hc.stale b r)
  split
  · exact hc.moved (State.moved_connect _ _ _)
  · exact hc.sendCall _
  all_goals exact hc.stale b r

theorem State.RingsOk.release (b r) : (s.release b r).RingsOk := by
  have hc := h.checkParity everyBearer
  refine ringsOk_ite ?_ (hc.stale b r)
  split
  · exact (hc.guardCall b).putLine _ _
  · exact hc.abandon b _
  · exact (hc.guardCall b).moved (State.moved_dropLine _ _ _)
  · exact hc
  all_goals exact hc.stale b r

theorem State.RingsOk.withdraw (b r) : (s.withdraw b r).RingsOk := by
  have hc := h.checkParity everyBearer
  refine ringsOk_ite ?_ (hc.stale b r)
  split
  · exact (hc.guardCall b).putLine _ _
  · exact hc.abandon b _
  · exact (hc.guardCall b).putLine _ _
  · exact hc
  all_goals exact hc.stale b r

theorem State.RingsOk.sendResult (k r) : (s.sendResult k r).RingsOk := by
  cases k with
  | routine => exact h.sendBoth r
  | demand p => exact h.send p r

theorem State.RingsOk.reportAbort (r) : (s.reportAbort r).RingsOk := State.RingsOk.sendResult (s := s.setOutcome _ _) h _ _

theorem State.RingsOk.abortForSeize (l) : (s.abortForSeize l).RingsOk := by
  unfold State.abortForSeize
  split
  · next r _ => exact ringsOk_ite (State.RingsOk.reportAbort (s := s.dropTest) h r) h
  · exact h

theorem State.RingsOk.settleGlare (b) : (s.settleGlare b).1.RingsOk := by
  unfold State.settleGlare
  split
  · exact h.putLine _ .waiting
  all_goals exact h

theorem State.RingsOk.reenter (entry) : (s.reenter entry).RingsOk := by
  cases entry with
  | none => exact h
  | some e =>
    have hq := h.moved s.moved_serveQueue
    exact ringsOk_ite (hq.moved (State.moved_expireEntry _ _)) hq

theorem State.RingsOk.takeSeize (l b r) : (s.takeSeize l b r).RingsOk :=
  (((((h.abortForSeize l).settleGlare b).putBearer b _).putLine l _).moved (State.moved_ringLine _ l)).reenter _

theorem State.RingsOk.seize (l b r) : (s.seize l b r).RingsOk := by
  have hc := (h.checkParity everyBearer).checkParity [.line l]
  unfold State.seize
  dsimp only
  split
  · exact hc.sendCall _
  · exact hc.takeSeize l b r

theorem State.RingsOk.takeSeizeIn (p line bearer r) : (s.takeSeizeIn p line bearer r).RingsOk :=
  h.callControl p _ _ _ fun x => h.seize x.1 x.2 r

theorem State.RingsOk.takeAccept (p b1 bearer r) : (s.takeAccept p b1 bearer r).RingsOk :=
  h.callControl p _ _ _ fun b => h.accept b r

theorem State.RingsOk.takeRelease (p b1 kind bearer r) : (s.takeRelease p b1 kind bearer r).RingsOk :=
  h.callControl p _ _ _ fun b => h.release b r

theorem State.RingsOk.takeLockout (p b1 bearer r) : (s.takeLockout p b1 bearer r).RingsOk :=
  h.callControl p _ _ _ fun b => h.withdraw b r

/-! ### The bearer audit (09) -/

theorem State.RingsOk.tearToGuard (b) : (s.tearToGuard b).RingsOk := by
  unfold State.tearToGuard
  split
  · exact h.takeCall b _ _
  · exact h

theorem State.RingsOk.blockFar (b) : (s.blockFar b).RingsOk := by
  unfold State.blockFar
  split
  · exact h.putBearer b _
  · exact h.putBearer b _
  · exact h.putBearer b _
  · exact h.takeCall b _ _
  · exact h.takeCall b _ _
  · exact h.takeCall b _ _
  all_goals exact h

theorem State.RingsOk.actOn (b far r) : (s.actOn b far r).RingsOk := by
  unfold State.actOn
  split
  · exact h.tearToGuard b
  · exact h.tearToGuard b
  · exact h.sendCall _
  · exact (h.tearToGuard b).sendCall _
  · exact h.blockFar b
  · exact h.blockFar b
  · exact h.sendCall _
  all_goals exact h

theorem State.RingsOk.resolve (b far r) : (s.resolve b far r).RingsOk := ((h.actOn b far r).setDisagreements b 0).raise _

theorem State.RingsOk.compare (b far r) : (s.compare b far r).RingsOk := by
  unfold State.compare
  split
  · exact h.setDisagreements b 0
  · exact h.setDisagreements b 0
  · exact h.putBearer b .free
  · exact ringsOk_ite (h.resolve b far r) (h.setDisagreements b _)

theorem State.RingsOk.takeAudit (a) : (s.takeAudit a).RingsOk := by
  refine ringsOk_ite (ringsOk_ite h ?_) h
  split
  · exact h.recordFault _ _ _
  · next b _ =>
    have hq : (s.takeQuality a.quality).RingsOk := h
    dsimp only
    split
    · exact hq.recordFault _ _ _
    · next far _ =>
      have hc := hq.checkParity [.bearer b]
      exact ringsOk_ite (ringsOk_ite (hc.compare b far _) hc) (hq.recordFault _ _ _)

/-! ### Loop samples, ring-trip and provisioning (01) -/

theorem State.RingsOk.debounceLine (l level) : (s.debounceLine l level).RingsOk := by
  unfold State.debounceLine
  split
  · exact h.updSupervision l _
  · exact h.updLine l _

theorem State.RingsOk.giveDigit (l b) : (s.giveDigit l b).RingsOk := (h.sendCall _).updLine l _

theorem State.RingsOk.giveFlash (l b) : (s.giveFlash l b).RingsOk := (ringsOk_ite (h.giveDigit l b) h).sendCall _

theorem State.RingsOk.clearCall (l b) : (s.clearCall l b).RingsOk := ((h.guardCall b).sendCall _).enterIdle l

theorem State.RingsOk.answer (l b) : (s.answer l b).RingsOk := by
  unfold State.answer
  split
  · exact ((h.moved (State.moved_connect _ _ _)).sendCall _).moved (State.moved_stopRinging _ _)
  all_goals exact h

theorem State.RingsOk.closeConnected (l b length) : (s.closeConnected l b length).RingsOk :=
  ringsOk_ite (h.updLine l _) (ringsOk_ite ((h.checkParity _).giveFlash l b) h)

theorem State.RingsOk.judgeClosure (l length) : (s.judgeClosure l length).RingsOk := by
  unfold State.judgeClosure
  split
  · exact h.closeConnected l _ length
  · exact h.moved (s.moved_offHook l)
  · exact (h.checkParity _).answer l _
  all_goals exact h

theorem State.RingsOk.judgeTransition (l ended) : (s.judgeTransition l ended).RingsOk := by
  cases ended with
  | none => exact h
  | some length => exact ringsOk_ite (h.judgeClosure l length) h

theorem State.RingsOk.takeDisconnect (l b) : (s.takeDisconnect l b).RingsOk := ((h.updLine l _).checkParity _).clearCall l b

theorem State.RingsOk.takeOnHook (l) : (s.takeOnHook l).RingsOk := by
  have hm : (s.markLongOpen l).RingsOk := h
  unfold State.takeOnHook
  split
  · exact State.RingsOk.enterIdle (s := (s.markLongOpen l).leaveQueue l) h l
  · exact (hm.checkParity _).clearCall l _
  · exact hm.enterIdle l
  all_goals exact h

theorem State.RingsOk.judgeThresholds (l) : (s.judgeThresholds l).RingsOk := by
  refine ringsOk_ite ?_ h
  split
  · exact ringsOk_ite (h.takeDisconnect l _) (ringsOk_ite ((h.checkParity _).giveDigit l _) h)
  · exact ringsOk_ite (h.takeOnHook l) h
  · exact ringsOk_ite (h.takeOnHook l) h
  · exact ringsOk_ite (h.takeOnHook l) h
  all_goals exact h

theorem State.RingsOk.sampleLine (l level) : (s.sampleLine l level).RingsOk :=
  ringsOk_ite ((((h.checkParity _).debounceLine l level).judgeTransition l _).judgeThresholds l) h

theorem State.RingsOk.takeRingTrip (l) : (s.takeRingTrip l).RingsOk := by
  refine ringsOk_ite ?_ h
  have hc := h.checkParity [.line l]
  dsimp only
  split
  · exact ((hc.updLine l _).checkParity _).answer l _
  all_goals exact hc

theorem State.RingsOk.provision (p line l inService c) : (s.provision p line l inService c).RingsOk := by
  have hc := h.checkParity [.line l]
  have hw : ((s.checkParity [.line l]).writeProvision l inService c).RingsOk := hc
  have hr : (((s.checkParity [.line l]).writeProvision l inService c).restore l).RingsOk := (hw.updLine l _).enterIdle l
  have hp := hw.putLine l (.parked .outOfService)
  unfold State.provision
  dsimp only
  split
  · exact hc.refuseWith p line _ _
  · exact (ringsOk_ite hw hp).done p line _
  · exact (ringsOk_ite hr hp).done p line _
  · exact (ringsOk_ite hr hp).done p line _
  all_goals exact hc.refuseWith p line _ _

theorem State.RingsOk.takeProvision (p line i c) : (s.takeProvision p line i c).RingsOk :=
  h.request p _ _ _ fun x => h.provision p line x.1 x.2.1 x.2.2

/-! ### Bearer timers and blocks (02; 03, R56 and R62) -/

theorem State.RingsOk.takeReservationExpiry (b) : (s.takeReservationExpiry b).RingsOk := by
  unfold State.takeReservationExpiry
  split
  · exact ringsOk_ite ((((h.checkParity _).guardCall b).putLine _ _).raise _) h
  all_goals exact h

theorem State.RingsOk.takeGuardExpiry (b) : (s.takeGuardExpiry b).RingsOk := by
  unfold State.takeGuardExpiry
  split
  · exact ringsOk_ite ((h.checkParity _).putBearer b _) h
  all_goals exact h

theorem State.RingsOk.takeWaitExpiry (l) : (s.takeWaitExpiry l).RingsOk := by
  unfold State.takeWaitExpiry
  split
  · exact ringsOk_ite (h.moved (s.moved_expireEntry l)) h
  · exact h

theorem State.RingsOk.takeBlock (p bearer) : (s.takeBlock p bearer).RingsOk := by
  refine h.request p _ _ _ fun b => ?_
  have hc := h.checkParity [.bearer b]
  unfold State.blockBearer
  dsimp only
  split <;> exact hc

theorem State.RingsOk.takeUnblock (p bearer) : (s.takeUnblock p bearer).RingsOk := by
  refine h.request p _ _ _ fun b => ?_
  have hc := h.checkParity [.bearer b]
  unfold State.unblockBearer
  dsimp only
  split <;> exact hc

/-! ### Line tests (10) -/

theorem State.RingsOk.leaveTest (l) : (s.leaveTest l).RingsOk := by
  unfold State.leaveTest
  split
  · exact h.enterIdle l
  · exact h.putLine l _
  all_goals exact h

theorem State.RingsOk.takeSettleEnd : s.takeSettleEnd.RingsOk := by
  unfold State.takeSettleEnd
  split
  · exact ringsOk_ite h h
  · exact h

theorem State.RingsOk.resultState (l o) : (s.resultState l o).RingsOk := by
  unfold State.resultState
  split
  · exact ringsOk_ite ((h.putLine l _).raise _) (h.enterIdle l)
  · exact ringsOk_ite (h.putLine l _) (h.enterIdle l)
  · exact h.putLine l _
  all_goals exact h

theorem State.RingsOk.complete (r c) : (s.complete r c).RingsOk := by
  have hf : State.RingsOk (State.updLine { s.checkParity [.line r.line] with
      testing := { (s.checkParity [.line r.line]).testing with timeoutRun := 0, test := none } } r.line
      (fun x => { x with faultCount := faultCountAfter x.faultCount c.outcome })) := h.checkParity [.line r.line]
  exact ((hf.resultState r.line c.outcome).updLine r.line _).sendResult r.kind _

theorem State.RingsOk.takeMeasurement (c) : (s.takeMeasurement c).RingsOk := by
  unfold State.takeMeasurement
  split
  · exact ringsOk_ite (h.complete _ c) h
  · exact h

theorem State.RingsOk.headTimedOut (r) : (s.headTimedOut r).RingsOk := by
  have hd : (s.checkParity [.line r.line]).dropTest.RingsOk := h.checkParity [.line r.line]
  exact (((hd.leaveTest r.line).updLine r.line _).raise _).sendResult r.kind _

theorem State.RingsOk.takeHeadTimeout : s.takeHeadTimeout.RingsOk := by
  unfold State.takeHeadTimeout
  split
  · exact ringsOk_ite (h.headTimedOut _) h
  · exact h

theorem State.RingsOk.takeSeizure : s.takeSeizure.RingsOk := by
  unfold State.takeSeizure
  split
  · next r _ =>
    have hd : (s.checkParity [.line r.line]).dropTest.RingsOk := h.checkParity [.line r.line]
    exact ((hd.updLine r.line _).leaveTest r.line).reportAbort r
  · exact h

theorem State.RingsOk.takeTestDue (l) : (s.takeTestDue l).RingsOk := ringsOk_ite h h

theorem State.RingsOk.takeTestLine (p line) : (s.takeTestLine p line).RingsOk := by
  refine h.request p _ _ _ fun l => ?_
  have hc := h.checkParity [.line l]
  unfold State.testLine
  dsimp only
  split <;> exact hc

theorem State.RingsOk.takeResumeTests (p b1) : (s.takeResumeTests p b1).RingsOk := h.request p _ _ _ fun _ => h

/-! ### Quality windows and rates (07) -/

theorem State.RingsOk.setRuns (d n) : (s.setRuns d n).RingsOk := h

theorem State.RingsOk.stepDown (c) : (s.stepDown c).RingsOk := (h.setRuns 0 0).moved (State.moved_createPlan _ _ _)

theorem State.RingsOk.decideRate : s.decideRate.RingsOk :=
  ringsOk_ite (h.stepDown true)
    (ringsOk_ite (ringsOk_ite (h.stepDown false) h) (ringsOk_ite (ringsOk_ite h h) h))

theorem State.RingsOk.decideOrHold : s.decideOrHold.RingsOk :=
  ringsOk_ite h.decideRate (ringsOk_ite ((h.setRuns 0 0).stepPlan true) h)

theorem State.RingsOk.judgeBer (w) : (s.judgeBer w).RingsOk :=
  State.RingsOk.decideOrHold (s := { s with quality := s.quality.measured (berEstimate w.disagreements w.frames) }) h

theorem State.RingsOk.countFrame (n) : (s.countFrame n).RingsOk := ringsOk_ite (h.judgeBer _) h

theorem State.RingsOk.takeDrainExpiry : s.takeDrainExpiry.RingsOk := ringsOk_ite (h.stepPlan true) h

theorem State.RingsOk.takeRateAuto (p b1) : (s.takeRateAuto p b1).RingsOk := h.request p _ _ _ fun _ => h

theorem State.RingsOk.takeRateFixed (p b1 rate) : (s.takeRateFixed p b1 rate).RingsOk :=
  h.request p _ _ _ fun r => State.RingsOk.fixedCheck (s := (s.setMode (.fixed r)).setRuns 0 0) h

/-! ### Link synchronisation (06) -/

theorem State.RingsOk.giveUp (e) : (s.giveUp e).RingsOk := by
  unfold State.giveUp
  dsimp only
  split
  · exact (h.withLink _).raise _
  · exact h.withLink _

theorem State.RingsOk.setRxRate (r) : (s.setRxRate r).RingsOk := h.moved (s.moved_setRxRate r)

theorem State.RingsOk.loseSync : s.loseSync.RingsOk := ((h.withReceiver _ _ _).setRxRate _).send .localPort _

theorem State.RingsOk.judgeUpWindow (bad damaged pass) : (s.judgeUpWindow bad damaged pass).RingsOk :=
  ringsOk_ite (h.withLink _) (ringsOk_ite h.loseSync (h.withLink _))

theorem State.RingsOk.endWindow (n) : (s.endWindow n).RingsOk := by
  unfold State.endWindow
  dsimp only
  split
  · exact ringsOk_ite h (ringsOk_ite h (h.giveUp _))
  · exact h
  · exact (h.judgeUpWindow _ _ _).moved (State.moved_beginWindow _)
  · exact h

theorem State.RingsOk.resumePlan : s.resumePlan.RingsOk := by
  unfold State.resumePlan
  split
  · split
    · exact h.stepPlan _
    · exact h.stepPlan _
    · exact h
  · exact h

theorem State.RingsOk.reportFirstUp : s.reportFirstUp.RingsOk := ringsOk_ite (h.send .link s.unitReport) h

theorem State.RingsOk.enterUp : s.enterUp.RingsOk := by
  have hu : (s.setUp s.link.state.hold?.isSome).settlePairs.RingsOk := h
  exact (((hu.sendBoth _).reportFirstUp.moved (State.moved_serveQueue _)).resumePlan).fixedCheck

theorem State.RingsOk.takeWord (x w) : (s.takeWord x w).RingsOk := by
  unfold State.takeWord
  split
  · exact ringsOk_ite (ringsOk_ite (State.RingsOk.enterUp h) h) h
  all_goals exact h

theorem State.RingsOk.takeGiveUp (bits) : (s.takeGiveUp bits).RingsOk := by
  unfold State.takeGiveUp
  split
  · exact ringsOk_ite (h.giveUp _) h
  all_goals exact h

theorem State.RingsOk.tearDown : s.tearDown.RingsOk := h.moved s.moved_tearDown

theorem State.RingsOk.failLink : s.failLink.RingsOk := by
  have hd : s.dropLink.beginHunt.RingsOk := h.moved (s.moved_dropLink.trans (State.moved_beginHunt _))
  exact ((hd.raise _).moved ((State.moved_emptyLinkQueue _).trans (State.moved_tearDown _))).send .localPort _

theorem State.RingsOk.enableLink : s.enableLink.RingsOk := by
  unfold State.enableLink
  split
  · exact State.RingsOk.send (s := s.beginHunt) h _ _
  all_goals exact h

theorem State.RingsOk.disableLink : s.disableLink.RingsOk := by
  have hd : s.dropLink.stopLink.emptyLinkQueue.tearDown.RingsOk := State.RingsOk.tearDown h
  unfold State.disableLink
  split
  · exact h
  all_goals exact hd.send _ _

theorem State.RingsOk.takeEnable (p b1) : (s.takeEnable p b1).RingsOk := h.request p _ _ _ fun _ => h.enableLink.done p b1 _

theorem State.RingsOk.takeDisable (p b1) : (s.takeDisable p b1).RingsOk := h.request p _ _ _ fun _ => h.disableLink.done p b1 _

theorem State.RingsOk.takeRestartLink (p b1) : (s.takeRestartLink p b1).RingsOk :=
  h.request p _ _ _ fun _ => ringsOk_ite (h.refuseWith p b1 _ _) ((h.moved s.moved_restartLink).done p b1 _)

/-! ### Parameters, queries and the unit (08 and 11) -/

theorem State.RingsOk.afterWrite (q) : (s.afterWrite q).RingsOk := by
  unfold State.afterWrite
  split
  · exact h.moved s.moved_expireQueue
  all_goals exact h

theorem State.RingsOk.setParam (p ident asked n) : (s.setParam p ident asked n).RingsOk := by
  cases n with
  | value q => exact State.RingsOk.afterWrite (s := s.writeParam q _) h q
  | routing k => exact h

theorem State.RingsOk.takeSetParam (p ident v) : (s.takeSetParam p ident v).RingsOk :=
  h.request p _ _ _ fun n => h.setParam p ident v n

theorem State.RingsOk.query {α : Type} (p index) (range : Option α) (reads answer) : (s.query p index range reads answer).RingsOk :=
  h.request p _ _ _ fun x => h.checkParity (reads x)

theorem State.RingsOk.checkOffHook (l) : (s.checkOffHook l).RingsOk := ringsOk_ite (h.putLine l _) h

theorem State.RingsOk.enterService : s.enterService.RingsOk := by
  have hm : State.RingsOk { s with unit := { s.unit with mode := .service, firstUpPending := true } } := h
  have hf := ringsOk_foldl (fun _ l hx => State.RingsOk.checkOffHook hx l) allLines (hm.checkParity everyLine)
  exact (hf.moved (State.moved_beginWindow _)).moved (State.moved_callChoice _)

theorem State.RingsOk.takeRestartUnit (p b1) : (s.takeRestartUnit p b1).RingsOk :=
  h.request p _ _ _ fun _ => h.moved (s.moved_unitRestart _ _ fun x => ⟨x.moved_send _ _, (State.send_same _ _ _).lines⟩)

theorem State.RingsOk.takeClearErrors (p b1) : (s.takeClearErrors p b1).RingsOk := h.request p _ _ _ fun _ => h

/-! ### Received records (08) -/

theorem State.RingsOk.notAccepted (p r) : (s.notAccepted p r).RingsOk :=
  ringsOk_ite (ringsOk_ite (h.recordFault _ _ _) (h.formatFailure _ _ _)) h

theorem State.RingsOk.takeQuery (p r) : (s.takeQuery p r).RingsOk := by
  unfold State.takeQuery
  split
  · exact h.query _ _ _ _ _
  · exact h.query _ _ _ _ _
  · exact h.query _ _ _ _ _
  · exact h.query _ _ _ _ _
  · exact h.query _ _ _ _ _
  · exact h.query _ _ _ _ _
  · exact h.query _ _ _ _ _
  · exact h.notAccepted p r

theorem State.RingsOk.takeRateMode (p r) : (s.takeRateMode p r).RingsOk := by
  unfold State.takeRateMode
  split
  · exact h.takeRateAuto p _
  · exact h.takeRateFixed p _ _
  · exact h.notAccepted p r

theorem State.RingsOk.takeLinkControl (p r) : (s.takeLinkControl p r).RingsOk := by
  unfold State.takeLinkControl
  split
  · exact h.takeEnable p _
  · exact h.takeDisable p _
  · exact h.takeRestartLink p _
  · exact h.notAccepted p r

theorem State.RingsOk.receive (p r) : (s.receive p r).RingsOk := by
  unfold State.receive
  split
  · exact h
  · exact h.takeSeizeIn p _ _ _
  · exact h.takeAccept p _ _ _
  · exact h.takeRelease p _ _ _ _
  · exact h.takeRelease p _ _ _ _
  · exact h.takeLockout p _ _ _
  · exact h.takeProvision p _ _ _
  · exact h.takeBlock p _
  · exact h.takeUnblock p _
  · exact h.takeSetParam p _ _
  · exact h.takeTestLine p _
  · exact h.takeResumeTests p _
  · exact h.takeRateMode p r
  · exact h.takeLinkControl p r
  · exact h.takeRestartUnit p _
  · exact h.takeClearErrors p _
  · exact h.takeQuery p r
  · exact h.notAccepted p r

theorem State.RingsOk.takeMismatch (src kind) : (s.takeMismatch src kind).RingsOk := ringsOk_ite (h.recordFault _ _ _) h

theorem State.RingsOk.takeWhole (p bytes) : (s.takeWhole p bytes).RingsOk := by
  unfold State.takeWhole
  split
  · exact ringsOk_ite (h.receive p _) (h.takeMismatch _ _)
  · exact h

theorem State.RingsOk.setAssembler (a) : (s.setAssembler a).RingsOk := h

theorem State.RingsOk.abandonPartial (bytes) : (s.abandonPartial bytes).RingsOk := (h.setAssembler .hunting).raise _

theorem State.RingsOk.startRecord (b) : (s.startRecord b).RingsOk := ringsOk_ite (h.setAssembler _) h

theorem State.RingsOk.takeByte (b) : (s.takeByte b).RingsOk := by
  unfold State.takeByte
  split
  · exact h.startRecord b
  · exact ringsOk_ite ((h.abandonPartial _).startRecord b)
      (ringsOk_ite ((h.setAssembler .hunting).takeWhole _ _) (h.setAssembler _))

theorem State.RingsOk.takeStopBitError : s.takeStopBitError.RingsOk := by
  unfold State.takeStopBitError
  split
  · exact h
  · exact h.abandonPartial _

theorem State.RingsOk.takeFramingTimeout : s.takeFramingTimeout.RingsOk := by
  unfold State.takeFramingTimeout
  split
  · exact h
  · exact ringsOk_ite (h.abandonPartial _) h

theorem State.RingsOk.transmitLocal : s.transmitLocal.RingsOk := by
  refine ringsOk_ite ?_ h
  split <;> exact h

/-! ### Frames and tone blocks (05; 01, R6) -/

theorem State.RingsOk.sendFrame : s.sendFrame.RingsOk := by
  have hc : State.RingsOk (if s.frameKind = .bare then s else s.checkParity everyBearer) := ringsOk_ite h (h.checkParity _)
  unfold State.sendFrame
  dsimp only
  generalize (if s.frameKind = .bare then s else s.checkParity everyBearer) = v at hc ⊢
  have hp : ((v.emit v.frameKind).popMessage v.frameKind).RingsOk := by
    unfold State.popMessage
    split <;> exact hc
  unfold State.countSince State.countDown
  split
  · exact hp
  · exact ringsOk_ite (c := _ ≤ 1) hp hp

theorem State.RingsOk.assemble (voice) : (s.assemble voice).RingsOk := by
  have hv : State.RingsOk { s with pins := { s.pins with voiceIn := voice } } := h
  exact ringsOk_ite (ringsOk_ite (hv.moved (State.moved_takeSwitch _)).sendFrame.fixedCheck hv.sendFrame) h

theorem State.RingsOk.takeNumber (f) : (s.takeNumber f).RingsOk := by
  refine ringsOk_ite (h.withCoder _) ?_
  dsimp only
  split
  · exact h.withCoder _
  · exact ringsOk_ite (h.withCoder _) ((h.withCoder _).raise _)

theorem State.RingsOk.slots {u : State} (e : Slots s u) : u.RingsOk := h.of_ring (by rw [e.eq])

theorem State.RingsOk.deliverFrame (f) : (s.deliverFrame f).RingsOk :=
  ringsOk_foldl (fun x b hx => State.RingsOk.slots hx (x.deliverBearer_slots f b)) allBearers h

theorem State.RingsOk.openFrame (f) : (s.openFrame f).RingsOk :=
  ringsOk_ite (((h.checkParity _).takeNumber f).deliverFrame f) h

theorem State.RingsOk.takeAuditSlot (f) : (s.takeAuditSlot f).RingsOk := by
  unfold State.takeAuditSlot
  split
  · exact ringsOk_ite (h.takeAudit _) (h.takeMismatch _ _)
  · exact h

theorem State.RingsOk.followRate (f) : (s.followRate f).RingsOk :=
  ringsOk_ite (h.withCoder _) ((h.withCoder _).setRxRate _)

theorem State.RingsOk.countDamage (f) : (s.countDamage f).RingsOk := by
  unfold State.countDamage
  split
  · exact ringsOk_ite (ringsOk_ite h.loseSync h) h
  all_goals exact h

theorem State.RingsOk.closeFrame (f) : (s.closeFrame f).RingsOk := by
  have hd := (h.followRate f).countDamage f
  exact ringsOk_ite (ringsOk_ite (hd.countFrame _) hd) h

theorem State.RingsOk.beforeClose (f) : (s.beforeClose f).RingsOk :=
  ((h.part fun _ hx => hx.openFrame f).part fun _ hx => hx.takeAuditSlot f).part fun _ hx => hx.takeWhole _ _

theorem State.RingsOk.takeFrame (f) : (s.takeFrame f).RingsOk := ((h.beforeClose f).closeFrame f).finish

theorem State.RingsOk.takeFrameIf (f due) : (s.takeFrameIf f due).RingsOk := ringsOk_ite (h.takeFrame f) h

theorem State.RingsOk.toneBlocks : s.toneBlocks.RingsOk :=
  ringsOk_ite (ringsOk_foldl (fun x l hx => State.RingsOk.slots hx (x.blockFor_slots l)) allLines (ringsOk_ite (h.checkParity _) h)) h

/-! ### On-intervals (04, R75 and R79) -/

/-- A phase's table is rewritten entry by entry, whatever the entries become. -/
theorem State.RingsOk.mapPhase (p) (f : RingEntry → RingEntry) : (s.setPhase p ((s.phase p).map f)).RingsOk :=
  h.moved (s.moved_setPhase p _ fun hs => by rw [List.length_map]; exact hs p)

theorem State.RingsOk.setBegun (p b) : (s.setBegun p b).RingsOk := h

theorem State.RingsOk.beginPhase (p) : (s.beginPhase p).RingsOk :=
  ringsOk_foldl (fun x e hx => State.RingsOk.moved hx (x.moved_holdSampling e.line)) _ ((h.setBegun p true).mapPhase p _)

theorem State.RingsOk.endUnanswered (l) : (s.endUnanswered l).RingsOk := by
  have hr := h.removeRing l
  unfold State.endUnanswered
  split
  · exact (((hr.checkParity _).sendCall _).guardCall _).enterIdle l
  all_goals exact hr

theorem State.RingsOk.endPhase (p) : (s.endPhase p).RingsOk :=
  (ringsOk_foldl (fun _ l hx => State.RingsOk.endUnanswered hx l) _ ((h.setBegun p false).mapPhase p _)).serveRings

end

/-! ### The supply (04, R85 to R87) -/

/-- A supply state that is no lower has no smaller ring capacity (04, R76). -/
theorem Supply.capacity_le_of_rank {old new : Supply} (h : ¬ new.rank < old.rank) : old.capacity ≤ new.capacity := by
  cases old <;> cases new <;> revert h <;> decide

/-- Phases cut to the ring capacity are within it, whatever they held before (04, R86). -/
theorem State.ringsOk_cutPhases (s : State) : (s.cutPhases s.ring.supply.capacity).RingsOk := fun p => by
  have e : (s.cutPhases s.ring.supply.capacity).phase p = (s.phase p).take s.ring.supply.capacity := by
    simp [State.cutPhases, State.phase]
  rw [e]
  exact List.length_take_le _ _

/-- A supply state that is no lower keeps every phase as it is, within a capacity that has not fallen (04, R87). -/
theorem State.RingsOk.setSupply {s : State} (h : s.RingsOk) {new : Supply} (hn : ¬ new.rank < s.ring.supply.rank) :
    (s.setSupply new).RingsOk :=
  fun p => (h p).trans (Supply.capacity_le_of_rank hn)

theorem State.RingsOk.changeSupply {s : State} (h : s.RingsOk) (new : Supply) : (s.changeSupply new).RingsOk := by
  have hc : State.RingsOk (if new.rank < s.ring.supply.rank then (s.setSupply new).cutPhases new.capacity else s.setSupply new) := by
    split
    · exact (s.setSupply new).ringsOk_cutPhases
    · next hn => exact h.setSupply hn
  have hs := hc.serveRings.sendBoth (supplyRecord new s.ring.supply)
  exact ringsOk_ite hs hs

theorem State.RingsOk.sampleSupply {s : State} (h : s.RingsOk) (d : Supply) : (s.sampleSupply d).RingsOk :=
  ringsOk_ite (ringsOk_ite (h.changeSupply d) h) h

/-! ### Power-on reset (11, R171) -/

/-- At power-on every phase is empty. -/
theorem State.ringsOk_powerOn (s : State) (straps : Straps) : (s.powerOn straps).RingsOk := fun p => by
  have e : (s.powerOn straps).phase p = [] := by
    simp [State.powerOn, State.reset, Ring.powerOn, State.phase]
  rw [e]
  exact Nat.zero_le _

theorem State.powerOn_not_connected (s : State) (straps : Straps) (l : LineNo) :
    ((s.powerOn straps).line l).state.isConnected = false := by
  simp [State.powerOn, State.line, LineRecord.sealed, LineRecord.powerOn, LineState.isConnected]

/-! ### Every command -/

/-- No command takes the ring tables beyond the ring capacity (04, R76). -/
theorem exec_ringsOk {i : Instr} {s u : State} (h : s.RingsOk) (e : exec i s = .next u) : u.RingsOk := by
  cases i with
  | powerOnReset =>
    injection e with e
    subst e
    exact ((s.ringsOk_powerOn _).moved (State.moved_enterStart _ (s.powerOn_not_connected _))).finish
  | endOfStart =>
    unfold exec execEndOfStart at e
    exact event_ringsOk h e fun _ hx => State.ringsOk_ite hx.enterService hx
  | acceptedTransition =>
    unfold exec execAcceptedTransition at e
    exact event_ringsOk h e fun _ hx => State.ringsOk_ite (hx.sampleLine _ _) hx
  | digitEnd =>
    unfold exec execDigitEnd at e
    exact event_ringsOk h e fun _ hx => State.ringsOk_ite (hx.sampleLine _ _) hx
  | disconnect =>
    unfold exec execDisconnect at e
    exact event_ringsOk h e fun _ hx => State.ringsOk_ite (hx.sampleLine _ _) hx
  | onHook =>
    unfold exec execOnHook at e
    exact event_ringsOk h e fun _ hx => State.ringsOk_ite (hx.sampleLine _ _) hx
  | ringTrip =>
    unfold exec execRingTrip at e
    exact event_ringsOk h e fun _ hx => hx.takeRingTrip _
  | toneBlock =>
    unfold exec execToneBlock at e
    exact anyEvent_ringsOk h e fun _ hx => hx.toneBlocks
  | reservationTimerExpiry =>
    unfold exec execReservationTimerExpiry at e
    exact event_ringsOk h e fun _ hx => hx.takeReservationExpiry _
  | guardTimerExpiry =>
    unfold exec execGuardTimerExpiry at e
    exact event_ringsOk h e fun _ hx => hx.takeGuardExpiry _
  | waitLimitExpiry =>
    unfold exec execWaitLimitExpiry at e
    exact event_ringsOk h e fun _ hx => hx.takeWaitExpiry _
  | seizeIn =>
    unfold exec execSeizeIn at e
    exact event_ringsOk h e fun _ hx => hx.takeSeizeIn _ _ _ _
  | accept =>
    unfold exec execAccept at e
    exact event_ringsOk h e fun _ hx => hx.takeAccept _ _ _ _
  | release =>
    unfold exec execRelease at e
    exact event_ringsOk h e fun _ hx => hx.takeRelease _ _ _ _ _
  | refuse =>
    unfold exec execRefuse at e
    exact event_ringsOk h e fun _ hx => hx.takeRelease _ _ _ _ _
  | lockout =>
    unfold exec execLockout at e
    exact event_ringsOk h e fun _ hx => hx.takeLockout _ _ _ _
  | empty =>
    unfold exec execEmpty at e
    exact event_ringsOk h e fun _ hx => hx
  | notListedKind =>
    unfold exec execNotListedKind at e
    exact event_ringsOk h e fun _ hx => hx.receive _ _
  | auditRecord =>
    unfold exec execAuditRecord at e
    exact event_ringsOk h e fun _ hx => hx.takeAudit _
  | provisionLine =>
    unfold exec execProvisionLine at e
    exact event_ringsOk h e fun _ hx => hx.takeProvision _ _ _ _
  | blockBearer =>
    unfold exec execBlockBearer at e
    exact event_ringsOk h e fun _ hx => hx.takeBlock _ _
  | unblockBearer =>
    unfold exec execUnblockBearer at e
    exact event_ringsOk h e fun _ hx => hx.takeUnblock _ _
  | setParam =>
    unfold exec execSetParam at e
    exact event_ringsOk h e fun _ hx => hx.takeSetParam _ _ _
  | testLine =>
    unfold exec execTestLine at e
    exact event_ringsOk h e fun _ hx => hx.takeTestLine _ _
  | resumeTests =>
    unfold exec execResumeTests at e
    exact event_ringsOk h e fun _ hx => hx.takeResumeTests _ _
  | setRateModeAuto =>
    unfold exec execSetRateModeAuto at e
    exact event_ringsOk h e fun _ hx => hx.takeRateAuto _ _
  | setRateModeFixed =>
    unfold exec execSetRateModeFixed at e
    exact event_ringsOk h e fun _ hx => hx.takeRateFixed _ _ _
  | linkControlEnable =>
    unfold exec execLinkControlEnable at e
    exact event_ringsOk h e fun _ hx => hx.takeEnable _ _
  | linkControlDisable =>
    unfold exec execLinkControlDisable at e
    exact event_ringsOk h e fun _ hx => hx.takeDisable _ _
  | linkControlRestart =>
    unfold exec execLinkControlRestart at e
    exact event_ringsOk h e fun _ hx => hx.takeRestartLink _ _
  | restartUnit =>
    unfold exec execRestartUnit at e
    exact event_ringsOk h e fun _ hx => hx.takeRestartUnit _ _
  | clearErrors =>
    unfold exec execClearErrors at e
    exact event_ringsOk h e fun _ hx => hx.takeClearErrors _ _
  | queryLine =>
    unfold exec execQueryLine at e
    exact event_ringsOk h e fun _ hx => hx.query _ _ _ _ _
  | queryBearer =>
    unfold exec execQueryBearer at e
    exact event_ringsOk h e fun _ hx => hx.query _ _ _ _ _
  | queryLink =>
    unfold exec execQueryLink at e
    exact event_ringsOk h e fun _ hx => hx.query _ _ _ _ _
  | queryQueue =>
    unfold exec execQueryQueue at e
    exact event_ringsOk h e fun _ hx => hx.query _ _ _ _ _
  | queryErrors =>
    unfold exec execQueryErrors at e
    exact event_ringsOk h e fun _ hx => hx.query _ _ _ _ _
  | queryParam =>
    unfold exec execQueryParam at e
    exact event_ringsOk h e fun _ hx => hx.query _ _ _ _ _
  | queryUnit =>
    unfold exec execQueryUnit at e
    exact event_ringsOk h e fun _ hx => hx.query _ _ _ _ _
  | stopBitError =>
    unfold exec execStopBitError at e
    exact event_ringsOk h e fun _ hx => hx.takeStopBitError
  | framingTimeout =>
    unfold exec execFramingTimeout at e
    exact event_ringsOk h e fun _ hx => hx.takeFramingTimeout
  | localTransmit =>
    unfold exec execLocalTransmit at e
    exact anyEvent_ringsOk h e fun _ hx => hx.transmitLocal
  | frameAssembly =>
    unfold exec execFrameAssembly at e
    exact event_ringsOk h e fun _ hx => hx.assemble _
  | transmitSwitchFrame =>
    unfold exec execTransmitSwitchFrame at e
    exact event_ringsOk h e fun _ hx => State.ringsOk_ite (hx.assemble _) hx
  | frameArrival => exact next_ringsOk e ((h.begin _).takeFrame _)
  | receiveSwitch => exact next_ringsOk e ((h.begin _).takeFrameIf _ _)
  | syncLoss t sign =>
    cases sign with
    | frame f => exact next_ringsOk e ((h.begin _).takeFrameIf _ _)
    | window bits n =>
      unfold exec execSyncLoss at e
      exact event_ringsOk h e fun _ hx => State.ringsOk_ite (hx.endWindow _) hx
  | normalizationWindowEnd =>
    unfold exec execNormalizationWindowEnd at e
    exact event_ringsOk h e fun _ hx => State.ringsOk_ite (hx.endWindow _) hx
  | verifyGiveUp =>
    unfold exec execVerifyGiveUp at e
    exact event_ringsOk h e fun _ hx => hx.takeGiveUp _
  | enteringUp =>
    unfold exec execEnteringUp at e
    exact event_ringsOk h e fun _ hx => State.ringsOk_ite (hx.takeWord _ _) hx
  | linkFailure =>
    unfold exec execLinkFailure at e
    exact event_ringsOk h e fun _ hx => State.ringsOk_ite hx.failLink hx
  | berWindowEnd => exact next_ringsOk e ((h.begin _).takeFrameIf _ _)
  | drainTimerExpiry =>
    unfold exec execDrainTimerExpiry at e
    exact event_ringsOk h e fun _ hx => hx.takeDrainExpiry
  | onIntervalStart =>
    unfold exec execOnIntervalStart at e
    exact event_ringsOk h e fun _ hx => State.ringsOk_ite (hx.beginPhase _) hx
  | onIntervalEnd =>
    unfold exec execOnIntervalEnd at e
    exact event_ringsOk h e fun _ hx => State.ringsOk_ite (hx.endPhase _) hx
  | downgrade =>
    unfold exec execDowngrade at e
    exact event_ringsOk h e fun _ hx => State.ringsOk_ite (hx.sampleSupply _) hx
  | upgrade =>
    unfold exec execUpgrade at e
    exact event_ringsOk h e fun _ hx => State.ringsOk_ite (hx.sampleSupply _) hx
  | testDue =>
    unfold exec execTestDue at e
    exact event_ringsOk h e fun _ hx => hx.takeTestDue _
  | settleEnd =>
    unfold exec execSettleEnd at e
    exact event_ringsOk h e fun _ hx => hx.takeSettleEnd
  | measurement =>
    unfold exec execMeasurement at e
    exact event_ringsOk h e fun _ hx => hx.takeMeasurement _
  | headTimeout =>
    unfold exec execHeadTimeout at e
    exact event_ringsOk h e fun _ hx => hx.takeHeadTimeout
  | seizureIndication =>
    unfold exec execSeizureIndication at e
    exact event_ringsOk h e fun _ hx => hx.takeSeizure
  | loopSample =>
    unfold exec execLoopSample at e
    exact event_ringsOk h e fun _ hx => hx.sampleLine _ _
  | supplySample =>
    unfold exec execSupplySample at e
    exact event_ringsOk h e fun _ hx => hx.sampleSupply _
  | alignmentWordFound =>
    unfold exec execAlignmentWordFound at e
    exact event_ringsOk h e fun _ hx => hx.takeWord _ _
  | byteCompleted =>
    unfold exec execByteCompleted at e
    exact event_ringsOk h e fun _ hx => hx.takeByte _
  | checkByteMismatch =>
    unfold exec execCheckByteMismatch at e
    exact event_ringsOk h e fun _ hx => hx.takeMismatch _ _

theorem step_ringsOk {s u : State} (h : s.RingsOk) (e : step s = .next u) : u.RingsOk := by
  unfold step at e
  split at e
  · exact next_ringsOk e h
  · next i rest _ =>
    have hp : (s.withPending rest).RingsOk := h
    exact exec_ringsOk hp e

/-- Settles O23: every command keeps every phase within the ring capacity; the lines rung at once are some of a phase's lines, and the
lines placed are those of the three phases. -/
theorem ringCapacityFollowsTheSupply : Obligations.RingCapacityFollowsTheSupply := by
  refine ⟨rfl, rfl, rfl, fun s u h e => ?_⟩
  have hu : u.RingsOk := step_ringsOk h e
  refine ⟨fun p => ⟨hu p, (List.length_filter_le _ _).trans (hu p)⟩, ?_⟩
  have h0 := hu 0
  have h1 := hu 1
  have h2 := hu 2
  omega

end Sys2Proof.Machine
end

section
/-! The number of coded bits that puncturing leaves (05, R93). At every rate position 0 sends both outputs and every other position of
the pattern sends one, so a run of input bits gives one coded bit for each, and one more for each that stands at position 0. -/

namespace Sys2Proof.Machine

open Sys2Proof

theorem Rate.period_pos (r : Rate) : 0 < r.period := by
  cases r <;> decide

/-- A frame is a whole number of periods (05, R93). -/
theorem Rate.infoBits_mod_period (r : Rate) : r.infoBits % r.period = 0 := by
  cases r <;> rfl

/-- Every info bit of a frame sends one output, and the first of each period one more. -/
theorem Rate.infoBits_add_periods (r : Rate) : r.infoBits + r.infoBits / r.period = 1920 := by
  cases r <;> rfl

/-- A position past the end of the pattern counts as its last, so only Robust, whose one position sends both outputs, needs the bound. -/
theorem outputs_length (r : Rate) {n : Nat} (hn : n < r.period) (st : Stages) (b : Bool) :
    (outputs r n st b).length = 1 + if n = 0 then 1 else 0 := by
  cases r with
  | robust =>
    have h0 : n = 0 := Nat.lt_one_iff.mp hn
    simp [outputs, kept, h0]
  | standard =>
    by_cases h0 : n = 0 <;> simp [outputs, kept, h0]
  | wide =>
    by_cases h0 : n = 0
    · simp [outputs, kept, h0]
    · by_cases h1 : n = 1 <;> simp [outputs, kept, h0, h1]

theorem encodeBits_cons_fst (r : Rate) (n : Nat) (st : Stages) (b : Bool) (rest : List Bool) :
    (encodeBits r n st (b :: rest)).1 = outputs r n st b ++ (encodeBits r ((n + 1) % r.period) (shiftStages st b) rest).1 := rfl

/-- The multiples of p among the k + 1 numbers from m on: m itself, if it is one, and those among the k numbers after it. -/
theorem count_multiples_succ (p m k : Nat) : Nat.count (fun i => m + i ≡ 0 [MOD p]) (k + 1) =
    Nat.count (fun i => m + 1 + i ≡ 0 [MOD p]) k + if m % p = 0 then 1 else 0 := by
  have hfirst : m + 0 ≡ 0 [MOD p] ↔ m % p = 0 := by
    rw [Nat.add_zero, Nat.ModEq, Nat.zero_mod]
  simp only [Nat.count_succ', hfirst, Nat.add_assoc, Nat.add_comm 1]

/-- The run's first bit is the bit number m of a frame; bit i of the run then stands at position 0 where m + i is a multiple of the
period. -/
theorem encodeBits_length (r : Rate) (m : Nat) (st : Stages) (bits : List Bool) :
    (encodeBits r (m % r.period) st bits).1.length = bits.length + Nat.count (fun i => m + i ≡ 0 [MOD r.period]) bits.length := by
  induction bits generalizing m st with
  | nil => rfl
  | cons b rest ih =>
    have hnow := outputs_length r (Nat.mod_lt m r.period_pos) st b
    have hrest := ih (m + 1) (shiftStages st b)
    have hcount := count_multiples_succ r.period m rest.length
    rw [encodeBits_cons_fst, Nat.mod_add_mod, List.length_append, hnow, hrest, List.length_cons, hcount]
    omega

/-- A run of whole periods from position 0. -/
theorem encodeBits_length_of_periods (r : Rate) (st : Stages) {bits : List Bool} (h : bits.length % r.period = 0) :
    (encodeBits r 0 st bits).1.length = bits.length + bits.length / r.period := by
  have hlen := encodeBits_length r 0 st bits
  simp only [Nat.zero_mod, Nat.zero_add] at hlen
  rw [hlen, Nat.count_modEq_card _ r.period_pos]
  simp [h]

/-- Settles O20: the pattern and its period are the model's own equations; the frame's length follows from the count of the input bits at
position 0. -/
theorem puncturingKeeps1920Bits : Obligations.PuncturingKeeps1920Bits := by
  intro r st bits
  refine ⟨fun n b rest => encodeBits_cons_fst r n st b rest, r.infoBits_mod_period, rfl, rfl, rfl, rfl, rfl, rfl, rfl, rfl, rfl, fun h => ?_⟩
  have hperiods : bits.length % r.period = 0 := h ▸ r.infoBits_mod_period
  rw [encodeBits_length_of_periods r st hperiods, h, r.infoBits_add_periods]

end Sys2Proof.Machine
end

section
/-! What every command keeps: the parts of the commands' own meanings, each followed down to the operations of
Sys2Proof/Laws/Moved.lean. A command but power-on reset moves the state at which it acts by State.Moved. -/

set_option Elab.async false

namespace Sys2Proof.Machine

open Sys2Proof

/-! ### Line records -/

/-- A change of a line record that keeps the state and takes no digit, fault count or run beyond its bound. -/
structure KeepsBounds (f : LineRecord → LineRecord) : Prop where
  state : ∀ r, (f r).state = r.state := by exact fun _ => rfl
  digits : ∀ r, (f r).digits = r.digits ∨ (f r).digits = 0 := by exact fun _ => .inl rfl
  faults : ∀ r, r.faultCount ≤ 5 → (f r).faultCount ≤ 5 := by exact fun _ => id
  run : ∀ r, (f r).run = r.run ∨ (f r).run = .zero := by exact fun _ => .inl rfl

theorem KeepsBounds.lineOk {f : LineRecord → LineRecord} (h : KeepsBounds f) {s : State} (l : LineNo) (hs : s.LinesOk) :
    (f (s.line l)).digits ≤ 11 ∧ ((f (s.line l)).state.isConnected = false → (f (s.line l)).digits = 0) ∧
      (f (s.line l)).faultCount ≤ 5 ∧ ((f (s.line l)).state.isTesting = true → (f (s.line l)).run = .zero) ∧
      ((f (s.line l)).state.isConnected = true → (s.line l).state.isConnected = true) := by
  obtain ⟨hd, hz, hf, ht, -⟩ := hs l
  rw [h.state]
  refine ⟨?_, fun hc => ?_, h.faults _ hf, fun hc => ?_, id⟩
  · rcases h.digits (s.line l) with e | e <;> omega
  · rcases h.digits (s.line l) with e | e
    · exact e.trans (hz hc)
    · exact e
  · rcases h.run (s.line l) with e | e
    · exact e.trans (ht hc)
    · exact e

theorem KeepsBounds.moved_updLine {f : LineRecord → LineRecord} (h : KeepsBounds f) (s : State) (l : LineNo) :
    s.Moved (s.updLine l f) :=
  s.moved_updLine l f (h.lineOk l)

theorem KeepsBounds.moved_updSupervision {f : LineRecord → LineRecord} (h : KeepsBounds f) (s : State) (l : LineNo) :
    s.Moved (s.updSupervision l f) :=
  s.moved_updSupervision l f (h.lineOk l)

/-- A line that is not TESTING, with another loop, interval, run or mark. -/
theorem LineRecord.debounce_keeps (r : LineRecord) (now : Time) (level : Loop) :
    (r.debounce now level).state = r.state ∧ (r.debounce now level).digits = r.digits ∧
      (r.debounce now level).faultCount = r.faultCount := by
  unfold LineRecord.debounce
  split
  · exact ⟨rfl, rfl, rfl⟩
  · split <;> exact ⟨rfl, rfl, rfl⟩

/-! ### Choices -/

theorem State.moved_ite {c : Prop} [Decidable c] {s a b : State} (ha : c → s.Moved a) (hb : ¬ c → s.Moved b) :
    s.Moved (if c then a else b) := by
  split
  · next h => exact ha h
  · next h => exact hb h

theorem State.moved_if {c : Prop} [Decidable c] {s a : State} (ha : s.Moved a) : s.Moved (if c then a else s) :=
  State.moved_ite (fun _ => ha) fun _ => .refl s

/-! ### Call control (03; 04, R71, R72 and R83) -/

theorem State.moved_stale (s : State) (b r) : s.Moved (s.stale b r) := s.moved_raise _

theorem State.moved_abandon (s : State) (b c) : s.Moved (s.abandon b c) :=
  (((s.moved_removeRing _).trans (State.moved_guardCall _ _)).trans (State.moved_enterIdle _ _)).trans (State.moved_serveRings _)

theorem State.moved_accept (s : State) (b r) : s.Moved (s.accept b r) := by
  refine (s.moved_checkParity everyBearer).trans (State.moved_ite (fun _ => ?_) fun _ => State.moved_stale _ b r)
  split
  · exact State.moved_connect _ _ _
  · exact State.moved_sendCall _ _
  all_goals exact State.moved_stale _ b r

theorem State.moved_release (s : State) (b r) : s.Moved (s.release b r) := by
  refine (s.moved_checkParity everyBearer).trans (State.moved_ite (fun _ => ?_) fun _ => State.moved_stale _ b r)
  split
  · exact (State.moved_guardCall _ b).trans (State.moved_putLine _ _ _)
  · exact State.moved_abandon _ b _
  · exact (State.moved_guardCall _ b).trans (State.moved_dropLine _ _ _)
  · exact .refl _
  all_goals exact State.moved_stale _ b r

theorem State.moved_withdraw (s : State) (b r) : s.Moved (s.withdraw b r) := by
  refine (s.moved_checkParity everyBearer).trans (State.moved_ite (fun _ => ?_) fun _ => State.moved_stale _ b r)
  split
  · exact (State.moved_guardCall _ b).trans (State.moved_putLine _ _ _)
  · exact State.moved_abandon _ b _
  · exact (State.moved_guardCall _ b).trans (State.moved_putLine _ _ _)
  · exact .refl _
  all_goals exact State.moved_stale _ b r

theorem State.moved_sendResult (s : State) (k r) : s.Moved (s.sendResult k r) := by
  cases k with
  | routine => exact s.moved_sendBoth r
  | demand p => exact s.moved_send p r

theorem State.moved_setOutcome (s : State) (l o) : s.Moved (s.setOutcome l o) := KeepsBounds.moved_updLine {} s l

theorem State.moved_reportAbort (s : State) (r) : s.Moved (s.reportAbort r) :=
  ((s.moved_setOutcome _ _).trans (State.moved_sendResult _ _ _)).trans (State.moved_callChoice _)

theorem State.moved_dropTest (s : State) : s.Moved s.dropTest := {}

theorem State.moved_abortForSeize (s : State) (l) : s.Moved (s.abortForSeize l) := by
  unfold State.abortForSeize
  split
  · exact State.moved_if (s.moved_dropTest.trans (State.moved_reportAbort _ _))
  · exact .refl s

theorem State.moved_settleGlare (s : State) (b) : s.Moved (s.settleGlare b).1 := by
  unfold State.settleGlare
  split
  · exact (s.moved_putLine _ .waiting).trans {}
  all_goals exact .refl s

theorem State.moved_reenter (s : State) (entry) : s.Moved (s.reenter entry) := by
  cases entry with
  | none => exact .refl s
  | some e =>
    exact s.moved_serveQueue.trans (State.moved_if (State.moved_expireEntry _ _))

theorem State.moved_takeSeize (s : State) (l b r) : s.Moved (s.takeSeize l b r) :=
  (((((s.moved_abortForSeize l).trans (State.moved_settleGlare _ b)).trans (State.moved_putBearer _ b _)).trans
    (State.moved_putLine _ l _)).trans (State.moved_ringLine _ l)).trans (State.moved_reenter _ _)

theorem State.moved_seize (s : State) (l b r) : s.Moved (s.seize l b r) := by
  have hc := (s.moved_checkParity everyBearer).trans (State.moved_checkParity _ [.line l])
  unfold State.seize
  dsimp only
  split
  · exact hc.trans (State.moved_sendCall _ _)
  · exact hc.trans (State.moved_takeSeize _ l b r)

theorem State.moved_takeSeizeIn (s : State) (p line bearer r) : s.Moved (s.takeSeizeIn p line bearer r) :=
  s.moved_callControl p _ _ _ _ fun x => s.moved_seize x.1 x.2 r

theorem State.moved_takeAccept (s : State) (p b1 bearer r) : s.Moved (s.takeAccept p b1 bearer r) :=
  s.moved_callControl p _ _ _ _ fun b => s.moved_accept b r

theorem State.moved_takeRelease (s : State) (p b1 kind bearer r) : s.Moved (s.takeRelease p b1 kind bearer r) :=
  s.moved_callControl p _ _ _ _ fun b => s.moved_release b r

theorem State.moved_takeLockout (s : State) (p b1 bearer r) : s.Moved (s.takeLockout p b1 bearer r) :=
  s.moved_callControl p _ _ _ _ fun b => s.moved_withdraw b r

/-! ### The bearer audit (09) -/

theorem State.moved_tearToGuard (s : State) (b) : s.Moved (s.tearToGuard b) := by
  unfold State.tearToGuard
  split
  · exact s.moved_takeCall b _ _
  · exact .refl s

theorem State.moved_blockFar (s : State) (b) : s.Moved (s.blockFar b) := by
  unfold State.blockFar
  split
  · exact s.moved_putBearer b _
  · exact s.moved_putBearer b _
  · exact s.moved_putBearer b _
  · exact s.moved_takeCall b _ _
  · exact s.moved_takeCall b _ _
  · exact s.moved_takeCall b _ _
  all_goals exact .refl s

theorem State.moved_actOn (s : State) (b far r) : s.Moved (s.actOn b far r) := by
  unfold State.actOn
  split
  · exact s.moved_tearToGuard b
  · exact s.moved_tearToGuard b
  · exact s.moved_sendCall _
  · exact (s.moved_tearToGuard b).trans (State.moved_sendCall _ _)
  · exact s.moved_blockFar b
  · exact s.moved_blockFar b
  · exact s.moved_sendCall _
  all_goals exact .refl s

theorem State.moved_resolve (s : State) (b far r) : s.Moved (s.resolve b far r) :=
  ((s.moved_actOn b far r).trans (State.moved_setDisagreements _ b 0 (.inl rfl))).trans (State.moved_raise _ _)

/-- A record is compared only where the bearer entered its state earlier, so a count above 0 stands at no present entry (09, R154). -/
theorem State.moved_compare {s : State} {b} (h : s.compared b = true) (far r) : s.Moved (s.compare b far r) := by
  have past : ¬ s.Stamped b := fun hs => by
    have hle : (s.bearer b).entered + settleTime ≤ s.now := of_decide_eq_true ((Bool.and_eq_true _ _).mp h).2
    have he : (s.bearer b).entered = s.now := hs.1
    have hp : 0 < settleTime := by decide
    simp only [Time] at *
    omega
  unfold State.compare
  split
  · exact s.moved_setDisagreements b 0 (.inl rfl)
  · exact s.moved_setDisagreements b 0 (.inl rfl)
  · exact s.moved_putBearer b .free
  · exact State.moved_ite (fun _ => s.moved_resolve b far r) fun _ => s.moved_setDisagreements b _ (.inr past)

theorem State.moved_takeQuality (s : State) (q) : s.Moved (s.takeQuality q) where
  quality := fun ⟨he, hn, _, hd⟩ => ⟨he, hn, Nat.le_of_lt_succ q.isLt, hd⟩

theorem State.moved_takeAudit (s : State) (a) : s.Moved (s.takeAudit a) := by
  refine State.moved_if (State.moved_ite (fun _ => .refl s) fun _ => ?_)
  split
  · exact s.moved_recordFault _ _ _
  · next b _ =>
    refine (s.moved_takeQuality a.quality).trans ?_
    dsimp only
    split
    · exact State.moved_recordFault _ _ _ _
    · next far _ =>
      exact State.moved_ite (fun _ => (State.moved_checkParity _ [.bearer b]).trans
        (State.moved_ite (fun hc => State.moved_compare hc far _) fun _ => .refl _)) fun _ => State.moved_recordFault _ _ _ _

/-! ### Loop samples, ring-trip and provisioning (01) -/

/-- A sample is taken of no TESTING line, so a run is kept at none where it must be (01, R9). -/
theorem State.moved_debounceLine {s : State} {l} (h : (s.line l).state.isTesting = false) (level) : s.Moved (s.debounceLine l level) := by
  obtain ⟨hst, hdig, hflt⟩ := (s.line l).debounce_keeps s.now level
  have key : s.LinesOk → ((s.line l).debounce s.now level).digits ≤ 11 ∧
      (((s.line l).debounce s.now level).state.isConnected = false → ((s.line l).debounce s.now level).digits = 0) ∧
      ((s.line l).debounce s.now level).faultCount ≤ 5 ∧
      (((s.line l).debounce s.now level).state.isTesting = true → ((s.line l).debounce s.now level).run = .zero) ∧
      (((s.line l).debounce s.now level).state.isConnected = true → (s.line l).state.isConnected = true) := fun hs => by
    obtain ⟨hd, hz, hf, -, -⟩ := hs l
    rw [hst, hdig, hflt]
    exact ⟨hd, hz, hf, fun ht => absurd (h.symm.trans ht) (by decide), id⟩
  unfold State.debounceLine
  split
  · exact s.moved_updSupervision l _ key
  · exact s.moved_updLine l _ key

theorem State.moved_giveDigit (s : State) (l b) : s.Moved (s.giveDigit l b) :=
  (s.moved_sendCall _).trans (KeepsBounds.moved_updLine (f := fun r => { r with digits := 0 }) { digits := fun _ => .inr rfl } _ l)

theorem State.moved_giveFlash (s : State) (l b) : s.Moved (s.giveFlash l b) :=
  (State.moved_if (s.moved_giveDigit l b)).trans (State.moved_sendCall _ _)

theorem State.moved_clearCall (s : State) (l b) : s.Moved (s.clearCall l b) :=
  ((s.moved_guardCall b).trans (State.moved_sendCall _ _)).trans (State.moved_enterIdle _ l)

theorem State.moved_answer (s : State) (l b) : s.Moved (s.answer l b) := by
  unfold State.answer
  split
  · exact ((s.moved_connect _ _).trans (State.moved_sendCall _ _)).trans (State.moved_stopRinging _ _)
  all_goals exact .refl s

/-- A dial break is counted on a CONNECTED line alone, up to 11 (01, R11). -/
theorem State.moved_closeConnected {s : State} {l b} (h : (s.line l).state = .connected b) (length) :
    s.Moved (s.closeConnected l b length) := by
  refine State.moved_ite (fun _ => s.moved_updLine l _ fun hs => ?_) fun _ =>
    State.moved_if ((s.moved_checkParity _).trans (State.moved_giveFlash _ l b))
  obtain ⟨-, -, hf, -, -⟩ := hs l
  have hc : (s.line l).state.isConnected = true := by rw [h]; rfl
  have ht : (s.line l).state.isTesting = false := by rw [h]; rfl
  exact ⟨Nat.min_le_left _ _, fun e => absurd (hc.symm.trans e) (by decide), hf, fun e => absurd (ht.symm.trans e) (by decide), id⟩

theorem State.moved_judgeClosure (s : State) (l length) : s.Moved (s.judgeClosure l length) := by
  unfold State.judgeClosure
  split
  · next h => exact State.moved_closeConnected h length
  · exact s.moved_offHook l
  · exact (s.moved_checkParity _).trans (State.moved_answer _ l _)
  all_goals exact .refl s

theorem State.moved_judgeTransition (s : State) (l ended) : s.Moved (s.judgeTransition l ended) := by
  cases ended with
  | none => exact .refl s
  | some length => exact State.moved_if (s.moved_judgeClosure l length)

theorem State.moved_takeDisconnect (s : State) (l b) : s.Moved (s.takeDisconnect l b) :=
  ((KeepsBounds.moved_updLine { digits := fun _ => .inr rfl } s l).trans (State.moved_checkParity _ _)).trans (State.moved_clearCall _ l b)

theorem State.moved_markLongOpen (s : State) (l) : s.Moved (s.markLongOpen l) := KeepsBounds.moved_updSupervision {} s l

theorem State.moved_leaveQueue (s : State) (l) : s.Moved (s.leaveQueue l) := {}

theorem State.moved_takeOnHook (s : State) (l) : s.Moved (s.takeOnHook l) := by
  have hm := s.moved_markLongOpen l
  unfold State.takeOnHook
  split
  · exact (hm.trans (State.moved_leaveQueue _ l)).trans (State.moved_enterIdle _ l)
  · exact (hm.trans (State.moved_checkParity _ _)).trans (State.moved_clearCall _ l _)
  · exact hm.trans (State.moved_enterIdle _ l)
  all_goals exact .refl s

theorem State.moved_judgeThresholds (s : State) (l) : s.Moved (s.judgeThresholds l) := by
  refine State.moved_if ?_
  split
  · exact State.moved_ite (fun _ => s.moved_takeDisconnect l _) fun _ =>
      State.moved_if ((s.moved_checkParity _).trans (State.moved_giveDigit _ l _))
  · exact State.moved_if (s.moved_takeOnHook l)
  · exact State.moved_if (s.moved_takeOnHook l)
  · exact State.moved_if (s.moved_takeOnHook l)
  all_goals exact .refl s

theorem State.moved_sampleLine (s : State) (l level) : s.Moved (s.sampleLine l level) := by
  refine State.moved_ite (fun h => ?_) fun _ => .refl s
  have hheld : s.samplingHeld l = false := by
    simpa using ((Bool.and_eq_true _ _).mp h).2
  have htest : ((s.checkParity [.line l]).line l).state.isTesting = false := by
    rw [(s.checkParity_same [.line l]).line]
    exact (Bool.or_eq_false_iff.mp hheld).2
  exact (((s.moved_checkParity [.line l]).trans (State.moved_debounceLine htest level)).trans
    (State.moved_judgeTransition _ l _)).trans (State.moved_judgeThresholds _ l)

theorem State.moved_takeRingTrip (s : State) (l) : s.Moved (s.takeRingTrip l) := by
  refine State.moved_if ((s.moved_checkParity [.line l]).trans ?_)
  dsimp only
  split
  · exact ((KeepsBounds.moved_updLine { run := fun _ => .inr rfl } _ l).trans (State.moved_checkParity _ _)).trans
      (State.moved_answer _ l _)
  all_goals exact .refl _

theorem State.moved_writeProvision (s : State) (l i c) : s.Moved (s.writeProvision l i c) := KeepsBounds.moved_updLine {} s l

theorem State.moved_restore (s : State) (l) : s.Moved (s.restore l) :=
  (KeepsBounds.moved_updLine { faults := fun _ _ => Nat.zero_le 5 } s l).trans (State.moved_enterIdle _ l)

theorem State.moved_provision (s : State) (p line l inService c) : s.Moved (s.provision p line l inService c) := by
  have hc := s.moved_checkParity [.line l]
  have hw := hc.trans (State.moved_writeProvision _ l inService c)
  have hp := hw.trans (State.moved_putLine _ l (.parked .outOfService))
  unfold State.provision
  dsimp only
  split
  · exact hc.trans (State.moved_refuseWith _ p line _ _)
  · exact State.Moved.trans (State.moved_ite (fun _ => hw) fun _ => hp) (State.moved_done _ p line _)
  · exact State.Moved.trans (State.moved_ite (fun _ => hw.trans (State.moved_restore _ l)) fun _ => hp) (State.moved_done _ p line _)
  · exact State.Moved.trans (State.moved_ite (fun _ => hw.trans (State.moved_restore _ l)) fun _ => hp) (State.moved_done _ p line _)
  all_goals exact hc.trans (State.moved_refuseWith _ p line _ _)

theorem State.moved_takeProvision (s : State) (p line i c) : s.Moved (s.takeProvision p line i c) :=
  s.moved_request p _ _ _ _ fun x => s.moved_provision p line x.1 x.2.1 x.2.2

/-! ### Bearer timers and blocks (02; 03, R56 and R62) -/

theorem State.moved_takeReservationExpiry (s : State) (b) : s.Moved (s.takeReservationExpiry b) := by
  unfold State.takeReservationExpiry
  split
  · exact State.moved_if ((((s.moved_checkParity _).trans (State.moved_guardCall _ b)).trans (State.moved_putLine _ _ _)).trans
      (State.moved_raise _ _))
  all_goals exact .refl s

theorem State.moved_takeGuardExpiry (s : State) (b) : s.Moved (s.takeGuardExpiry b) := by
  unfold State.takeGuardExpiry
  split
  · exact State.moved_if ((s.moved_checkParity _).trans (State.moved_putBearer _ b _))
  all_goals exact .refl s

theorem State.moved_takeWaitExpiry (s : State) (l) : s.Moved (s.takeWaitExpiry l) := by
  unfold State.takeWaitExpiry
  split
  · exact State.moved_if (s.moved_expireEntry l)
  · exact .refl s

/-- A pending or held block is a change without an entry (02, R29). -/
theorem State.moved_takeBlock (s : State) (p bearer) : s.Moved (s.takeBlock p bearer) := by
  refine s.moved_request p _ _ _ _ fun b => ?_
  unfold State.blockBearer
  refine (s.moved_checkParity [.bearer b]).trans ?_
  dsimp only
  split
  · exact (State.moved_putBearer _ b _).trans (State.moved_done _ _ _ _)
  · next h => exact (State.moved_amendBearer _ b _ (by rw [h]; rfl)).trans (State.moved_done _ _ _ _)
  · exact State.moved_done _ _ _ _
  all_goals exact State.moved_refuseWith _ _ _ _ _

theorem State.moved_takeUnblock (s : State) (p bearer) : s.Moved (s.takeUnblock p bearer) := by
  refine s.moved_request p _ _ _ _ fun b => ?_
  unfold State.unblockBearer
  refine (s.moved_checkParity [.bearer b]).trans ?_
  dsimp only
  split
  · exact (State.moved_putBearer _ b _).trans (State.moved_done _ _ _ _)
  · next h => exact (State.moved_amendBearer _ b _ (by rw [h]; rfl)).trans (State.moved_done _ _ _ _)
  · next h => exact (State.moved_amendBearer _ b _ (by rw [h]; rfl)).trans (State.moved_done _ _ _ _)
  all_goals exact State.moved_refuseWith _ _ _ _ _

/-! ### Line tests (10) -/

theorem State.moved_leaveTest (s : State) (l) : s.Moved (s.leaveTest l) := by
  unfold State.leaveTest
  split
  · exact s.moved_enterIdle l
  · exact s.moved_putLine l _
  all_goals exact .refl s

theorem State.moved_takeSettleEnd (s : State) : s.Moved s.takeSettleEnd := by
  unfold State.takeSettleEnd
  split
  · exact State.moved_if {}
  · exact .refl s

theorem State.moved_resultState (s : State) (l o) : s.Moved (s.resultState l o) := by
  unfold State.resultState
  split
  · exact State.moved_ite (fun _ => (s.moved_putLine l _).trans (State.moved_raise _ _)) fun _ => s.moved_enterIdle l
  · exact State.moved_ite (fun _ => s.moved_putLine l _) fun _ => s.moved_enterIdle l
  · exact s.moved_putLine l _
  all_goals exact .refl s

theorem faultCountAfter_le {n : Nat} (h : n ≤ 5) (o : TestOutcome) : faultCountAfter n o ≤ 5 := by
  cases o with
  | faulty => exact Nat.min_le_left 5 _
  | good => exact Nat.zero_le 5
  | marginal => exact Nat.zero_le 5
  | aborted => exact h
  | headTimeout => exact h

theorem State.moved_withTesting (s : State) (x : Testing) : s.Moved { s with testing := x } := {}

theorem State.moved_complete (s : State) (r c) : s.Moved (s.complete r c) := by
  have hf := ((s.moved_checkParity [.line r.line]).trans (State.moved_withTesting _
      { (s.checkParity [.line r.line]).testing with timeoutRun := 0, test := none })).trans
    (KeepsBounds.moved_updLine (f := fun x => { x with faultCount := faultCountAfter x.faultCount c.outcome })
      { faults := fun _ h => faultCountAfter_le h _ } _ r.line)
  exact (((hf.trans (State.moved_resultState _ r.line c.outcome)).trans (KeepsBounds.moved_updLine {} _ r.line)).trans
    (State.moved_sendResult _ r.kind _)).trans (State.moved_callChoice _)

theorem State.moved_takeMeasurement (s : State) (c) : s.Moved (s.takeMeasurement c) := by
  unfold State.takeMeasurement
  split
  · exact State.moved_if (s.moved_complete _ c)
  · exact .refl s

theorem State.moved_headTimedOut (s : State) (r) : s.Moved (s.headTimedOut r) := by
  have hd := ((s.moved_checkParity [.line r.line]).trans (State.moved_dropTest _)).trans (State.moved_leaveTest _ r.line)
  exact ((((hd.trans (State.moved_setOutcome _ r.line .headTimeout)).trans (State.moved_raise _ _)).trans
    (State.moved_sendResult _ r.kind _)).trans (State.moved_withTesting _ _)).trans (State.moved_callChoice _)

theorem State.moved_takeHeadTimeout (s : State) : s.Moved s.takeHeadTimeout := by
  unfold State.takeHeadTimeout
  split
  · exact State.moved_if (s.moved_headTimedOut _)
  · exact .refl s

theorem State.moved_takeSeizure (s : State) : s.Moved s.takeSeizure := by
  unfold State.takeSeizure
  split
  · next r _ =>
    exact ((((s.moved_checkParity [.line r.line]).trans (State.moved_dropTest _)).trans
      (KeepsBounds.moved_updLine { run := fun _ => .inr rfl } _ r.line)).trans (State.moved_leaveTest _ r.line)).trans
      (State.moved_reportAbort _ r)
  · exact .refl s

theorem State.moved_takeTestDue (s : State) (l) : s.Moved (s.takeTestDue l) := State.moved_if s.moved_callChoice

theorem State.moved_takeTestLine (s : State) (p line) : s.Moved (s.takeTestLine p line) := by
  refine s.moved_request p _ _ _ _ fun l => ?_
  unfold State.testLine
  refine (s.moved_checkParity [.line l]).trans ?_
  dsimp only
  split
  · exact State.moved_refuseWith _ _ _ _ _
  · exact {}

theorem State.moved_takeResumeTests (s : State) (p b1) : s.Moved (s.takeResumeTests p b1) := s.moved_request p _ _ _ _ fun _ => {}

/-! ### Quality windows and rates (07) -/

theorem State.moved_setRuns (s : State) (d n) : s.Moved (s.setRuns d n) := {}

theorem State.moved_stepDown (s : State) (c) : s.Moved (s.stepDown c) := (s.moved_setRuns 0 0).trans (State.moved_createPlan _ _ _)

theorem State.moved_stepUp (s : State) : s.Moved s.stepUp := (s.moved_setRuns 0 0).trans (State.moved_announce _ _)

theorem State.moved_decideRate (s : State) : s.Moved s.decideRate :=
  State.moved_ite (fun _ => s.moved_stepDown true) fun _ =>
    State.moved_ite (fun _ => State.moved_ite (fun _ => s.moved_stepDown false) fun _ => s.moved_setRuns _ _) fun _ =>
      State.moved_ite (fun _ => State.moved_ite (fun _ => s.moved_stepUp) fun _ => s.moved_setRuns _ _) fun _ => s.moved_setRuns _ _

theorem State.moved_decideOrHold (s : State) : s.Moved s.decideOrHold :=
  State.moved_ite (fun _ => s.moved_decideRate) fun _ =>
    (s.moved_setRuns 0 0).trans (State.moved_if (State.moved_stepPlan _ true))

theorem smooth_le {q e : Nat} (hq : q ≤ 65535) (he : e ≤ 65535) : smooth q e ≤ 65535 := by
  unfold smooth
  omega

/-- An estimate is saturated, and Q_near lies between the estimate and its old value (07, R123). -/
theorem State.moved_measured (s : State) (m n) : s.Moved { s with quality := s.quality.measured (berEstimate m n) } where
  quality := fun ⟨_, hn, hf, _⟩ => by
    have he : berEstimate m n ≤ 65535 := Nat.min_le_left _ _
    have near : (if s.quality.firstWindow then berEstimate m n else smooth s.quality.qNear (berEstimate m n)) ≤ 65535 := by
      split
      · exact he
      · exact smooth_le hn he
    exact ⟨he, near, hf, max_le near hf⟩

theorem State.moved_judgeBer (s : State) (w) : s.Moved (s.judgeBer w) := (s.moved_measured _ _).trans (State.moved_decideOrHold _)

theorem State.moved_countFrame (s : State) (n) : s.Moved (s.countFrame n) :=
  State.moved_ite (fun _ => s.moved_judgeBer _) fun _ => {}

theorem State.moved_takeDrainExpiry (s : State) : s.Moved s.takeDrainExpiry := State.moved_if (s.moved_stepPlan true)

theorem State.moved_takeRateAuto (s : State) (p b1) : s.Moved (s.takeRateAuto p b1) := s.moved_request p _ _ _ _ fun _ => {}

theorem State.moved_setMode (s : State) (m) : s.Moved (s.setMode m) := {}

theorem State.moved_takeRateFixed (s : State) (p b1 rate) : s.Moved (s.takeRateFixed p b1 rate) :=
  s.moved_request p _ _ _ _ fun _ =>
    (((s.moved_setMode _).trans (State.moved_setRuns _ 0 0)).trans (State.moved_fixedCheck _)).trans (State.moved_done _ _ _ _)

/-! ### Link synchronisation (06) -/

theorem State.moved_withLink (s : State) (x : Link) : s.Moved { s with link := x } := {}

theorem State.moved_giveUp (s : State) (e) : s.Moved (s.giveUp e) := by
  unfold State.giveUp
  dsimp only
  split
  · exact (s.moved_withLink _).trans (State.moved_raise _ _)
  · exact s.moved_withLink _

theorem State.moved_loseSync (s : State) : s.Moved s.loseSync := by
  have h : ∀ x y, s.Moved { s with link := x, quality := { s.quality with window := none }, coder := { s.coder with
      expected := none, lastGoodNumber := none, rxCountdown := y } } := fun _ _ => {}
  exact ((h _ _).trans (State.moved_setRxRate _ _)).trans (State.moved_send _ _ _)

theorem State.moved_judgeUpWindow (s : State) (bad damaged pass) : s.Moved (s.judgeUpWindow bad damaged pass) :=
  State.moved_ite (fun _ => s.moved_withLink _) fun _ => State.moved_ite (fun _ => s.moved_loseSync) fun _ => s.moved_withLink _

theorem State.moved_endWindow (s : State) (n) : s.Moved (s.endWindow n) := by
  unfold State.endWindow
  dsimp only
  split
  · exact State.moved_ite (fun _ => s.moved_beginWindow) fun _ => State.moved_ite
      (fun _ => (s.moved_withLink _).trans (State.moved_beginWindow _)) fun _ => s.moved_giveUp _
  · exact s.moved_beginWindow
  · exact (s.moved_judgeUpWindow _ _ _).trans (State.moved_beginWindow _)
  · exact .refl s

theorem State.moved_resumePlan (s : State) : s.Moved s.resumePlan := by
  unfold State.resumePlan
  split
  · split
    · exact s.moved_stepPlan _
    · exact s.moved_stepPlan _
    · exact .refl s
  · exact .refl s

theorem State.moved_withUnit (s : State) (x : UnitRecord) : s.Moved { s with unit := x } := {}

theorem State.moved_reportFirstUp (s : State) : s.Moved s.reportFirstUp :=
  State.moved_if ((s.moved_send .link s.unitReport).trans (State.moved_withUnit _ _))

theorem State.moved_setUp (s : State) (r) : s.Moved (s.setUp r) := {}

theorem State.moved_enterUp (s : State) : s.Moved s.enterUp :=
  ((((((s.moved_setUp _).trans (State.moved_settlePairs _)).trans (State.moved_sendBoth _ _)).trans (State.moved_reportFirstUp _)).trans
    (State.moved_serveQueue _)).trans (State.moved_resumePlan _)).trans (State.moved_fixedCheck _)

theorem State.moved_takeWord (s : State) (x w) : s.Moved (s.takeWord x w) := by
  unfold State.takeWord
  split
  · exact State.moved_if (State.moved_ite (fun _ => (s.moved_withLink _).trans (State.moved_enterUp _)) fun _ => s.moved_withLink _)
  all_goals exact .refl s

theorem State.moved_takeGiveUp (s : State) (bits) : s.Moved (s.takeGiveUp bits) := by
  unfold State.takeGiveUp
  split
  · exact State.moved_if (s.moved_giveUp _)
  all_goals exact .refl s

theorem State.moved_failLink (s : State) : s.Moved s.failLink :=
  ((((s.moved_dropLink.trans (State.moved_beginHunt _)).trans (State.moved_raise _ _)).trans (State.moved_emptyLinkQueue _)).trans
    (State.moved_tearDown _)).trans (State.moved_send _ _ _)

theorem State.moved_enableLink (s : State) : s.Moved s.enableLink := by
  unfold State.enableLink
  split
  · exact s.moved_beginHunt.trans (State.moved_send _ _ _)
  all_goals exact .refl s

theorem State.moved_stopLink (s : State) : s.Moved s.stopLink := s.moved_withLink _

theorem State.moved_disableLink (s : State) : s.Moved s.disableLink := by
  have hd := (((s.moved_dropLink.trans (State.moved_stopLink _)).trans (State.moved_emptyLinkQueue _)).trans (State.moved_tearDown _))
  unfold State.disableLink
  split
  · exact .refl s
  all_goals exact hd.trans (State.moved_send _ _ _)

theorem State.moved_takeEnable (s : State) (p b1) : s.Moved (s.takeEnable p b1) :=
  s.moved_request p _ _ _ _ fun _ => s.moved_enableLink.trans (State.moved_done _ p b1 _)

theorem State.moved_takeDisable (s : State) (p b1) : s.Moved (s.takeDisable p b1) :=
  s.moved_request p _ _ _ _ fun _ => s.moved_disableLink.trans (State.moved_done _ p b1 _)

theorem State.moved_takeRestartLink (s : State) (p b1) : s.Moved (s.takeRestartLink p b1) :=
  s.moved_request p _ _ _ _ fun _ => State.moved_ite (fun _ => s.moved_refuseWith p b1 _ _) fun _ =>
    s.moved_restartLink.trans (State.moved_done _ p b1 _)

/-! ### Parameters, queries and the unit (08 and 11) -/

theorem State.moved_afterWrite (s : State) (q) : s.Moved (s.afterWrite q) := by
  unfold State.afterWrite
  split
  · exact s.moved_expireQueue
  all_goals exact .refl s

theorem Param.index_inj {p q : Param} (h : p.index.val = q.index.val) : p = q := by
  have found : ∀ p : Param, allParams[p.index.val]? = some p := fun p => by cases p <;> rfl
  exact Option.some.inj ((found p).symm.trans (h ▸ found q))

theorem State.param_writeParam (s : State) (p q : Param) (v : Nat) : (s.writeParam p v).param q = if q = p then v else s.param q := by
  by_cases h : q = p
  · subst h
    simp [State.param, State.writeParam]
  · have hi : p.index.val ≠ q.index.val := fun e => h (Param.index_inj e).symm
    simp [State.param, State.writeParam, h, hi]

theorem Param.range_ordered (p : Param) : p.range.1 ≤ p.range.2 := by
  cases p <;> decide

theorem clampTo_mem {r : Nat × Nat} (h : r.1 ≤ r.2) (v : Nat) : r.1 ≤ clampTo r v ∧ clampTo r v ≤ r.2 := by
  unfold clampTo
  omega

/-- The ranges of R151 leave each threshold of R126 room on its side of its partner. -/
theorem State.ParamsOk.clampPartner {s : State} (h : s.ParamsOk) {p : Param} {v : Nat} (hv : p.range.1 ≤ v ∧ v ≤ p.range.2) :
    p.range.1 ≤ s.clampPartner p v ∧ s.clampPartner p v ≤ p.range.2 := by
  have hUpR := h.1 .upR
  have hDownS := h.1 .downS
  have hUpS := h.1 .upS
  have hDownW := h.1 .downW
  unfold State.clampPartner
  simp only [Param.range] at hUpR hDownS hUpS hDownW
  split
  case h_1 | h_2 | h_3 | h_4 =>
    simp only [Param.range] at hv ⊢
    split <;> omega
  all_goals exact hv

theorem State.ParamsOk.valueWritten {s : State} (h : s.ParamsOk) (p : Param) (v : Nat) :
    p.range.1 ≤ s.valueWritten p v ∧ s.valueWritten p v ≤ p.range.2 :=
  h.clampPartner (clampTo_mem p.range_ordered v)

/-- A written threshold stands on its side of its partner (07, R126). -/
theorem State.ParamsOk.thresholds {s : State} (h : s.ParamsOk) (v : Nat) :
    s.valueWritten .upR v < s.param .downS ∧ s.param .upR < s.valueWritten .downS v ∧
      s.valueWritten .upS v < s.param .downW ∧ s.param .upS < s.valueWritten .downW v := by
  have hDownS := h.1 .downS
  have hDownW := h.1 .downW
  simp only [Param.range] at hDownS hDownW
  simp only [State.valueWritten, State.clampPartner]
  refine ⟨?_, ?_, ?_, ?_⟩ <;> split <;> omega

theorem State.moved_writeParam (s : State) (p : Param) (v : Nat) : s.Moved (s.writeParam p (s.valueWritten p v)) where
  params := fun h => by
    obtain ⟨hUpR, hDownS, hUpS, hDownW⟩ := h.thresholds v
    refine ⟨fun q => ?_, ?_, ?_⟩
    · rw [State.param_writeParam]
      split
      · next e => exact e ▸ h.valueWritten p v
      · exact h.1 q
    · rw [State.param_writeParam, State.param_writeParam]
      have := h.2.1
      split
      · next e => subst e; exact hUpR
      · split
        · next e => subst e; exact hDownS
        · exact h.2.1
    · rw [State.param_writeParam, State.param_writeParam]
      split
      · next e => subst e; exact hUpS
      · split
        · next e => subst e; exact hDownW
        · exact h.2.2

theorem State.routing_writeRouting (s : State) (k j : ErrorKind) (r : Routing) :
    (s.writeRouting k r).routing j = if j = k then r else s.routing j := by
  by_cases h : j = k
  · subst h
    simp [State.routing, State.writeRouting]
  · have hi : k.index.val ≠ j.index.val := fun e => h (ErrorKind.index_inj e).symm
    simp [State.routing, State.writeRouting, h, hi]

theorem routingWritten_allowed (k : ErrorKind) (n : Nat) : routingWritten k n ∈ k.allowed :=
  (k.nearestRouting_nearest ⟨min 3 n, by omega⟩).1

theorem State.moved_writeRouting (s : State) (k : ErrorKind) (n : Nat) : s.Moved (s.writeRouting k (routingWritten k n)) where
  errors := fun ⟨hr, hc, hn⟩ => by
    refine ⟨fun j => ?_, hc, hn⟩
    rw [State.routing_writeRouting]
    split
    · next e => exact e ▸ routingWritten_allowed k n
    · exact hr j

theorem State.moved_replyWritten (s : State) (p ident asked n) : s.Moved (s.replyWritten p ident asked n) := s.moved_replyWith p _

theorem State.moved_setParam (s : State) (p ident asked n) : s.Moved (s.setParam p ident asked n) := by
  cases n with
  | value q => exact ((s.moved_writeParam q _).trans (State.moved_afterWrite _ q)).trans (State.moved_replyWritten _ p ident asked _)
  | routing k => exact (s.moved_writeRouting k _).trans (State.moved_replyWritten _ p ident asked _)

theorem State.moved_takeSetParam (s : State) (p ident v) : s.Moved (s.takeSetParam p ident v) :=
  s.moved_request p _ _ _ _ fun n => s.moved_setParam p ident v n

theorem State.moved_query {α : Type} (s : State) (p index) (range : Option α) (reads answer) :
    s.Moved (s.query p index range reads answer) :=
  s.moved_request p _ _ _ _ fun x => (s.moved_checkParity (reads x)).trans (State.moved_replyWith _ p _)

theorem State.moved_checkOffHook (s : State) (l) : s.Moved (s.checkOffHook l) := State.moved_if (s.moved_putLine l _)

theorem State.moved_enterService (s : State) : s.Moved s.enterService :=
  ((((s.moved_withUnit _).trans (State.moved_checkParity _ everyLine)).trans (State.Moved.foldl State.moved_checkOffHook allLines _)).trans
    (State.moved_beginWindow _)).trans (State.moved_callChoice _)

theorem State.moved_takeRestartUnit (s : State) (p b1) : s.Moved (s.takeRestartUnit p b1) :=
  s.moved_request p _ _ _ _ fun _ => s.moved_unitRestart _ _ fun x => ⟨x.moved_send _ _, (State.send_same _ _ _).lines⟩

theorem State.moved_clearErrors (s : State) : s.Moved s.clearErrors where
  errors := fun h => ⟨h.1, fun k => by simp [State.count, State.clearErrors], fun _ k => by simp [State.inNext, State.clearErrors]⟩

theorem State.moved_takeClearErrors (s : State) (p b1) : s.Moved (s.takeClearErrors p b1) :=
  s.moved_request p _ _ _ _ fun _ => s.moved_clearErrors.trans (State.moved_done _ _ _ _)

/-! ### Received records (08) -/

theorem State.moved_notAccepted (s : State) (p r) : s.Moved (s.notAccepted p r) :=
  State.moved_if (State.moved_ite (fun _ => s.moved_recordFault _ _ _) fun _ => s.moved_formatFailure _ _ _)

theorem State.moved_takeQuery (s : State) (p r) : s.Moved (s.takeQuery p r) := by
  unfold State.takeQuery
  split
  · exact s.moved_query _ _ _ _ _
  · exact s.moved_query _ _ _ _ _
  · exact s.moved_query _ _ _ _ _
  · exact s.moved_query _ _ _ _ _
  · exact s.moved_query _ _ _ _ _
  · exact s.moved_query _ _ _ _ _
  · exact s.moved_query _ _ _ _ _
  · exact s.moved_notAccepted p r

theorem State.moved_takeRateMode (s : State) (p r) : s.Moved (s.takeRateMode p r) := by
  unfold State.takeRateMode
  split
  · exact s.moved_takeRateAuto p _
  · exact s.moved_takeRateFixed p _ _
  · exact s.moved_notAccepted p r

theorem State.moved_takeLinkControl (s : State) (p r) : s.Moved (s.takeLinkControl p r) := by
  unfold State.takeLinkControl
  split
  · exact s.moved_takeEnable p _
  · exact s.moved_takeDisable p _
  · exact s.moved_takeRestartLink p _
  · exact s.moved_notAccepted p r

theorem State.moved_receive (s : State) (p r) : s.Moved (s.receive p r) := by
  unfold State.receive
  split
  · exact .refl s
  · exact s.moved_takeSeizeIn p _ _ _
  · exact s.moved_takeAccept p _ _ _
  · exact s.moved_takeRelease p _ _ _ _
  · exact s.moved_takeRelease p _ _ _ _
  · exact s.moved_takeLockout p _ _ _
  · exact s.moved_takeProvision p _ _ _
  · exact s.moved_takeBlock p _
  · exact s.moved_takeUnblock p _
  · exact s.moved_takeSetParam p _ _
  · exact s.moved_takeTestLine p _
  · exact s.moved_takeResumeTests p _
  · exact s.moved_takeRateMode p r
  · exact s.moved_takeLinkControl p r
  · exact s.moved_takeRestartUnit p _
  · exact s.moved_takeClearErrors p _
  · exact s.moved_takeQuery p r
  · exact s.moved_notAccepted p r

theorem State.moved_takeMismatch (s : State) (src kind) : s.Moved (s.takeMismatch src kind) := State.moved_if (s.moved_recordFault _ _ _)

theorem State.moved_takeWhole (s : State) (p bytes) : s.Moved (s.takeWhole p bytes) := by
  unfold State.takeWhole
  split
  · exact State.moved_ite (fun _ => s.moved_receive p _) fun _ => s.moved_takeMismatch _ _
  · exact .refl s

theorem State.moved_setAssembler (s : State) (a) : s.Moved (s.setAssembler a) := {}

theorem State.moved_abandonPartial (s : State) (bytes) : s.Moved (s.abandonPartial bytes) :=
  (s.moved_setAssembler .hunting).trans (State.moved_raise _ _)

theorem State.moved_startRecord (s : State) (b) : s.Moved (s.startRecord b) := State.moved_if (s.moved_setAssembler _)

theorem State.moved_appendByte (s : State) (bytes b) : s.Moved (s.appendByte bytes b) :=
  State.moved_ite (fun _ => (s.moved_setAssembler .hunting).trans (State.moved_takeWhole _ _ _)) fun _ => s.moved_setAssembler _

theorem State.moved_takeByte (s : State) (b) : s.Moved (s.takeByte b) := by
  unfold State.takeByte
  split
  · exact s.moved_startRecord b
  · exact State.moved_ite (fun _ => (s.moved_abandonPartial _).trans (State.moved_startRecord _ b)) fun _ => s.moved_appendByte _ b

theorem State.moved_takeStopBitError (s : State) : s.Moved s.takeStopBitError := by
  unfold State.takeStopBitError
  split
  · exact .refl s
  · exact s.moved_abandonPartial _

theorem State.moved_takeFramingTimeout (s : State) : s.Moved s.takeFramingTimeout := by
  unfold State.takeFramingTimeout
  split
  · exact .refl s
  · exact State.moved_if (s.moved_abandonPartial _)

theorem State.moved_transmitLocal (s : State) : s.Moved s.transmitLocal := by
  refine State.moved_if ?_
  split
  · next r rest e =>
    have hq : s.messages.localQueue.length = rest.length + 1 := by rw [e]; rfl
    exact { queues := fun h => ⟨h.1, (Nat.le_succ _).trans (hq.symm.trans_le h.2)⟩ }
  · exact {}

/-! ### Frames and tone blocks (05; 01, R6) -/

theorem State.moved_popMessage (s : State) (k) : s.Moved (s.popMessage k) := by
  unfold State.popMessage
  split
  · exact .refl s
  · exact .refl s
  · exact { queues := fun h => ⟨(s.messages.linkQueue.length_tail.trans_le (Nat.sub_le _ _)).trans h.1, h.2⟩ }

theorem State.moved_countDown (s : State) : s.Moved s.countDown := by
  unfold State.countDown
  split
  · exact .refl s
  · exact State.moved_ite (fun _ => s.moved_withLink _) fun _ => s.moved_withLink _

theorem State.moved_emit (s : State) (k) : s.Moved (s.emit k) := {}

theorem State.moved_countSince (s : State) : s.Moved s.countSince := {}

theorem State.moved_sendFrame (s : State) : s.Moved s.sendFrame := by
  have hc : s.Moved (if s.frameKind = .bare then s else s.checkParity everyBearer) :=
    State.moved_ite (fun _ => .refl s) fun _ => s.moved_checkParity _
  exact (((hc.trans (State.moved_emit _ _)).trans (State.moved_popMessage _ _)).trans (State.moved_countDown _)).trans
    (State.moved_countSince _)

theorem State.moved_withPins (s : State) (x : Pins) : s.Moved { s with pins := x } := {}

theorem State.moved_assemble (s : State) (voice) : s.Moved (s.assemble voice) :=
  State.moved_if ((s.moved_withPins _).trans (State.moved_ite
    (fun _ => ((State.moved_takeSwitch _).trans (State.moved_sendFrame _)).trans (State.moved_fixedCheck _)) fun _ => State.moved_sendFrame _))

theorem State.moved_takeNumber (s : State) (f) : s.Moved (s.takeNumber f) := by
  have h : ∀ a b, s.Moved { s with coder := { s.coder with expected := a, lastGoodNumber := b } } := fun _ _ => {}
  refine State.moved_ite (fun _ => h _ _) fun _ => ?_
  dsimp only
  split
  · exact h _ _
  · exact State.moved_ite (fun _ => h _ _) fun _ => (h _ _).trans (State.moved_raise _ _)

/-- A delivery writes a concealment record (05, R101). -/
theorem State.moved_deliverLine (s : State) (l good) : s.Moved (s.deliverLine l good) where
  lines := fun h k => by
    obtain ⟨hd, hz, hf, ht, hc⟩ := h k
    refine ⟨hd, hz, hf, ht, fun e => ?_⟩
    simp only [State.deliverLine]
    rw [getElem_set_vector]
    split
    · rfl
    · exact hc e

theorem State.moved_deliverFrame (s : State) (f) : s.Moved (s.deliverFrame f) := by
  refine State.Moved.foldl (fun x b => ?_) allBearers s
  split
  · exact State.moved_deliverLine _ _ _
  all_goals exact .refl x

theorem State.moved_openFrame (s : State) (f) : s.Moved (s.openFrame f) :=
  State.moved_if (((s.moved_checkParity _).trans (State.moved_takeNumber _ f)).trans (State.moved_deliverFrame _ f))

theorem State.moved_takeAuditSlot (s : State) (f) : s.Moved (s.takeAuditSlot f) := by
  unfold State.takeAuditSlot
  split
  · exact State.moved_ite (fun _ => s.moved_takeAudit _) fun _ => s.moved_takeMismatch _ _
  · exact .refl s

theorem State.moved_followRate (s : State) (f) : s.Moved (s.followRate f) := by
  have h : ∀ x, s.Moved { s with coder := { s.coder with rxCountdown := x } } := fun _ => {}
  exact State.moved_ite (fun _ => h _) fun _ => (h _).trans (State.moved_setRxRate _ _)

theorem State.moved_countDamage (s : State) (f) : s.Moved (s.countDamage f) := by
  unfold State.countDamage
  split
  · exact State.moved_ite (fun _ => State.moved_ite (fun _ => s.moved_loseSync) fun _ => s.moved_withLink _) fun _ => s.moved_withLink _
  all_goals exact .refl s

theorem State.moved_closeFrame (s : State) (f) : s.Moved (s.closeFrame f) :=
  State.moved_if (((s.moved_followRate f).trans (State.moved_countDamage _ f)).trans (State.moved_if (State.moved_countFrame _ _)))

theorem State.moved_pause (s : State) : s.Moved s.pause :=
  State.moved_ite (fun _ => s.moved_settle) fun _ => s.moved_settle.trans (State.moved_flushReply _)

theorem State.moved_part (s : State) (body : State → State) (h : s.Moved (body s)) : s.Moved (s.part body) :=
  State.moved_ite (fun _ => .refl s) fun _ => h.trans (State.moved_pause _)

theorem State.moved_beforeClose (s : State) (f) : s.Moved (s.beforeClose f) :=
  ((s.moved_part _ (s.moved_openFrame f)).trans (State.moved_part _ _ (State.moved_takeAuditSlot _ f))).trans
    (State.moved_part _ _ (State.moved_takeWhole _ _ _))

theorem State.moved_takeFrame (s : State) (f) : s.Moved (s.takeFrame f) :=
  ((s.moved_beforeClose f).trans (State.moved_closeFrame _ f)).trans (State.moved_finish _)

theorem State.moved_takeFrameIf (s : State) (f due) : s.Moved (s.takeFrameIf f due) := State.moved_if (s.moved_takeFrame f)

theorem State.moved_blockFor (s : State) (l) : s.Moved (s.blockFor l) := by
  unfold State.blockFor
  split
  · exact {}
  · exact State.moved_ite (fun _ => .refl s) fun _ => s.moved_deliverLine l none

theorem State.moved_toneBlocks (s : State) : s.Moved s.toneBlocks :=
  State.moved_if ((State.moved_if (s.moved_checkParity _)).trans (State.Moved.foldl State.moved_blockFor allLines _))

/-! ### On-intervals and the supply (04) -/

theorem State.moved_setBegun (s : State) (p b) : s.Moved (s.setBegun p b) := {}

theorem State.moved_mapPhase (s : State) (p) (f : RingEntry → RingEntry) : s.Moved (s.setPhase p ((s.phase p).map f)) :=
  s.moved_setPhase p _ fun hs => by rw [List.length_map]; exact hs p

theorem State.moved_beginPhase (s : State) (p) : s.Moved (s.beginPhase p) :=
  ((s.moved_setBegun p true).trans (State.moved_mapPhase _ p _)).trans
    (State.Moved.foldl (fun x (e : RingEntry) => x.moved_holdSampling e.line) _ _)

theorem State.moved_endUnanswered (s : State) (l) : s.Moved (s.endUnanswered l) := by
  have hr := s.moved_removeRing l
  unfold State.endUnanswered
  split
  · exact (((hr.trans (State.moved_checkParity _ _)).trans (State.moved_sendCall _ _)).trans (State.moved_guardCall _ _)).trans
      (State.moved_enterIdle _ l)
  all_goals exact hr

theorem State.moved_endPhase (s : State) (p) : s.Moved (s.endPhase p) :=
  (((s.moved_setBegun p false).trans (State.moved_mapPhase _ p _)).trans
    (State.Moved.foldl State.moved_endUnanswered _ _)).trans (State.moved_serveRings _)

/-- A new supply state, and at a downgrade the phases cut to its capacity. -/
theorem State.moved_newSupply (s : State) (new : Supply) :
    s.Moved (if new.rank < s.ring.supply.rank then (s.setSupply new).cutPhases new.capacity else s.setSupply new) :=
  State.moved_ite (fun _ => { rings := fun _ => (s.setSupply new).ringsOk_cutPhases }) fun h => { rings := fun hr => hr.setSupply h }

theorem State.moved_changeSupply (s : State) (new) : s.Moved (s.changeSupply new) := by
  have h := ((s.moved_newSupply new).trans (State.moved_serveRings _)).trans (State.moved_sendBoth _ (supplyRecord new s.ring.supply))
  exact State.moved_ite (fun _ => h.trans (State.moved_callChoice _)) fun _ => h

theorem State.moved_sampleSupply (s : State) (d) : s.Moved (s.sampleSupply d) :=
  State.moved_if (State.moved_ite (fun _ => s.moved_changeSupply d) fun _ => {})

/-! ### Every command -/

/-- A command acts at its time and keeps what every part of an event keeps. -/
def State.Follows (s : State) (o : Host.Outcome State Fault Refusal) : Prop := ∃ t u, o = .next u ∧ (s.begin t).Moved u

theorem anyEvent_follows (t : Time) (s : State) {body : State → State} (h : ∀ x : State, x.Moved (body x)) :
    s.Follows (anyEvent t body s) :=
  ⟨t, _, rfl, (h _).trans (State.moved_finish _)⟩

theorem event_follows (t : Time) (s : State) {body : State → State} (h : ∀ x : State, x.Moved (body x)) : s.Follows (event t body s) :=
  ⟨t, _, rfl, State.moved_ite (fun _ => .refl _) fun _ => (h _).trans (State.moved_finish _)⟩

theorem State.follows_next {s u : State} (t : Time) (h : (s.begin t).Moved u) : s.Follows (.next u) := ⟨t, u, rfl, h⟩

theorem exec_follows {i : Instr} (s : State) (hi : ∀ straps, i ≠ .powerOnReset straps) : s.Follows (exec i s) := by
  cases i with
  | powerOnReset straps => exact absurd rfl (hi straps)
  | endOfStart t =>
    unfold exec execEndOfStart
    exact event_follows t s fun x => State.moved_if x.moved_enterService
  | acceptedTransition t l level =>
    unfold exec execAcceptedTransition
    exact event_follows t s fun x => State.moved_if (x.moved_sampleLine l level)
  | digitEnd t l level =>
    unfold exec execDigitEnd
    exact event_follows t s fun x => State.moved_if (x.moved_sampleLine l level)
  | disconnect t l level =>
    unfold exec execDisconnect
    exact event_follows t s fun x => State.moved_if (x.moved_sampleLine l level)
  | onHook t l level =>
    unfold exec execOnHook
    exact event_follows t s fun x => State.moved_if (x.moved_sampleLine l level)
  | ringTrip t l =>
    unfold exec execRingTrip
    exact event_follows t s fun x => x.moved_takeRingTrip l
  | toneBlock t =>
    unfold exec execToneBlock
    exact anyEvent_follows t s fun x => x.moved_toneBlocks
  | reservationTimerExpiry t b =>
    unfold exec execReservationTimerExpiry
    exact event_follows t s fun x => x.moved_takeReservationExpiry b
  | guardTimerExpiry t b =>
    unfold exec execGuardTimerExpiry
    exact event_follows t s fun x => x.moved_takeGuardExpiry b
  | waitLimitExpiry t l =>
    unfold exec execWaitLimitExpiry
    exact event_follows t s fun x => x.moved_takeWaitExpiry l
  | seizeIn t p line bearer reference =>
    unfold exec execSeizeIn
    exact event_follows t s fun x => x.moved_takeSeizeIn p line bearer reference
  | accept t p b1 bearer reference =>
    unfold exec execAccept
    exact event_follows t s fun x => x.moved_takeAccept p b1 bearer reference
  | release t p b1 bearer reference =>
    unfold exec execRelease
    exact event_follows t s fun x => x.moved_takeRelease p b1 _ bearer reference
  | refuse t p b1 bearer reference =>
    unfold exec execRefuse
    exact event_follows t s fun x => x.moved_takeRelease p b1 _ bearer reference
  | lockout t p b1 bearer reference =>
    unfold exec execLockout
    exact event_follows t s fun x => x.moved_takeLockout p b1 bearer reference
  | empty t =>
    unfold exec execEmpty
    exact event_follows t s fun x => .refl x
  | notListedKind t p r =>
    unfold exec execNotListedKind
    exact event_follows t s fun x => x.moved_receive p r
  | auditRecord t a =>
    unfold exec execAuditRecord
    exact event_follows t s fun x => x.moved_takeAudit a
  | provisionLine t p line i c =>
    unfold exec execProvisionLine
    exact event_follows t s fun x => x.moved_takeProvision p line i c
  | blockBearer t p bearer =>
    unfold exec execBlockBearer
    exact event_follows t s fun x => x.moved_takeBlock p bearer
  | unblockBearer t p bearer =>
    unfold exec execUnblockBearer
    exact event_follows t s fun x => x.moved_takeUnblock p bearer
  | setParam t p ident v =>
    unfold exec execSetParam
    exact event_follows t s fun x => x.moved_takeSetParam p ident v
  | testLine t p line =>
    unfold exec execTestLine
    exact event_follows t s fun x => x.moved_takeTestLine p line
  | resumeTests t p b1 =>
    unfold exec execResumeTests
    exact event_follows t s fun x => x.moved_takeResumeTests p b1
  | setRateModeAuto t p b1 =>
    unfold exec execSetRateModeAuto
    exact event_follows t s fun x => x.moved_takeRateAuto p b1
  | setRateModeFixed t p b1 rate =>
    unfold exec execSetRateModeFixed
    exact event_follows t s fun x => x.moved_takeRateFixed p b1 rate
  | linkControlEnable t p b1 =>
    unfold exec execLinkControlEnable
    exact event_follows t s fun x => x.moved_takeEnable p b1
  | linkControlDisable t p b1 =>
    unfold exec execLinkControlDisable
    exact event_follows t s fun x => x.moved_takeDisable p b1
  | linkControlRestart t p b1 =>
    unfold exec execLinkControlRestart
    exact event_follows t s fun x => x.moved_takeRestartLink p b1
  | restartUnit t p b1 =>
    unfold exec execRestartUnit
    exact event_follows t s fun x => x.moved_takeRestartUnit p b1
  | clearErrors t p b1 =>
    unfold exec execClearErrors
    exact event_follows t s fun x => x.moved_takeClearErrors p b1
  | queryLine t p =>
    unfold exec execQueryLine
    exact event_follows t s fun x => x.moved_query p _ _ _ _
  | queryBearer t p =>
    unfold exec execQueryBearer
    exact event_follows t s fun x => x.moved_query p _ _ _ _
  | queryLink t p =>
    unfold exec execQueryLink
    exact event_follows t s fun x => x.moved_query p _ _ _ _
  | queryQueue t p =>
    unfold exec execQueryQueue
    exact event_follows t s fun x => x.moved_query p _ _ _ _
  | queryErrors t p =>
    unfold exec execQueryErrors
    exact event_follows t s fun x => x.moved_query p _ _ _ _
  | queryParam t p =>
    unfold exec execQueryParam
    exact event_follows t s fun x => x.moved_query p _ _ _ _
  | queryUnit t p =>
    unfold exec execQueryUnit
    exact event_follows t s fun x => x.moved_query p _ _ _ _
  | stopBitError t =>
    unfold exec execStopBitError
    exact event_follows t s fun x => x.moved_takeStopBitError
  | framingTimeout t =>
    unfold exec execFramingTimeout
    exact event_follows t s fun x => x.moved_takeFramingTimeout
  | localTransmit t =>
    unfold exec execLocalTransmit
    exact anyEvent_follows t s fun x => x.moved_transmitLocal
  | frameAssembly t voice =>
    unfold exec execFrameAssembly
    exact event_follows t s fun x => x.moved_assemble voice
  | transmitSwitchFrame t voice =>
    unfold exec execTransmitSwitchFrame
    exact event_follows t s fun x => State.moved_if (x.moved_assemble voice)
  | frameArrival t f =>
    unfold exec execFrameArrival
    exact State.follows_next t (State.moved_takeFrame _ f)
  | receiveSwitch t f =>
    unfold exec execReceiveSwitch
    exact State.follows_next t (State.moved_takeFrameIf _ f _)
  | syncLoss t sign =>
    cases sign with
    | frame f =>
      unfold exec execSyncLoss
      exact State.follows_next t (State.moved_takeFrameIf _ f _)
    | window bits n =>
      unfold exec execSyncLoss
      exact event_follows t s fun x => State.moved_if (x.moved_endWindow n)
  | normalizationWindowEnd t bits n =>
    unfold exec execNormalizationWindowEnd
    exact event_follows t s fun x => State.moved_if (x.moved_endWindow n)
  | verifyGiveUp t bits =>
    unfold exec execVerifyGiveUp
    exact event_follows t s fun x => x.moved_takeGiveUp bits
  | enteringUp t p =>
    unfold exec execEnteringUp
    exact event_follows t s fun x => State.moved_if (x.moved_takeWord p _)
  | linkFailure t =>
    unfold exec execLinkFailure
    exact event_follows t s fun x => State.moved_if x.moved_failLink
  | berWindowEnd t f =>
    unfold exec execBerWindowEnd
    exact State.follows_next t (State.moved_takeFrameIf _ f _)
  | drainTimerExpiry t =>
    unfold exec execDrainTimerExpiry
    exact event_follows t s fun x => x.moved_takeDrainExpiry
  | onIntervalStart t p =>
    unfold exec execOnIntervalStart
    exact event_follows t s fun x => State.moved_if (x.moved_beginPhase p)
  | onIntervalEnd t p =>
    unfold exec execOnIntervalEnd
    exact event_follows t s fun x => State.moved_if (x.moved_endPhase p)
  | downgrade t a b =>
    unfold exec execDowngrade
    exact event_follows t s fun x => State.moved_if (x.moved_sampleSupply _)
  | upgrade t a b =>
    unfold exec execUpgrade
    exact event_follows t s fun x => State.moved_if (x.moved_sampleSupply _)
  | testDue t l =>
    unfold exec execTestDue
    exact event_follows t s fun x => x.moved_takeTestDue l
  | settleEnd t =>
    unfold exec execSettleEnd
    exact event_follows t s fun x => x.moved_takeSettleEnd
  | measurement t ohms insulation volts =>
    unfold exec execMeasurement
    exact event_follows t s fun x => x.moved_takeMeasurement _
  | headTimeout t =>
    unfold exec execHeadTimeout
    exact event_follows t s fun x => x.moved_takeHeadTimeout
  | seizureIndication t =>
    unfold exec execSeizureIndication
    exact event_follows t s fun x => x.moved_takeSeizure
  | loopSample t l level =>
    unfold exec execLoopSample
    exact event_follows t s fun x => x.moved_sampleLine l level
  | supplySample t a b =>
    unfold exec execSupplySample
    exact event_follows t s fun x => x.moved_sampleSupply _
  | alignmentWordFound t p w =>
    unfold exec execAlignmentWordFound
    exact event_follows t s fun x => x.moved_takeWord p w
  | byteCompleted t b =>
    unfold exec execByteCompleted
    exact event_follows t s fun x => x.moved_takeByte b
  | checkByteMismatch t src kind =>
    unfold exec execCheckByteMismatch
    exact event_follows t s fun x => x.moved_takeMismatch src kind

/-! ### Power-on reset (11, R171) -/

/-- The state after power-on reset comes from the power-on values alone. -/
theorem exec_powerOnReset_moved (straps : Straps) (s : State) :
    ∃ u, exec (.powerOnReset straps) s = .next u ∧ (s.powerOn straps).Moved u :=
  ⟨_, rfl, (State.moved_enterStart _ (s.powerOn_not_connected straps)).trans (State.moved_finish _)⟩

theorem defaults_paramsOk {s : State} (h : s.params = defaultParams) : s.ParamsOk := by
  have key : (∀ p : Param, p.range.1 ≤ defaultParams[p.index.val] ∧ defaultParams[p.index.val] ≤ p.range.2) ∧
      defaultParams[Param.upR.index.val] < defaultParams[Param.downS.index.val] ∧
      defaultParams[Param.upS.index.val] < defaultParams[Param.downW.index.val] :=
    ⟨fun p => by cases p <;> decide, by decide, by decide⟩
  unfold State.ParamsOk State.param
  rw [h]
  exact key

theorem powerOn_errorsOk {s : State} (h : s.errors = Errors.powerOn) : s.ErrorsOk := by
  unfold State.ErrorsOk State.routing State.count State.inNext
  rw [h]
  exact ⟨fun k => by cases k <;> decide, fun k => by cases k <;> decide, fun _ k => by cases k <;> decide⟩

theorem powerOn_qualityOk {s : State} (h : s.quality = Quality.powerOn) : s.QualityOk := by
  unfold State.QualityOk
  rw [h]
  decide

theorem powerOn_queuesOk {s : State} (h : s.messages = Messages.powerOn) : s.QueuesOk := by
  unfold State.QueuesOk
  rw [h]
  decide

theorem powerOn_linesOk {s : State} (h : ∀ l, ∃ stuck, s.line l = { LineRecord.powerOn with stuck := stuck }.sealed) : s.LinesOk := by
  intro l
  obtain ⟨stuck, e⟩ := h l
  rw [e]
  exact ⟨Nat.zero_le _, fun _ => rfl, Nat.zero_le _, fun _ => rfl, fun hc => by cases hc⟩

theorem State.powerOn_line (s : State) (straps : Straps) (l : LineNo) :
    (s.powerOn straps).line l = { LineRecord.powerOn with stuck := (s.line l).stuck }.sealed := by
  simp [State.powerOn, State.line]

theorem State.powerOn_stamped (s : State) (straps : Straps) (b : BearerNo) : (s.powerOn straps).Stamped b := by
  simp [State.Stamped, State.powerOn, State.bearer, BearerRecord.sealed, BearerRecord.powerOn, State.reset]

/-! ### Every step -/

/-- A step gives a state whose every part comes from the present one by its operations, or from the power-on values. -/
theorem step_moved {s u : State} (e : step s = .next u) :
    u = s ∨ (∃ t p, ((s.withPending p).begin t).Moved u) ∨ ∃ p straps, ((s.withPending p).powerOn straps).Moved u := by
  unfold step at e
  split at e
  · injection e with e
    exact .inl e.symm
  · next i rest _ =>
    refine .inr ?_
    by_cases hi : ∃ straps, i = .powerOnReset straps
    · obtain ⟨straps, rfl⟩ := hi
      obtain ⟨v, hv, hm⟩ := exec_powerOnReset_moved straps (s.withPending rest)
      rw [e] at hv
      injection hv with hv
      exact .inr ⟨rest, straps, hv ▸ hm⟩
    · obtain ⟨t, v, hv, hm⟩ := exec_follows (s.withPending rest) fun straps h => hi ⟨straps, h⟩
      rw [e] at hv
      injection hv with hv
      exact .inl ⟨t, rest, hv ▸ hm⟩

/-- Settles O2: each command answers a next state that every part of its event has left the queue of commands in. -/
theorem everyCommandIsTaken : Obligations.EveryCommandIsTaken := by
  intro i s
  by_cases hi : ∃ straps, i = .powerOnReset straps
  · obtain ⟨straps, rfl⟩ := hi
    obtain ⟨u, hu, hm⟩ := exec_powerOnReset_moved straps s
    exact ⟨u, hu, hm.pending⟩
  · obtain ⟨t, u, hu, hm⟩ := exec_follows s fun straps h => hi ⟨straps, h⟩
    exact ⟨u, hu, hm.pending⟩

/-- Settles O4: every operation keeps the bounds, and the power-on values are within them. -/
theorem valuesStayInRange : Obligations.ValuesStayInRange := by
  intro s u e
  rcases step_moved e with rfl | ⟨t, p, m⟩ | ⟨p, straps, m⟩
  · exact ⟨id, id, id⟩
  · exact ⟨m.params, m.quality, m.queues⟩
  · exact ⟨fun _ => m.params (defaults_paramsOk rfl), fun _ => m.quality (powerOn_qualityOk rfl),
      fun _ => m.queues (powerOn_queuesOk rfl)⟩

/-- Settles O5: routings, counts and the next-error set are written only by operations that keep them sound. -/
theorem errorRecordsStaySound : Obligations.ErrorRecordsStaySound := by
  intro s u h e
  rcases step_moved e with rfl | ⟨t, p, m⟩ | ⟨p, straps, m⟩
  · exact h
  · exact m.errors h
  · exact m.errors (powerOn_errorsOk rfl)

/-- Settles O6: every write of a line or concealment record keeps its bounds, and the power-on records are within them. -/
theorem lineRecordsStaySound : Obligations.LineRecordsStaySound := by
  intro s u h e
  rcases step_moved e with rfl | ⟨t, p, m⟩ | ⟨p, straps, m⟩
  · exact h
  · exact m.lines h
  · exact m.lines (powerOn_linesOk fun l => ⟨_, State.powerOn_line _ straps l⟩)

/-- Settles O8: an entry stamps the bearer, no later part of the event takes the stamp away, and power-on stamps every bearer. -/
theorem bearerEntriesAreStamped : Obligations.BearerEntriesAreStamped := by
  intro s u b e hne
  rcases step_moved e with rfl | ⟨t, p, m⟩ | ⟨p, straps, m⟩
  · exact absurd rfl hne
  · exact (m.bearers b).1 hne
  · exact (m.bearers b).2 (State.powerOn_stamped _ straps b)

end Sys2Proof.Machine
end

section
/-! The machine: the front command, the state after reset, the rows that name one outcome of an event, and HALTED. -/

namespace Sys2Proof.Machine

open Sys2Proof

/-- Settles O1: the two branches of step. -/
theorem stepTakesTheFrontCommand : Obligations.StepTakesTheFrontCommand := by
  refine ⟨fun i rest s h => ?_, fun s h => ?_⟩
  · unfold step
    rw [h]
  · unfold step
    rw [h]

theorem State.reset_line (l : LineNo) : State.reset.line l = { LineRecord.powerOn with stuck := false }.sealed := by
  simp only [State.line, State.reset, linesPowerOn, Vector.getElem_replicate]
  rfl

theorem State.reset_ringsOk : State.reset.RingsOk := fun p => by
  have e : State.reset.phase p = [] := by
    simp [State.reset, State.phase, Ring.powerOn]
  rw [e]
  exact Nat.zero_le _

/-- Settles O7: each block's power-on values meet its own bounds. -/
theorem resetMeetsTheInvariants : Obligations.ResetMeetsTheInvariants :=
  ⟨defaults_paramsOk rfl, powerOn_errorsOk rfl, powerOn_queuesOk rfl, State.reset_ringsOk, powerOn_qualityOk rfl,
    powerOn_linesOk fun l => ⟨false, State.reset_line l⟩⟩

/-! ### Rows that name one outcome (log 4) -/

/-- An event that is taken only where its outcome is due. -/
theorem event_ite {c : State → Prop} [DecidablePred c] (t : Time) (body : State → State) (s : State) :
    event t (fun x => if c x then body x else x) s = if c (s.begin t) then event t body s else .next (s.begin t) := by
  by_cases hm : s.unit.mode = .halted
  · rw [event_halted hm, event_halted hm, ite_self]
  · rw [event_eq hm, event_eq hm]
    split
    · rfl
    · rw [State.finish_of_idle rfl]

theorem exec_acceptedTransition (t l level) (s : State) : exec (.acceptedTransition t l level) s =
    event t (fun s => if ((s.line l).transition level).isSome then s.sampleLine l level else s) s := rfl

theorem exec_digitEnd (t l level) (s : State) : exec (.digitEnd t l level) s =
    event t (fun s => if s.inService && (s.sampled l level).digitDue s.now then s.sampleLine l level else s) s := rfl

theorem exec_disconnect (t l level) (s : State) : exec (.disconnect t l level) s =
    event t (fun s => if s.inService && (s.sampled l level).disconnectDue s.now then s.sampleLine l level else s) s := rfl

theorem exec_onHook (t l level) (s : State) : exec (.onHook t l level) s =
    event t (fun s => if s.inService && (s.sampled l level).onHookDue s.now then s.sampleLine l level else s) s := rfl

theorem exec_loopSample (t l level) (s : State) : exec (.loopSample t l level) s = event t (fun s => s.sampleLine l level) s := rfl

theorem exec_frameAssembly (t v) (s : State) : exec (.frameAssembly t v) s = event t (fun s => s.assemble v) s := rfl

theorem exec_transmitSwitchFrame (t v) (s : State) : exec (.transmitSwitchFrame t v) s =
    event t (fun s => if s.link.switchDue.isSome then s.assemble v else s) s := rfl

theorem exec_frameArrival (t f) (s : State) : exec (.frameArrival t f) s = .next ((s.begin t).takeFrame f) := rfl

theorem exec_enteringUp (t p) (s : State) : exec (.enteringUp t p) s =
    event t (fun s => if s.completesAt p then s.takeWord p Config.alignmentWord else s) s := rfl

theorem exec_alignmentWordFound (t p w) (s : State) : exec (.alignmentWordFound t p w) s = event t (fun s => s.takeWord p w) s := rfl

theorem exec_supplySample (t a b) (s : State) : exec (.supplySample t a b) s = event t (fun s => s.sampleSupply (supplyOf a b)) s := rfl

theorem exec_downgrade (t a b) (s : State) : exec (.downgrade t a b) s =
    event t (fun s => if s.accepts (supplyOf a b) && decide ((supplyOf a b).rank < s.ring.supply.rank) then s.sampleSupply (supplyOf a b)
      else s) s := rfl

theorem exec_upgrade (t a b) (s : State) : exec (.upgrade t a b) s =
    event t (fun s => if s.accepts (supplyOf a b) && decide (s.ring.supply.rank < (supplyOf a b).rank) then s.sampleSupply (supplyOf a b)
      else s) s := rfl

/-- A frame arrival taken only where its counts have an outcome. -/
theorem next_takeFrameIf (s : State) (t f) (due : State → Bool) : Host.Outcome.next ((s.begin t).takeFrameIf f due) =
    if ((s.begin t).beforeClose f).takesFrames && due ((s.begin t).beforeClose f) then exec (.frameArrival t f) s
    else .next (s.begin t) := by
  rw [exec_frameArrival, State.takeFrameIf]
  split <;> rfl

/-- Settles O9: each row's meaning is its event under the condition that its outcome is due. -/
theorem narrowRowsAreTheirWholeEvents : Obligations.NarrowRowsAreTheirWholeEvents := by
  rintro t s x rfl
  refine ⟨fun l level => ?_, fun l level => ?_, fun l level => ?_, fun l level => ?_, fun v => ?_, fun f y hy => ?_, fun p => ?_,
    fun a b => ?_, fun a b => ?_⟩
  · rw [exec_acceptedTransition, event_ite, exec_loopSample]
  · rw [exec_digitEnd, event_ite, exec_loopSample]
  · rw [exec_disconnect, event_ite, exec_loopSample]
  · rw [exec_onHook, event_ite, exec_loopSample]
  · rw [exec_transmitSwitchFrame, event_ite, exec_frameAssembly]
  · subst hy
    exact ⟨next_takeFrameIf s t f _, next_takeFrameIf s t f _, next_takeFrameIf s t f _⟩
  · rw [exec_enteringUp, event_ite, exec_alignmentWordFound]
  · rw [exec_downgrade, event_ite, exec_supplySample]
  · rw [exec_upgrade, event_ite, exec_supplySample]

/-! ### HALTED (11, R178) -/

/-- A command in HALTED answers the state it found, at its time, but for the slots, the tones heard and the local transmitter. -/
def State.Idles (s : State) (o : Host.Outcome State Fault Refusal) : Prop :=
  ∃ t, o = .next (s.begin t)

theorem event_idles {s : State} (h : s.unit.mode = .halted) (t : Time) (body : State → State) : s.Idles (event t body s) :=
  ⟨t, event_halted h⟩

theorem State.part_halted {s : State} (h : s.unit.mode = .halted) (body : State → State) : s.part body = s := by
  simp [State.part, h]

theorem State.takesFrames_halted {s : State} (h : s.unit.mode = .halted) : s.takesFrames = false := by
  simp [State.takesFrames, State.inService, h]

theorem State.beforeClose_halted {s : State} (h : s.unit.mode = .halted) (f) : s.beforeClose f = s := by
  rw [State.beforeClose, State.part_halted h, State.part_halted h, State.part_halted h]

theorem State.takeFrame_halted {s : State} (h : s.unit.mode = .halted) (hw : s.work = {}) (f) : s.takeFrame f = s := by
  rw [State.takeFrame, State.beforeClose_halted h, State.closeFrame, if_neg (by rw [State.takesFrames_halted h]; decide),
    State.finish_of_idle hw]

theorem State.takeFrameIf_halted {s : State} (h : s.unit.mode = .halted) (hw : s.work = {}) (f due) : s.takeFrameIf f due = s := by
  rw [State.takeFrameIf, State.takeFrame_halted h hw, ite_self]

/-- The commands that act in HALTED are the tone block, the local transmitter and the power-on reset. -/
theorem exec_idles {s : State} (h : s.unit.mode = .halted) (i : Instr) : s.Idles (exec i s) ∨ (∃ t, i = .toneBlock t) ∨
    (∃ t, i = .localTransmit t) ∨ ∃ straps, i = .powerOnReset straps := by
  cases i
  case toneBlock t => exact .inr (.inl ⟨t, rfl⟩)
  case localTransmit t => exact .inr (.inr (.inl ⟨t, rfl⟩))
  case powerOnReset straps => exact .inr (.inr (.inr ⟨straps, rfl⟩))
  case frameArrival t f =>
    dsimp only [exec, execFrameArrival]
    exact .inl ⟨t, by rw [State.takeFrame_halted (s := s.begin t) h rfl f]⟩
  case receiveSwitch t f =>
    dsimp only [exec, execReceiveSwitch]
    exact .inl ⟨t, by rw [State.takeFrameIf_halted (s := s.begin t) h rfl f _]⟩
  case berWindowEnd t f =>
    dsimp only [exec, execBerWindowEnd]
    exact .inl ⟨t, by rw [State.takeFrameIf_halted (s := s.begin t) h rfl f _]⟩
  case syncLoss t sign =>
    cases sign with
    | frame f =>
      dsimp only [exec, execSyncLoss]
      exact .inl ⟨t, by rw [State.takeFrameIf_halted (s := s.begin t) h rfl f _]⟩
    | window bits n =>
      dsimp only [exec, execSyncLoss]
      exact .inl (event_idles h t _)
  all_goals
    dsimp only [exec, execEndOfStart, execAcceptedTransition, execDigitEnd, execDisconnect, execOnHook, execRingTrip, execReservationTimerExpiry,
      execGuardTimerExpiry, execWaitLimitExpiry, execSeizeIn, execAccept, execRelease, execRefuse, execLockout, execEmpty,
      execNotListedKind, execAuditRecord, execProvisionLine, execBlockBearer, execUnblockBearer, execSetParam, execTestLine,
      execResumeTests, execSetRateModeAuto, execSetRateModeFixed, execLinkControlEnable, execLinkControlDisable,
      execLinkControlRestart, execRestartUnit, execClearErrors, execQueryLine, execQueryBearer, execQueryLink, execQueryQueue,
      execQueryErrors, execQueryParam, execQueryUnit, execStopBitError, execFramingTimeout, execFrameAssembly,
      execTransmitSwitchFrame, execNormalizationWindowEnd, execVerifyGiveUp, execEnteringUp, execLinkFailure,
      execDrainTimerExpiry, execOnIntervalStart, execOnIntervalEnd, execDowngrade, execUpgrade, execTestDue, execSettleEnd,
      execMeasurement, execHeadTimeout, execSeizureIndication, execLoopSample, execSupplySample, execAlignmentWordFound,
      execByteCompleted, execCheckByteMismatch]
    exact .inl (event_idles h _ _)

/-- A tone block in HALTED places silence in every slot (01, R6). -/
theorem exec_toneBlock_halted {s : State} (h : s.unit.mode = .halted) (t : Time) : ∃ u, exec (.toneBlock t) s = .next u ∧
    u = { s.begin t with pins := { s.pins with voiceOut := u.pins.voiceOut, hearing := u.pins.hearing } } := by
  have hm : (s.begin t).unit.mode = .halted := h
  have key : ∃ v : State, (s.begin t).toneBlocks = v ∧
      v = { s.begin t with pins := { s.pins with voiceOut := v.pins.voiceOut, hearing := v.pins.hearing } } := by
    refine ⟨_, rfl, ?_⟩
    unfold State.toneBlocks
    split
    · rw [if_neg (by simp [State.inService, h])]
      exact State.blockFor_halted_fold _ hm allLines
    · rfl
  obtain ⟨v, hv, he⟩ := key
  refine ⟨v, ?_, he⟩
  have hw : v.work = {} := by rw [he]; rfl
  show Host.Outcome.next (s.begin t).toneBlocks.finish = _
  rw [hv, State.finish_of_idle hw]

theorem exec_localTransmit_halted (s : State) (t : Time) : ∃ u, exec (.localTransmit t) s = .next u ∧
    u = { s.begin t with messages := { s.messages with localQueue := u.messages.localQueue, sending := u.messages.sending } } := by
  have key : (s.begin t).transmitLocal = { s.begin t with messages := { s.messages with
      localQueue := (s.begin t).transmitLocal.messages.localQueue, sending := (s.begin t).transmitLocal.messages.sending } } := by
    unfold State.transmitLocal
    split
    · split <;> rfl
    · rfl
  have hw : (s.begin t).transmitLocal.work = {} := by rw [key]; rfl
  refine ⟨(s.begin t).transmitLocal, ?_, key⟩
  show Host.Outcome.next (s.begin t).transmitLocal.finish = _
  rw [State.finish_of_idle hw]

/-- Settles O3: every other command is discarded, a tone block writes slots and tones heard alone, and the transmitter its queue. -/
theorem haltedUnitStays : Obligations.HaltedUnitStays := by
  intro i s h hi
  rcases exec_idles h i with ⟨t, e⟩ | ⟨t, rfl⟩ | ⟨t, rfl⟩ | ⟨straps, rfl⟩
  · exact ⟨_, t, e, rfl, fun _ => rfl, fun _ => rfl⟩
  · obtain ⟨u, e, hu⟩ := exec_toneBlock_halted h t
    refine ⟨u, t, e, ?_, fun hn => absurd rfl (hn t), fun _ => ?_⟩
    · rw [hu]; rfl
    · rw [hu]; rfl
  · obtain ⟨u, e, hu⟩ := exec_localTransmit_halted s t
    refine ⟨u, t, e, ?_, fun _ => ?_, fun hn => absurd rfl (hn t)⟩
    · rw [hu]; rfl
    · rw [hu]; rfl
  · exact absurd rfl (hi straps)

/-! ### The coding of a measurement, and records taken by their kind -/

/-- Settles O24: saturation as a case distinction, and the three classes as the branches of the classing. -/
theorem measurementsAreCodedAndClassed : Obligations.MeasurementsAreCodedAndClassed := by
  rintro ohms insulationOhms millivolts c rfl
  refine ⟨?_, ?_, ?_, ?_, ?_, ?_⟩
  · simp only [codesOf]
    split <;> omega
  · simp only [codesOf]
    split <;> omega
  · simp only [codesOf]
    split <;> omega
  all_goals
    unfold Codes.outcome
    split
    · simp only [reduceCtorEq, true_iff, false_iff]
      tauto
    · split <;> simp only [reduceCtorEq, true_iff, false_iff] <;> tauto

/-- Settles O41: the kind selects the branch of the judgement, and byte 2 the subject, mode or action. -/
theorem recordsAreTakenByTheirKind : Obligations.RecordsAreTakenByTheirKind := by
  intro t p b1 b2 b3 b4 b5 b6 s take h
  simp only [h]
  refine ⟨rfl, rfl, rfl, rfl, rfl, rfl, rfl, rfl, rfl, rfl, rfl, rfl, ?_, ?_, ?_, ?_, ?_, rfl, rfl, ?_, ?_, ?_, ?_, ?_, ?_, ?_⟩
  all_goals
    rintro rfl
    rfl

end Sys2Proof.Machine
end

section
/-! Call references (02, R34), and the scrambler and coder of a frame (05, R91 and R92). -/

namespace Sys2Proof.Machine

open Sys2Proof

/-! ### Call references -/

theorem State.holder_isSome (s : State) (r : Word) : (s.holder r).isSome = true ↔ ∃ b : BearerNo, (s.bearer b).state.reference? = some r := by
  rw [← Option.ne_none_iff_isSome, ne_eq, State.holder_eq_none]
  push Not
  rfl

/-- Nine values in a row cannot all be held: a bearer holds at most one. -/
theorem State.triedReference_unheld (s : State) : ∃ n ≤ 8, s.holder (s.triedReference n) = none := by
  by_contra hall
  push Not at hall
  have held : ∀ n : Fin 9, ∃ b : BearerNo, (s.bearer b).state.reference? = some (s.triedReference n.val) := fun n =>
    (s.holder_isSome _).mp (Option.ne_none_iff_isSome.mp (hall n.val (Nat.le_of_lt_succ n.isLt)))
  choose holder hholder using held
  obtain ⟨m, n, hne, heq⟩ := Fintype.exists_ne_map_eq_of_card_lt holder (by decide)
  have href : s.triedReference m.val = s.triedReference n.val :=
    Option.some.inj ((hholder m).symm.trans ((congrArg (fun b => (s.bearer b).state.reference?) heq).trans (hholder n)))
  exact hne (Fin.ext (reference_steps_inj s.counter (Nat.le_of_lt_succ m.isLt) (Nat.le_of_lt_succ n.isLt) href))

theorem allBearers_getElem_val (n : Nat) (h : n < allBearers.length) : (allBearers[n]).val = n := by
  have key : ∀ i : Fin 8, (allBearers[i.val]'(by exact i.isLt)).val = i.val := by decide
  exact key ⟨n, h⟩

/-- The reference chosen is that of the first of the nine tries that no bearer holds. -/
theorem State.nextReference_first (s : State) : ∃ n ≤ 8, s.nextReference = s.triedReference n ∧ s.holder (s.triedReference n) = none ∧
    ∀ m < n, (s.holder (s.triedReference m)).isSome = true := by
  unfold State.nextReference
  generalize htries : allBearers.map (fun b => s.triedReference b.val) = tries
  have hlen : tries.length = 8 := by rw [← htries]; rfl
  have hget : ∀ n (h : n < tries.length), tries[n] = s.triedReference n := fun n h => by
    subst htries
    rw [List.getElem_map, allBearers_getElem_val]
  cases hfind : tries.find? (fun r => (s.holder r).isNone) with
  | some r =>
    obtain ⟨hr, n, hn, hrn, hearlier⟩ := List.find?_eq_some_iff_getElem.mp hfind
    refine ⟨n, by omega, ?_, ?_, fun m hm => ?_⟩
    · rw [Option.getD_some, ← hrn, hget]
    · rw [← hget n hn, hrn]
      exact Option.isNone_iff_eq_none.mp hr
    · have h := hearlier m hm
      rw [hget] at h
      simpa [Option.isSome_iff_ne_none] using h
  | none =>
    have hheld : ∀ n < 8, (s.holder (s.triedReference n)).isSome = true := fun n hn => by
      have h := List.find?_eq_none.mp hfind _ (List.getElem_mem (hlen ▸ hn))
      rw [hget] at h
      simpa [Option.isSome_iff_ne_none] using h
    obtain ⟨n, hn, hfree⟩ := s.triedReference_unheld
    have h8 : n = 8 := by
      by_contra hne
      have := hheld n (by omega)
      rw [hfree] at this
      cases this
    subst h8
    exact ⟨8, le_refl 8, rfl, hfree, hheld⟩

theorem State.triedReference_odd {s : State} (h : s.counter.getLsbD 0 = true) (n : Nat) : (s.triedReference n).getLsbD 0 = true := by
  unfold State.triedReference
  rw [BitVec.getLsbD, Nat.testBit_zero, decide_eq_true_eq] at h ⊢
  rw [BitVec.toNat_add, BitVec.toNat_ofNat]
  omega

/-- Settles O19: of nine tries one is unheld, and the search gives the first. -/
theorem referencesAreUnheld : Obligations.ReferencesAreUnheld := by
  intro s
  obtain ⟨n, hn, hnext, hfree, hheld⟩ := s.nextReference_first
  refine ⟨n, hn, hnext, ?_, fun m hm => (s.holder_isSome _).mp (hheld m hm), fun hodd => ?_⟩
  · rw [hnext]
    exact (s.holder_eq_none _).mp hfree
  · rw [hnext]
    exact State.triedReference_odd hodd n

/-! ### The scrambler -/

/-- The register holds the 15 latest values of a sequence, the latest at stage 1. -/
def Scrambler.Holds (r : Scrambler) (z : Nat → Bool) (m : Nat) : Prop := ∀ i < 15, r.getLsbD i = z (m + 14 - i)

theorem Scrambler.Holds.start {z : Nat → Bool} (h : ∀ n < 15, z n = true) : Scrambler.start.Holds z 0 := fun i hi => by
  rw [h _ (by omega), Scrambler.start, BitVec.getLsbD_allOnes]
  exact decide_eq_true hi

section
variable {r : Scrambler} {z : Nat → Bool} {m : Nat} (hr : r.Holds z m) (hz : ∀ n, z (n + 15) = (z (n + 1) != z n))
include hr hz

theorem Scrambler.Holds.feedback : r.feedback = z (m + 15) := by
  rw [Scrambler.feedback, hr 13 (by decide), hr 14 (by decide), hz]
  rfl

theorem Scrambler.Holds.advance : r.advance.Holds z (m + 1) := fun i hi => by
  rw [Scrambler.advance, BitVec.getLsbD_or, BitVec.getLsbD_shiftLeft, BitVec.getLsbD_setWidth]
  cases i with
  | zero =>
    have hf := hr.feedback hz
    simp [hf]
  | succ i =>
    have hi' := hr i (by omega)
    have e : m + 1 + 14 - (i + 1) = m + 14 - i := by omega
    rw [e, ← hi']
    simp [hi]

end

/-- Each bit has the sequence's value added. -/
theorem scramble_getElem? {z : Nat → Bool} (hz : ∀ n, z (n + 15) = (z (n + 1) != z n)) {r : Scrambler} {m : Nat} (hr : r.Holds z m)
    (bits : List Bool) (n : Nat) : (scramble r bits)[n]? = bits[n]?.map (fun b => b != z (m + n + 15)) := by
  induction bits generalizing r m n with
  | nil => rfl
  | cons b rest ih =>
    rw [scramble]
    cases n with
    | zero => simp [hr.feedback hz]
    | succ n =>
      rw [List.getElem?_cons_succ, List.getElem?_cons_succ, ih (hr.advance hz)]
      have e : m + 1 + n + 15 = m + (n + 1) + 15 := by omega
      rw [e]

theorem scramble_scramble (r : Scrambler) (bits : List Bool) : scramble r (scramble r bits) = bits := by
  induction bits generalizing r with
  | nil => rfl
  | cons b rest ih => simp [scramble, ih]

theorem scrambleFrame_take (bits : List Bool) : (scrambleFrame bits).take 16 = bits.take 16 := by
  rw [scrambleFrame]
  by_cases h : 16 ≤ bits.length
  · rw [List.take_append_of_le_length (by rw [List.length_take]; omega), List.take_take, min_self]
  · rw [List.drop_eq_nil_of_le (by omega), scramble, List.append_nil, List.take_take, min_self]

theorem scrambleFrame_drop (bits : List Bool) : (scrambleFrame bits).drop 16 = scramble Scrambler.start (bits.drop 16) := by
  rw [scrambleFrame]
  by_cases h : 16 ≤ bits.length
  · rw [List.drop_append_of_le_length (by rw [List.length_take]; omega), List.drop_take]
    simp
  · rw [List.drop_eq_nil_of_le (by omega : bits.length ≤ 16), scramble, List.append_nil]
    exact List.drop_eq_nil_of_le (by rw [List.length_take]; omega)

theorem scrambleFrame_length (bits : List Bool) : (scrambleFrame bits).length = bits.length := by
  rw [scrambleFrame, List.length_append, scramble_length, ← List.length_append, List.take_append_drop]

theorem scrambleFrame_scrambleFrame (bits : List Bool) : scrambleFrame (scrambleFrame bits) = bits := by
  conv => lhs; rw [scrambleFrame]
  rw [scrambleFrame_take, scrambleFrame_drop, scramble_scramble, List.take_append_drop]

theorem scrambleFrame_getElem? {z : Nat → Bool} (h1 : ∀ n < 15, z n = true) (hz : ∀ n, z (n + 15) = (z (n + 1) != z n))
    (bits : List Bool) (n : Nat) : (scrambleFrame bits)[n + 16]? = bits[n + 16]?.map (fun b => b != z (n + 15)) := by
  have e : (scrambleFrame bits)[n + 16]? = ((scrambleFrame bits).drop 16)[n]? := by rw [List.getElem?_drop, Nat.add_comm 16]
  rw [e, scrambleFrame_drop, scramble_getElem? hz (Scrambler.Holds.start h1), List.getElem?_drop, Nat.add_comm 16, Nat.zero_add]

/-- Bit j of the sequence of n bits is the value taken n - 1 - j places after its first; above them stands what was gathered. -/
theorem sequenceFrom_getLsbD {z : Nat → Bool} (hz : ∀ n, z (n + 15) = (z (n + 1) != z n)) (n : Nat) {r : Scrambler} {m : Nat}
    (hr : r.Holds z m) (gathered : BitVec 1440) (j : Nat) (hj : j < 1440) :
    (sequenceFrom n r gathered).getLsbD j = if j < n then z (m + (n - 1 - j) + 15) else gathered.getLsbD (j - n) := by
  induction n generalizing r m gathered with
  | zero => rfl
  | succ n ih =>
    rw [sequenceFrom, ih (hr.advance hz)]
    by_cases h : j < n
    · rw [if_pos h, if_pos (by omega)]
      congr 1
      omega
    · rw [if_neg h, BitVec.getLsbD_or, BitVec.getLsbD_shiftLeft, BitVec.getLsbD_setWidth]
      by_cases he : j = n
      · subst he
        rw [if_pos (by omega)]
        have hf := hr.feedback hz
        simp [hf]
      · rw [if_neg (by omega)]
        obtain ⟨k, rfl⟩ : ∃ k, j = n + 1 + k := ⟨j - (n + 1), by omega⟩
        have e1 : n + 1 + k - n = k + 1 := by omega
        have e2 : n + 1 + k - (n + 1) = k := by omega
        have e3 : k + 1 < 1440 := by omega
        rw [e1, e2]
        simp [e3]

theorem frameSequence_getMsbD_low {z : Nat → Bool} (h1 : ∀ n < 15, z n = true) (hz : ∀ n, z (n + 15) = (z (n + 1) != z n)) (n : Nat)
    (hn : n + 16 < 1440) : frameSequence.getMsbD (n + 16) = z (n + 15) := by
  rw [BitVec.getMsbD, frameSequence, sequenceFrom_getLsbD hz 1424 (Scrambler.Holds.start h1) _ _ (by omega), if_pos (by omega),
    decide_eq_true hn, Bool.true_and]
  congr 1
  omega

theorem frameSequence_getMsbD_high {z : Nat → Bool} (h1 : ∀ n < 15, z n = true) (hz : ∀ n, z (n + 15) = (z (n + 1) != z n)) (n : Nat)
    (hn : n < 16) : frameSequence.getMsbD n = false := by
  rw [BitVec.getMsbD, frameSequence, sequenceFrom_getLsbD hz 1424 (Scrambler.Holds.start h1) _ _ (by omega), if_neg (by omega)]
  simp

theorem descrambled_getMsbD (f : RxFrame) (n : Nat) : (descrambled f).getMsbD n = (f.bits.getMsbD n != frameSequence.getMsbD n) := by
  rw [descrambled, BitVec.getMsbD_xor]

/-! ### The coder -/

theorem shiftStages_getLsbD (st : Stages) (b : Bool) (i : Nat) (hi : i < 6) :
    (shiftStages st b).getLsbD i = if i = 0 then b else st.getLsbD (i - 1) := by
  rw [shiftStages, BitVec.getLsbD_or, BitVec.getLsbD_shiftLeft, BitVec.getLsbD_setWidth]
  cases i with
  | zero => simp
  | succ i => simp [hi]

theorem encodeBits_snd (r : Rate) (n : Nat) (st : Stages) (bits : List Bool) : (encodeBits r n st bits).2 = bits.foldl shiftStages st := by
  induction bits generalizing n st with
  | nil => rfl
  | cons b rest ih => exact ih _ _

/-- The stages hold the latest bits, the latest first. -/
theorem foldl_shiftStages_getLsbD (st : Stages) (bits : List Bool) (i : Nat) (hi : i < 6) (hb : i < bits.length) :
    some ((bits.foldl shiftStages st).getLsbD i) = bits.reverse[i]? := by
  induction bits using List.reverseRecOn generalizing i with
  | nil => cases hb
  | append_singleton bits b ih =>
    rw [List.foldl_append, List.foldl_cons, List.foldl_nil, shiftStages_getLsbD _ _ _ hi, List.reverse_append, List.reverse_singleton,
      List.singleton_append]
    cases i with
    | zero => rfl
    | succ i =>
      rw [if_neg (Nat.succ_ne_zero i), List.getElem?_cons_succ, Nat.add_sub_cancel]
      refine ih i (by omega) ?_
      rw [List.length_append, List.length_singleton] at hb
      omega

/-- Settles O21: the register and the received frame's sequence hold the recurrence's values, and the coder's stages the bits before. -/
theorem framesAreScrambledAndCoded : Obligations.FramesAreScrambledAndCoded := by
  refine ⟨fun z h1 hz => ⟨scrambleFrame_getElem? h1 hz, fun f n hn => ?_, fun f n hn => ?_⟩, fun bits => ⟨scrambleFrame_take bits,
    scrambleFrame_length bits, scrambleFrame_scrambleFrame bits, fun r n st i hi hb => ?_⟩, fun earlier st b hst => ⟨?_, ?_, ?_, ?_⟩⟩
  · rw [descrambled_getMsbD, frameSequence_getMsbD_low h1 hz n hn]
  · rw [descrambled_getMsbD, frameSequence_getMsbD_high h1 hz n hn, Bool.bne_false]
  · rw [encodeBits_snd, foldl_shiftStages_getLsbD st bits i hi hb]
  · have e1 := hst 1 (by decide) (by decide)
    have e2 := hst 2 (by decide) (by decide)
    have e3 := hst 3 (by decide) (by decide)
    have e6 := hst 6 (by decide) (by decide)
    simp only [Nat.reduceSub] at e1 e2 e3 e6
    simp only [firstOutput, e1, e2, e3, e6, Bool.bne_eq_xor, Bool.xor_assoc]
  · have e2 := hst 2 (by decide) (by decide)
    have e3 := hst 3 (by decide) (by decide)
    have e5 := hst 5 (by decide) (by decide)
    have e6 := hst 6 (by decide) (by decide)
    simp only [Nat.reduceSub] at e2 e3 e5 e6
    simp only [secondOutput, e2, e3, e5, e6, Bool.bne_eq_xor, Bool.xor_assoc]
  · rw [shiftStages_getLsbD st b 0 (by decide), if_pos rfl]
  · intro i h1 h5
    rw [shiftStages_getLsbD st b i (by omega), if_neg (by omega), hst i h1 (by omega)]

end Sys2Proof.Machine
end

section
/-! Placement in the ring phases and the ring queue (04, R76 to R78, R81 and R83). -/

namespace Sys2Proof.Machine

open Sys2Proof

/-! ### The choice of a phase -/

/-- Of the phases the best so far and the next, by preference. -/
def State.phasePick (s : State) (best : Option PhaseNo) (p : PhaseNo) : Option PhaseNo :=
  match best with
  | none => some p
  | some q => if s.phaseBefore p q then some p else some q

theorem State.choosePhase_eq (s : State) : s.choosePhase = (allPhases.filter s.phaseHasRoom).foldl s.phasePick none := rfl

theorem allPhases_mem (p : PhaseNo) : p ∈ allPhases := by
  unfold allPhases
  fin_cases p <;> simp

/-- A phase's on-interval begins a whole number of seconds into the cycle (04, R75). -/
theorem State.untilPhase_mod (s : State) (p : PhaseNo) : s.untilPhase p % 3000000 = (1000000 * p.val + 3000000 - s.cycleTime) % 3000000 := by
  have hw : (sec p.val + ringCycle - s.cycleTime) % ringCycle = (1000000 * p.val + 3000000 - s.cycleTime) % 3000000 := rfl
  rw [← hw]
  unfold State.untilPhase
  dsimp only
  split
  · next h =>
    rw [Bool.and_eq_true, beq_iff_eq] at h
    rw [h.2]
    rfl
  · exact Nat.mod_mod _ _

/-- The on-intervals of two phases begin at different times (04, R75). -/
theorem State.untilPhase_inj (s : State) {p q : PhaseNo} (h : s.untilPhase p = s.untilPhase q) : p = q := by
  have hcycle : s.cycleTime < 3000000 := Nat.mod_lt _ (by decide)
  have hp : p.val < 3 := p.isLt
  have hq : q.val < 3 := q.isLt
  have hmod := (s.untilPhase_mod p).symm.trans ((congrArg (· % 3000000) h).trans (s.untilPhase_mod q))
  simp only [Time] at *
  exact Fin.ext (by omega)

theorem State.phaseBefore_iff (s : State) (p q : PhaseNo) : s.phaseBefore p q = true ↔
    (s.phase p).length < (s.phase q).length ∨ ((s.phase p).length = (s.phase q).length ∧ s.untilPhase p < s.untilPhase q) := by
  simp [State.phaseBefore]

/-- Of two phases one is preferred. -/
theorem State.phaseBefore_total (s : State) {p q : PhaseNo} (h : p ≠ q) (hn : ¬ s.phaseBefore p q = true) : s.phaseBefore q p = true := by
  rw [State.phaseBefore_iff] at *
  have hu : s.untilPhase p ≠ s.untilPhase q := fun e => h (s.untilPhase_inj e)
  simp only [Time] at *
  omega

theorem State.phaseBefore_trans (s : State) {p q r : PhaseNo} (h : s.phaseBefore p q = true) (k : s.phaseBefore q r = true) :
    s.phaseBefore p r = true := by
  rw [State.phaseBefore_iff] at *
  simp only [Time] at *
  omega

theorem State.phaseBefore_asymm (s : State) {p q : PhaseNo} (h : s.phaseBefore p q = true) : ¬ s.phaseBefore q p = true := by
  rw [State.phaseBefore_iff] at *
  simp only [Time] at *
  omega

/-- The picking answers a phase that is preferred to every other picked from. -/
theorem State.phasePick_fold (s : State) (L : List PhaseNo) (a : PhaseNo) : ∃ p, L.foldl s.phasePick (some a) = some p ∧
    (p = a ∨ p ∈ L) ∧ ∀ q, q = a ∨ q ∈ L → q ≠ p → s.phaseBefore p q = true := by
  induction L generalizing a with
  | nil => exact ⟨a, rfl, .inl rfl, fun q hq hne => absurd (hq.resolve_right List.not_mem_nil) hne⟩
  | cons b L ih =>
    rw [List.foldl_cons, State.phasePick]
    split
    · next hb =>
      obtain ⟨p, e, hp, hbest⟩ := ih b
      refine ⟨p, e, hp.elim (fun h => .inr (h ▸ List.mem_cons_self ..)) fun h => .inr (List.mem_cons_of_mem _ h), fun q hq hne => ?_⟩
      rcases hq with rfl | hq
      · by_cases hpb : b = p
        · exact hpb ▸ hb
        · exact s.phaseBefore_trans (hbest b (.inl rfl) hpb) hb
      · exact hbest q ((List.mem_cons.mp hq)) hne
    · next hb =>
      obtain ⟨p, e, hp, hbest⟩ := ih a
      refine ⟨p, e, hp.elim .inl fun h => .inr (List.mem_cons_of_mem _ h), fun q hq hne => ?_⟩
      rcases hq with rfl | hq
      · exact hbest q (.inl rfl) hne
      · rcases List.mem_cons.mp hq with rfl | hq
        · by_cases hqa : q = a
          · exact hbest q (.inl hqa) hne
          · have haq := s.phaseBefore_total hqa hb
            by_cases hpa : a = p
            · exact hpa ▸ haq
            · exact s.phaseBefore_trans (hbest a (.inl rfl) hpa) haq
        · exact hbest q (.inr hq) hne

theorem State.phaseHasRoom_iff (s : State) (p : PhaseNo) : s.phaseHasRoom p = true ↔ (s.phase p).length < s.ring.supply.capacity := by
  simp [State.phaseHasRoom]

/-- Placement finds a phase wherever one has room, and prefers it to every other with room. -/
theorem State.choosePhase_spec (s : State) : (s.choosePhase = none ∧ ∀ p, ¬ s.phaseHasRoom p = true) ∨
    ∃ p, s.choosePhase = some p ∧ s.phaseHasRoom p = true ∧ ∀ q, q ≠ p → s.phaseHasRoom q = true → s.phaseBefore p q = true := by
  have hmem : ∀ p, p ∈ allPhases.filter s.phaseHasRoom ↔ s.phaseHasRoom p = true := fun p => by
    rw [List.mem_filter]
    exact ⟨And.right, fun h => ⟨allPhases_mem p, h⟩⟩
  rw [State.choosePhase_eq]
  generalize allPhases.filter s.phaseHasRoom = L at hmem
  cases L with
  | nil => exact .inl ⟨rfl, fun p h => List.not_mem_nil ((hmem p).mpr h)⟩
  | cons a L =>
    obtain ⟨p, e, hp, hbest⟩ := s.phasePick_fold L a
    refine .inr ⟨p, e, (hmem p).mp (List.mem_cons.mpr hp), fun q hne hq => hbest q (List.mem_cons.mp ((hmem q).mpr hq)) hne⟩

theorem State.choosePhase_eq_none (s : State) : s.choosePhase = none ↔ ∀ p : PhaseNo, s.ring.supply.capacity ≤ (s.phase p).length := by
  simp only [← Nat.not_lt, ← State.phaseHasRoom_iff]
  rcases s.choosePhase_spec with ⟨e, h⟩ | ⟨p, e, h, -⟩
  · exact ⟨fun _ => h, fun _ => e⟩
  · exact ⟨fun e' => (by rw [e] at e'; cases e'), fun h' => absurd h (h' p)⟩

theorem State.choosePhase_eq_some (s : State) (p : PhaseNo) : s.choosePhase = some p ↔ s.phaseHasRoom p = true ∧
    ∀ q, q ≠ p → s.phaseHasRoom q = true → s.phaseBefore p q = true := by
  rcases s.choosePhase_spec with ⟨e, h⟩ | ⟨q, e, hq, hbest⟩
  · exact ⟨fun e' => (by rw [e] at e'; cases e'), fun h' => absurd h'.1 (h p)⟩
  · refine ⟨fun e' => ?_, fun ⟨hp, hp'⟩ => ?_⟩
    · obtain rfl : q = p := Option.some.inj (e.symm.trans e')
      exact ⟨hq, hbest⟩
    · by_cases hqp : q = p
      · rw [e, hqp]
      · exact absurd (hbest p (Ne.symm hqp) hp) (s.phaseBefore_asymm (hp' q hqp hq))

/-! ### The ring queue -/

theorem State.serveRings_cons {s : State} {w : RingWaiter} {rest : List RingWaiter} {p : PhaseNo} (hq : s.ring.queue = w :: rest)
    (hp : s.choosePhase = some p) :
    s.serveRings = (State.placeEntry { s with ring := { s.ring with queue := rest } } p w.line w.rings).serveRings := by
  unfold State.serveRings
  rw [hq, List.length_cons, serveRingsUpTo]
  simp only [hq, hp]
  rfl

theorem State.serveRings_stays {s : State} (h : s.ring.queue = [] ∨ s.choosePhase = none) : s.serveRings = s := by
  unfold State.serveRings
  cases hn : s.ring.queue.length with
  | zero => rfl
  | succ n =>
    rw [serveRingsUpTo]
    split
    · next w rest p hq hp =>
      rcases h with h | h
      · rw [hq] at h; cases h
      · rw [hp] at h; cases h
    · rfl

/-! ### An entry that leaves -/

theorem State.removeRing_eq (s : State) (l : LineNo) : s.removeRing l = { s with ring := { s.ring with
    phases := s.ring.phases.map (fun es => es.filter (fun e => decide (e.line ≠ l)))
    queue := s.ring.queue.filter (fun w => decide (w.line ≠ l)) } } := by
  have hne : ∀ k : LineNo, (k != l) = decide (k ≠ l) := fun k => by
    by_cases h : k = l <;> simp [h]
  have hphases : Vector.ofFn (fun p : PhaseNo => (s.phase p).filter (fun e => e.line != l)) =
      s.ring.phases.map (fun es => es.filter (fun e => decide (e.line ≠ l))) := by
    apply Vector.ext
    intro i hi
    simp only [Vector.getElem_ofFn, Vector.getElem_map, State.phase, hne]
  have hqueue : s.ring.queue.filter (fun w => w.line != l) = s.ring.queue.filter (fun w => decide (w.line ≠ l)) := by
    simp only [hne]
  rw [State.removeRing, hphases, hqueue]

theorem State.removeRing_ringRelay (s : State) (l : LineNo) : (s.removeRing l).ringRelay l = false := by
  simp +contextual [State.ringRelay, State.removeRing]

/-- Settles O22: preference is a strict total order on the phases, so the pick is its least, and the queue is served head by head. -/
theorem placementTakesTheEmptiestPhase : Obligations.PlacementTakesTheEmptiestPhase := by
  intro s
  refine ⟨fun l => ⟨s.removeRing_eq l, rfl, s.removeRing_ringRelay l⟩, s.choosePhase_eq_none, fun p => ?_, State.serveRings_stays,
    fun w rest p hq hp => State.serveRings_cons hq hp⟩
  rw [State.choosePhase_eq_some]
  simp only [State.phaseHasRoom_iff, State.phaseBefore_iff]

end Sys2Proof.Machine
end

section
/-! Loop samples: the debounce, digits and flashes, and ring-trip (01, R8 to R19). -/

namespace Sys2Proof.Machine

open Sys2Proof

/-! ### The debounce -/

theorem State.sampleLine_of_not_sampled {x : State} {l : LineNo} (h : x.samplingHeld l = true ∨ x.now % ms 5 ≠ 0) (level : Loop) :
    x.sampleLine l level = x := by
  unfold State.sampleLine
  rw [if_neg]
  simp only [State.samples, State.onGrid, Bool.and_eq_true, beq_iff_eq, Bool.not_eq_true', not_and_or, Bool.not_eq_false]
  exact h.symm

/-- A sample of sound records: the debounce step, then the judgement of a transition and of the thresholds. -/
theorem State.sampleLine_of_clean {x : State} {l : LineNo} (hc : x.Clean) (hh : x.samplingHeld l = false) (hn : x.now % ms 5 = 0) (level : Loop) :
    x.sampleLine l level = ((x.withLine l ((x.line l).debounce x.now level)).judgeTransition l ((x.line l).transition level)).judgeThresholds l := by
  have hs : x.samples l = true := by simp [State.samples, State.onGrid, hn, hh]
  have hkeeps : ((x.line l).debounce x.now level).stuck = (x.line l).stuck ∧
      ((x.line l).debounce x.now level).parityBad = (x.line l).parityBad := by
    unfold LineRecord.debounce
    split
    · exact ⟨rfl, rfl⟩
    · split <;> exact ⟨rfl, rfl⟩
  have hd : x.debounceLine l level = x.withLine l ((x.line l).debounce x.now level) := by
    unfold State.debounceLine
    split
    · rfl
    · exact State.updLine_of_clean hc l hkeeps.1 hkeeps.2
  unfold State.sampleLine
  rw [if_pos hs]
  dsimp only
  rw [hc.checkParity, hd]

/-- Outside SERVICE, and on a PARKED line, a sample is only debounced. -/
def State.Unjudged (s : State) (l : LineNo) : Prop := s.inService = false ∨ ∃ c, (s.line l).state = .parked c

theorem State.Unjudged.judgeTransition {s : State} {l : LineNo} (h : s.Unjudged l) (ended : Option Time) : s.judgeTransition l ended = s := by
  cases ended with
  | none => rfl
  | some length =>
    unfold State.judgeTransition
    dsimp only
    split
    · next hj =>
      obtain hs | ⟨c, hs⟩ := h
      · rw [hs] at hj
        exact absurd hj.1 (by decide)
      · rw [State.judgeClosure, hs]
    · rfl

theorem State.Unjudged.judgeThresholds {s : State} {l : LineNo} (h : s.Unjudged l) : s.judgeThresholds l = s := by
  unfold State.judgeThresholds
  dsimp only
  split
  · next hj =>
    obtain hs | ⟨c, hs⟩ := h
    · rw [hs] at hj
      cases hj
    · rw [hs]
  · rfl

/-- Settles O10: the debounce step is the model's own table, and nothing judges it. -/
theorem sampleIsDebounced : Obligations.SampleIsDebounced := by
  rintro t l level s x rfl hm hc
  rw [exec_loopSample, event_eq (by simpa using hm)]
  refine ⟨fun h => ?_, fun hh hn hst => ?_⟩
  · rw [State.sampleLine_of_not_sampled h, State.finish_of_idle rfl]
  · rw [State.sampleLine_of_clean hc hh hn]
    have hj : ((s.begin t).withLine l (((s.begin t).line l).debounce (s.begin t).now level)).Unjudged l := by
      rcases hst with ⟨c, hp⟩ | hstart
      · refine .inr ⟨c, ?_⟩
        rw [State.withLine_line_same, (LineRecord.debounce_keeps _ _ _).1, hp]
      · refine .inl ?_
        show ((s.begin t).unit.mode == .service) = false
        rw [hstart]
        rfl
    rw [hj.judgeTransition, hj.judgeThresholds, State.finish_of_idle rfl]
    rfl

/-! ### Thresholds of a closed loop -/

/-- A closed interval that has not reached 250 ms ends nothing (01, R13). -/
theorem State.judgeThresholds_of_recent {s : State} {l : LineNo} (hl : (s.line l).loop = .closed) (h : s.now < (s.line l).intervalStart + ms 250) :
    s.judgeThresholds l = s := by
  have hopen : (s.line l).longOpening s.now = false := by simp [LineRecord.longOpening, hl]
  have hdigit : (s.line l).digitDue s.now = false := by
    have hi : ¬ ms 250 ≤ (s.line l).interval s.now := by
      unfold LineRecord.interval
      simp only [ms, Time] at *
      omega
    simp [LineRecord.digitDue, hi]
  have hdis : (s.line l).disconnectDue s.now = false := by simp [LineRecord.disconnectDue, hopen]
  have hhook : (s.line l).onHookDue s.now = false := by simp [LineRecord.onHookDue, hopen]
  unfold State.judgeThresholds
  simp only [hdigit, hdis, hhook, Bool.false_eq_true, if_false]
  split
  · split <;> rfl
  · rfl

/-- The judgement of an accepted closure in SERVICE. -/
theorem State.judgeTransition_closure {s : State} {l : LineNo} (hs : s.unit.mode = .service) (hl : (s.line l).loop = .closed) (length : Time) :
    s.judgeTransition l (some length) = s.judgeClosure l length := by
  unfold State.judgeTransition
  have hi : s.inService = true := by rw [State.inService, hs]; rfl
  dsimp only
  rw [if_pos ⟨hi, hl⟩]

/-- DIGIT with the value counted, which is then 0 (01, R13). -/
theorem State.giveDigit_of_clean {y : State} {l : LineNo} {b : BearerNo} {c : Call} (hc : y.Clean) (hb : (y.bearer b).state = .active c) :
    y.giveDigit l b = (y.withLine l { y.line l with digits := 0 }).sendCall (digitRecord l b c.reference (y.line l).digits) := by
  have hs := y.sendCall_same (digitRecord l b c.reference (y.line l).digits)
  unfold State.giveDigit
  rw [hb]
  dsimp only [BearerState.reference?, Option.getD_some]
  rw [State.updLine_of_clean (hs.clean hc) l rfl rfl, hs.line, State.sendCall_withLine]

/-- FLASH, after the digit if one is counted (01, R14). -/
theorem State.giveFlash_of_clean {y : State} {l : LineNo} {b : BearerNo} {c : Call} (hc : y.Clean) (hb : (y.bearer b).state = .active c) :
    y.giveFlash l b = (if 0 < (y.line l).digits then
      (y.withLine l { y.line l with digits := 0 }).sendCall (digitRecord l b c.reference (y.line l).digits) else y).sendCall
        (flashRecord l b c.reference) := by
  have hs := State.sendCall_same (y.withLine l { y.line l with digits := 0 }) (digitRecord l b c.reference (y.line l).digits)
  unfold State.giveFlash
  rw [State.giveDigit_of_clean hc hb]
  dsimp only
  split
  · rw [hs.bearer]
    dsimp only [State.withLine_bearer]
    rw [hb]
    rfl
  · rw [hb]
    rfl

/-- The end of an event whose effect owes nothing but records sent. -/
theorem State.finish_sendCall_sendCall {x : State} (hw : x.work = {}) (he : x.ErrorsOk) (q r : Record) :
    ((x.sendCall q).sendCall r).finish = (x.sendCall q).sendCall r :=
  State.sendCall_finish ((State.sendCall_work he.overflow).trans hw) (he.sendCall q) r

/-- The command of an accepted closure of a CONNECTED line, within 250 ms of its start. -/
theorem State.Accepts.connected {t : Time} {l : LineNo} {b : BearerNo} {start : Time} {s x : State} (hx : x = s.begin t)
    (ha : x.Accepts l .closed start) (hl : (x.line l).state = .connected b) (hn : x.now < start + ms 250) {y z : State}
    (hy : (x.withLine l ((x.line l).accepted .closed start)).closeConnected l b (start - (x.line l).intervalStart) = y)
    (hline : (y.line l).loop = .closed ∧ (y.line l).intervalStart = start) (hnow : y.now = x.now) (hz : y.finish = z) :
    exec (.acceptedTransition t l .closed) s = .next z := by
  have hst : ((x.withLine l ((x.line l).accepted .closed start)).line l).state = .connected b := by
    rw [State.withLine_line_same]
    exact hl
  rw [ha.acceptedTransition hx, State.judgeTransition_closure (s := x.withLine l _) ha.service (by rw [State.withLine_line_same]; rfl),
    State.judgeClosure, hst]
  dsimp only
  rw [hy, State.judgeThresholds_of_recent hline.1 (by rw [hline.2, hnow]; exact hn), hz]

theorem State.closeConnected_of_break {y : State} {l : LineNo} {b : BearerNo} {length : Time} (hc : y.Clean) (h1 : ms 30 ≤ length)
    (h2 : length ≤ ms 120) : y.closeConnected l b length = y.withLine l { y.line l with digits := min 11 ((y.line l).digits + 1) } := by
  rw [State.closeConnected, if_pos ⟨h1, h2⟩, State.updLine_of_clean hc l rfl rfl]

theorem State.closeConnected_of_other {y : State} {l : LineNo} {b : BearerNo} {length : Time}
    (h : length < ms 30 ∨ (ms 120 < length ∧ length < ms 300) ∨ ms 800 ≤ length) : y.closeConnected l b length = y := by
  simp only [ms, Time] at h
  rw [State.closeConnected, if_neg (by simp only [ms, Time]; omega), if_neg (by simp only [ms, Time]; omega)]

theorem State.closeConnected_of_flash {y : State} {l : LineNo} {b : BearerNo} {length : Time} (hc : y.Clean) (h1 : ms 300 ≤ length)
    (h2 : length < ms 800) : y.closeConnected l b length = y.giveFlash l b := by
  have hbreak : ¬ (ms 30 ≤ length ∧ length ≤ ms 120) := fun h => by
    simp only [ms, Time] at h h1
    omega
  rw [State.closeConnected, if_neg hbreak, if_pos ⟨h1, h2⟩, hc.checkParity]

/-- The four branches of R11 and R14 on the line of an accepted closure. -/
theorem State.Accepts.dials {t : Time} {l : LineNo} {b : BearerNo} {c : Call} {start length : Time} {s x : State} {r : LineRecord}
    (hx : x = s.begin t) (ha : x.Accepts l .closed start) (he : x.ErrorsOk) (hl : (x.line l).state = .connected b)
    (hb : (x.bearer b).state = .active c) (hlen : length = start - (x.line l).intervalStart)
    (hr : r = (x.line l).accepted .closed start) (hn : x.now < start + ms 250) :
    (ms 30 ≤ length → length ≤ ms 120 →
      exec (.acceptedTransition t l .closed) s = .next (x.withLine l { r with digits := min 11 (r.digits + 1) })) ∧
    (length < ms 30 ∨ (ms 120 < length ∧ length < ms 300) ∨ ms 800 ≤ length →
      exec (.acceptedTransition t l .closed) s = .next (x.withLine l r)) ∧
    (ms 300 ≤ length → length < ms 800 → r.digits = 0 →
      exec (.acceptedTransition t l .closed) s = .next ((x.withLine l r).sendCall (flashRecord l b c.reference))) ∧
    (ms 300 ≤ length → length < ms 800 → 0 < r.digits →
      exec (.acceptedTransition t l .closed) s = .next
        (((x.withLine l { r with digits := 0 }).sendCall (digitRecord l b c.reference r.digits)).sendCall
          (flashRecord l b c.reference))) := by
  have hcy : (x.withLine l r).Clean := hr ▸ ha.clean.accepted l .closed start
  have hline : (x.withLine l r).line l = r := State.withLine_line_same ..
  have hby : ((x.withLine l r).bearer b).state = .active c := hb
  have hloop : r.loop = .closed := by rw [hr]; rfl
  have hstart : r.intervalStart = start := by rw [hr]; rfl
  have hwork : x.work = {} := State.work_of_begin hx
  have judged := fun (y z : State) => ha.connected hx hl hn (y := y) (z := z)
  rw [← hr, ← hlen] at judged
  refine ⟨fun h1 h2 => ?_, fun h => ?_, fun h1 h2 h0 => ?_, fun h1 h2 h0 => ?_⟩
  · refine judged _ _ (State.closeConnected_of_break hcy h1 h2) ?_ rfl ?_
    · rw [State.withLine_line_same, hline]
      exact ⟨hloop, hstart⟩
    · rw [hline, State.withLine_withLine]
      exact State.finish_of_idle hwork
  · exact judged _ _ (State.closeConnected_of_other h) (by rw [hline]; exact ⟨hloop, hstart⟩) rfl (State.finish_of_idle hwork)
  · have hsame := State.sendCall_same (x.withLine l r) (flashRecord l b c.reference)
    refine judged _ _ ((State.closeConnected_of_flash hcy h1 h2).trans ((State.giveFlash_of_clean hcy hby).trans
      (by rw [hline, if_neg (by omega)]))) ?_ hsame.now (State.sendCall_finish (x := x.withLine l r) hwork he _)
    rw [hsame.line, hline]
    exact ⟨hloop, hstart⟩
  · have hsame := (State.sendCall_same (x.withLine l { r with digits := 0 }) (digitRecord l b c.reference r.digits)).trans
      (State.sendCall_same _ (flashRecord l b c.reference))
    refine judged _ _ ((State.closeConnected_of_flash hcy h1 h2).trans ((State.giveFlash_of_clean hcy hby).trans
      (by rw [hline, if_pos h0, State.withLine_withLine]))) ?_ hsame.now
      (State.finish_sendCall_sendCall (x := x.withLine l { r with digits := 0 }) hwork he _ _)
    rw [hsame.line, State.withLine_line_same]
    exact ⟨hloop, hstart⟩

/-- The sample at which a closed interval has reached 250 ms with digits counted (01, R13). -/
theorem State.Watches.digit {t : Time} {l : LineNo} {level : Loop} {b : BearerNo} {c : Call} {s x : State} (hx : x = s.begin t)
    (hw : x.Watches l level) (he : x.ErrorsOk) (hl : (x.line l).state = .connected b) (hb : (x.bearer b).state = .active c)
    (hloop : (x.line l).loop = .closed) (hdig : 0 < (x.line l).digits) (h250 : (x.line l).intervalStart + ms 250 ≤ x.now) :
    exec (.digitEnd t l level) s = .next ((x.withLine l { (x.line l).watched x.now level with digits := 0 }).sendCall
      (digitRecord l b c.reference (x.line l).digits)) := by
  have hdue : ((x.line l).watched x.now level).digitDue x.now = true := by
    have hi : ms 250 ≤ ((x.line l).watched x.now level).interval x.now := Nat.le_sub_of_add_le (by rw [Nat.add_comm]; exact h250)
    have hc : ((x.line l).watched x.now level).state.isConnected = true := by
      show (x.line l).state.isConnected = true
      rw [hl]
      rfl
    have hcl : ((x.line l).watched x.now level).loop = .closed := hloop
    have hd : 0 < ((x.line l).watched x.now level).digits := hdig
    simp [LineRecord.digitDue, hi, hc, hcl, hd]
  have hdis : ((x.line l).watched x.now level).disconnectDue x.now = false := by
    simp [LineRecord.disconnectDue, LineRecord.longOpening, LineRecord.watched, hloop]
  have hin : x.inService = true := by rw [State.inService, hw.service]; rfl
  have hline : (x.withLine l ((x.line l).watched x.now level)).line l = (x.line l).watched x.now level := State.withLine_line_same ..
  have hst : ((x.line l).watched x.now level).state = .connected b := hl
  have hthr : (x.withLine l ((x.line l).watched x.now level)).judgeThresholds l =
      (x.withLine l ((x.line l).watched x.now level)).giveDigit l b := by
    have hin' : (x.withLine l ((x.line l).watched x.now level)).inService = true := hin
    unfold State.judgeThresholds
    rw [if_pos hin', hline, hst]
    dsimp only
    rw [State.withLine_now, if_neg (by rw [hdis]; decide), if_pos hdue, hw.clean_watched.checkParity]
  have hsampled : (s.begin t).sampled l level = (x.line l).watched x.now level := by rw [← hx]; exact hw.debounce
  rw [exec_digitEnd, event_ite, hsampled, ← hx, if_pos (by rw [hin, hdue]; rfl), event_eq (State.begin_not_halted hx hw.service), ← hx,
    hw.sampleLine, hthr, State.giveDigit_of_clean hw.clean_watched hb, hline, State.withLine_withLine]
  have hwork : x.work = {} := State.work_of_begin hx
  exact congrArg _ (State.sendCall_finish (x := x.withLine l { (x.line l).watched x.now level with digits := 0 }) hwork he _)

/-- Settles O11: the length of the open interval selects the branch of R11, and the digit's threshold is taken at its own sample. -/
theorem dialBreaksMakeDigits : Obligations.DialBreaksMakeDigits :=
  ⟨fun _ _ _ _ _ _ _ _ _ hx ha he hl hb hlen hr hn => ha.dials hx he hl hb hlen hr hn,
    fun _ _ _ _ _ _ _ hx hw he hl hb hloop hdig h250 => hw.digit hx he hl hb hloop hdig h250⟩

end Sys2Proof.Machine
end

section
/-! Long openings and answers (01, R12, R16 and R19). -/

namespace Sys2Proof.Machine

open Sys2Proof

/-- An event whose own rule changes nothing. -/
theorem event_of_unchanged {t : Time} {body : State → State} {s : State} (h : body (s.begin t) = s.begin t) :
    event t body s = .next (s.begin t) := by
  by_cases hm : s.unit.mode = .halted
  · exact event_halted hm
  · rw [event_eq hm, h, State.finish_of_idle rfl]

/-- A line of a sound state enters IDLE with its loop OPEN. -/
theorem State.enterIdle_of_opened {u : State} (hc : u.Clean) {l : LineNo} (ho : (u.line l).loop = .opened) :
    u.enterIdle l = (u.lineTo l .idle).callChoice := by
  have hl : ((u.lineTo l .idle).callChoice.line l).loop = .opened := by
    show ((u.lineTo l .idle).line l).loop = .opened
    rw [State.lineTo_line_same]
    exact ho
  unfold State.enterIdle
  rw [State.putLine_of_clean hc]
  exact if_neg fun h => absurd (hl.symm.trans h.1) (by decide)

/-! ### The threshold of 800 ms -/

/-- An open interval that has reached 800 ms with the mark clear stays so under a sample that completes no run. -/
theorem LineRecord.longOpening_watched {r : LineRecord} {now : Time} (ho : r.loop = .opened) (hm : r.longOpen = false)
    (h : r.intervalStart + ms 800 ≤ now) (level : Loop) : (r.watched now level).longOpening now = true := by
  have hi : ms 800 ≤ (r.watched now level).interval now := Nat.le_sub_of_add_le (by rw [Nat.add_comm]; exact h)
  have hl : (r.watched now level).loop = .opened := ho
  have hw : (r.watched now level).longOpen = false := hm
  simp [LineRecord.longOpening, hi, hl, hw]

section
variable {t : Time} {l : LineNo} {level : Loop} {s x : State} (hx : x = s.begin t) (hw : x.Watches l level)
  (ho : (x.line l).loop = .opened) (hm : (x.line l).longOpen = false) (h800 : (x.line l).intervalStart + ms 800 ≤ x.now)
include hx hw ho hm h800

theorem State.Watches.disconnect {b : BearerNo} (hl : (x.line l).state = .connected b) :
    exec (.disconnect t l level) s = .next ((x.withLine l ((x.line l).watched x.now level)).takeDisconnect l b).finish := by
  have hline : (x.withLine l ((x.line l).watched x.now level)).line l = (x.line l).watched x.now level := State.withLine_line_same ..
  have hst : ((x.line l).watched x.now level).state = .connected b := hl
  have hin : x.inService = true := by rw [State.inService, hw.service]; rfl
  have hdue : ((x.line l).watched x.now level).disconnectDue x.now = true := by
    rw [LineRecord.disconnectDue, LineRecord.longOpening_watched ho hm h800, hst]
    rfl
  have hthr : (x.withLine l ((x.line l).watched x.now level)).judgeThresholds l =
      (x.withLine l ((x.line l).watched x.now level)).takeDisconnect l b := by
    unfold State.judgeThresholds
    rw [State.withLine_inService, if_pos hin, hline, hst]
    dsimp only
    rw [State.withLine_now, if_pos hdue]
  have hsampled : (s.begin t).sampled l level = (x.line l).watched x.now level := by rw [← hx]; exact hw.debounce
  rw [exec_disconnect, event_ite, hsampled, ← hx, if_pos (by rw [hin, hdue]; rfl), event_eq (State.begin_not_halted hx hw.service), ← hx,
    hw.sampleLine, hthr]

theorem State.Watches.onHook (hl : (x.line l).state.takesOnHook = true) :
    exec (.onHook t l level) s = .next ((x.withLine l ((x.line l).watched x.now level)).takeOnHook l).finish := by
  have hline : (x.withLine l ((x.line l).watched x.now level)).line l = (x.line l).watched x.now level := State.withLine_line_same ..
  have hst : ((x.line l).watched x.now level).state = (x.line l).state := rfl
  have hin : x.inService = true := by rw [State.inService, hw.service]; rfl
  have hdue : ((x.line l).watched x.now level).onHookDue x.now = true := by
    rw [LineRecord.onHookDue, LineRecord.longOpening_watched ho hm h800, hst, hl]
    rfl
  have hthr : (x.withLine l ((x.line l).watched x.now level)).judgeThresholds l =
      (x.withLine l ((x.line l).watched x.now level)).takeOnHook l := by
    unfold State.judgeThresholds
    rw [State.withLine_inService, if_pos hin, hline, hst, State.withLine_now, if_pos hdue]
    generalize (x.line l).state = st at hl
    cases st with
    | waiting | originating | lockout => rfl
    | parked | idle | ringing | connected | testing => cases hl
  have hsampled : (s.begin t).sampled l level = (x.line l).watched x.now level := by rw [← hx]; exact hw.debounce
  rw [exec_onHook, event_ite, hsampled, ← hx, if_pos (by rw [hin, hdue]; rfl), event_eq (State.begin_not_halted hx hw.service), ← hx,
    hw.sampleLine, hthr]

end

/-- The mark of a long opening on the line of a sample. -/
theorem State.markLongOpen_withLine (x : State) (l : LineNo) (r : LineRecord) :
    (x.withLine l r).markLongOpen l = x.withLine l { r with longOpen := true } := by
  show (x.withLine l r).withLine l { (x.withLine l r).line l with longOpen := true } = _
  rw [State.withLine_line_same, State.withLine_withLine]

/-- A call that its line clears, and the end of the event. -/
theorem State.clearCall_finish {u : State} (hp : u.Plain) (hw : u.work = {}) {l : LineNo} {b : BearerNo} {c : Call}
    (hb : (u.bearer b).state.call? = some c) (ho : (u.line l).loop = .opened) :
    (u.clearCall l b).finish = ((u.guardTo b c).sendCall (releaseRecord (some l) b c.reference .subscriber)).lineTo l .idle := by
  have hs := State.sendCall_same (u.guardTo b c) (releaseRecord (some l) b c.reference .subscriber)
  exact (State.Near.clearCall (.refl hw) hp.clean hp.errors hb ho).finish ((hs.clean (hp.clean.endTo b c _)).lineTo l _)
    ((hs.still (hp.still.endTo b c _)).lineTo l _)

theorem State.Plain.withLine {x : State} (h : x.Plain) (l : LineNo) {r : LineRecord} (hs : r.stuck = (x.line l).stuck)
    (hp : r.parityBad = (x.line l).parityBad) (hd : r.testDue = (x.line l).testDue) : (x.withLine l r).Plain :=
  ⟨h.service, h.clean.withLine l (hs.trans (h.clean.1 l).2) (hp.trans (h.clean.1 l).1), h.errors, h.still.withLine l hd⟩

/-- A line enters IDLE with its loop OPEN where no test can start, and nothing else is left to do. -/
theorem State.enterIdle_finish {u : State} (hw : u.work = {}) (hc : u.Clean) {l : LineNo} (ho : (u.line l).loop = .opened)
    (hn : (u.lineTo l .idle).NoTest) : (u.enterIdle l).finish = u.lineTo l .idle := by
  rw [State.enterIdle_of_opened hc ho, State.callChoice_finish (u := u.lineTo l .idle) hw (hc.lineTo l _) hn]

/-- Settles O13: the threshold is taken at its own sample, and each state's clearing ends with the line in IDLE. -/
theorem longOpenClearsTheLine : Obligations.LongOpenClearsTheLine := by
  refine ⟨fun t l level b c s x hx hw hp hl hb ho hm h800 => ?_, fun t l level s x y hx hw hi ho hm h800 hy => ?_⟩
  · have hwork : x.work = {} := State.work_of_begin hx
    have hu : (x.withLine l { (x.line l).watched x.now level with longOpen := true, digits := 0 }).Plain := hp.withLine l rfl rfl rfl
    have htake : (x.withLine l ((x.line l).watched x.now level)).takeDisconnect l b =
        (x.withLine l { (x.line l).watched x.now level with longOpen := true, digits := 0 }).clearCall l b := by
      unfold State.takeDisconnect
      rw [State.updLine_of_clean hw.clean_watched l rfl rfl, State.withLine_line_same, State.withLine_withLine]
      dsimp only
      rw [hu.clean.checkParity]
    rw [hw.disconnect hx ho hm h800 hl, htake]
    refine congrArg _ (State.clearCall_finish hu hwork ?_ ?_)
    · rw [State.withLine_bearer, hb]
      rfl
    · rw [State.withLine_line_same]
      exact ho
  · have hworkx : x.work = {} := State.work_of_begin hx
    have hwork : y.work = {} := by rw [hy]; exact hworkx
    have hcy : y.Clean := by rw [hy]; exact hw.clean.withLine l (hw.clean.1 l).2 (hw.clean.1 l).1
    have hoy : (y.line l).loop = .opened := by rw [hy, State.withLine_line_same]; exact ho
    have hmark : (x.withLine l ((x.line l).watched x.now level)).markLongOpen l = y := by rw [hy, State.markLongOpen_withLine]
    have hline : (x.withLine l ((x.line l).watched x.now level)).line l = (x.line l).watched x.now level := State.withLine_line_same ..
    have hst : ((x.line l).watched x.now level).state = (x.line l).state := rfl
    have hdue : ∀ k, (y.line k).testDue = (x.line k).testDue := fun k => by
      rw [hy, State.withLine_line]
      split
      · next e => rw [e]; rfl
      · rfl
    have noTest : ∀ v : State, v.testing = x.testing → v.ring = x.ring → v.now = x.now → (∀ k, v.line k = y.line k) →
        (v.lineTo l .idle).NoTest := fun v ht hr hn hv => by
      refine hi.noTest ht (by rw [State.lineTo_ring, hr]) hn fun k => ?_
      rw [State.lineTo_line]
      split
      · next e => rw [← hdue k, e, ← hv l]; rfl
      · rw [← hdue k, hv k]
    refine ⟨fun hl => ?_, fun cause hl => ?_, fun b c e r hl hb hp => ?_⟩
    · rw [hw.onHook hx ho hm h800 (by rw [hl]; rfl), State.takeOnHook, hline, hst, hl, hmark]
      dsimp only
      have hq : y.leaveQueue l = { y with waiting := x.waiting.filter (fun e => e.line != l) } := by
        rw [State.leaveQueue]
        rw [hy]
        rfl
      rw [hq]
      refine congrArg _ (State.enterIdle_finish (u := { y with waiting := x.waiting.filter (fun e => e.line != l) }) hwork hcy hoy
        (noTest _ ?_ ?_ ?_ fun k => rfl))
      all_goals rw [hy]; rfl
    · rw [hw.onHook hx ho hm h800 (by rw [hl]; rfl), State.takeOnHook, hline, hst, hl, hmark]
      refine congrArg _ (State.enterIdle_finish hwork hcy hoy (noTest _ ?_ ?_ ?_ fun k => rfl))
      all_goals rw [hy]; rfl
    · have hpy : y.Plain := by rw [hy]; exact hp.withLine l rfl rfl rfl
      rw [hw.onHook hx ho hm h800 (by rw [hl]; rfl), State.takeOnHook, hline, hst, hl, hmark]
      dsimp only
      rw [hcy.checkParity]
      refine congrArg _ (State.clearCall_finish hpy hwork ?_ hoy)
      rw [hy, State.withLine_bearer, hb]
      rfl

/-! ### Answers -/

theorem exec_ringTrip (t l) (s : State) : exec (.ringTrip t l) s = event t (fun s => s.takeRingTrip l) s := rfl

/-- A closed loop without a counted digit meets no threshold. -/
theorem State.judgeThresholds_of_no_digit {s : State} {l : LineNo} (hl : (s.line l).loop = .closed) (h : (s.line l).digits = 0) :
    s.judgeThresholds l = s := by
  have hopen : (s.line l).longOpening s.now = false := by simp [LineRecord.longOpening, hl]
  have hdigit : (s.line l).digitDue s.now = false := by simp [LineRecord.digitDue, h]
  have hdis : (s.line l).disconnectDue s.now = false := by simp [LineRecord.disconnectDue, hopen]
  have hhook : (s.line l).onHookDue s.now = false := by simp [LineRecord.onHookDue, hopen]
  unfold State.judgeThresholds
  simp only [hdigit, hdis, hhook, Bool.false_eq_true, if_false]
  split
  · split <;> rfl
  · rfl

theorem SameButRings.line {s u : State} (h : SameButRings s u) (l : LineNo) : u.line l = s.line l := by
  obtain ⟨_, _, rfl⟩ := h
  rfl

/-- The line of an answered call: CONNECTED with no digit counted, and its loop as it was. -/
theorem State.answered_line (u : State) (l : LineNo) (b : BearerNo) (c : Call) :
    (((({ u.bearerTo b (.active c) with active := u.active ++ [b] }.lineTo l (.connected b)).sendCall (answerRecord l b c.reference)).stopRinging
      l).line l) = (u.line l).moved (.connected b) := by
  rw [(State.stopRinging_same _ l).line, (State.sendCall_same _ _).line, State.lineTo_line_same]
  rfl

/-- Settles O14: each of the two answers judges the record that its sample leaves, and the call is connected. -/
theorem answerConnectsTheCall : Obligations.AnswerConnectsTheCall := by
  refine ⟨fun t l s x hx hc h => ?_, fun t l b c s x hx hp hl hb hcl => ⟨fun hr hn => ?_, fun start ha => ?_⟩⟩
  · subst hx
    refine event_of_unchanged (body := fun s => s.takeRingTrip l) ?_
    unfold State.takeRingTrip
    split
    · next hcond =>
      simp only [Bool.and_eq_true, State.onGrid, beq_iff_eq] at hcond
      obtain ⟨⟨hgrid, -⟩, hrelay⟩ := hcond
      rw [hc.checkParity]
      rcases h with h | h | h
      · rw [h] at hrelay
        cases hrelay
      · dsimp only
        split
        · next b hb => exact absurd hb (h b)
        all_goals rfl
      · exact absurd hgrid h
    · rfl
  · have hm := State.begin_not_halted hx hp.service
    have hu : (x.withLine l ((x.line l).accepted .closed x.now)).Plain := hp.withLine l rfl rfl rfl
    have hcond : (x.onGrid (ms 5) && x.inService && x.ringRelay l) = true := by
      simp [State.onGrid, hn, hr, State.inService, hp.service]
    have htake : x.takeRingTrip l = (x.withLine l ((x.line l).accepted .closed x.now)).answer l b := by
      unfold State.takeRingTrip
      rw [if_pos hcond, hp.clean.checkParity]
      dsimp only
      rw [hl]
      dsimp only
      rw [State.updLine_of_clean hp.clean l rfl rfl]
      exact congrArg (fun v : State => v.answer l b) (hu.clean.checkParity _)
    have hwork : (x.withLine l ((x.line l).accepted .closed x.now)).work = {} := by rw [hx]; rfl
    rw [exec_ringTrip, event_eq hm, ← hx, htake]
    exact congrArg _ (State.Near.answer_finish hu.clean hu.still (State.Near.answer (.refl hwork) hu.clean hu.errors hb hcl))
  · have hu : (x.withLine l ((x.line l).accepted .closed start)).Plain := hp.withLine l rfl rfl rfl
    have hline : (x.withLine l ((x.line l).accepted .closed start)).line l = (x.line l).accepted .closed start := State.withLine_line_same ..
    have hst : ((x.line l).accepted .closed start).state = .ringing b := hl
    have hwork : (x.withLine l ((x.line l).accepted .closed start)).work = {} := by rw [hx]; rfl
    have N := State.Near.answer (.refl hwork) hu.clean hu.errors hb hcl
    have hanswered : (((x.withLine l ((x.line l).accepted .closed start)).answer l b).line l) =
        ((x.line l).accepted .closed start).moved (.connected b) := by
      rw [N.line, State.answered_line, hline]
    rw [ha.acceptedTransition hx, State.judgeTransition_closure (s := x.withLine l _) ha.service (by rw [hline]; rfl), State.judgeClosure,
      hline, hst]
    dsimp only
    rw [hu.clean.checkParity, State.judgeThresholds_of_no_digit (by rw [hanswered]; rfl) (by rw [hanswered]; rfl)]
    exact congrArg _ (State.Near.answer_finish hu.clean hu.still N)

end Sys2Proof.Machine
end

section
/-! Tone blocks (01, R6 and R7; 05, R101). -/

namespace Sys2Proof.Machine

open Sys2Proof

theorem exec_toneBlock (t) (s : State) : exec (.toneBlock t) s = anyEvent t (fun s => s.toneBlocks) s := rfl

theorem Slots.work {s u : State} (h : Slots s u) : u.work = s.work := by
  rw [h.eq]

/-- What a line is to hear, by its state (01, R6). -/
theorem State.toneOf_eq (s : State) (l : LineNo) : s.toneOf l = (if s.unit.mode ≠ .service then some .silence else
    match (s.line l).state with
    | .waiting | .originating _ => some .hold
    | .lockout c => some (if c = .withdrawn then .howler else .congestion)
    | .connected _ => none
    | .parked _ | .idle | .ringing _ | .testing _ => some .silence) := by
  unfold State.toneOf State.inService
  by_cases hm : s.unit.mode = .service
  · rw [if_pos (by rw [hm]; rfl), if_neg (fun h => h hm)]
    generalize (s.line l).state = st
    cases st with
    | lockout c => cases c <;> rfl
    | _ => rfl
  · rw [if_neg (fun h => hm (eq_of_beq h)), if_pos hm]

/-- The cadence runs on while the tone stays and starts afresh when it changes (01, R7). -/
theorem Hearing.next_eq {h : Option Hearing} {tone : Tone} {n : Nat} (hrun : ∀ m, h = some { tone := tone, block := m } → n = m + 1)
    (hfresh : (∀ m, h ≠ some { tone := tone, block := m }) → n = 0) : Hearing.next h tone = { tone := tone, block := n } := by
  cases h with
  | none => rw [hfresh fun m e => by cases e]; rfl
  | some x =>
    obtain ⟨heard, m⟩ := x
    unfold Hearing.next
    dsimp only
    split
    · next e =>
      subst e
      rw [hrun m rfl]
    · next e => rw [hfresh fun k hk => e (congrArg Hearing.tone (Option.some.inj hk))]

/-- The sound of a block (01, R7). -/
theorem Tone.block_eq (tone : Tone) (n : Nat) : tone.block n = match tone with
    | .silence => Config.silenceBlock
    | .hold => if n % 200 < 10 then Config.soundBlock .hz400 n else Config.silenceBlock
    | .congestion => if n % 50 < 25 then Config.soundBlock .hz400 n else Config.silenceBlock
    | .howler => Config.soundBlock (if n % 20 < 10 then .hz800 else .hz1600) n := by
  unfold Tone.block Tone.sound
  cases tone with
  | silence => rfl
  | hold => by_cases h : n % 200 < 10 <;> simp [h]
  | congestion => by_cases h : n % 50 < 25 <;> simp [h]
  | howler => by_cases h : n % 20 < 10 <;> simp [h]

/-- A damaged delivery: the last good block once, and then silence (05, R101). -/
theorem Conceal.deliver_none (c : Conceal) : c.deliver none =
    (if c.run = 0 then c.lastGood.getD Config.silenceBlock else Config.silenceBlock, { c with run := if c.run = 0 then 1 else 2 }) := by
  unfold Conceal.deliver
  dsimp only
  split <;> rfl

/-- The tone blocks of a state whose records are sound, each 10 ms. -/
theorem State.toneBlocks_fold {x : State} (hc : x.Clean) (hn : x.now % ms 10 = 0) :
    Slots x x.toneBlocks ∧ ∀ l, SameAt (x.blockFor l) x.toneBlocks l := by
  have e : x.toneBlocks = allLines.foldl State.blockFor x := by
    unfold State.toneBlocks
    rw [if_pos (by rw [State.onGrid, hn]; rfl), hc.checkParity, ite_self]
  obtain ⟨hs, -, hl⟩ := State.blockFor_fold allLines allLines_nodup x
  rw [e]
  exact ⟨hs, fun l => hl l (allLines_mem l)⟩

/-- Settles O15: each line's slot takes what one block for it would give, and its tone selects the branch. -/
theorem toneBlocksFollowTheState : Obligations.ToneBlocksFollowTheState := by
  rintro t s x hx hc
  have hw : x.work = {} := State.work_of_begin hx
  have hexec : exec (.toneBlock t) s = .next x.toneBlocks.finish := by rw [exec_toneBlock, anyEvent, ← hx]
  refine ⟨fun hn => ?_, fun hn => ?_⟩
  · have e : x.toneBlocks = x := by
      unfold State.toneBlocks
      rw [if_neg (by rw [State.onGrid, beq_iff_eq]; exact hn)]
    rw [hexec, e, State.finish_of_idle hw]
  · obtain ⟨hs, hl⟩ := State.toneBlocks_fold hc hn
    refine ⟨x.toneBlocks, by rw [hexec, State.finish_of_idle (hs.work.trans hw)], hs.eq, fun l heard hheard => ?_⟩
    obtain ⟨hhear, hvoice, hconceal⟩ := hl l
    have htone : x.toneOf l = heard := by rw [hheard]; exact x.toneOf_eq l
    refine ⟨fun tone n ht hrun hfresh => ?_, fun ht hu => ?_, fun ht hu => ?_⟩
    · have e : x.blockFor l = x.placeTone l tone := by rw [State.blockFor, htone, ht]
      have hnext := Hearing.next_eq hrun hfresh
      rw [hhear, hvoice, hconceal, e]
      simp only [State.placeTone, hnext, getElem_set_vector, if_true]
      exact ⟨trivial, Tone.block_eq tone n, trivial⟩
    · have e : x.blockFor l = x := by
        rw [State.blockFor, htone, ht]
        exact if_pos hu
      rw [hhear, hvoice, hconceal, e]
      exact ⟨rfl, rfl, rfl⟩
    · have e : x.blockFor l = x.deliverLine l none := by
        rw [State.blockFor, htone, ht]
        exact if_neg (by rw [hu]; decide)
      rw [hhear, hvoice, hconceal, e]
      refine ⟨by simp [State.deliverLine], fun c hcon => ?_⟩
      simp only [State.deliverLine, hcon, Option.getD_some, Conceal.deliver_none, getElem_set_vector, if_true]
      exact ⟨trivial, trivial⟩

end Sys2Proof.Machine
end

section
/-! The end of an event that leaves the waiting queue to serve, and the bearers' timers, blocks and matched records (02, R32 to R41;
03, R55 to R69). -/

namespace Sys2Proof.Machine

open Sys2Proof

/-! ### The end of an event -/

section
variable {t : Time} {body : State → State} {s x u : State} (hx : x = s.begin t) (hm : x.unit.mode = .service)
include hx hm

/-- An event whose effect is near a state that leaves nothing to do. -/
theorem event_of_near (h : (body x).Near u) (hc : u.Clean) (hs : u.Still) : event t body s = .next u := by
  rw [event_eq (State.begin_not_halted hx hm), ← hx]
  exact congrArg _ (h.finish hc hs)

/-- The same, with a reply to a port whose queue has room. -/
theorem event_of_near_reply {z : State} {p : Port} {r : Record} (hb : body x = z.replyWith p r) (h : z.Near u) (hc : u.Clean)
    (hs : u.Still) (hq : u.HasRoom p) : event t body s = .next (u.queued p r) := by
  rw [event_eq (State.begin_not_halted hx hm), ← hx, hb]
  exact congrArg _ (h.finish_reply hc hs hq)

/-- An event whose effect leaves no work. -/
theorem event_of_idle {v : State} (hb : body x = v) (hw : v.work = {}) : event t body s = .next v := by
  rw [event_eq (State.begin_not_halted hx hm), ← hx, hb, State.finish_of_idle hw]

end

/-- The service of the waiting queue leaves no line due for a test that was not due. -/
theorem Served.noTest {s u : State} (h : Served s u) (hn : s.NoTest) : u.NoTest := by
  unfold State.NoTest State.HeadIdle at *
  have hdue : ∀ l, (u.line l).testDue = (s.line l).testDue := fun l => by
    obtain e | ⟨b, e⟩ := h.line l <;> rw [e]
    rfl
  rw [h.unit, h.testing, h.ring, h.now]
  simpa only [hdue] using hn

theorem Served.noDrain {s u : State} (h : Served s u) (hd : s.NoDrain) : u.NoDrain := by
  unfold State.NoDrain
  rw [h.quality]
  exact hd

/-- What follows an event's own rule where no plan is in DRAIN and no test can start: the service of the waiting queue, if it is called. -/
theorem State.settle_of_noDrain {u : State} (hc : u.Clean) (hq : (u.routing .txOverflow).isQuiet = true) (hd : u.NoDrain) (hn : u.NoTest)
    (w : Work) : (u.withWork w).settle = (if w.serve = true then u.served else u).withWork w.lowered := by
  have rest : ∀ (v : State) (w : Work), v.Clean → v.NoDrain → v.NoTest → w.serve = false →
      (v.withWork w).settle = v.withWork w.lowered := by
    intro v w hc hd hn hw
    have plan : ∀ w, (v.withWork w).stepPlan false = v.withWork w := fun w => State.stepPlan_of_noDrain (s := v.withWork w) hd false
    have test : ∀ w, (v.withWork w).chooseTest = v.withWork w := fun w => State.chooseTest_of_noTest (s := v.withWork w) hc hn
    obtain ⟨found, sv, ct, ch, rp, od⟩ := w
    cases hw
    cases ct <;> cases ch <;> simp [State.settle, Work.lowered, plan, test]
  by_cases hs : w.serve = true
  · obtain ⟨c, e⟩ := State.serveQueue_of_clean (s := u.withWork { w with serve := false }) hc hq
    have hserved : (u.withWork { w with serve := false }).served = u.served.withWork { w with serve := false } := servedUpTo_withWork 8 hq _
    have h := State.served_served hq
    have key := rest u.served { w with serve := false, counts := c } (h.clean hc) (h.noDrain hd) (h.noTest hn) rfl
    rw [if_pos hs]
    refine Eq.trans ?_ key
    unfold State.settle
    simp only [State.withWork_work, hs, if_true, State.withWork_withWork, e, hserved]
    rfl
  · rw [if_neg hs]
    exact rest u w hc hd hn (by simpa using hs)

/-- A round that has nothing to settle and owes nothing. -/
theorem State.round_of_lowered (v : State) (w : Work) (ho : w.ordered = []) (hr : w.reply = none) :
    (v.withWork w.lowered).round = v.withWork w.lowered := by
  simp [State.round, State.settle, State.conclude, State.flushReply, Work.lowered, ho, hr]

/-- The end of an event that calls for the service of the waiting queue. -/
theorem State.finish_served {u : State} (hu : u.work = {}) (hc : u.Clean) (hq : (u.routing .txOverflow).isQuiet = true) (hd : u.NoDrain)
    (hn : u.NoTest) {w : Work} (ho : w.ordered = []) (hr : w.reply = none) (hs : w.serve = true) : (u.withWork w).finish = u.served := by
  have first : (u.withWork w).round = u.served.withWork w.lowered := by
    rw [State.round, State.settle_of_noDrain hc hq hd hn, if_pos hs]
    simp [State.conclude, State.flushReply, Work.lowered, ho, hr]
  rw [State.finish, first, State.round_of_lowered _ _ ho hr, State.round_of_lowered _ _ ho hr, State.withWork_withWork,
    State.withWork_of_idle ((State.served_served hq).work.trans hu)]

theorem State.Plain.bearerTo {x : State} (h : x.Plain) (b : BearerNo) (st : BearerState) : (x.bearerTo b st).Plain :=
  ⟨h.service, h.clean.bearerTo b st, h.errors, h.still.bearerTo b st⟩

theorem State.Plain.lineTo {x : State} (h : x.Plain) (l : LineNo) (st : LineState) : (x.lineTo l st).Plain :=
  ⟨h.service, h.clean.lineTo l st, h.errors, h.still.lineTo l st⟩

theorem State.Plain.endTo {x : State} (h : x.Plain) (b : BearerNo) (c : Call) (st : BearerState) : (x.endTo b c st).Plain :=
  ⟨h.service, h.clean.endTo b c st, h.errors, h.still.endTo b c st⟩

/-! ### The equations of these commands -/

theorem exec_reservationTimerExpiry (t b) (s : State) :
    exec (.reservationTimerExpiry t b) s = event t (fun s => s.takeReservationExpiry b) s := rfl
theorem exec_guardTimerExpiry (t b) (s : State) : exec (.guardTimerExpiry t b) s = event t (fun s => s.takeGuardExpiry b) s := rfl
theorem exec_waitLimitExpiry (t l) (s : State) : exec (.waitLimitExpiry t l) s = event t (fun s => s.takeWaitExpiry l) s := rfl
theorem exec_blockBearer (t p b) (s : State) : exec (.blockBearer t p b) s = event t (fun s => s.takeBlock p b) s := rfl
theorem exec_unblockBearer (t p b) (s : State) : exec (.unblockBearer t p b) s = event t (fun s => s.takeUnblock p b) s := rfl
theorem exec_accept (t p b1 b r) (s : State) : exec (.accept t p b1 b r) s = event t (fun s => s.takeAccept p b1 b r) s := rfl
theorem exec_release (t p b1 b r c) (s : State) : exec (.release t p b1 b r c) s = event t (fun s => s.takeRelease p b1 0x14 b r) s := rfl
theorem exec_refuse (t p b1 b r c) (s : State) : exec (.refuse t p b1 b r c) s = event t (fun s => s.takeRelease p b1 0x15 b r) s := rfl
theorem exec_lockout (t p b1 b r) (s : State) : exec (.lockout t p b1 b r) s = event t (fun s => s.takeLockout p b1 b r) s := rfl

/-! ### Timers -/

theorem State.due_of_le {x : State} {e : Time} (h : e ≤ x.now) : x.due e = true := decide_eq_true h
theorem State.due_of_lt {x : State} {e : Time} (h : x.now < e) : x.due e = false := decide_eq_false (Nat.not_le.mpr h)

/-- Settles O25: the expiry ends the call or removes the entry, and the line is locked out. -/
theorem callTimersLockTheLineOut : Obligations.CallTimersLockTheLineOut := by
  refine ⟨fun t b c expiry requested s x hx hp hb => ⟨fun h => ?_, fun h => ?_⟩, fun t l e s x hx hs he => ⟨fun h => ?_, fun h => ?_⟩⟩
  · rw [exec_reservationTimerExpiry]
    have hwork : x.work = {} := State.work_of_begin hx
    have hcall : (x.bearer b).state.call? = some c := by rw [hb]; rfl
    have hu := (hp.endTo b c (x.guardOf c)).lineTo c.line (.lockout .timeout)
    have N := (((State.Near.refl hwork).guardCall hp.clean hcall).putLine (hp.endTo b c _).clean c.line (.lockout .timeout)).raise
      (e := { kind := .reservationTimeout, line := some c.line, bearer := some b, detail := some c.reference }) hu.errors.overflow
      (hu.errors.quiet _ rfl)
    have hsame := State.raise_same ((x.guardTo b c).lineTo c.line (.lockout .timeout))
      { kind := .reservationTimeout, line := some c.line, bearer := some b, detail := some c.reference }
    refine event_of_near hx hp.service ?_ (hsame.clean hu.clean) (hsame.still hu.still)
    simp only [State.takeReservationExpiry, hb, State.due_of_le h, if_true, hp.clean.checkParity]
    exact N
  · rw [exec_reservationTimerExpiry]
    refine event_of_idle hx hp.service ?_ (State.work_of_begin hx)
    simp only [State.takeReservationExpiry, hb, State.due_of_lt h, Bool.false_eq_true, if_false]
  · rw [exec_waitLimitExpiry]
    have hwait : x.waitExpired e = true := decide_eq_true h
    have hc : State.Clean { x with waiting := x.waiting.filter (fun e => e.line != l) } := hs.clean
    refine event_of_idle hx hs.service ?_ ?_
    · simp only [State.takeWaitExpiry, he, hwait, if_true, State.expireEntry, State.leaveQueue]
      rw [State.putLine_of_clean hc]
    · exact (State.raise_work (s := State.lineTo { x with waiting := x.waiting.filter (fun e => e.line != l) } l (.lockout .congestion))
        (e := { kind := .queueTimeout, line := some l }) (hs.errors.quiet .queueTimeout rfl) hs.errors.overflow).trans (State.work_of_begin (x := x) hx)
  · rw [exec_waitLimitExpiry]
    have hwait : x.waitExpired e = false := decide_eq_false (Nat.not_le.mpr h)
    refine event_of_idle hx hs.service ?_ (State.work_of_begin hx)
    simp only [State.takeWaitExpiry, he, hwait, Bool.false_eq_true, if_false]

theorem SameButErrors.limit {s u : State} (h : SameButErrors s u) : u.limit = s.limit := by
  unfold State.limit State.capacity
  rw [h.quality, h.link]

/-- The lowest FREE bearer, where the only one below the limit has just become FREE. -/
theorem State.lowestFree_freed {x : State} {b : BearerNo} (hf : x.lowestFree = none) (hb : b.val < x.limit) :
    (x.bearerTo b .free).lowestFree = some b := by
  have other : ∀ k : BearerNo, k ≠ b → ¬ (((x.bearerTo b .free).bearer k).state == .free && decide (k.val < (x.bearerTo b .free).limit)) := by
    intro k hk
    rw [State.bearerTo_bearer, if_neg hk, State.bearerTo_limit]
    exact (List.find?_eq_none.mp hf) k (by unfold allBearers; fin_cases k <;> simp)
  have here : (((x.bearerTo b .free).bearer b).state == .free && decide (b.val < (x.bearerTo b .free).limit)) = true := by
    simp [BearerRecord.moved, hb]
  unfold State.lowestFree
  cases h : allBearers.find? fun k => ((x.bearerTo b .free).bearer k).state == .free && decide (k.val < (x.bearerTo b .free).limit) with
  | none => exact absurd here (List.find?_eq_none.mp h b (by unfold allBearers; fin_cases b <;> simp))
  | some k =>
    by_cases hk : k = b
    · rw [hk]
    · exact absurd (List.find?_some h) (other k hk)

/-- Where the service of the queue has given the last FREE bearer, it ends. -/
theorem State.served_of_no_free {x : State} (h : x.lowestFree = none) : x.served = x := by
  unfold State.served servedUpTo
  rw [h]
  split
  · cases x.waiting <;> rfl
  · rfl

/-- A line that is given a bearer leaves no bearer FREE that was not. -/
theorem State.given_lowestFree {x : State} (l : LineNo) (c : CallClass) (r : Time) (b : BearerNo)
    (h : ∀ k : BearerNo, k ≠ b → ((x.bearer k).state == .free && decide (k.val < x.limit)) = false) : (x.given l c r b).lowestFree = none := by
  unfold State.given
  dsimp only
  generalize hv : State.lineTo _ l (.originating b) = v
  have hs := State.sendCall_same v (seizeOutRecord l b x.nextReference c)
  have hlimit : (v.sendCall (seizeOutRecord l b x.nextReference c)).limit = x.limit := by
    rw [hs.limit, ← hv]
    rfl
  have hbearer : ∀ k, v.bearer k = (x.bearerTo b (.heldOut (Call.mk l x.nextReference .outgoing c none)
      (x.now + sec (x.param .reservationTimeout)) r)).bearer k := fun k => by
    rw [← hv]
    rfl
  unfold State.lowestFree
  rw [List.find?_eq_none]
  intro k _
  rw [hs.bearer, hlimit, hbearer, State.bearerTo_bearer]
  by_cases hk : k = b
  · rw [if_pos hk]
    rintro ⟨⟩
  · rw [if_neg hk, h k hk]
    exact Bool.false_ne_true

/-- Settles O26: the guard's expiry, and the service of the queue one entry at a time. -/
theorem guardExpiryFreesTheBearer : Obligations.GuardExpiryFreesTheBearer := by
  refine ⟨fun z hc he => ⟨fun h => ?_, fun e rest b call v hu hw hb hcall hv => ?_⟩,
    fun t b reference expiry pendingBlock s x hx hp hb => ⟨fun h => ?_, fun h => ?_⟩,
    fun t b reference expiry e rest call s x y hx hs hi hpl hu hw hf hl hb h hy hcall => ?_⟩
  · rcases h with h | h | h
    · exact State.serveQueue_of_no_free hc (.inl h)
    · exact State.serveQueue_of_empty h
    · exact State.serveQueue_of_no_free hc (.inr h)
  · have hg : v = z.givenHead e rest b := by rw [hv, hcall]; rfl
    have hsv := State.givenHead_served he.overflow e rest b
    obtain ⟨c1, h1⟩ := State.serveQueue_of_clean hc he.overflow
    obtain ⟨c2, h2⟩ := State.serveQueue_of_clean (hsv.clean hc) (by rw [hsv.routing]; exact he.overflow)
    rw [h1, State.served_cons hu hw hb, hg, h2]
    rfl
  · rw [exec_guardTimerExpiry]
    refine event_of_near hx hp.service ?_ (hp.bearerTo b _).clean (hp.bearerTo b _).still
    simp only [State.takeGuardExpiry, hb, State.due_of_le h, if_true, hp.clean.checkParity]
    exact (State.Near.refl (State.work_of_begin hx)).putBearer hp.clean b _
  · rw [exec_guardTimerExpiry]
    refine event_of_idle hx hp.service ?_ (State.work_of_begin hx)
    simp only [State.takeGuardExpiry, hb, State.due_of_lt h, Bool.false_eq_true, if_false]
  · rw [exec_guardTimerExpiry, event_eq (State.begin_not_halted hx hs.service), ← hx]
    refine congrArg _ ?_
    have hwork : x.work = {} := State.work_of_begin hx
    have hy' : y.work = {} := by rw [hy]; exact hwork
    have hcy : y.Clean := by rw [hy]; exact hs.clean.bearerTo b _
    have hqy : (y.routing .txOverflow).isQuiet = true := by rw [hy]; exact hs.errors.overflow
    have hbody : x.takeGuardExpiry b = y.withWork (x.workAfter b .free) := by
      simp only [State.takeGuardExpiry, hb, State.due_of_le h, if_true, hs.clean.checkParity, Bool.false_eq_true, if_false, hy]
      exact State.putBearer_of_clean hs.clean b _
    have hfree : y.lowestFree = some b := by rw [hy]; exact State.lowestFree_freed hf hl
    rw [hbody, State.finish_served hy' hcy hqy (.of_none (by rw [hy]; exact hpl)) (by rw [hy]; exact .inr hi)
      (by rw [State.workAfter, hwork]) (by rw [State.workAfter, hwork]) (by simp [State.workAfter, hl, hu]),
      State.served_cons (by rw [hy]; exact hu) (by rw [hy]; exact hw) hfree]
    have hnone : (y.givenHead e rest b).lowestFree = none := by
      refine State.given_lowestFree (x := { y with waiting := rest }) _ _ _ b fun k hk => ?_
      show ((y.bearer k).state == BearerState.free && decide (k.val < y.limit)) = false
      rw [hy, State.bearerTo_bearer, if_neg hk, State.bearerTo_limit]
      exact Bool.eq_false_iff.mpr ((List.find?_eq_none.mp hf) k (by unfold allBearers; fin_cases k <;> simp))
    rw [State.served_of_no_free hnone, hcall, hy]
    rfl

end Sys2Proof.Machine
end

section
/-! Blocks and the head-end's call-control records on matched bearers (02, R40 and R41; 03, R59 to R69; 04, R83). -/

namespace Sys2Proof.Machine

open Sys2Proof

/-! ### Blocks -/

/-- A bearer's state changes without an entry. -/
theorem State.Plain.amend {x : State} (h : x.Plain) (b : BearerNo) (st : BearerState) :
    (x.withBearer b { x.bearer b with state := st }).Plain :=
  ⟨h.service, h.clean.withBearer b (h.clean.2 b).2 (h.clean.2 b).1, h.errors, h.still⟩

theorem State.withBearer_same_state {x : State} {b : BearerNo} {st : BearerState} (h : (x.bearer b).state = st) :
    x.withBearer b { x.bearer b with state := st } = x := by
  rw [← h]
  exact x.withBearer_self b

/-- A request of a port that serves it and its reply, where the rule leaves the state near another. -/
theorem event_request {α : Type} {t : Time} {s x z u : State} {p : Port} {b1 k : Byte} {f : Option α} {a : α}
    {act : State → α → State} {r : Record} (hx : x = s.begin t) (hs : x.Serves p) (hf : f = some a) (hact : act x a = z.replyWith p r)
    (h : z.Near u) (hc : u.Clean) (hst : u.Still) (hq : u.HasRoom p) :
    event t (fun s => s.request p b1 k f act) s = .next (u.queued p r) :=
  event_of_near_reply hx hs.1 ((State.request_of_serves hs hf).trans hact) h hc hst hq

/-- Settles O27, by the state of the bearer. -/
theorem blocksFollowTheBearersState : Obligations.BlocksFollowTheBearersState := by
  intro t p bearer b s x hx hp hs hbearer
  have hread : x.checkParity [.bearer b] = x := hp.clean.checkParity _
  have near : x.Near x := .refl (State.work_of_begin hx)
  have blocked : ∀ {z u : State} {r : Record}, x.blockBearer p bearer b = z.replyWith p r → z.Near u → u.Plain → u.HasRoom p →
      exec (.blockBearer t p bearer) s = .next (u.queued p r) :=
    fun hact h hu hq => (exec_blockBearer ..).trans (event_request hx hs hbearer hact h hu.clean hu.still hq)
  have unblocked : ∀ {z u : State} {r : Record}, x.unblockBearer p bearer b = z.replyWith p r → z.Near u → u.Plain → u.HasRoom p →
      exec (.unblockBearer t p bearer) s = .next (u.queued p r) :=
    fun hact h hu hq => (exec_unblockBearer ..).trans (event_request hx hs hbearer hact h hu.clean hu.still hq)
  refine ⟨fun hb => ?_, fun r e k hb => ?_, fun hfree hguard => ?_, fun hb => ?_, fun r e hb => ?_, fun hb => ?_, fun hb => ?_⟩
  · refine blocked ?_ (near.putBearer hp.clean b (.blocked .maintenance)) (hp.bearerTo b _) (hs.room.congr rfl)
    rw [State.blockBearer, hread, hb]
    rfl
  · cases k with
    | false =>
      refine blocked ?_ (near.amendBearer hp.clean b (.guarded r e true)) (hp.amend b _) (hs.room.congr rfl)
      rw [State.blockBearer, hread, hb]
      rfl
    | true =>
      rw [State.withBearer_same_state hb]
      refine blocked ?_ near hp hs.room
      rw [State.blockBearer, hread, hb]
      rfl
  · refine blocked ?_ near hp hs.room
    rw [State.blockBearer, hread]
    split
    · next h => exact absurd h hfree
    · next r e h => exact absurd h (hguard r e false)
    · next r e h => exact absurd h (hguard r e true)
    all_goals rfl
  · refine unblocked ?_ (near.putBearer hp.clean b .free) (hp.bearerTo b _) (hs.room.congr rfl)
    rw [State.unblockBearer, hread, hb]
    rfl
  · refine unblocked ?_ (near.amendBearer hp.clean b (.guarded r e false)) (hp.amend b _) (hs.room.congr rfl)
    rw [State.unblockBearer, hread, hb]
    rfl
  · refine unblocked ?_ (near.amendBearer hp.clean b (.unavailable false)) (hp.amend b _) (hs.room.congr rfl)
    rw [State.unblockBearer, hread, hb]
    rfl
  · refine unblocked ?_ near hp hs.room
    rw [State.unblockBearer, hread]
    split
    · next h =>
      rw [h] at hb
      cases hb
    · next r e h =>
      rw [h] at hb
      cases hb
    · next h =>
      rw [h] at hb
      cases hb
    all_goals rfl

/-! ### Matched records -/

section
variable {t : Time} {b1 bearer : Byte} {b : BearerNo} {reference cause : Word} {s x : State} (hx : x = s.begin t) (hp : x.Plain)
  (hup : x.isUp = true) (hbearer : bearerOf bearer = some b)
include hx hp hup hbearer

omit hbearer in
/-- A call-control record from the link in UP is its rule on its fields. -/
theorem event_callControl {α : Type} {b1 k : Byte} {f : Option α} {a : α} {act : State → α → State} (hf : f = some a) :
    event t (fun s => s.callControl .link b1 k f act) s = .next (act x a).finish := by
  rw [event_eq (State.begin_not_halted hx hp.service), ← hx]
  exact congrArg (fun z : State => Host.Outcome.next z.finish) (State.callControl_link hp.service hup hf)

theorem accept_event : exec (.accept t .link b1 bearer reference) s = .next (x.accept b reference).finish :=
  (exec_accept ..).trans (event_callControl hx hp hup hbearer)

theorem release_event : exec (.release t .link b1 bearer reference cause) s = .next (x.release b reference).finish :=
  (exec_release ..).trans (event_callControl hx hp hup hbearer)

theorem refuse_event : exec (.refuse t .link b1 bearer reference cause) s = .next (x.release b reference).finish :=
  (exec_refuse ..).trans (event_callControl hx hp hup hbearer)

theorem lockout_event : exec (.lockout t .link b1 bearer reference) s = .next (x.withdraw b reference).finish :=
  (exec_lockout ..).trans (event_callControl hx hp hup hbearer)

end

theorem State.matching_of {x : State} {b : BearerNo} {reference : Word} (h : (x.bearer b).state.reference? = some reference) :
    x.matching b reference = true := by
  rw [State.matching, h]
  exact beq_self_eq_true _

theorem State.matching_of_ne {x : State} {b : BearerNo} {reference : Word} (h : (x.bearer b).state.reference? ≠ some reference) :
    x.matching b reference = false := beq_eq_false_iff_ne.mpr h

/-- Settles O28, by the state of the bearer. -/
theorem acceptConnectsTheCall : Obligations.AcceptConnectsTheCall := by
  intro t b1 bearer b reference s x hx hp hup hbearer
  have hwork : x.work = {} := State.work_of_begin hx
  refine ⟨fun c e r hb href => ?_, fun e k hb => ?_, fun h => ?_⟩ <;>
    rw [accept_event hx hp hup hbearer, State.accept, hp.clean.checkParity]
  · rw [if_pos (State.matching_of (by rw [hb, ← href]; rfl)), hb]
    have hb' := hp.bearerTo b (.active c)
    have N := (State.Near.refl hwork).connect hp.clean b c
    exact congrArg _ (N.finish (State.Clean.lineTo (s := { x.bearerTo b (.active c) with active := x.active ++ [b] }) hb'.clean c.line _)
      (State.Still.lineTo (s := { x.bearerTo b (.active c) with active := x.active ++ [b] }) hb'.still c.line _))
  · rw [if_pos (State.matching_of (by rw [hb]; rfl)), hb]
    exact congrArg _ (State.sendCall_finish hwork hp.errors _)
  · have hstale := State.stale_finish hwork hp.errors b reference
    split
    · next hmatch =>
      have hm : (x.bearer b).state.reference? = some reference := by
        rw [State.matching, beq_iff_eq] at hmatch
        exact hmatch
      rcases h with h | ⟨c, h | h⟩
      · exact absurd hm h
      · rw [h]
        exact congrArg _ hstale
      · rw [h]
        exact congrArg _ hstale
    · exact congrArg _ hstale

/-- A matched call ends and its line enters a state. -/
theorem State.guardCall_line_finish {x : State} (hp : x.Plain) (hw : x.work = {}) {b : BearerNo} {c : Call}
    (hb : (x.bearer b).state.call? = some c) (l : LineNo) (st : LineState) :
    ((x.guardCall b).putLine l st).finish = (x.guardTo b c).lineTo l st := by
  have hu := (hp.endTo b c (x.guardOf c)).lineTo l st
  exact (((State.Near.refl hw).guardCall hp.clean hb).putLine (hp.endTo b c _).clean l st).finish hu.clean hu.still

/-- The head-end clears a connected call. -/
theorem State.guardCall_drop_finish {x : State} (hp : x.Plain) (hw : x.work = {}) {b : BearerNo} {c : Call}
    (hb : (x.bearer b).state.call? = some c) (l : LineNo) (cause : LockoutCause) :
    ((x.guardCall b).dropLine l cause).finish =
      (x.guardTo b c).lineTo l (if (x.line l).loop = .closed then .lockout cause else .idle) := by
  have hu := (hp.endTo b c (x.guardOf c)).lineTo l (if (x.line l).loop = .closed then .lockout cause else .idle)
  exact (((State.Near.refl hw).guardCall hp.clean hb).dropLine (hp.endTo b c _).clean l cause).finish hu.clean hu.still

/-- The caller has given up a call that rings, with the line's loop OPEN (04, R83). -/
theorem State.abandon_finish {x : State} (hp : x.Plain) (hw : x.work = {}) {b : BearerNo} {c : Call}
    (hb : (x.bearer b).state.call? = some c) (ho : (x.line c.line).loop = .opened) :
    (x.abandon b c).finish = (((x.removeRing c.line).guardTo b c).lineTo c.line .idle).serveRings := by
  have hr : (x.removeRing c.line).Clean := (x.removeRing_same c.line).clean hp.clean
  have hrs : (x.removeRing c.line).Still := (x.removeRing_same c.line).still hp.still
  have hb' : ((x.removeRing c.line).bearer b).state.call? = some c := hb
  have hg := hr.endTo b c ((x.removeRing c.line).guardOf c)
  have N := ((((State.Near.refl hw).removeRing c.line).guardCall hr hb').enterIdle (l := c.line) hg ho).serveRings
  have same := State.serveRings_same (((x.removeRing c.line).guardTo b c).lineTo c.line .idle)
  exact N.finish (same.clean (hg.lineTo c.line _)) (same.still ((hrs.endTo b c _).lineTo c.line _))

/-- Settles O29, by the state of the bearer that holds the reference. -/
theorem headEndClearsTheCall : Obligations.HeadEndClearsTheCall := by
  intro t b1 bearer b reference cause c s x hx hp hup hbearer
  have hwork : x.work = {} := State.work_of_begin hx
  have hrelease : exec (.release t .link b1 bearer reference cause) s = .next (x.release b reference).finish :=
    release_event hx hp hup hbearer
  have hlockout : exec (.lockout t .link b1 bearer reference) s = .next (x.withdraw b reference).finish := lockout_event hx hp hup hbearer
  have matched : ∀ {st : BearerState}, (x.bearer b).state = st → st.reference? = some reference →
      (x.release b reference = match st with
        | .heldOut c _ _ => (x.guardCall b).putLine c.line (.lockout .refused)
        | .heldIn c => x.abandon b c
        | .active c => (x.guardCall b).dropLine c.line .farClear
        | .guarded _ _ _ => x
        | .unavailable _ | .free | .heldMove | .blocked _ => x.stale b reference) ∧
      (x.withdraw b reference = match st with
        | .heldOut c _ _ => (x.guardCall b).putLine c.line (.lockout .withdrawn)
        | .heldIn c => x.abandon b c
        | .active c => (x.guardCall b).putLine c.line (.lockout .withdrawn)
        | .guarded _ _ _ => x
        | .unavailable _ | .free | .heldMove | .blocked _ => x.stale b reference) := by
    intro st hst href
    subst hst
    unfold State.release State.withdraw
    rw [hp.clean.checkParity]
    dsimp only
    rw [if_pos (State.matching_of href)]
    exact ⟨rfl, if_pos (State.matching_of href)⟩
  have active : (x.bearer b).state = .active c → c.reference = reference →
      exec (.release t .link b1 bearer reference cause) s = .next
        ((x.guardTo b c).lineTo c.line (if (x.line c.line).loop = .closed then .lockout .farClear else .idle)) ∧
      exec (.lockout t .link b1 bearer reference) s = .next ((x.guardTo b c).lineTo c.line (.lockout .withdrawn)) := by
    intro hb href
    have hcall : (x.bearer b).state.call? = some c := by rw [hb]; rfl
    obtain ⟨h1, h2⟩ := matched hb (by rw [← href]; rfl)
    rw [hrelease, hlockout, h1, h2]
    exact ⟨congrArg _ (State.guardCall_drop_finish hp hwork hcall _ _), congrArg _ (State.guardCall_line_finish hp hwork hcall _ _)⟩
  refine ⟨fun d p pairs m hb href hd hdb hpl hph hm hsw => ?_, ?_, fun e r hb href => ?_, active, fun hb href ho => ?_, fun e k hb => ?_,
    fun hne => ?_⟩
  · refine ⟨_, (active hb href).1, ?_, ?_, ?_, ?_, ?_⟩
    · show ((x.guardTo b c).bearer b).state = _
      rw [State.endTo_bearer, hd, if_neg (by simpa using hdb), State.bearerTo_bearer_same, ← href]
      rfl
    · show ((x.guardTo b c).bearer d).state = _
      rw [State.endTo_bearer, if_pos hd]
      rfl
    · show ((x.guardTo b c).bearer d).entered = _
      rw [State.endTo_bearer, if_pos hd]
      rfl
    · show (x.withoutPair b).quality = _
      simp only [State.withoutPair, hpl, Option.map_some, hph, ne_eq, decide_not, bne, BEq.beq]
    · show dropIn x.coder.relocations b = _
      rw [hm]
      simp only [dropIn, Relocation.dropBearer, Relocation.bearerOf, hsw, Bool.false_eq_true, if_false, bne, BEq.beq, decide_not, ne_eq]
  · rw [refuse_event hx hp hup hbearer, hrelease]
  · have hcall : (x.bearer b).state.call? = some c := by rw [hb]; rfl
    obtain ⟨h1, h2⟩ := matched hb (by rw [← href]; rfl)
    rw [hrelease, hlockout, h1, h2]
    exact ⟨congrArg _ (State.guardCall_line_finish hp hwork hcall _ _), congrArg _ (State.guardCall_line_finish hp hwork hcall _ _)⟩
  · have hcall : (x.bearer b).state.call? = some c := by rw [hb]; rfl
    obtain ⟨h1, h2⟩ := matched hb (by rw [← href]; rfl)
    rw [hrelease, hlockout, h1, h2]
    exact ⟨congrArg _ (State.abandon_finish hp hwork hcall ho), congrArg _ (State.abandon_finish hp hwork hcall ho)⟩
  · obtain ⟨h1, h2⟩ := matched hb rfl
    rw [hrelease, hlockout, h1, h2]
    exact ⟨congrArg _ (State.finish_of_idle hwork), congrArg _ (State.finish_of_idle hwork)⟩
  · rw [hrelease, hlockout, State.release, State.withdraw, hp.clean.checkParity, State.matching_of_ne hne]
    exact ⟨congrArg _ (State.stale_finish hwork hp.errors b reference), congrArg _ (State.stale_finish hwork hp.errors b reference)⟩

end Sys2Proof.Machine
end

section
/-! Off-hook arrivals and the provisioning of lines (01, R16, R18, R21 and R22; 03, R51 to R55). -/

namespace Sys2Proof.Machine

open Sys2Proof

/-! ### Off-hook arrivals -/

theorem State.Still.given {s : State} (h : s.Still) (l : LineNo) (c : CallClass) (r : Time) (b : BearerNo) : (s.given l c r b).Still :=
  (State.sendCall_same _ _).still (State.Still.lineTo (s := { s.bearerTo b _ with counter := _ }) (h.bearerTo b _) l _)

/-- The line of an allocation. -/
theorem State.given_line (s : State) (l : LineNo) (c : CallClass) (r : Time) (b : BearerNo) :
    (s.given l c r b).line l = (s.line l).moved (.originating b) := by
  unfold State.given
  dsimp only
  rw [(State.sendCall_same _ _).line, State.lineTo_line_same]
  rfl

/-- An off-hook arrival with a bearer to give. -/
theorem State.Near.offHook_given {z u : State} (h : z.Near u) (hc : u.Clean) (hq : (u.routing .txOverflow).isQuiet = true)
    (hw : u.waiting = []) (hu : u.isUp = true) {b : BearerNo} (hf : u.lowestFree = some b) (l : LineNo) :
    (z.offHook l).Near (u.given l (u.line l).cls u.now b) := by
  obtain ⟨hwork, w, ho, hr, rfl⟩ := h
  rw [State.offHook_of_free hc hw hu hf]
  exact State.Near.allocate ⟨hwork, w, ho, hr, rfl⟩ hc hq l _ _ b _ rfl

/-- A line that joins the empty waiting queue. -/
def State.alone (u : State) (l : LineNo) : State :=
  { u.lineTo l .waiting with waiting := [{ line := l, cls := (u.line l).cls, joined := u.now }] }

/-- An off-hook arrival with no bearer to give and no line waiting. -/
theorem State.Near.offHook_alone {z u : State} (h : z.Near u) (hc : u.Clean) (hw : u.waiting = [])
    (hn : u.isUp = false ∨ u.lowestFree = none) (l : LineNo) : (z.offHook l).Near (u.alone l) := by
  obtain ⟨hwork, w, ho, hr, rfl⟩ := h
  rw [State.offHook_of_no_free hc hw hn]
  exact ⟨hwork, w, ho, hr, rfl⟩

/-- A line goes behind the lines that wait, and waits where there is no bearer to give. -/
theorem State.offHook_joins {x : State} (hc : x.Clean) (l : LineNo) (h : (x.isUp = false ∨ x.lowestFree = none) ∨ x.waiting ≠ []) :
    x.offHook l = x.joinQueue l := by
  unfold State.offHook
  rw [hc.checkParity]
  dsimp only
  cases hf : x.lowestFree with
  | none => rfl
  | some b =>
    rcases h with (h | h) | h
    · rw [h]
      rfl
    · rw [hf] at h
      cases h
    · have : x.waiting.isEmpty = false := by simpa using h
      rw [this, Bool.and_false]
      rfl

/-- An accepted closure of an IDLE line: the arrival, and no threshold. -/
theorem State.Accepts.arrives {t : Time} {l : LineNo} {start : Time} {s x y z : State} (hx : x = s.begin t)
    (ha : x.Accepts l .closed start) (hl : (x.line l).state = .idle) (hy : y = x.withLine l ((x.line l).accepted .closed start))
    (hz : y.offHook l = z) (hloop : (z.line l).loop = .closed) (hdig : (z.line l).digits = 0) :
    exec (.acceptedTransition t l .closed) s = .next z.finish := by
  have hline : y.line l = (x.line l).accepted .closed start := by rw [hy, State.withLine_line_same]
  have hst : ((x.line l).accepted .closed start).state = .idle := hl
  rw [ha.acceptedTransition hx, ← hy, State.judgeTransition_closure (by rw [hy]; exact ha.service) (by rw [hline]; rfl), State.judgeClosure,
    hline, hst]
  dsimp only
  rw [hz, State.judgeThresholds_of_no_digit hloop hdig]

theorem State.withWaiting_line (s : State) (q : List WaitEntry) (k : LineNo) : State.line { s with waiting := q } k = s.line k := rfl

/-- Settles O12: an arrival is allocated, waits alone, or joins the queue that is then served. -/
theorem offHookIsAllocatedOrWaits : Obligations.OffHookIsAllocatedOrWaits := by
  refine ⟨fun t l start s x y call hx ha hp hl hy hcall => ?_,
    fun t l start s x y priority ordinary e hx ha he hd hl hw hpr hor hentry hy => ?_⟩
  · have hline : y.line l = (x.line l).accepted .closed start := by rw [hy, State.withLine_line_same]
    have hpy : y.Plain := by
      rw [hy]
      exact hp.withLine l rfl rfl rfl
    have near : y.Near y := .refl (by rw [hy]; exact State.work_of_begin (x := x) hx)
    refine ⟨fun b hu hf => ?_, fun hn => ?_⟩
    · have N := near.offHook_given hpy.clean hpy.errors.overflow hpy.still.1 (by rw [hy]; exact hu) (by rw [hy]; exact hf) l
      have hgl : ((y.offHook l).line l) = ((x.line l).accepted .closed start).moved (.originating b) := by
        rw [N.line, State.given_line, hline]
      rw [ha.arrives hx hl hy rfl (by rw [hgl]; rfl) (by rw [hgl]; rfl),
        N.finish ((State.given_served hpy.errors.overflow ..).clean hpy.clean) (hpy.still.given ..), hline, hcall, hy]
      rfl
    · have hn' : y.isUp = false ∨ y.lowestFree = none := by rw [hy]; exact hn
      have N := near.offHook_alone hpy.clean hpy.still.1 hn' l
      have hgl : ((y.offHook l).line l) = ((x.line l).accepted .closed start).moved .waiting := by
        rw [N.line]
        show (y.lineTo l .waiting).line l = _
        rw [State.lineTo_line_same, hline]
      have hst := hpy.still.lineTo l .waiting
      rw [ha.arrives hx hl hy rfl (by rw [hgl]; rfl) (by rw [hgl]; rfl),
        N.finish_waiting (hpy.clean.lineTo l _) hn' hst.2.1 hst.2.2, State.alone, hline, hy]
      rfl
  · generalize hv : x.withLine l ((x.line l).accepted .closed start) = v at hy
    have hvl : v.line l = (x.line l).accepted .closed start := by rw [← hv, State.withLine_line_same]
    have hcv : v.Clean := by rw [← hv]; exact ha.clean.accepted l .closed start
    have hvwork : v.work = {} := by rw [← hv]; exact State.work_of_begin (x := x) hx
    have hjoin : v.joinQueue l = y.serveQueue := by
      unfold State.joinQueue
      dsimp only
      rw [State.putLine_of_clean hcv, hy]
      have hq : (v.lineTo l .waiting).waiting = priority ++ ordinary := by rw [← hv]; exact hw
      have hcls : (v.line l).cls = (x.line l).cls := by rw [hvl]; rfl
      have hnow : v.now = x.now := by rw [← hv]; rfl
      have hec : e.cls = (x.line l).cls := by rw [hentry]
      have hback : joinBack (v.lineTo l .waiting).waiting { line := l, cls := (v.line l).cls, joined := v.now } = match (x.line l).cls with
          | .priority => priority ++ e :: ordinary
          | .ordinary => priority ++ ordinary ++ [e] := by
        have hj := joinBack_sections hpr hor e
        rw [hec] at hj
        rw [hq, hcls, hnow, ← hentry]
        exact hj
      exact congrArg (fun q => State.serveQueue { v.lineTo l .waiting with waiting := q }) hback
    have hcy : y.Clean := by
      rw [hy]
      exact hcv.lineTo l .waiting
    have hywork : y.work = {} := by rw [hy]; exact hvwork
    have hyl : y.line l = ((x.line l).accepted .closed start).moved .waiting := by
      rw [hy]
      show (v.lineTo l .waiting).line l = _
      rw [State.lineTo_line_same, hvl]
    have hqy : (y.routing .txOverflow).isQuiet = true := by
      rw [hy, ← hv]
      exact he.overflow
    have joined : (x.isUp = false ∨ x.lowestFree = none) ∨ x.waiting ≠ [] →
        exec (.acceptedTransition t l .closed) s = .next y.serveQueue.finish := fun h => by
      have hoff : v.offHook l = y.serveQueue := by
        rw [State.offHook_joins hcv l (by rw [← hv]; exact h), hjoin]
      obtain ⟨c, hs⟩ := State.serveQueue_of_clean hcy hqy
      have hkeeps : (y.serveQueue.line l).loop = .closed ∧ (y.serveQueue.line l).digits = 0 := by
        rw [hs]
        obtain e | ⟨b, e⟩ := (State.served_served hqy).line l <;> rw [State.withWork_line, e, hyl] <;> exact ⟨rfl, rfl⟩
      exact ha.arrives hx hl hv.symm hoff hkeeps.1 hkeeps.2
    refine ⟨fun h => ?_, fun hu hne => ?_⟩
    · rw [joined (.inl h), State.serveQueue_of_no_free hcy (by rw [hy, ← hv]; exact h), State.finish_of_idle hywork]
    · rw [joined (.inr hne), State.serveQueue_finish hywork hcy hqy]
      rw [hy, ← hv]
      exact hd

/-! ### Provisioning -/

theorem exec_provisionLine (t p line i c) (s : State) :
    exec (.provisionLine t p line i c) s = event t (fun s => s.takeProvision p line i c) s := rfl

/-- An entry to IDLE leaves no trace in the next entry. -/
theorem State.lineTo_idle_lineTo (s : State) (l : LineNo) (st : LineState) : (s.lineTo l .idle).lineTo l st = s.lineTo l st := by
  have hr : ((s.lineTo l .idle).line l).moved st = (s.line l).moved st := by
    rw [State.lineTo_line_same]
    rfl
  unfold State.lineTo at hr ⊢
  rw [hr]
  simp [State.withLine, State.withConceal]

theorem State.given_lineTo_idle (s : State) (l : LineNo) (c : CallClass) (r : Time) (b : BearerNo) :
    (s.lineTo l .idle).given l c r b = s.given l c r b := by
  unfold State.given
  exact congrArg (fun z : State => z.sendCall _)
    (State.lineTo_idle_lineTo { s.bearerTo b (.heldOut (Call.mk l s.nextReference .outgoing c none)
      (s.now + sec (s.param .reservationTimeout)) r) with counter := s.nextReference + 2 } l (.originating b))

theorem State.alone_lineTo_idle (s : State) (l : LineNo) : (s.lineTo l .idle).alone l = s.alone l := by
  unfold State.alone
  rw [State.lineTo_idle_lineTo, State.lineTo_line_same]
  rfl

/-- PROVISION_LINE on a PARKED line that is not UNFITTED (01, R22). -/
theorem State.provision_parked {x : State} (hc : x.Clean) {l : LineNo} {i : Bool} {c : CallClass} {r : LineRecord} (p : Port) (line : Byte)
    (hl : (x.line l).state = .parked .outOfService ∨ (x.line l).state = .parked .fault)
    (hr : r = { x.line l with inService := i, cls := c }) :
    x.provision p line l i c = (if i = true then (x.withLine l { r with faultCount := 0 }).enterIdle l
      else (x.withLine l r).putLine l (.parked .outOfService)).done p line 0x20 := by
  have hcr : (x.withLine l r).Clean := by rw [hr]; exact hc.withLine l (hc.1 l).2 (hc.1 l).1
  have hw : x.writeProvision l i c = x.withLine l r := by
    rw [hr]
    exact State.updLine_of_clean hc l rfl rfl
  have hrestore : (x.withLine l r).restore l = (x.withLine l { r with faultCount := 0 }).enterIdle l := by
    unfold State.restore
    rw [State.updLine_of_clean hcr l rfl rfl, State.withLine_line_same, State.withLine_withLine]
  rw [← hrestore, ← hw, State.provision, hc.checkParity]
  obtain hl | hl := hl <;> dsimp only <;> rw [hl]

/-- Settles O16, by the state of the line. -/
theorem provisionFollowsTheLinesState : Obligations.ProvisionFollowsTheLinesState := by
  intro t p line inService cls l s x r hx hp hs hline hi hcls hr
  have near : x.Near x := .refl (State.work_of_begin hx)
  have hread : x.checkParity [.line l] = x := hp.clean.checkParity _
  have fields := provisionFields_of hline hi hcls
  have ends : ∀ {z u : State} {rec : Record},
      x.provision p line l (decide (inService.toNat = 1)) (if cls.toNat = 1 then .priority else .ordinary) = z.replyWith p rec →
      z.Near u → u.Clean → u.Still → u.HasRoom p → exec (.provisionLine t p line inService cls) s = .next (u.queued p rec) :=
    fun hact h hc hst hq => (exec_provisionLine ..).trans (event_request hx hs fields hact h hc hst hq)
  have hpr : (x.withLine l r).Plain := by rw [hr]; exact hp.withLine l rfl rfl rfl
  have hpf : (x.withLine l { r with faultCount := 0 }).Plain := by rw [hr]; exact hp.withLine l rfl rfl rfl
  have nearLine : ∀ q : LineRecord, (x.withLine l q).Near (x.withLine l q) := fun q =>
    .refl (State.work_of_begin (x := x) hx)
  have hwrite : x.writeProvision l (decide (inService.toNat = 1)) (if cls.toNat = 1 then .priority else .ordinary) = x.withLine l r := by
    rw [hr]
    exact State.updLine_of_clean hp.clean l rfl rfl
  have hloop : ((x.withLine l { r with faultCount := 0 }).line l).loop = (x.line l).loop := by
    rw [State.withLine_line_same, hr]
  have restored : (x.line l).state = .parked .outOfService ∨ (x.line l).state = .parked .fault → inService.toNat = 1 →
      x.provision p line l (decide (inService.toNat = 1)) (if cls.toNat = 1 then .priority else .ordinary) =
        ((x.withLine l { r with faultCount := 0 }).enterIdle l).done p line 0x20 := fun hl h1 => by
    rw [State.provision_parked hp.clean p line hl hr, if_pos (decide_eq_true h1)]
  refine ⟨fun hl => ?_, fun hl h1 => ?_, fun hl h1 ho => ?_, fun hl h1 hcl y z call hy hcall => ⟨fun b hu hf hz hroom => ?_, fun hn => ?_⟩,
    fun hl h0 => ?_, fun hpark hidle => ?_⟩
  · refine ends ?_ near hp.clean hp.still hs.room
    rw [State.provision, hread, hl]
    rfl
  · refine ends ?_ (nearLine r) hpr.clean hpr.still (hs.room.congr rfl)
    rw [State.provision, hread, hl]
    dsimp only
    rw [hwrite, if_pos (decide_eq_true h1)]
    rfl
  · have hopen := hloop.trans ho
    have hu := hpf.lineTo l .idle
    exact ends (restored hl h1) ((nearLine _).enterIdle hpf.clean hopen) hu.clean hu.still (hs.room.congr rfl)
  · have hin : (x.withLine l { r with faultCount := 0 }).inService = true := by
      rw [State.withLine_inService, State.inService, hp.service]
      rfl
    obtain ⟨w, ho, hrep, e⟩ := State.enterIdle_of_closed (nearLine _) hpf.clean hin (hloop.trans hcl)
    have hu' := hpf.lineTo l .idle
    have N : (((x.withLine l { r with faultCount := 0 }).lineTo l .idle).withWork w).Near ((x.withLine l { r with faultCount := 0 }).lineTo l .idle) :=
      ⟨State.work_of_begin (x := x) hx, w, ho, hrep, rfl⟩
    have N' := N.offHook_given hu'.clean hu'.errors.overflow hu'.still.1 hu hf l
    have hgiven : ((x.withLine l { r with faultCount := 0 }).lineTo l .idle).given l
        (((x.withLine l { r with faultCount := 0 }).lineTo l .idle).line l).cls
        ((x.withLine l { r with faultCount := 0 }).lineTo l .idle).now b = z := by
      rw [State.given_lineTo_idle, State.lineTo_line_same, State.withLine_line_same, hz, hcall, hy]
      rfl
    rw [← e, hgiven] at N'
    refine ends (restored hl h1) N' ?_ ?_ hroom
    · rw [← hgiven]
      exact (State.given_served hu'.errors.overflow ..).clean hu'.clean
    · rw [← hgiven]
      exact hu'.still.given ..
  · have hin : (x.withLine l { r with faultCount := 0 }).inService = true := by
      rw [State.withLine_inService, State.inService, hp.service]
      rfl
    obtain ⟨w, ho, hrep, e⟩ := State.enterIdle_of_closed (nearLine _) hpf.clean hin (hloop.trans hcl)
    have hu' := hpf.lineTo l .idle
    have N : (((x.withLine l { r with faultCount := 0 }).lineTo l .idle).withWork w).Near ((x.withLine l { r with faultCount := 0 }).lineTo l .idle) :=
      ⟨State.work_of_begin (x := x) hx, w, ho, hrep, rfl⟩
    have N' := N.offHook_alone hu'.clean hu'.still.1 hn l
    rw [← e, State.alone_lineTo_idle, State.alone, State.withLine_line_same] at N'
    have hst := hpf.still.lineTo l .waiting
    subst hy
    rw [exec_provisionLine, event_eq (State.begin_not_halted hx hp.service), ← hx]
    refine congrArg _ (Eq.trans ?_ (N'.finish_reply_waiting (p := p) (r := replyRecord line 0x20 .done 0) (hpf.clean.lineTo l .waiting) hn
      hst.2.1 hst.2.2 (hs.room.congr rfl)))
    exact congrArg State.finish ((State.request_of_serves hs fields).trans (restored hl h1))
  · have h1 : decide (inService.toNat = 1) = false := decide_eq_false (by omega)
    have hu := hpr.lineTo l (.parked .outOfService)
    refine ends (z := (x.withLine l r).putLine l (.parked .outOfService)) ?_ ((nearLine r).putLine hpr.clean l _) hu.clean hu.still
      (hs.room.congr rfl)
    rcases hl with hl | hl
    · rw [State.provision, hread, hl]
      dsimp only
      rw [hwrite, h1]
      rfl
    · rw [State.provision_parked hp.clean p line hl hr, h1]
      rfl
  · refine ends ?_ near hp.clean hp.still hs.room
    rw [State.provision, hread]
    split
    · next h => exact absurd h (hpark _)
    · next h => exact absurd h hidle
    · next h => exact absurd h (hpark _)
    · next h => exact absurd h (hpark _)
    all_goals rfl

end Sys2Proof.Machine
end

section
/-! SEIZE_IN: its three tests, the line that rings, the test it aborts, and glare (03, R57 and R65; 04, R71 and R72; 10, R169). -/

namespace Sys2Proof.Machine

open Sys2Proof

theorem exec_seizeIn (t p line b r) (s : State) : exec (.seizeIn t p line b r) s = event t (fun s => s.takeSeizeIn p line b r) s := rfl

section
variable {t : Time} {line bearer : Byte} {l : LineNo} {b : BearerNo} {reference : Word} {s x : State} (hx : x = s.begin t)
  (hs : x.Sound) (hup : x.isUp = true) (hline : lineOf line = some l) (hbearer : bearerOf bearer = some b)
include hx hs hup hline hbearer

theorem seizeIn_event : exec (.seizeIn t .link line bearer reference) s = .next (x.seize l b reference).finish := by
  rw [exec_seizeIn, event_eq (State.begin_not_halted hx hs.service), ← hx]
  exact congrArg (fun z : State => Host.Outcome.next z.finish)
    (State.callControl_link (b1 := line) (k := 0x11) (a := (l, b)) (act := fun s x => s.seize x.1 x.2 reference) hs.service hup
      (seizeFields_of hline hbearer))

/-- A SEIZE_IN that fails its tests is refused, and nothing else changes. -/
theorem seizeIn_refused {cause : ClearCause} (h : x.seizeTest l b reference = some cause) :
    exec (.seizeIn t .link line bearer reference) s = .next (x.sendCall (refuseRecord l b reference cause)) := by
  rw [seizeIn_event hx hs hup hline hbearer, State.seize, hs.clean.checkParity, hs.clean.checkParity, h]
  exact congrArg _ (State.sendCall_finish (State.work_of_begin hx) hs.errors _)

/-- One that passes them is taken. -/
theorem seizeIn_taken (h : x.seizeTest l b reference = none) :
    exec (.seizeIn t .link line bearer reference) s = .next (x.takeSeize l b reference).finish := by
  rw [seizeIn_event hx hs hup hline hbearer, State.seize, hs.clean.checkParity, hs.clean.checkParity, h]

end

/-! ### The tests -/

theorem State.seizeTest_of_line {x : State} {l : LineNo} {b : BearerNo} {reference : Word} {cause : ClearCause}
    (h : x.badReference reference = false) (hl : (x.line l).state.seizeTest = some cause) : x.seizeTest l b reference = some cause := by
  rw [State.seizeTest, h, hl]
  rfl

theorem State.seizeTest_of_bearer {x : State} {l : LineNo} {b : BearerNo} {reference : Word} (h : x.badReference reference = false)
    (hl : (x.line l).state = .idle ∨ (x.line l).state = .testing none) :
    x.seizeTest l b reference = (x.bearer b).state.seizeTest (decide (b.val < x.limit)) (x.heldCause b) := by
  rw [State.seizeTest, h]
  obtain hl | hl := hl <;> rw [hl] <;> rfl

/-- A bearer that a call, a guard or a block holds is busy, or at or above K' in COUNTDOWN one of two causes (02, R32; 07, R133). -/
theorem State.heldCause_cases (x : State) (b : BearerNo) : x.heldCause b = .bearerBusy ∨ x.heldCause b = .retiring := by
  unfold State.heldCause
  split
  · exact .inr rfl
  · exact .inl rfl

theorem State.heldCause_of_below {x : State} {b : BearerNo}
    (h : b.val < x.limit ∨ ∀ p pairs, x.quality.plan = some p → p.phase ≠ .countdown pairs) : x.heldCause b = .bearerBusy := by
  unfold State.heldCause
  rw [if_neg]
  rcases h with h | h
  · simp [h]
  · have : x.inCountdown = false := by
      unfold State.inCountdown
      split
      · next p hp =>
        split
        · next pairs hph => exact absurd hph (h p pairs hp)
        · rfl
      · rfl
    simp [this]

/-- Settles O30: the first of the three tests that fails gives the cause. -/
theorem seizeInIsTested : Obligations.SeizeInIsTested := by
  intro t line bearer l b reference s x hx hs hup hline hbearer
  have refused := fun {cause : ClearCause} => seizeIn_refused (reference := reference) (cause := cause) hx hs hup hline hbearer
  refine ⟨fun h => refused ?_, fun hgood => ⟨fun h => ?_, fun h => ?_, fun hl => ?_⟩⟩
  · rw [State.seizeTest, x.badReference_of reference h]
    rfl
  · refine refused (State.seizeTest_of_line hgood ?_)
    obtain ⟨c, h | h⟩ := h <;> rw [h] <;> rfl
  · refine refused (State.seizeTest_of_line hgood ?_)
    rcases h with h | h | ⟨c, h⟩
    · rw [h]
      rfl
    · generalize (x.line l).state = st at h
      cases st with
      | originating _ | ringing _ | connected _ => rfl
      | parked _ | idle | waiting | lockout _ | testing _ => cases h
    · rw [h]
      rfl
  · have test := State.seizeTest_of_bearer (b := b) hgood hl
    refine ⟨fun ⟨k, h⟩ => ?_, fun h hlim => ?_, fun h => ?_, fun h => ?_⟩
    · exact refused (by rw [test, h]; rfl)
    · refine refused (test.trans ?_)
      rw [decide_eq_false (Nat.not_lt.mpr hlim)]
      rcases h with h | ⟨c, e, r, h⟩ <;> rw [h] <;> rfl
    · exact refused (by rw [test, h]; rfl)
    · have held : (x.bearer b).state.seizeTest (decide (b.val < x.limit)) (x.heldCause b) = some (x.heldCause b) := by
        rcases h with ⟨c, h | h⟩ | ⟨r, e, k, h⟩ | ⟨k, h⟩ <;> rw [h] <;> rfl
      refine ⟨fun hcause => refused ?_, fun p pairs _ _ _ => ⟨_, x.heldCause_cases b, refused (test.trans held)⟩⟩
      rw [test, held, State.heldCause_of_below hcause]

/-! ### A SEIZE_IN that is taken -/

/-- Placement looks at the ring tables and the time alone. -/
theorem State.choosePhase_congr {x y : State} (hr : y.ring = x.ring) (hn : y.now = x.now) : y.choosePhase = x.choosePhase := by
  have alone : ∀ s : State, s.choosePhase = State.choosePhase { State.reset with ring := s.ring, now := s.now } := fun _ => rfl
  rw [alone y, alone x, hr, hn]

/-- The line and the bearer of a seizure that settles no glare. -/
def State.seized (x : State) (l : LineNo) (b : BearerNo) (reference : Word) : State :=
  (x.bearerTo b (.heldIn (Call.mk l reference .incoming (x.line l).cls none))).lineTo l (.ringing b)

/-- The part of a seizure after the test that it may abort, on a FREE bearer. -/
theorem State.Near.seizes {x z u : State} (h : z.Near u) (hc : u.Clean) {l : LineNo} {b : BearerNo} (reference : Word)
    (habort : x.abortForSeize l = z) (hb : (u.bearer b).state = .free) :
    (x.takeSeize l b reference).Near ((u.seized l b reference).ringLine l) := by
  have hg : z.settleGlare b = (z, none) := by
    rw [State.settleGlare, h.bearer, hb]
  have N := ((h.putBearer hc b (.heldIn (Call.mk l reference .incoming (u.line l).cls none))).putLine (hc.bearerTo b _) l (.ringing b)).ringLine l
  unfold State.takeSeize
  rw [habort]
  dsimp only
  rw [hg]
  dsimp only
  rw [h.line]
  exact N

/-- The ring entry of a line that begins to ring, by the placement's choice. -/
theorem State.ringLine_placed {x y : State} (hr : y.ring = x.ring) (hn : y.now = x.now) (l : LineNo) :
    (∀ p, x.choosePhase = some p → y.ringLine l = y.setPhase p (x.phase p ++ [{ line := l, rings := 0, placed := x.now, relay := false }])) ∧
    (x.choosePhase = none → y.ringLine l = { y with ring := { x.ring with queue := x.ring.queue ++ [{ line := l, rings := 0 }] } }) := by
  have hp : ∀ p, y.phase p = x.phase p := fun p => by rw [State.phase, State.phase, hr]
  refine ⟨fun p h => ?_, fun h => ?_⟩ <;> rw [State.ringLine, State.choosePhase_congr hr hn, h]
  · dsimp only
    rw [State.placeEntry, hp, hn]
  · dsimp only
    rw [hr]

theorem State.Clean.seized {x : State} (h : x.Clean) (l : LineNo) (b : BearerNo) (r : Word) : (x.seized l b r).Clean :=
  (h.bearerTo b _).lineTo l _

theorem State.Still.seized {x : State} (h : x.Still) (l : LineNo) (b : BearerNo) (r : Word) : (x.seized l b r).Still :=
  (h.bearerTo b _).lineTo l _

/-- A report of an aborted test leaves the line and the bearer records but the outcome. -/
theorem State.Near.reportAbort {z u : State} (h : z.Near u) (hc : u.Clean) (he : u.ErrorsOk) (r : TestRecord) :
    (z.reportAbort r).Near ((u.withLine r.line { u.line r.line with lastOutcome := some .aborted }).sendResult r.kind
      (testResultRecord r.line .aborted 0 0 0)) :=
  (State.Near.sendResult (h.setOutcome hc r.line .aborted) he _ _).callChoice

/-- Settles O31: the seizure of an IDLE line, and of a line under test, which is reported first. -/
theorem seizeInRingsTheLine : Obligations.SeizeInRingsTheLine := by
  refine ⟨fun t line bearer l b reference s x y hx hp hup hline hbearer hgood hl hrelay hb hlim hy => ?_,
    fun t line bearer l b reference r s x w v y hx hs hw hpl hup hline hbearer hgood hl htest hrl hidle hb hlim hwd hv hy => ?_⟩
  · have hsound : x.Sound := ⟨hp.service, hp.clean, hp.errors⟩
    have test : x.seizeTest l b reference = none := by
      rw [State.seizeTest_of_bearer hgood (.inl hl), hb, decide_eq_true hlim]
      rfl
    have hy' : y = x.seized l b reference := hy
    have N := (State.Near.refl (State.work_of_begin hx)).seizes hp.clean reference
      (State.abortForSeize_eq_self (State.testRelay_false hrelay)) hb
    rw [← hy'] at N
    have hring := State.ringLine_same y l
    have hcy : y.Clean := by rw [hy']; exact hp.clean.seized l b reference
    have hsy : y.Still := by rw [hy']; exact hp.still.seized l b reference
    rw [seizeIn_taken hx hsound hup hline hbearer test, N.finish (hring.clean hcy) (hring.still hsy)]
    obtain ⟨h1, h2⟩ := State.ringLine_placed (x := x) (y := y) (by rw [hy]; rfl) (by rw [hy]; rfl) l
    exact ⟨fun p h => congrArg _ (h1 p h), fun h => congrArg _ (h2 h)⟩
  · subst hrl
    have test : x.seizeTest r.line b reference = none := by
      rw [State.seizeTest_of_bearer hgood (.inr hl), hb, decide_eq_true hlim]
      rfl
    have hdrop : x.dropTest.Clean := hs.clean
    have hv' : v = w.sendResult r.kind (testResultRecord r.line .aborted 0 0 0) := by
      rw [hv]
      cases r.kind <;> rfl
    have habort : x.abortForSeize r.line = x.dropTest.reportAbort r := by
      rw [State.abortForSeize, htest]
      exact if_pos rfl
    have N1 := State.Near.reportAbort (.refl (s := x.dropTest) (State.work_of_begin (x := x) hx)) hdrop hs.errors r
    have hw' : x.dropTest.withLine r.line { x.dropTest.line r.line with lastOutcome := some .aborted } = w := hwd.symm
    rw [hw', ← hv'] at N1
    have hcw : w.Clean := by rw [hwd]; exact State.Clean.withLine (s := x.dropTest) hdrop r.line (hs.clean.1 _).2 (hs.clean.1 _).1
    have hsame : SameButErrors w v := by rw [hv']; exact State.sendResult_same _ _ _
    have hcv : v.Clean := hsame.clean hcw
    have hline' : (v.line r.line).cls = (x.line r.line).cls := by
      rw [hsame.line, hwd, State.withLine_line_same]
    have hy' : y = v.seized r.line b reference := by rw [hy, State.seized, hline']
    have N := N1.seizes hcv reference habort (by rw [hsame.bearer, hwd]; exact hb)
    rw [← hy'] at N
    have hstw : w.Still := by
      have hdue : ∀ k, (w.line k).testDue = (x.line k).testDue := fun k => by
        rw [hwd, State.withLine_line]
        split
        · next e => rw [e]
        · rfl
      refine ⟨by rw [hwd]; exact hw, .of_none (by rw [hwd]; exact hpl), .inr (.inr (.inr ⟨by rw [hwd]; exact hidle.1, ?_⟩))⟩
      simp only [hdue]
      rw [hwd]
      exact hidle.2
    have hring := State.ringLine_same y r.line
    have hcy : y.Clean := by rw [hy']; exact hcv.seized r.line b reference
    have hsy : y.Still := by rw [hy']; exact (hsame.still hstw).seized r.line b reference
    rw [seizeIn_taken hx hs hup hline hbearer test, N.finish (hring.clean hcy) (hring.still hsy)]
    have hyr : y.ring = x.ring := by
      rw [hy]
      exact hsame.ring.trans (by rw [hwd]; rfl)
    have hyn : y.now = x.now := by
      rw [hy]
      exact hsame.now.trans (by rw [hwd]; rfl)
    obtain ⟨h1, h2⟩ := State.ringLine_placed hyr hyn r.line
    exact ⟨fun p h => congrArg _ (h1 p h), fun h => congrArg _ (h2 h)⟩

end Sys2Proof.Machine
end

section
/-! Glare: the cabinet's own call gives its bearer to the head-end and its line waits again (03, R57 and R65). -/

namespace Sys2Proof.Machine

open Sys2Proof

/-! ### Service near a state -/

theorem State.Near.serveQueue {z u : State} (h : z.Near u) (hc : u.Clean) (hq : (u.routing .txOverflow).isQuiet = true) :
    z.serveQueue.Near u.served := by
  obtain ⟨hu, w, ho, hr, rfl⟩ := h
  obtain ⟨c, e⟩ := State.serveQueue_of_clean (s := u.withWork w) hc hq
  refine ⟨(State.served_served hq).work.trans hu, { w with counts := c }, ho, hr, ?_⟩
  rw [e, show (u.withWork w).served = u.served.withWork w from servedUpTo_withWork 8 hq w]
  rfl

theorem State.served_of_empty {x : State} (h : x.waiting = []) : x.served = x := by
  unfold State.served servedUpTo
  rw [h]
  split <;> rfl

theorem State.sendCall_waiting (x : State) (r : Record) : (x.sendCall r).waiting = x.waiting := (x.sendCall_same r).waiting

/-- A bearer that was not FREE and is not FREE changes nothing of the choice. -/
theorem State.lowestFree_busy {x : State} {b : BearerNo} {st : BearerState} (hb : (x.bearer b).state ≠ .free) (hs : st ≠ .free) :
    (x.bearerTo b st).lowestFree = x.lowestFree := by
  have h : (fun k : BearerNo => ((x.bearerTo b st).bearer k).state == .free && decide (k.val < (x.bearerTo b st).limit)) =
      fun k => (x.bearer k).state == .free && decide (k.val < x.limit) := by
    funext k
    rw [State.bearerTo_bearer, State.bearerTo_limit]
    by_cases hk : k = b
    · subst hk
      have h1 : ((x.bearer k).state == BearerState.free) = false := beq_false_of_ne hb
      have h2 : (((x.bearer k).moved st x.now).state == BearerState.free) = false := beq_false_of_ne hs
      rw [if_pos rfl, h1, h2]
    · rw [if_neg hk]
  exact congrArg (fun p => allBearers.find? p) h

/-- The choice of a bearer looks at the bearers and the limit alone. -/
theorem State.lowestFree_congr {x y : State} (hb : ∀ k, y.bearer k = x.bearer k) (hl : y.limit = x.limit) : y.lowestFree = x.lowestFree := by
  have h : (fun k : BearerNo => (y.bearer k).state == .free && decide (k.val < y.limit)) =
      fun k => (x.bearer k).state == .free && decide (k.val < x.limit) := by
    funext k
    rw [hb, hl]
  exact congrArg (fun p => allBearers.find? p) h

/-! ### The state after glare -/

/-- Another waiting queue. -/
def State.withWaiting (s : State) (q : List WaitEntry) : State := { s with waiting := q }

/-- The claimed line waits, the bearer is HELD_IN and the called line begins to ring. -/
def State.claimed (x : State) (l : LineNo) (b : BearerNo) (reference : Word) (c : Call) : State :=
  (((x.withoutPair b).lineTo c.line .waiting).bearerTo b
    (.heldIn (Call.mk l reference .incoming (x.line l).cls none))).lineTo l (.ringing b)

theorem State.ringLine_withWaiting (v : State) (q : List WaitEntry) (l : LineNo) :
    (v.withWaiting q).ringLine l = (v.ringLine l).withWaiting q := by
  unfold State.ringLine
  rw [State.choosePhase_congr (x := v) (y := v.withWaiting q) rfl rfl]
  cases v.choosePhase <;> rfl

/-- A SEIZE_IN that passes on a claimed bearer, before the service of the queue. -/
theorem State.takeSeize_glare {x : State} (hw : x.work = {}) (hc : x.Clean) {l : LineNo} {b : BearerNo} {reference : Word} {c : Call}
    {expiry requested : Time} {e : WaitEntry} (hrelay : x.testRelay l = false) (hb : (x.bearer b).state = .heldOut c expiry requested)
    (hne : c.line ≠ l) (he : e = { line := c.line, cls := c.cls, joined := requested }) :
    ∃ z : State, z.Near (((x.claimed l b reference c).ringLine l).withWaiting (joinFront x.waiting e)) ∧
      x.takeSeize l b reference = z.reenter (some e) := by
  subst he
  generalize he : ({ line := c.line, cls := c.cls, joined := requested } : WaitEntry) = e
  have hg : (((x.withoutPair b).lineTo c.line .waiting).withWaiting (joinFront x.waiting e)).Clean := (hc.withoutPair b).lineTo c.line _
  have near : (((x.withoutPair b).lineTo c.line .waiting).withWaiting (joinFront x.waiting e)).Near
      (((x.withoutPair b).lineTo c.line .waiting).withWaiting (joinFront x.waiting e)) := .refl hw
  have N := ((near.putBearer hg b (.heldIn (Call.mk l reference .incoming (x.line l).cls none))).putLine (hg.bearerTo b _) l
    (.ringing b)).ringLine l
  rw [show State.lineTo (State.bearerTo _ b (.heldIn (Call.mk l reference .incoming (x.line l).cls none))) l (.ringing b) =
    (x.claimed l b reference c).withWaiting (joinFront x.waiting e) from rfl, State.ringLine_withWaiting] at N
  have hcls : (((x.withoutPair b).lineTo c.line .waiting).line l).cls = (x.line l).cls := by
    rw [State.lineTo_line, if_neg fun h => hne h.symm]
    rfl
  refine ⟨_, N, ?_⟩
  unfold State.takeSeize
  rw [State.abortForSeize_eq_self (State.testRelay_false hrelay)]
  dsimp only
  rw [State.settleGlare_of_clean hc hb, he]
  dsimp only
  rw [State.withWaiting_line, hcls]
  rfl

section
variable {x : State} {l : LineNo} {b : BearerNo} {reference : Word} {c : Call}

theorem State.Clean.claimed (h : x.Clean) : (x.claimed l b reference c).Clean :=
  (((h.withoutPair b).lineTo c.line _).bearerTo b _).lineTo l _

theorem State.claimed_calm (hd : x.NoDrain) (hn : x.NoTest) : (x.claimed l b reference c).NoDrain ∧ (x.claimed l b reference c).NoTest := by
  have h : ((x.withoutPair b).withWaiting []).Still := ⟨rfl, hd.withoutPair b, hn⟩
  exact (((h.lineTo c.line .waiting).bearerTo b
    (.heldIn (Call.mk l reference .incoming (x.line l).cls none))).lineTo l (.ringing b)).2

theorem State.claimed_limit : (x.claimed l b reference c).limit = x.limit := x.withoutPair_limit b

theorem State.claimed_lowestFree {expiry requested : Time} (hb : (x.bearer b).state = .heldOut c expiry requested) :
    (x.claimed l b reference c).lowestFree = x.lowestFree := by
  rw [← State.lowestFree_busy (st := .heldIn (Call.mk l reference .incoming (x.line l).cls none))
    (show (x.bearer b).state ≠ .free by rw [hb]; simp) (by simp)]
  exact State.lowestFree_congr (fun k => rfl) State.claimed_limit

end

/-! ### The claim served, left or expired -/

theorem State.Near.reenter_kept {z u : State} {e : WaitEntry} (h : z.Near u) (hc : u.Clean) (hq : (u.routing .txOverflow).isQuiet = true)
    (hk : (u.served.waiting.contains e && u.served.waitExpired e) = false) : (z.reenter (some e)).Near u.served := by
  have N := h.serveQueue hc hq
  have hz : (z.serveQueue.waiting.contains e && z.serveQueue.waitExpired e) = false := by
    obtain ⟨_, w, _, _, hw⟩ := N
    rw [hw]
    exact hk
  unfold State.reenter
  dsimp only
  rw [hz]
  exact N

theorem State.Near.reenter_expired {z u : State} {e : WaitEntry} (h : z.Near u) (hc : u.Clean) (he : u.ErrorsOk)
    (hk : (u.served.waiting.contains e && u.served.waitExpired e) = true) (hs : u.served = u) :
    (z.reenter (some e)).Near (((u.withWaiting (u.waiting.filter (fun w => w.line != e.line))).lineTo e.line (.lockout .congestion)).raise
      { kind := .queueTimeout, line := some e.line }) := by
  have N := h.serveQueue hc he.overflow
  have hz : (z.serveQueue.waiting.contains e && z.serveQueue.waitExpired e) = true := by
    obtain ⟨_, w, _, _, hw⟩ := N
    rw [hw]
    exact hk
  rw [hs] at N
  have left : (z.serveQueue.leaveQueue e.line).Near (u.withWaiting (u.waiting.filter (fun w => w.line != e.line))) :=
    N.map (fun s => s.leaveQueue e.line) (fun _ _ => rfl)
  unfold State.reenter
  dsimp only
  rw [hz]
  exact (left.putLine hc e.line (.lockout .congestion)).raise he.overflow (he.quiet .queueTimeout rfl)

section
variable {t : Time} {line bearer : Byte} {l : LineNo} {b : BearerNo} {reference : Word} {c : Call} {expiry requested : Time}
  {s x : State} {e : WaitEntry}

/-- A SEIZE_IN that passes on a claimed bearer, and the re-entry of the claim's line. -/
theorem seizeIn_glare (hx : x = s.begin t) (hs : x.Sound) (hup : x.isUp = true) (hline : lineOf line = some l)
    (hbearer : bearerOf bearer = some b) (hgood : x.badReference reference = false) (hl : (x.line l).state = .idle)
    (hrelay : x.testRelay l = false) (hb : (x.bearer b).state = .heldOut c expiry requested) (hlim : b.val < x.limit) (hne : c.line ≠ l)
    (he : e = { line := c.line, cls := c.cls, joined := requested }) :
    ∃ z : State, z.Near (((x.claimed l b reference c).ringLine l).withWaiting (joinFront x.waiting e)) ∧
      exec (.seizeIn t .link line bearer reference) s = .next (z.reenter (some e)).finish := by
  have test : x.seizeTest l b reference = none := by
    rw [State.seizeTest_of_bearer hgood (.inl hl), hb, decide_eq_true hlim]
    rfl
  obtain ⟨z, N, hz⟩ := State.takeSeize_glare (reference := reference) (State.work_of_begin hx) hs.clean hrelay hb hne he
  exact ⟨z, N, by rw [seizeIn_taken hx hs hup hline hbearer test, hz]⟩

end

theorem State.ErrorsOk.congr {x y : State} (h : x.ErrorsOk) (he : y.errors = x.errors) : y.ErrorsOk := by
  have alone : ∀ s : State, s.ErrorsOk ↔ State.ErrorsOk { State.reset with errors := s.errors } := fun _ => Iff.rfl
  rw [alone y, he, ← alone x]
  exact h

/-- The state in which the called line rings and the claim's line is to wait. -/
structure State.Glared (x z : State) : Prop where
  clean : z.Clean
  errors : z.ErrorsOk
  now : z.now = x.now
  param : ∀ p, z.param p = x.param p
  waiting : z.waiting = x.waiting
  up : z.isUp = x.isUp
  free : z.lowestFree = x.lowestFree
  noDrain : z.NoDrain
  noTest : z.NoTest

theorem State.Glared.ringLine {x y : State} (h : x.Glared y) (l : LineNo) : x.Glared (y.ringLine l) := by
  obtain ⟨ph, q, e⟩ := State.ringLine_same y l
  obtain ⟨hc, he, hn, hp, hw, hu, hf, hd, ht⟩ := h
  rw [e]
  exact ⟨hc, he.congr rfl, hn, hp, hw, hu, hf, hd, ht⟩

theorem State.glared {x : State} {l : LineNo} {b : BearerNo} {reference : Word} {c : Call} {expiry requested : Time} (hs : x.Sound)
    (hd : x.NoDrain) (hn : x.NoTest) (hb : (x.bearer b).state = .heldOut c expiry requested) :
    x.Glared ((x.claimed l b reference c).ringLine l) := by
  have calm := State.claimed_calm (l := l) (b := b) (reference := reference) (c := c) hd hn
  have clean : (x.claimed l b reference c).Clean := hs.clean.claimed
  have errors : (x.claimed l b reference c).ErrorsOk := hs.errors.congr (by
    simp only [State.claimed, State.lineTo_errors, State.bearerTo_errors, State.withoutPair_errors])
  have free := State.claimed_lowestFree (l := l) (reference := reference) (c := c) hb
  refine State.Glared.ringLine ?_ l
  constructor
  case clean => exact clean
  case errors => exact errors
  case now => simp only [State.claimed, State.lineTo_now, State.bearerTo_now, State.withoutPair_now]
  case param =>
    intro p
    simp only [State.claimed, State.lineTo_param, State.bearerTo_param, State.withoutPair_param]
  case waiting => simp only [State.claimed, State.lineTo_waiting, State.bearerTo_waiting, State.withoutPair_waiting]
  case up => simp only [State.claimed, State.lineTo_isUp, State.bearerTo_isUp, State.withoutPair_isUp]
  case free => exact free
  case noDrain => exact calm.1
  case noTest => exact calm.2

/-- Settles O32: the claim's line waits again, is given another bearer, or expires. -/
theorem glareIsSettledForTheHeadEnd : Obligations.GlareIsSettledForTheHeadEnd := by
  refine ⟨fun t line bearer l b reference c expiry requested s x y z priority ordinary entry hx hs hd hn hup hline hbearer hgood hl hrelay
      hb hlim hne hy hz hw hpr hor hentry hf hwait => ?_,
    fun t line bearer l b reference c expiry requested s x y z entry call hx hp hup hline hbearer hgood hl hrelay hb hlim hne hy hz hentry
      hcall => ?_⟩
  · have hz' : z = (x.claimed l b reference c).ringLine l := by rw [hz, hy]; rfl
    obtain ⟨v, N, hexec⟩ := seizeIn_glare hx hs hup hline hbearer hgood hl hrelay hb hlim hne hentry
    have G := State.glared (l := l) (reference := reference) hs hd hn hb
    rw [← hz'] at N G
    have hfz : z.lowestFree = none := G.free.trans hf
    have served : (z.withWaiting (joinFront x.waiting entry)).served = z.withWaiting (joinFront x.waiting entry) :=
      State.served_of_no_free hfz
    have early : (z.withWaiting (joinFront x.waiting entry)).waitExpired entry = false := by
      refine decide_eq_false (Nat.not_le.mpr ?_)
      show z.now < entry.joined + sec (z.param .waitLimit)
      rw [G.now, G.param, hentry]
      exact hwait
    have N' := N.reenter_kept (e := entry) G.clean G.errors.overflow (by rw [served, early, Bool.and_false])
    rw [served] at N'
    rw [hexec, N'.finish_waiting G.clean (.inr hfz) G.noDrain G.noTest]
    have hcls : entry.cls = c.cls := by rw [hentry]
    have hj := joinFront_sections hpr hor entry
    rw [hcls] at hj
    rw [hw]
    exact congrArg (fun q => Host.Outcome.next (z.withWaiting q)) hj
  · have hs : x.Sound := ⟨hp.service, hp.clean, hp.errors⟩
    have hz' : z = (x.claimed l b reference c).ringLine l := by rw [hz, hy]; rfl
    obtain ⟨v, N, hexec⟩ := seizeIn_glare hx hs hup hline hbearer hgood hl hrelay hb hlim hne hentry
    have G := State.glared (l := l) (reference := reference) hs hp.still.2.1 hp.still.2.2 hb
    have hfront : joinFront x.waiting entry = [entry] := by
      rw [hp.still.1]
      unfold joinFront
      cases entry.cls <;> rfl
    rw [← hz'] at N G
    rw [hfront] at N
    have hwz : z.waiting = [] := G.waiting.trans hp.still.1
    have hst : z.Still := ⟨hwz, G.noDrain, G.noTest⟩
    have limit : (z.withWaiting [entry]).waitExpired entry = decide (requested + sec (x.param .waitLimit) ≤ x.now) := by
      show decide (entry.joined + sec (z.param .waitLimit) ≤ z.now) = _
      rw [G.now, G.param, hentry]
    have kept : x.lowestFree = none → (z.withWaiting [entry]).served = z.withWaiting [entry] := fun hf =>
      State.served_of_no_free (G.free.trans hf)
    refine ⟨fun k hf => ?_, fun hf hwait => ?_, fun hf hwait => ?_⟩
    · have hempty : z.withWaiting [] = z := by
        rw [← hwz]
        rfl
      have hserved : (z.withWaiting [entry]).served = z.given entry.line entry.cls entry.joined k := by
        have hcons := State.served_cons (s := z.withWaiting [entry]) (e := entry) (rest := []) (b := k) (G.up.trans hup) rfl (G.free.trans hf)
        have hhead : (z.withWaiting [entry]).givenHead entry [] k = z.given entry.line entry.cls entry.joined k := by
          show (z.withWaiting []).given entry.line entry.cls entry.joined k = _
          rw [hempty]
        rw [hhead] at hcons
        rw [hcons]
        exact State.served_of_empty ((State.sendCall_waiting _ _).trans hwz)
      have N' := N.reenter_kept (e := entry) G.clean G.errors.overflow (by
        rw [hserved]
        have : (z.given entry.line entry.cls entry.joined k).waiting = [] := (State.sendCall_waiting _ _).trans hwz
        rw [this]
        rfl)
      rw [hserved] at N'
      rw [hexec, N'.finish ((State.given_served G.errors.overflow ..).clean G.clean) (hst.given ..), State.given, hentry, hcall, G.now, G.param]
    · have N' := N.reenter_kept (e := entry) G.clean G.errors.overflow (by
        rw [kept hf, limit, decide_eq_false (Nat.not_le.mpr hwait), Bool.and_false])
      rw [kept hf] at N'
      rw [hexec, N'.finish_waiting G.clean (.inr (G.free.trans hf)) G.noDrain G.noTest]
      rfl
    · have N' := N.reenter_expired (e := entry) G.clean G.errors (by
        rw [kept hf, limit, decide_eq_true hwait]
        simp [State.withWaiting]) (kept hf)
      have hleft : (z.withWaiting [entry]).withWaiting ((z.withWaiting [entry]).waiting.filter (fun w => w.line != entry.line)) = z := by
        have : [entry].filter (fun w => w.line != entry.line) = z.waiting := by simp [hwz]
        exact congrArg z.withWaiting this
      rw [hleft, show entry.line = c.line by rw [hentry]] at N'
      have same := State.raise_same (z.lineTo c.line (.lockout .congestion)) { kind := .queueTimeout, line := some c.line }
      rw [hexec, N'.finish (same.clean (G.clean.lineTo _ _)) (same.still (hst.lineTo _ _))]

end Sys2Proof.Machine
end

section
/-! Records that are turned away before their own rule, and the end of START (08, R142 and R143; 11, R172). -/

namespace Sys2Proof.Machine

open Sys2Proof

/-! ### The equations of the requests -/

theorem exec_testLine (t p line) (s : State) : exec (.testLine t p line) s = event t (fun s => s.takeTestLine p line) s := rfl
theorem exec_resumeTests (t p b1) (s : State) : exec (.resumeTests t p b1) s = event t (fun s => s.takeResumeTests p b1) s := rfl
theorem exec_setRateModeAuto (t p b1) (s : State) : exec (.setRateModeAuto t p b1) s = event t (fun s => s.takeRateAuto p b1) s := rfl
theorem exec_setRateModeFixed (t p b1 r) (s : State) : exec (.setRateModeFixed t p b1 r) s = event t (fun s => s.takeRateFixed p b1 r) s := rfl
theorem exec_linkControlEnable (t p b1) (s : State) : exec (.linkControlEnable t p b1) s = event t (fun s => s.takeEnable p b1) s := rfl
theorem exec_linkControlDisable (t p b1) (s : State) : exec (.linkControlDisable t p b1) s = event t (fun s => s.takeDisable p b1) s := rfl
theorem exec_linkControlRestart (t p b1) (s : State) : exec (.linkControlRestart t p b1) s = event t (fun s => s.takeRestartLink p b1) s := rfl
theorem exec_restartUnit (t p b1) (s : State) : exec (.restartUnit t p b1) s = event t (fun s => s.takeRestartUnit p b1) s := rfl
theorem exec_clearErrors (t p b1) (s : State) : exec (.clearErrors t p b1) s = event t (fun s => s.takeClearErrors p b1) s := rfl
theorem exec_setParam (t p i v) (s : State) : exec (.setParam t p i v) s = event t (fun s => s.takeSetParam p i v) s := rfl
theorem exec_queryLine (t p i) (s : State) : exec (.queryLine t p i) s = event t (fun s => s.takeQueryLine p i) s := rfl
theorem exec_queryBearer (t p i) (s : State) : exec (.queryBearer t p i) s = event t (fun s => s.takeQueryBearer p i) s := rfl
theorem exec_queryLink (t p i) (s : State) : exec (.queryLink t p i) s = event t (fun s => s.takeQueryLink p i) s := rfl
theorem exec_queryQueue (t p i) (s : State) : exec (.queryQueue t p i) s = event t (fun s => s.takeQueryQueue p i) s := rfl
theorem exec_queryErrors (t p i) (s : State) : exec (.queryErrors t p i) s = event t (fun s => s.takeQueryErrors p i) s := rfl
theorem exec_queryParam (t p i) (s : State) : exec (.queryParam t p i) s = event t (fun s => s.takeQueryParam p i) s := rfl
theorem exec_queryUnit (t p i) (s : State) : exec (.queryUnit t p i) s = event t (fun s => s.takeQueryUnit p i) s := rfl
theorem exec_empty (t p) (s : State) : exec (.empty t p) s = event t (fun s => s.takeEmpty p) s := rfl
theorem exec_notListedKind (t p r) (s : State) : exec (.notListedKind t p r) s = event t (fun s => s.receive p r) s := rfl
theorem exec_checkByteMismatch (t src k) (s : State) : exec (.checkByteMismatch t src k) s = event t (fun s => s.takeMismatch src k) s := rfl
theorem exec_endOfStart (t) (s : State) : exec (.endOfStart t) s = event t (fun s => if s.startDone then s.enterService else s) s := rfl

/-! ### Refusals by the port and by START -/

section
variable {t : Time} {s x : State} (hx : x = s.begin t) (hroom : x.HasRoom .localPort)
include hx hroom

/-- A maintenance request with good fields while the unit is in START. -/
theorem event_starting {α : Type} {b1 k : Byte} {f : Option α} {act : State → α → State} (hm : x.unit.mode = .start) (hf : f.isSome = true) :
    event t (fun s => s.request .localPort b1 k f act) s = .next (x.queued .localPort (replyRecord b1 k (.refused .starting) 0)) := by
  have hnot : s.unit.mode ≠ .halted := fun h => by
    rw [hx, State.begin_unit, h] at hm
    cases hm
  rw [event_eq hnot, ← hx, State.request_in_start hm hf]
  exact congrArg _ (State.refuseWith_finish (State.work_of_begin hx) hroom _ _ _)

/-- A call-control record on the local port. -/
theorem event_wrongPort {α : Type} {b1 k : Byte} {f : Option α} {act : State → α → State} (hm : x.unit.mode ≠ .halted)
    (hf : f.isSome = true) :
    event t (fun s => s.callControl .localPort b1 k f act) s = .next (x.queued .localPort (replyRecord b1 k (.refused .wrongPort) 0)) := by
  have hnot : s.unit.mode ≠ .halted := fun h => hm (by rw [hx]; exact h)
  rw [event_eq hnot, ← hx, State.callControl_localPort hf]
  exact congrArg _ (State.refuseWith_finish (State.work_of_begin hx) hroom _ _ _)

end

theorem indexUpTo_isSome {bound : Nat} {index : Byte} (h : index.toNat ≤ bound) : (indexUpTo bound index).isSome = true := by
  rw [indexUpTo, if_pos h]
  rfl

theorem Rate.ofCode_isSome {n : Nat} (h : n ≤ 2) : (Rate.ofCode n).isSome = true := by
  interval_cases n <;> rfl

/-- Settles O33: each record is turned away before its own rule is taken. -/
theorem requestsAreTurnedAway : Obligations.RequestsAreTurnedAway := by
  intro t b1 b2 b3 bearer ident w v s x hx hroom hbearer
  refine ⟨fun hm i kind hi => ?_, fun hm hl => ?_, fun hm i kind hi => ?_, fun hm hl h2 h3 i kind hi => ?_, fun hm i kind hi => ?_,
    fun hm hid => ⟨?_, ?_⟩, fun hm h2 => ?_, fun hm h3 => ?_, fun hm h17 => ?_, fun hm h0 => ?_⟩
  · simp only [List.mem_cons, List.not_mem_nil, or_false, Prod.mk.injEq] at hi
    rcases hi with ⟨rfl, rfl⟩ | ⟨rfl, rfl⟩ | ⟨rfl, rfl⟩ | ⟨rfl, rfl⟩
    · exact (exec_accept ..).trans (event_wrongPort hx hroom hm hbearer)
    · exact (exec_release ..).trans (event_wrongPort hx hroom hm hbearer)
    · exact (exec_refuse ..).trans (event_wrongPort hx hroom hm hbearer)
    · exact (exec_lockout ..).trans (event_wrongPort hx hroom hm hbearer)
  · obtain ⟨l, hl⟩ := Option.isSome_iff_exists.mp hl
    obtain ⟨b, hb⟩ := Option.isSome_iff_exists.mp hbearer
    exact (exec_seizeIn ..).trans (event_wrongPort hx hroom hm (by rw [seizeFields_of hl hb]; rfl))
  · simp only [List.mem_cons, List.not_mem_nil, or_false, Prod.mk.injEq] at hi
    rcases hi with ⟨rfl, rfl⟩ | ⟨rfl, rfl⟩ | ⟨rfl, rfl⟩ | ⟨rfl, rfl⟩ | ⟨rfl, rfl⟩ | ⟨rfl, rfl⟩ | ⟨rfl, rfl⟩ | ⟨rfl, rfl⟩
    · exact (exec_resumeTests ..).trans (event_starting hx hroom hm rfl)
    · exact (exec_setRateModeAuto ..).trans (event_starting hx hroom hm rfl)
    · exact (exec_linkControlEnable ..).trans (event_starting hx hroom hm rfl)
    · exact (exec_linkControlDisable ..).trans (event_starting hx hroom hm rfl)
    · exact (exec_linkControlRestart ..).trans (event_starting hx hroom hm rfl)
    · exact (exec_restartUnit ..).trans (event_starting hx hroom hm rfl)
    · exact (exec_clearErrors ..).trans (event_starting hx hroom hm rfl)
    · exact (exec_queryQueue ..).trans (event_starting hx hroom hm rfl)
  · simp only [List.mem_cons, List.not_mem_nil, or_false, Prod.mk.injEq] at hi
    rcases hi with ⟨rfl, rfl⟩ | ⟨rfl, rfl⟩ | ⟨rfl, rfl⟩
    · obtain ⟨l, hl⟩ := Option.isSome_iff_exists.mp hl
      exact (exec_provisionLine ..).trans (event_starting hx hroom hm (by rw [provisionFields_of hl h2 h3]; rfl))
    · exact (exec_testLine ..).trans (event_starting hx hroom hm hl)
    · exact (exec_queryLine ..).trans (event_starting hx hroom hm hl)
  · simp only [List.mem_cons, List.not_mem_nil, or_false, Prod.mk.injEq] at hi
    rcases hi with ⟨rfl, rfl⟩ | ⟨rfl, rfl⟩ | ⟨rfl, rfl⟩
    · exact (exec_blockBearer ..).trans (event_starting hx hroom hm hbearer)
    · exact (exec_unblockBearer ..).trans (event_starting hx hroom hm hbearer)
    · exact (exec_queryBearer ..).trans (event_starting hx hroom hm hbearer)
  · exact (exec_setParam ..).trans (event_starting hx hroom hm hid)
  · exact (exec_queryParam ..).trans (event_starting hx hroom hm hid)
  · exact (exec_setRateModeFixed ..).trans (event_starting hx hroom hm (Rate.ofCode_isSome h2))
  · exact (exec_queryLink ..).trans (event_starting hx hroom hm (indexUpTo_isSome h3))
  · exact (exec_queryErrors ..).trans (event_starting hx hroom hm (indexUpTo_isSome h17))
  · exact (exec_queryUnit ..).trans (event_starting hx hroom hm (indexUpTo_isSome (by rw [h0]; decide)))

/-! ### Records that no rule takes -/

/-- The error of a record that is not accepted (08, R142, step 4). -/
def State.formatError (x : State) (p : Port) (kind : Byte) : ErrorEvent :=
  { kind := .msgFormat, frame := if p = .link then x.coder.lastGoodNumber else none
    detail := some (toWord (Source.code (portSource p)) kind) }

theorem State.recordFault_format (x : State) (p : Port) (kind : Byte) :
    x.recordFault .msgFormat (portSource p) kind = x.raise (x.formatError p kind) := by
  cases p <;> rfl

theorem State.formatFailure_finish {x : State} (hw : x.work = {}) (he : x.ErrorsOk) {p : Port} {b1 kind : Byte}
    (hr : (x.raise (x.formatError p kind)).HasRoom p) :
    (x.formatFailure p b1 kind).finish = (x.raise (x.formatError p kind)).queued p (replyRecord b1 kind (.refused .format) 0) := by
  have hwork : (x.raise (x.formatError p kind)).work = {} :=
    (State.raise_work (e := x.formatError p kind) (he.quiet .msgFormat rfl) he.overflow).trans hw
  unfold State.formatFailure
  rw [State.recordFault_format, State.refuseWith_finish hwork hr]

section
variable {t : Time} {s x : State} {p : Port} (hx : x = s.begin t) (hm : x.unit.mode ≠ .halted) (he : x.ErrorsOk) (hears : x.hears p = true)
include hx hm he hears

/-- A request with an examined field out of range. -/
theorem event_badFields {α : Type} {b1 k : Byte} {f : Option α} {act : State → α → State} (hf : f = none)
    (hr : (x.raise (x.formatError p k)).HasRoom p) :
    event t (fun s => s.request p b1 k f act) s =
      .next ((x.raise (x.formatError p k)).queued p (replyRecord b1 k (.refused .format) 0)) := by
  have hnot : s.unit.mode ≠ .halted := fun h => hm (by rw [hx]; exact h)
  rw [event_eq hnot, ← hx]
  unfold State.request
  rw [if_pos hears, hf]
  exact congrArg _ (State.formatFailure_finish (State.work_of_begin hx) he hr)

/-- A call-control record with an examined field out of range. -/
theorem event_badCallFields {α : Type} {b1 k : Byte} {f : Option α} {act : State → α → State} (hf : f = none)
    (hr : (x.raise (x.formatError p k)).HasRoom p) :
    event t (fun s => s.callControl p b1 k f act) s =
      .next ((x.raise (x.formatError p k)).queued p (replyRecord b1 k (.refused .format) 0)) := by
  have hnot : s.unit.mode ≠ .halted := fun h => hm (by rw [hx]; exact h)
  rw [event_eq hnot, ← hx]
  unfold State.callControl
  rw [if_pos hears, hf]
  exact congrArg _ (State.formatFailure_finish (State.work_of_begin hx) he hr)

end

theorem lineOf_none {i : Byte} (h : 24 ≤ i.toNat) : lineOf i = none := dif_neg (Nat.not_lt.mpr h)
theorem bearerOf_none {i : Byte} (h : 8 ≤ i.toNat) : bearerOf i = none := dif_neg (Nat.not_lt.mpr h)
theorem indexUpTo_none {bound : Nat} {i : Byte} (h : bound + 1 ≤ i.toNat) : indexUpTo bound i = none := if_neg (Nat.not_le.mpr h)

theorem Rate.ofCode_none {n : Nat} (h : 3 ≤ n) : Rate.ofCode n = none := by
  obtain ⟨k, rfl⟩ := Nat.exists_eq_add_of_le h
  rw [Nat.add_comm]
  rfl

theorem seizeFields_none {line bearer : Byte} (h : lineOf line = none ∨ bearerOf bearer = none) : seizeFields line bearer = none := by
  unfold seizeFields
  rcases h with h | h
  · rw [h]
    rfl
  · rw [h]
    cases lineOf line <;> rfl

theorem provisionFields_none {line i c : Byte} (h : lineOf line = none ∨ 2 ≤ i.toNat ∨ 2 ≤ c.toNat) : provisionFields line i c = none := by
  unfold provisionFields
  cases hl : lineOf line with
  | none => rfl
  | some l =>
    refine if_neg fun hc => ?_
    rcases h with h | h | h
    · rw [hl] at h
      cases h
    · omega
    · omega

/-- The ids of R151 are 1-21 and 64-78. -/
theorem paramOf_none {i : Byte} (h : i = 0 ∨ (22 ≤ i.toNat ∧ i.toNat ≤ 63) ∨ 79 ≤ i.toNat) : paramOf i = none := by
  have h' : i.toNat = 0 ∨ (22 ≤ i.toNat ∧ i.toNat ≤ 63) ∨ 79 ≤ i.toNat := h.imp_left fun e => by rw [e]; rfl
  have values : allParams.find? (fun p => p.index.val + 1 == i.toNat) = none := by
    rw [List.find?_eq_none]
    intro p _
    have := p.index.isLt
    simp only [beq_iff_eq]
    omega
  have kinds : allKinds.find? (fun k => k.code + 63 == i.toNat) = none := by
    rw [List.find?_eq_none]
    intro k _
    have hk : 1 ≤ k.code ∧ k.code ≤ 15 := by cases k <;> decide
    simp only [beq_iff_eq]
    omega
  rw [paramOf, values, kinds]
  rfl

theorem State.hears_up {x : State} (hs : x.unit.mode = .service) (hu : x.isUp = true) (p : Port) : x.hears p = true := by
  cases p with
  | link => simp [State.hears, hu, State.inService, hs]
  | localPort => rfl

/-- Settles O34: each record fails before its own rule. -/
theorem unusableRecordsAreRecorded : Obligations.UnusableRecordsAreRecorded := by
  refine ⟨fun t p b1 line bearer b2 b3 ident index rate w v s x format hx hm he hears hformat => ?_,
    fun t p src kind r s x hx hs hu => ⟨?_, fun hquiet => ?_, fun y hy => ⟨fun hk hr => ?_, fun hl hr hroom => ?_⟩⟩⟩
  · have request : ∀ {i : Instr} {kind first : Byte} {α : Type} {f : Option α} {act : State → α → State},
        exec i s = event t (fun s => s.request p first kind f act) s → f = none → format i kind first := fun hi hf =>
      (hformat _ _ _).mpr fun y hy hr => by
        subst hy
        rw [hi]
        exact event_badFields hx hm he hears hf hr
    have call : ∀ {i : Instr} {kind first : Byte} {α : Type} {f : Option α} {act : State → α → State},
        exec i s = event t (fun s => s.callControl p first kind f act) s → f = none → format i kind first := fun hi hf =>
      (hformat _ _ _).mpr fun y hy hr => by
        subst hy
        rw [hi]
        exact event_badCallFields hx hm he hears hf hr
    refine ⟨fun h => ?_, fun h => ?_, fun h => ?_, fun h => ?_, fun h => ?_, fun h => ?_, fun h => ?_, fun h => ?_⟩
    · have hl := lineOf_none h
      exact ⟨call (exec_seizeIn ..) (seizeFields_none (.inl hl)), request (exec_provisionLine ..) (provisionFields_none (.inl hl)),
        request (exec_testLine ..) hl, request (exec_queryLine ..) hl⟩
    · have hb := bearerOf_none h
      exact ⟨call (exec_seizeIn ..) (seizeFields_none (.inr hb)), call (exec_accept ..) hb, call (exec_release ..) hb,
        call (exec_refuse ..) hb, call (exec_lockout ..) hb, request (exec_blockBearer ..) hb, request (exec_unblockBearer ..) hb,
        request (exec_queryBearer ..) hb⟩
    · exact request (exec_provisionLine ..) (provisionFields_none (.inr h))
    · have hid := paramOf_none h
      exact ⟨request (exec_setParam ..) hid, request (exec_queryParam ..) hid⟩
    · exact request (exec_setRateModeFixed ..) (Rate.ofCode_none h)
    · exact request (exec_queryLink ..) (indexUpTo_none h)
    · exact request (exec_queryErrors ..) (indexUpTo_none h)
    · exact request (exec_queryUnit ..) (indexUpTo_none h)
  · exact (exec_empty ..).trans (event_of_idle hx hs.service rfl (State.work_of_begin hx))
  · have hin : x.inService = true := by rw [State.inService, hs.service]; rfl
    have hsrc : x.hearsSource src = true := by cases src <;> simp [State.hearsSource, hu, hin]
    rw [exec_checkByteMismatch, event_eq (State.begin_not_halted hx hs.service), ← hx, State.takeMismatch, if_pos hsrc]
    refine congrArg _ ((State.raise_finish (State.work_of_begin hx) hs.errors _ hquiet.isQuiet).trans ?_)
    cases src <;> rfl
  · have hn : r.notListed = true := by simp [Record.notListed, hk]
    rw [exec_notListedKind, event_eq (State.begin_not_halted hx hs.service), ← hx, State.receive_of_notListed hn, State.notAccepted,
      if_pos (State.hears_up hs.service hu p), if_pos hr, State.recordFault_format, hy]
    exact congrArg _ (State.raise_finish (State.work_of_begin hx) hs.errors (x.formatError p r.kind) (hs.errors.quiet .msgFormat rfl))
  · have hr' : ¬ isReport r.kind = true := by rw [hr]; decide
    rw [exec_notListedKind, event_eq (State.begin_not_halted hx hs.service), ← hx, State.receive_of_notListed hl, State.notAccepted,
      if_pos (State.hears_up hs.service hu p), if_neg hr', hy]
    rw [hy] at hroom
    exact congrArg _ (State.formatFailure_finish (State.work_of_begin hx) hs.errors hroom)

end Sys2Proof.Machine
end

section
/-! The unit's states: the end of START, RESTART_UNIT, CLEAR_ERRORS and POWER_ON_RESET (11, R171 to R179). -/

namespace Sys2Proof.Machine

open Sys2Proof

/-- An event outside HALTED whose effect leaves no work. -/
theorem event_of_done {t : Time} {body : State → State} {s x v : State} (hx : x = s.begin t) (hm : x.unit.mode ≠ .halted)
    (hb : body x = v) (hf : v.finish = v) : event t body s = .next v := by
  have hnot : s.unit.mode ≠ .halted := fun h => hm (by rw [hx]; exact h)
  rw [event_eq hnot, ← hx, hb, hf]

/-! ### The end of START -/

/-- Settles O36: the check of every line, then SERVICE. -/
theorem endOfStartEntersService : Obligations.EndOfStartEntersService := by
  intro t s x hx hc hi hm hsteps
  have hnot : x.unit.mode ≠ .halted := by rw [hm]; decide
  have hwork : x.work = {} := State.work_of_begin hx
  rw [exec_endOfStart]
  refine ⟨fun h => ?_, fun h => ?_⟩
  · have hdone : x.startDone = false := by
      have late : decide (x.unit.startTime + startTime ≤ x.now) = false := decide_eq_false (Nat.not_le.mpr h)
      rw [State.startDone, late, Bool.and_false]
    exact event_of_done (v := x) hx hnot (if_neg (by rw [hdone]; decide)) (State.finish_of_idle hwork)
  · have hdone : x.startDone = true := by
      simp [State.startDone, hm, hsteps, startTime, h]
    have hc' : State.Clean { x with unit := { x.unit with mode := .service, firstUpPending := true } } := hc
    obtain ⟨hrest, hlines⟩ := State.checkOff_fold allLines (by decide) _ hc'
    generalize hv : allLines.foldl State.checkOffHook { x with unit := { x.unit with mode := .service, firstUpPending := true } } = v at hrest hlines
    have hmem : ∀ l : LineNo, l ∈ allLines := fun l => by revert l; decide
    have hline : ∀ l : LineNo, ((x.line l).state = .idle ∧ (x.line l).loop = .closed → v.line l = (x.line l).moved (.lockout .restart) ∧
        v.coder.conceal[l.val] = none) ∧ (¬ ((x.line l).state = .idle ∧ (x.line l).loop = .closed) →
        v.line l = x.line l ∧ v.coder.conceal[l.val] = x.coder.conceal[l.val]) := fun l =>
      ⟨fun h => (hlines l).1 ⟨hmem l, h⟩, fun h => (hlines l).2 fun hh => h hh.2⟩
    have hkeeps : ∀ l : LineNo, (v.line l).parityBad = (x.line l).parityBad ∧ (v.line l).stuck = (x.line l).stuck ∧
        (v.line l).testDue = (x.line l).testDue := fun l => by
      by_cases hl : (x.line l).state = .idle ∧ (x.line l).loop = .closed
      · rw [((hline l).1 hl).1]
        exact ⟨rfl, rfl, rfl⟩
      · rw [((hline l).2 hl).1]
        exact ⟨rfl, rfl, rfl⟩
    have hcv : v.beginWindow.Clean := by
      refine ⟨fun l => ?_, fun b => ?_⟩
      · obtain ⟨h1, h2, -⟩ := hkeeps l
        exact ⟨h1.trans (hc.1 l).1, h2.trans (hc.1 l).2⟩
      · have hb : v.bearer b = x.bearer b := by rw [hrest]; rfl
        show (v.bearer b).parityBad = false ∧ (v.bearer b).stuck = false
        rw [hb]
        exact hc.2 b
    have hvtest : v.testing = x.testing := by rw [hrest]
    have hvring : v.ring = x.ring := by rw [hrest]
    have hvnow : v.now = x.now := by rw [hrest]
    have hvwork : v.work = {} := by rw [hrest]; exact hwork
    have hno : v.beginWindow.NoTest :=
      State.noTest_of_idle_lines hi hvtest (by show v.ring.supply = _; rw [hvring]) hvnow fun l => (hkeeps l).2.2
    refine ⟨v.beginWindow, ?_, ?_, hline⟩
    · have hbody : (if x.startDone = true then x.enterService else x) = v.beginWindow.callChoice := by
        rw [if_pos hdone]
        unfold State.enterService
        dsimp only
        rw [hc'.checkParity, hv]
      have hnot' : s.unit.mode ≠ .halted := fun h => hnot (by rw [hx]; exact h)
      rw [event_eq hnot', ← hx, hbody, State.callChoice_finish (u := v.beginWindow) hvwork hcv hno]
    · conv_lhs => rw [hrest]
      rfl

/-! ### The straps -/

/-- The levels of the straps: those of the latest move whose time has come, or those at power-on reset (01, R20). -/
theorem strapLevels_cases (x : Straps) (now : Time) :
    ((∀ m ∈ x.moves, now < m.time) ∧ strapLevels x now = x.levels) ∨
      ∃ before m after, x.moves = before ++ m :: after ∧ m.time ≤ now ∧ (∀ n ∈ after, now < n.time) ∧ strapLevels x now = m.levels := by
  unfold strapLevels
  induction x.moves using List.reverseRecOn with
  | nil => exact .inl ⟨fun m h => absurd h (List.not_mem_nil), rfl⟩
  | append_singleton moves n ih =>
    rw [List.foldl_append, List.foldl_cons, List.foldl_nil]
    by_cases hn : n.time ≤ now
    · rw [if_pos hn]
      exact .inr ⟨moves, n, [], rfl, hn, fun _ h => absurd h (List.not_mem_nil), rfl⟩
    · rw [if_neg hn]
      have hlt : now < n.time := Nat.lt_of_not_le hn
      rcases ih with ⟨h, e⟩ | ⟨before, m, after, hm, hmt, ha, e⟩
      · exact .inl ⟨fun m hm => (List.mem_append.mp hm).elim (h m) fun h => by rw [List.mem_singleton.mp h]; exact hlt, e⟩
      · refine .inr ⟨before, m, after ++ [n], by rw [hm, List.append_assoc, List.cons_append], hmt, fun k hk => ?_, e⟩
        exact (List.mem_append.mp hk).elim (ha k) fun h => by rw [List.mem_singleton.mp h]; exact hlt

/-! ### RESTART_UNIT and CLEAR_ERRORS -/

/-- A line record at a unit restart is a sound one's. -/
theorem LineRecord.restarted_sealed {r : LineRecord} (hs : r.stuck = false) (hp : r.parityBad = false) : r.restarted.sealed = r.restarted :=
  LineRecord.sealed_of_sound hs hp

/-- The strap step on a restarted line (01, R20 and R24). -/
theorem State.strapLine_restarted {v : State} {l : LineNo} {q r : LineRecord} (hr : r = { q with digits := 0, run := .zero, longOpen := false }) :
    (v.straps.getLsbD (l.val / 8) = false →
      v.strapLine l q.restarted = { r with state := .parked .unfitted, inService := false }) ∧
    (v.straps.getLsbD (l.val / 8) = true → r.state = .parked .unfitted → v.strapLine l q.restarted = { r with
      state := .idle, inService := true, cls := .ordinary, faultCount := 0, lastOutcome := none
      testDue := v.now + hours (v.param .sweepPeriod) }) ∧
    (v.straps.getLsbD (l.val / 8) = true → r.state ≠ .parked .unfitted → r.state ≠ .testing (some .unfitted) →
      v.strapLine l q.restarted = { r with state :=
          (if r.state = .parked .fault ∨ r.state = .testing (some .fault) then .parked .fault
            else if r.inService = true then .idle else .parked .outOfService) }) := by
  subst hr
  refine ⟨fun h => ?_, fun h hu => ?_, fun h hu ht => ?_⟩
  · exact if_neg (by rw [fitted, h]; decide)
  · have hst : q.restarted.state = .parked .unfitted := by
      show q.restartState = _
      rw [LineRecord.restartState, show q.state = _ from hu]
    refine (if_pos h).trans ((if_pos hst).trans ?_)
    rfl
  · have hst : q.restartState = (if q.state = .parked .fault ∨ q.state = .testing (some .fault) then .parked .fault
        else if q.inService = true then .idle else .parked .outOfService) := by
      have hu' : q.state ≠ .parked .unfitted := hu
      unfold LineRecord.restartState
      split
      · next h => exact absurd h hu'
      · next h => rw [if_pos (.inl h)]
      · next h => rw [if_pos (.inr h)]
      all_goals next h => exact (if_neg (by simp_all)).symm
    have hne : q.restarted.state ≠ .parked .unfitted := by
      show q.restartState ≠ _
      rw [hst]
      split
      · simp
      · split <;> simp
    refine (if_pos h).trans ((if_neg hne).trans ?_)
    show q.restarted = _
    unfold LineRecord.restarted
    rw [hst]

/-- Settles O37: the old values are replaced, the reply is queued, and START is entered. -/
theorem restartUnitEntersStart : Obligations.RestartUnitEntersStart := by
  intro t p b1 s x straps hx hc hs hlevels hmove
  have hwork : x.work = {} := State.work_of_begin hx
  have hnot : s.unit.mode ≠ .halted := State.begin_not_halted hx hs.1
  have hstraps : x.straps = straps := by
    rcases strapLevels_cases x.pins.straps x.now with ⟨h, e⟩ | ⟨before, m, after, hm, hmt, ha, e⟩
    · exact e.trans (hlevels (.inr h)).symm
    · exact e.trans (hmove before m after hm hmt ha).symm
  refine ⟨?_, ?_⟩
  · rw [exec_clearErrors, event_eq hnot, ← hx]
    refine congrArg _ ((congrArg State.finish (State.request_of_serves hs rfl)).trans ?_)
    exact State.replyWith_finish (x := x.clearErrors) hwork (hs.room.congr rfl) _
  · obtain ⟨v, w, hvw⟩ : ∃ v w, v = Vector.ofFn (fun l => (x.line l).restarted.sealed) ∧
        w = Vector.ofFn (fun b => ({ x.bearer b with state := (x.bearer b).state.restarted b, entered := x.now, disagreements := 0 } :
          BearerRecord).sealed) := ⟨_, _, rfl, rfl⟩
    have hvalues : x.restartValues .requested = x.restartRest .requested v w := by rw [hvw.1, hvw.2, State.restartValues_eq]
    have hline : ∀ l : LineNo, (x.restartRest .requested v w).line l = (x.line l).restarted := fun l => by
      rw [← hvalues, State.restartValues_line, LineRecord.restarted_sealed (hc.1 l).2 (hc.1 l).1]
    have hbearer : ∀ b : BearerNo, (x.restartRest .requested v w).bearer b =
        { x.bearer b with state := (x.bearer b).state.restarted b, entered := x.now, disagreements := 0 } := fun b => by
      show w[b.val] = _
      rw [hvw.2, Vector.getElem_ofFn]
      exact BearerRecord.sealed_of_sound (hc.2 b).2 (hc.2 b).1
    generalize hy : (x.restartRest .requested v w).queued p (replyRecord b1 0x28 .done 0) = y
    have hroom : (x.restartRest .requested v w).HasRoom p := by cases p <;> exact Nat.zero_lt_succ _
    have hyl : ∀ l, y.line l = (x.line l).restarted := fun l => by rw [← hy, State.queued_line, hline]
    have hyb : ∀ b, y.bearer b = { x.bearer b with state := (x.bearer b).state.restarted b, entered := x.now, disagreements := 0 } :=
      fun b => by rw [← hy, State.queued_bearer, hbearer]
    have hyroom : y.messages.localQueue.length < 16 := by rw [← hy]; cases p <;> exact Nat.lt_of_sub_eq_succ rfl
    obtain ⟨u, hu, he, hul⟩ := State.enterStart_of_sound (s := y) (fun l => by rw [hyl]; exact (hc.1 l).2)
      (fun b => by rw [hyb]; exact (hc.2 b).2) hyroom
    have hys : y.straps = straps := by
      rw [← hstraps, ← hy]
      cases p <;> rfl
    have hmode : u.unit.mode ≠ .halted := by
      rw [he, ← hy]
      cases p <;> simp [State.queued, State.restartRest]
    have none : everyRecord.filter x.newMismatch = [] := by
      rw [List.filter_eq_nil_iff]
      intro id _
      simp [State.newMismatch, hc.parityBad id]
    have hrestart : x.unitRestart .requested (fun s => s.send p (replyRecord b1 0x28 .done 0)) = u := by
      unfold State.unitRestart
      dsimp only
      rw [none, hvalues, State.send_of_room hroom, hy, hu, if_neg hmode]
      rfl
    have huwork : u.work = {} := by
      rw [he, ← hy]
      cases p <;> exact hwork
    refine ⟨u, ?_, ?_, fun l r hr => ?_, fun b => ?_⟩
    · rw [exec_restartUnit, event_eq hnot, ← hx]
      refine congrArg _ ((congrArg State.finish (State.request_of_serves hs rfl)).trans ?_)
      rw [hrestart, State.finish_of_idle huwork]
    · have hub : u.bearers = y.bearers := by rw [he]
      conv_lhs => rw [he]
      rw [hys, ← hy, hub]
      cases p <;> simp [State.queued, State.restartRest, ← hy, Messages.powerOn]
    · have key := State.strapLine_restarted (v := y) (l := l) hr
      have hsealed : (y.strapLine l (x.line l).restarted).sealed = y.strapLine l (x.line l).restarted := by
        refine LineRecord.sealed_of_sound ?_ ?_ <;> unfold State.strapLine <;> split
        · split <;> exact (hc.1 l).2
        · exact (hc.1 l).2
        · split <;> exact (hc.1 l).1
        · exact (hc.1 l).1
      have hnow : y.now = x.now := by rw [← hy]; cases p <;> rfl
      have hparam : ∀ q, y.param q = x.param q := fun q => by rw [← hy]; cases p <;> rfl
      rw [hul, hyl, hsealed]
      rw [hys, hnow, hparam] at key
      exact key
    · have hub : u.bearer b = y.bearer b := by rw [he]; rfl
      rw [hub, hyb]
      rfl

/-! ### POWER_ON_RESET -/

theorem exec_powerOnReset_eq (straps : Straps) (s : State) : exec (.powerOnReset straps) s = .next (s.powerOn straps).enterStart.finish := rfl

theorem State.powerOn_bearer (s : State) (straps : Straps) (b : BearerNo) :
    (s.powerOn straps).bearer b = { BearerRecord.powerOn b with stuck := (s.bearer b).stuck }.sealed := by
  simp [State.powerOn, State.bearer]

theorem State.powerOn_stuck (s : State) (straps : Straps) : (s.powerOn straps).stuck = s.stuck := by
  funext id
  cases id with
  | line l => rw [State.stuck, State.powerOn_line]; rfl
  | bearer b => rw [State.stuck, State.powerOn_bearer]; rfl

/-- The strap step on a line at power-on (01, R20). -/
theorem State.strapLine_powerOn (v : State) (l : LineNo) : (v.strapLine l LineRecord.powerOn).sealed =
    if v.straps.getLsbD (l.val / 8) then LineRecord.powerOn else { LineRecord.powerOn with state := .parked .unfitted, inService := false } := by
  unfold State.strapLine fitted
  split <;> rfl

/-- Settles O35: the table check passes, and the straps are read; or it fails, and the unit is halted. -/
theorem powerOnResetEntersStart : Obligations.PowerOnResetEntersStart := by
  intro straps levels s hlevels
  refine ⟨fun hl hb => ?_, fun id hid => ?_⟩
  · have hline : ∀ l : LineNo, (s.powerOn straps).line l = LineRecord.powerOn := fun l => by
      rw [State.powerOn_line, hl l]
      rfl
    obtain ⟨u, hu, he, hul⟩ := State.enterStart_of_sound (s := s.powerOn straps) (fun l => by rw [hline]; rfl)
      (fun b => by rw [State.powerOn_bearer]; exact hb b) (Nat.zero_lt_succ _)
    have hstraps : (s.powerOn straps).straps = levels := hlevels.symm
    have hbearers : (s.powerOn straps).bearers = State.reset.bearers := bearersPowerOn_sealed _ hb
    have hwork : u.work = {} := by rw [he]; rfl
    refine ⟨u, ?_, ?_, fun l => ?_⟩
    · rw [exec_powerOnReset_eq, hu, State.finish_of_idle hwork]
    · conv_lhs => rw [he]
      rw [hstraps, hbearers]
      rfl
    · rw [hul, hline, State.strapLine_powerOn, hstraps]
  · have hfail : State.failedRecord { s.powerOn straps with unit := { (s.powerOn straps).unit with startSteps := true } } = some id := by
      show everyRecord.find? (s.powerOn straps).stuck = _
      rw [State.powerOn_stuck, hid]
    have hstart : (s.powerOn straps).enterStart =
        (State.recordError { s.powerOn straps with unit := { (s.powerOn straps).unit with startSteps := true } } (parityError id)).1.halt
          .tableParity := by
      unfold State.enterStart
      dsimp only
      rw [hfail]
    refine ⟨(s.powerOn straps).enterStart, (exec_powerOnReset_eq straps s).trans (congrArg _ ?_), ?_, ?_, ?_, ?_⟩
    · refine State.finish_of_idle ?_
      rw [hstart]
      exact State.recordError_work _ _
    · rw [hstart]
      rfl
    · rw [hstart]
      exact congrArg (fun n => some ({ error := parityError id, seconds := n } : FirstError)) (Nat.zero_div (sec 1))
    · rw [hstart]
      rfl
    · rw [hstart]
      rfl

end Sys2Proof.Machine
end

section
/-! Settings and status records (07, R126 and R136; 08, R141, R150 and R151). -/

namespace Sys2Proof.Machine

open Sys2Proof

/-! ### Settings -/

/-- A request of a port that serves it, answered at once. -/
theorem event_answered {α : Type} {t : Time} {s x y : State} {p : Port} {b1 k : Byte} {f : Option α} {a : α} {act : State → α → State}
    {r : Record} (hx : x = s.begin t) (hs : x.Serves p) (hf : f = some a) (hact : act x a = y.replyWith p r) (hw : y.work = {})
    (hm : y.messages = x.messages) : event t (fun s => s.request p b1 k f act) s = .next (y.queued p r) := by
  rw [event_eq (State.begin_not_halted hx hs.1), ← hx, State.request_of_serves hs hf, hact]
  exact congrArg _ (State.replyWith_finish hw (hs.room.congr hm) r)

/-- Settles O38: the value or routing written, and the reply. -/
theorem settingsAreWritten : Obligations.SettingsAreWritten := by
  intro t p ident b1 asked s x hx hp hs
  have hwork : x.work = {} := State.work_of_begin hx
  refine ⟨fun q hq => ⟨x.valueWritten q asked.toNat, ?_, fun c hc => ?_⟩,
    fun k hk => ⟨routingWritten k asked.toNat, ?_, ?_, fun r' hr' hne n hn => ?_⟩, ?_, ?_⟩
  · refine (exec_setParam ..).trans (event_answered hx hs (paramOf_value q ident hq) ?_ hwork rfl)
    have hafter : (x.writeParam q (x.valueWritten q asked.toNat)).afterWrite q = x.writeParam q (x.valueWritten q asked.toNat) := by
      have hexpire : (x.writeParam q (x.valueWritten q asked.toNat)).expireQueue = x.writeParam q (x.valueWritten q asked.toNat) := by
        unfold State.expireQueue
        rw [show (x.writeParam q (x.valueWritten q asked.toNat)).waiting = [] from hp.still.1]
        rfl
      cases q
      case waitLimit => exact hexpire
      all_goals rfl
    unfold State.setParam
    dsimp only
    rw [hafter]
    rfl
  · rw [State.valueWritten, clampTo, ← hc]
    cases q <;> simp [State.clampPartner]
  · exact (ErrorKind.nearestRouting_nearest k ⟨min 3 asked.toNat, by omega⟩).1
  · exact (exec_setParam ..).trans (event_answered (y := x.writeRouting k (routingWritten k asked.toNat)) hx hs
      (paramOf_routing k ident hk) rfl hwork rfl)
  · subst hn
    exact (ErrorKind.nearestRouting_nearest k ⟨min 3 asked.toNat, by omega⟩).2 r' hr' hne
  · exact (exec_setRateModeAuto ..).trans (event_answered (y := x.setMode .auto) (a := ()) hx hs rfl rfl hwork rfl)
  · have hcode : Rate.ofCode (byte x.link.rate.code).toNat = some x.link.rate := by cases x.link.rate <;> rfl
    have hcheck : ((x.setMode (.fixed x.link.rate)).setRuns 0 0).fixedCheck = (x.setMode (.fixed x.link.rate)).setRuns 0 0 := by
      unfold State.fixedCheck
      simp only [State.setMode, State.setRuns, Nat.lt_irrefl, if_false, ite_self]
    refine (exec_setRateModeFixed ..).trans (event_answered (y := (x.setMode (.fixed x.link.rate)).setRuns 0 0) hx hs hcode ?_ hwork rfl)
    rw [hcheck]
    rfl

/-! ### Status records -/

/-- A QUERY of an index in range is answered with the record of the state as it stands (08, R150). -/
theorem event_query {α : Type} {t : Time} {s x : State} {p : Port} {index : Byte} {range : Option α} {a : α} {reads : α → List RecordId}
    {answer : State → α → Record} {r : Record} (hx : x = s.begin t) (hc : x.Clean) (hs : x.Serves p) (hf : range = some a)
    (hr : answer x a = r) : event t (fun s => s.query p index range reads answer) s = .next (x.queued p r) := by
  subst hr
  refine event_answered hx hs hf ?_ (State.work_of_begin hx) rfl
  dsimp only
  rw [hc.checkParity]

theorem lineByte_lineOf {index : Byte} {l : LineNo} (h : lineOf index = some l) : lineByte l = index := by
  rw [lineOf] at h
  split at h
  · cases h
    exact BitVec.eq_of_toNat_eq (by simp [lineByte, byte])
  · cases h

theorem bearerByte_bearerOf {index : Byte} {b : BearerNo} (h : bearerOf index = some b) : bearerByte b = index := by
  rw [bearerOf] at h
  split at h
  · cases h
    exact BitVec.eq_of_toNat_eq (by simp [bearerByte, byte])
  · cases h

theorem hiByte_ofNat (n : Nat) : hiByte (BitVec.ofNat 16 n) = byte (n / 256) := by
  apply BitVec.eq_of_toNat_eq
  simp only [hiByte, byte, BitVec.extractLsb'_toNat, BitVec.toNat_ofNat, Nat.shiftRight_eq_div_pow]
  omega

theorem loByte_ofNat (n : Nat) : loByte (BitVec.ofNat 16 n) = byte n := by
  apply BitVec.eq_of_toNat_eq
  simp only [loByte, byte, BitVec.extractLsb'_toNat, BitVec.toNat_ofNat, Nat.shiftRight_zero]
  omega

theorem twoWords_eq (kind b1 : Byte) (m n : Nat) :
    twoWords kind b1 m n = ⟨kind, b1, byte (m / 256), byte m, byte (n / 256), byte n, 0⟩ := by
  simp only [twoWords, hiByte_ofNat, loByte_ofNat]

theorem nibbles_of_lt {hi lo : Nat} (hh : hi < 16) (hl : lo < 16) : nibbles hi lo = byte (16 * hi + lo) := by
  rw [nibbles, Nat.mod_eq_of_lt hh, Nat.mod_eq_of_lt hl]

theorem LineState.code_lt (st : LineState) : st.code < 16 := by cases st <;> simp [LineState.code]

theorem LineState.causeCode_lt (st : LineState) : st.causeCode < 16 := by
  cases st with
  | parked c => cases c <;> decide
  | lockout c => cases c <;> decide
  | testing p => rcases p with - | (_ | _ | _) <;> decide
  | idle | waiting | originating b | ringing b | connected b => exact Nat.zero_lt_succ _

theorem BearerState.code_lt (st : BearerState) : st.code < 16 := by cases st <;> simp [BearerState.code]

theorem BearerState.blockCode_lt (st : BearerState) : st.blockCode < 16 := by
  cases st with
  | unavailable held => cases held <;> decide
  | guarded r e pending => cases pending <;> simp [BearerState.blockCode, bit]
  | blocked o => cases o <;> decide
  | free | heldOut c _ _ | heldIn c | heldMove | active c => exact Nat.zero_lt_succ _

theorem ErrorKind.ofCode_code (k : ErrorKind) : ErrorKind.ofCode k.code = some k := by cases k <;> rfl

theorem byte_outcomeCode (o : Option TestOutcome) : outcomeCode o = (match o with
    | none => 0 | some .good => 1 | some .marginal => 2 | some .faulty => 3 | some .aborted => 4 | some .headTimeout => 5) := by
  rcases o with - | (_ | _ | _ | _ | _) <;> rfl

/-- The number of fitted groups is that of the straps that are set (01, R20). -/
theorem groupCount_eq (mask : BitVec 3) : groupCount mask = ((List.range 3).filter (fun g => mask.getLsbD g)).length := by
  revert mask
  decide

theorem groupCount_lt (mask : BitVec 3) : groupCount mask < 16 := by
  revert mask
  decide

/-- The next-error set as a number whose bits are the set's (08, R150). -/
theorem State.nextMask_eq (s : State) : s.nextMask = BitVec.ofNat 16 (Nat.ofBits fun i : Fin 15 => s.errors.next[i.val]) := by
  have hbit : ∀ b : Bool, b.toNat = bit b := fun b => by cases b <;> rfl
  refine congrArg (BitVec.ofNat 16) ?_
  simp only [Nat.ofBits_succ, Nat.ofBits_zero, hbit, allKinds, List.map_cons, List.map_nil, List.sum_cons, List.sum_nil, State.inNext,
    ErrorKind.index, Function.comp_apply]
  simp
  omega

/-- A word with the bits of the next-error set is the set's (08, R150). -/
theorem State.nextMask_unique {s : State} {set : Word} (hkinds : ∀ k : ErrorKind, set.getLsbD (k.code - 1) = s.inNext k)
    (hlast : set.getLsbD 15 = false) : set = s.nextMask := by
  have hindex : ∀ j : Fin 15, (allKinds[j.val]'(j.isLt)).index = j := by decide
  rw [s.nextMask_eq]
  refine BitVec.eq_of_getLsbD_eq fun i hi => ?_
  rw [BitVec.getLsbD_ofNat, decide_eq_true hi, Bool.true_and]
  rcases Nat.lt_or_ge i 15 with h | h
  · rw [Nat.testBit_ofBits_lt _ i h]
    obtain ⟨k, rfl⟩ : ∃ k : ErrorKind, k.index.val = i := ⟨_, congrArg Fin.val (hindex ⟨i, h⟩)⟩
    exact hkinds k
  · rw [Nat.testBit_ofBits_ge _ i h, show i = 15 by omega]
    exact hlast

/-- Settles O39: each subject's record, byte by byte. -/
theorem queriesAreAnswered : Obligations.QueriesAreAnswered := by
  intro t p index s x answers hx hc hs hanswers
  refine ⟨fun l r code cause outcome hl hr hcodes hout => ?_, fun b st code cause reference hb hst hcodes hreference => ?_,
    fun state bad damaged hold seconds told hstate hhold htold h0 => ?_, fun first second h12 => ?_,
    fun mode plan target hmode hplan h3 => ?_, fun count urgent line cls seconds hcount hurgent hentry => ?_,
    fun h0 => ⟨fun hnone => ?_, fun f seconds hfirst hsec => ?_⟩, fun k hk => ?_, fun frame detail hframe hdetail h16 => ?_,
    fun set hset hlast h17 => ?_, fun value default hvalue => ?_, fun groups cause kind hgroups hcause h0 => ?_⟩
  · refine (hanswers _ _).mpr ((exec_queryLine ..).trans (event_query hx hc hs hl ?_))
    subst hr
    have hcode : (code, cause) = ((x.line l).state.code, (x.line l).state.causeCode) := by
      rw [hcodes]
      rcases (x.line l).state with (_ | _ | _) | _ | _ | _ | _ | _ | (_ | _ | _ | _ | _ | _ | _ | _ | _) | (- | (_ | _ | _)) <;> rfl
    obtain ⟨rfl, rfl⟩ := Prod.mk.inj hcode
    have houtcome : outcome = outcomeCode (x.line l).lastOutcome := by
      rw [hout]
      exact (byte_outcomeCode _).symm
    subst houtcome
    have hflags : (x.line l).flags = byte ((if (x.line l).inService = true then 128 else 0) +
        (if (x.line l).cls = .priority then 64 else 0) + (if (x.line l).loop = .closed then 32 else 0) +
        outcomeCode (x.line l).lastOutcome) := by
      rw [LineRecord.flags]
      cases (x.line l).inService <;> cases (x.line l).cls <;> cases (x.line l).loop <;> rfl
    rw [State.lineStatus, lineByte_lineOf hl, nibbles_of_lt (LineState.code_lt _) (LineState.causeCode_lt _), hflags]
    rfl
  · refine (hanswers _ _).mpr ((exec_queryBearer ..).trans (event_query hx hc hs hb ?_))
    have hcode : (code, cause) = (st.code, st.blockCode) := by
      rw [hcodes]
      rcases st with _ | _ | _ | _ | _ | _ | _ | (_ | _) <;> rfl
    obtain ⟨rfl, rfl⟩ := Prod.mk.inj hcode
    have hflags : st.flags = (st.call?.map (fun c => byte (1 + (if c.direction = .incoming then 128 else 0) +
        if c.cls = .priority then 64 else 0))).getD 0 := by
      rw [BearerState.flags]
      rcases st.call? with - | c
      · rfl
      · rcases c with ⟨line, reference, direction, cls, target⟩
        cases direction <;> cases cls <;> rfl
    rw [State.bearerStatus, bearerByte_bearerOf hb, ← hst, ← hflags, nibbles_of_lt (BearerState.code_lt _) (BearerState.blockCode_lt _),
      lineByteOr, Option.map_map, hreference]
    rfl
  · refine (hanswers _ _).mpr ((exec_queryLink ..).trans (event_query hx hc hs (if_pos (by rw [h0]; decide)) ?_))
    subst h0
    have hcode : (state, bad, damaged) = (x.link.state.code, x.link.state.counts.1, x.link.state.counts.2) := by
      rw [hstate]
      rcases x.link.state with _ | _ | _ | _ <;> rfl
    obtain ⟨rfl, hcounts⟩ := Prod.mk.inj hcode
    obtain ⟨rfl, rfl⟩ := Prod.mk.inj hcounts
    have hleft : (hold, seconds) = (32 * bit x.link.state.hold?.isSome, x.holdSeconds) := by
      rw [hhold, State.holdSeconds]
      rcases x.link.state.hold? with _ | _ <;> rfl
    obtain ⟨rfl, rfl⟩ := Prod.mk.inj hleft
    have hannounced : byte told = announcementByte x.link.announcement := by
      rw [htold]
      rcases x.link.announcement with _ | _ <;> rfl
    rw [State.linkStatus, if_pos rfl, hannounced]
    rfl
  · rcases h12 with ⟨rfl, rfl, rfl⟩ | ⟨rfl, rfl, rfl⟩
    · refine (hanswers _ _).mpr ((exec_queryLink ..).trans (event_query hx hc hs (if_pos (by decide)) ?_))
      exact twoWords_eq ..
    · refine (hanswers _ _).mpr ((exec_queryLink ..).trans (event_query hx hc hs (if_pos (by decide)) ?_))
      exact twoWords_eq ..
  · refine (hanswers _ _).mpr ((exec_queryLink ..).trans (event_query hx hc hs (if_pos (by rw [h3]; decide)) ?_))
    subst h3
    have hmodeByte : byte mode = x.quality.mode.byte := by
      rw [hmode]
      rcases x.quality.mode with _ | _ <;> rfl
    have hplanByte : byte plan = planByte x.quality.plan ∧ byte target = x.linkStatus3.b6 := by
      rw [State.linkStatus3]
      rcases h : x.quality.plan with _ | ⟨target', forced, phase⟩
      · rw [h] at hplan
        obtain ⟨rfl, rfl⟩ := Prod.mk.inj hplan
        exact ⟨rfl, rfl⟩
      · rw [h] at hplan
        obtain ⟨rfl, rfl⟩ := Prod.mk.inj hplan
        cases forced <;> cases phase <;> exact ⟨rfl, rfl⟩
    rw [hmodeByte, hplanByte.1, hplanByte.2]
    rfl
  · refine (hanswers _ _).mpr ((exec_queryQueue ..).trans (event_query hx hc hs rfl ?_))
    have hfilter : x.waiting.filter (fun e => e.cls == .priority) = x.waiting.filter (fun e => decide (e.cls = .priority)) := rfl
    rw [State.queueStatus, hfilter, ← hcount, ← hurgent]
    rcases h : x.waiting[index.toNat]? with _ | ⟨line', cls', joined⟩
    · rw [h] at hentry
      obtain ⟨rfl, hrest⟩ := Prod.mk.inj hentry
      obtain ⟨rfl, rfl⟩ := Prod.mk.inj hrest
      rfl
    · rw [h] at hentry
      obtain ⟨rfl, hrest⟩ := Prod.mk.inj hentry
      obtain ⟨rfl, rfl⟩ := Prod.mk.inj hrest
      cases cls' <;> rfl
  · refine (hanswers _ _).mpr ((exec_queryErrors ..).trans (event_query hx hc hs (if_pos (by rw [h0]; decide)) ?_))
    subst h0
    rw [State.errorReport, show ErrorKind.ofCode (0 : Byte).toNat = none from rfl]
    simp only [State.errorReportFirst, hnone]
    rfl
  · refine (hanswers _ _).mpr ((exec_queryErrors ..).trans (event_query hx hc hs (if_pos (by rw [h0]; decide)) ?_))
    subst h0
    rw [State.errorReport, show ErrorKind.ofCode (0 : Byte).toNat = none from rfl]
    simp only [State.errorReportFirst, hfirst, hiByte_ofNat, loByte_ofNat, ← hsec]
    rfl
  · have hcode : k.code ≤ 17 := by cases k <;> decide
    refine (hanswers _ _).mpr ((exec_queryErrors ..).trans (event_query hx hc hs (if_pos (hk ▸ hcode)) ?_))
    have hindex : byte k.code = index := by
      rw [← hk]
      exact BitVec.ofNat_toNat ..
    rw [State.errorReport, hk, ErrorKind.ofCode_code]
    dsimp only
    unfold State.errorReportKind
    rw [hindex]
    cases x.routing k <;> cases x.isFirst k <;> cases x.inNext k <;> rfl
  · refine (hanswers _ _).mpr ((exec_queryErrors ..).trans (event_query hx hc hs (if_pos (by rw [h16]; decide)) ?_))
    subst h16 hframe hdetail
    rw [show x.errorReport 16 = x.errorReportDetail from rfl]
    unfold State.errorReportDetail
    dsimp only
    rcases x.errors.first.bind (fun f => f.error.frame) with _ | frame <;>
      rcases x.errors.first.bind (fun f => f.error.detail) with _ | detail <;> rfl
  · refine (hanswers _ _).mpr ((exec_queryErrors ..).trans (event_query hx hc hs (if_pos (by rw [h17]; decide)) ?_))
    subst h17
    rw [State.nextMask_unique hset hlast]
    rfl
  · rcases hvalue with ⟨q, hq, rfl, rfl⟩ | ⟨k, hk, rfl, rfl⟩
    · refine (hanswers _ _).mpr ((exec_queryParam ..).trans (event_query hx hc hs (paramOf_value q index hq) ?_))
      exact twoWords_eq ..
    · refine (hanswers _ _).mpr ((exec_queryParam ..).trans (event_query hx hc hs (paramOf_routing k index hk) ?_))
      exact twoWords_eq ..
  · refine (hanswers _ _).mpr ((exec_queryUnit ..).trans (event_query hx hc hs (if_pos (by rw [h0]; decide)) ?_))
    have hcode : (cause, kind) = (x.unit.cause.code, x.unit.cause.kindCode) := by
      rw [hcause]
      rcases x.unit.cause with _ | _ | _ <;> rfl
    obtain ⟨rfl, rfl⟩ := Prod.mk.inj hcode
    have hkind : x.unit.cause.kindCode < 16 := by
      rcases x.unit.cause with _ | _ | k
      · decide
      · decide
      · cases k <;> decide
    have hsupply : x.ring.supply.code < 16 := by cases x.ring.supply <;> decide
    rw [State.unitReport, State.unitReportWith, nibbles_of_lt (groupCount_lt _) (by omega), nibbles_of_lt hkind hsupply,
      groupCount_eq, ← hgroups, hs.1]
    cases x.ring.supply <;> cases x.testing.inService <;> rfl

/-! ### The local port (08, R144 and R145) -/

theorem exec_byteCompleted (t b) (s : State) : exec (.byteCompleted t b) s = event t (fun s => s.takeByte b) s := rfl
theorem exec_stopBitError (t) (s : State) : exec (.stopBitError t) s = event t State.takeStopBitError s := rfl
theorem exec_framingTimeout (t) (s : State) : exec (.framingTimeout t) s = event t State.takeFramingTimeout s := rfl
theorem exec_localTransmit (t) (s : State) : exec (.localTransmit t) s = anyEvent t State.transmitLocal s := rfl

theorem State.gapOver_iff {s : State} {last : Time} : s.gapOver last = true ↔ last + ms 20 < s.now := decide_eq_true_iff

/-- A partial record abandoned, with MSG_FRAMING counted or reported (08, R144). -/
theorem event_abandons {t : Time} {s x : State} {body : State → State} {bytes : List Byte} (hx : x = s.begin t) (hs : x.Sound)
    (hbody : body x = x.abandonPartial bytes) : event t body s = .next (x.abandonPartial bytes) := by
  rw [event_eq (State.begin_not_halted hx hs.service), ← hx, hbody]
  exact congrArg _ (State.raise_finish (x := x.setAssembler .hunting) (State.work_of_begin (x := x) hx) (hs.errors.congr rfl) _
    (hs.errors.quiet .msgFraming rfl))

/-- The eighth byte hands the record on, to be judged as a whole one (08, R142 and R144). -/
theorem State.appendByte_eighth (x : State) (r : Record) (b : Byte) : x.appendByte (recordBytes r) b =
    if checkByte (recordBytes r) = b then (x.setAssembler .hunting).receive .localPort r
    else (x.setAssembler .hunting).takeMismatch .localPort r.kind := rfl

/-- Settles O40: the assembler by its state, and the transmitter. -/
theorem localPortMovesItsRecords : Obligations.LocalPortMovesItsRecords := by
  refine ⟨fun t b s x y hx hs hy => ⟨fun hhunt => ⟨?_, ?_, ?_⟩, fun bytes last hcol => ⟨?_, fun hgap => ?_, fun hgap =>
    ⟨?_, fun hlen => ?_, fun r hr z hz => ?_⟩⟩⟩, fun t s x hx => ⟨fun y hy hbusy => ?_, fun hfree => ⟨fun r rest hq => ?_, fun hq => ?_⟩⟩⟩
  all_goals have hwork : x.work = {} := State.work_of_begin hx
  · exact (exec_stopBitError ..).trans (event_of_idle hx hs.service (by rw [State.takeStopBitError, hhunt]) hwork)
  · exact (exec_framingTimeout ..).trans (event_of_idle hx hs.service (by rw [State.takeFramingTimeout, hhunt]) hwork)
  · refine (exec_byteCompleted ..).trans (event_of_idle hx hs.service (by rw [State.takeByte, hhunt]; rfl) ?_)
    split <;> exact hwork
  · subst hy
    exact (exec_stopBitError ..).trans (event_abandons hx hs (by rw [State.takeStopBitError, hcol]))
  · subst hy
    refine (exec_framingTimeout ..).trans (event_abandons hx hs ?_)
    rw [State.takeFramingTimeout, hcol]
    exact if_pos (State.gapOver_iff.mpr hgap)
  · have hin : ¬ x.gapOver last = true := fun h => Nat.not_lt.mpr hgap (State.gapOver_iff.mp h)
    refine (exec_framingTimeout ..).trans (event_of_idle hx hs.service ?_ hwork)
    rw [State.takeFramingTimeout, hcol]
    exact if_neg hin
  · have hin : ¬ x.gapOver last = true := fun h => Nat.not_lt.mpr hgap (State.gapOver_iff.mp h)
    refine (exec_byteCompleted ..).trans (event_of_idle hx hs.service ?_ hwork)
    rw [State.takeByte, hcol]
    exact (if_neg hin).trans (if_neg (Nat.not_le.mpr hlen))
  · have hin : ¬ x.gapOver last = true := fun h => Nat.not_lt.mpr hgap (State.gapOver_iff.mp h)
    have hnot := State.begin_not_halted hx hs.service
    have hbegin : z.begin t = x.setAssembler .hunting := by rw [hz, hx]; rfl
    have hnotz : z.unit.mode ≠ .halted := by rw [hz]; exact hnot
    have hbody : x.takeByte b = x.appendByte bytes b := by
      rw [State.takeByte, hcol]
      exact if_neg hin
    rw [exec_byteCompleted, exec_notListedKind, exec_checkByteMismatch, event_eq hnot, event_eq hnotz, event_eq hnotz, ← hx, hbegin, hbody,
      hr, State.appendByte_eighth]
    split <;> rfl
  · have hline : x.lineFree = false := by
      rw [State.lineFree, hy]
      exact State.due_of_lt hbusy
    rw [exec_localTransmit, anyEvent, ← hx, State.transmitLocal, hline]
    exact congrArg _ (State.finish_of_idle hwork)
  all_goals
    have hline : x.lineFree = true := by
      rw [State.lineFree]
      rcases h : x.messages.sending with _ | y
      · rfl
      · exact State.due_of_le (hfree y h)
  · rw [exec_localTransmit, anyEvent, ← hx, State.transmitLocal, if_pos hline, hq]
    exact congrArg _ (State.finish_of_idle hwork)
  · rw [exec_localTransmit, anyEvent, ← hx, State.transmitLocal, if_pos hline, hq]
    exact congrArg _ (State.finish_of_idle hwork)

end Sys2Proof.Machine
end

section
/-! The judgement of an audit record (08, R143; 09, R153 to R155). -/

namespace Sys2Proof.Machine

open Sys2Proof

theorem exec_auditRecord (t a) (s : State) : exec (.auditRecord t a) s = event t (fun s => s.takeAudit a) s := rfl

theorem viewOf_none {v : Byte} (h : 4 ≤ v.toNat) : viewOf v = none := by
  have hne : ∀ w : Byte, w.toNat < 4 → v ≠ w := fun w hw e => by
    subst e
    omega
  rw [viewOf, if_neg (hne 0 (by decide)), if_neg (hne 1 (by decide)), if_neg (hne 2 (by decide)), if_neg (hne 3 (by decide))]

theorem auditLineOk_iff {line : Byte} : auditLineOk line = true ↔ line = 0xFF ∨ line.toNat < 24 := by
  rw [auditLineOk, lineOf, Bool.or_eq_true, beq_iff_eq]
  split <;> simp [*]

theorem bearerOf_lt {i : Byte} (h : i.toNat < 8) : bearerOf i = some ⟨i.toNat, h⟩ := dif_pos h

theorem State.takeAudit_empty {x : State} {a : AuditSlot} (h : a.index = 0xFF) : x.takeAudit a = x := by
  rw [State.takeAudit, if_pos h, ite_self]

section
variable {x : State} (hm : x.unit.mode = .service) (hu : x.isUp = true) (a : AuditSlot)
include hm hu

/-- A record of another bad index is an error, and its quality is not taken (08, R143, step 2). -/
theorem State.takeAudit_bad_index (h : a.index ≠ 0xFF) (hi : 8 ≤ a.index.toNat) :
    x.takeAudit a = x.recordFault .msgFormat .linkAudit a.index := by
  rw [State.takeAudit, if_pos (by rw [hu, State.inService, hm]; rfl), if_neg h, bearerOf_none hi]

/-- A record with a bad view or a bad line is an error after its quality is taken (08, R143, step 3). -/
theorem State.takeAudit_bad_field {b : BearerNo} (hb : bearerOf a.index = some b) (h : viewOf a.view = none ∨ auditLineOk a.line = false) :
    x.takeAudit a = (x.takeQuality a.quality).recordFault .msgFormat .linkAudit a.index := by
  rw [State.takeAudit, if_pos (by rw [hu, State.inService, hm]; rfl), if_neg (bearerOf_ne_none_index hb), hb]
  dsimp only
  rcases h with h | h
  · rw [h]
  · rw [h]
    split <;> rfl

/-- A record whose fields are good is compared where the bearer is (09, R154). -/
theorem State.takeAudit_good {b : BearerNo} {far : View} (hc : x.Clean) (hb : bearerOf a.index = some b) (hf : viewOf a.view = some far)
    (hl : auditLineOk a.line = true) : x.takeAudit a =
      if (x.takeQuality a.quality).compared b then (x.takeQuality a.quality).compare b far a.reference else x.takeQuality a.quality := by
  have hread : (x.takeQuality a.quality).checkParity [.bearer b] = x.takeQuality a.quality := State.Clean.checkParity (s := x.takeQuality a.quality) hc _
  rw [State.takeAudit, if_pos (by rw [hu, State.inService, hm]; rfl), if_neg (bearerOf_ne_none_index hb), hb]
  dsimp only
  rw [hf]
  dsimp only
  rw [if_pos hl, hread]

end

/-- MSG_FORMAT is counted or reported, and leaves nothing to do. -/
theorem State.Plain.raise_msgFormat {y : State} (hy : y.Plain) (hw : y.work = {}) (e : ErrorEvent) (he : e.kind = .msgFormat) :
    (y.raise e).finish = y.raise e :=
  State.raise_finish hw hy.errors e (he ▸ hy.errors.quiet .msgFormat rfl)

/-! ### The table of R155 -/

section
variable {st : BearerState} {far : View} {reference : Word}

theorem BearerState.judge_agreement (h : ((st.view = .idle ∨ st.view = .unavailable) ∧ (far = .idle ∨ far = .unavailable)) ∨
    (st.view = .busy ∧ far = .busy ∧ st.reference? = some reference) ∨ (st.view = .blocked ∧ far = .blocked)) :
    st.judge far reference = .agreement := by
  unfold BearerState.judge
  rcases h with ⟨hview | hview, rfl | rfl⟩ | ⟨hview, hbusy⟩ | ⟨hview, rfl⟩ <;> rw [hview]
  case inr.inl => exact if_pos hbusy
  all_goals rfl

theorem BearerState.judge_disagreement (h : ((st.view = .idle ∨ st.view = .unavailable) ∧ (far = .busy ∨ far = .blocked)) ∨
    (st.view = .busy ∧ ¬ (st.view = .busy ∧ far = .busy ∧ st.reference? = some reference))) :
    st.judge far reference = .disagreement := by
  unfold BearerState.judge
  rcases h with ⟨hview | hview, rfl | rfl⟩ | ⟨hview, hne⟩
  case inr =>
    rw [hview]
    exact if_neg fun hb => hne ⟨hview, hb⟩
  all_goals rw [hview]; rfl

/-- A bearer blocked for maintenance is never in disagreement. -/
theorem BearerState.judge_maintenance : (BearerState.blocked .maintenance).judge far reference = .agreement ∨
    (BearerState.blocked .maintenance).judge far reference = .held := by
  cases far
  all_goals simp [BearerState.judge, BearerState.view]

theorem BearerState.judge_lift (h : far ≠ .blocked) : (BearerState.blocked .far).judge far reference = .lift := by
  simp [BearerState.judge, BearerState.view, h]

end

/-- Settles O42, by the fields of the record and the judgement. -/
theorem auditRecordIsJudged : Obligations.AuditRecordIsJudged := by
  intro t a s x y hx hp hu hy
  have hwork : x.work = {} := State.work_of_begin hx
  have hworkY : y.work = {} := by rw [hy]; exact hwork
  have hpy : y.Plain := by rw [hy]; exact ⟨hp.service, hp.clean, hp.errors, hp.still⟩
  have judged : ∀ v, x.takeAudit a = v → exec (.auditRecord t a) s = .next v.finish := fun v hv => by
    rw [exec_auditRecord, event_eq (State.begin_not_halted hx hp.service), ← hx, hv]
  refine ⟨fun hi => ?_, fun e he => ⟨fun hne hi => ?_, fun hi hbad => ?_⟩, fun b far hb hf hl => ?_⟩
  · exact (judged _ (State.takeAudit_empty hi)).trans (congrArg _ (State.finish_of_idle hwork))
  · refine (judged _ (State.takeAudit_bad_index hp.service hu a hne hi)).trans ?_
    rw [he]
    exact congrArg _ (hp.raise_msgFormat hwork _ rfl)
  · refine (judged _ (State.takeAudit_bad_field hp.service hu a (bearerOf_lt hi) ?_)).trans ?_
    · rcases hbad with h | ⟨h1, h2⟩
      · exact .inl (viewOf_none h)
      · refine .inr (Bool.eq_false_iff.mpr fun h => ?_)
        rcases auditLineOk_iff.mp h with h | h
        · exact h1 h
        · omega
    · rw [he, show x.takeQuality a.quality = y from hy.symm,
        show (y.recordFault .msgFormat .linkAudit a.index) = y.raise { kind := .msgFormat, frame := x.coder.lastGoodNumber, detail := some (toWord 2 a.index) } by
          rw [hy]; rfl]
      exact congrArg _ (hpy.raise_msgFormat hworkY _ rfl)
  · have hgood := State.takeAudit_good hp.service hu a hp.clean hb hf (auditLineOk_iff.mpr hl)
    rw [show x.takeQuality a.quality = y from hy.symm] at hgood
    have hbearer : y.bearer b = x.bearer b := by rw [hy]; rfl
    have hnow : y.now = x.now := by rw [hy]
    have near : y.Near y := .refl hworkY
    refine ⟨fun hout => ?_, fun hmove hold rest busy hrest hbusy => ?_⟩
    · have hno : y.compared b = false := by
        rw [State.compared, hbearer, hnow]
        rcases hout with h | h
        · rw [h]
          rfl
        · rw [decide_eq_false (p := (x.bearer b).entered + settleTime ≤ x.now) (Nat.not_le.mpr h), Bool.and_false]
      rw [hno] at hgood
      exact (judged _ hgood).trans (congrArg _ (State.finish_of_idle hworkY))
    · have hyes : y.compared b = true := by
        rw [State.compared, hbearer, hnow, decide_eq_true (p := (x.bearer b).entered + settleTime ≤ x.now) hold, Bool.and_true]
        exact bne_iff_ne.mpr hmove
      rw [hyes, if_pos rfl] at hgood
      have compared : ∀ {z u : State}, y.compare b far a.reference = z → z.Near u → u.Plain →
          exec (.auditRecord t a) s = .next u :=
        fun hz hn hpu => (judged _ (hgood.trans hz)).trans (congrArg _ (hn.finish hpu.clean hpu.still))
      have setTo : ∀ n, (y.setDisagreements b n).Near (y.withBearer b { x.bearer b with disagreements := n }) := fun n =>
        hbearer ▸ near.setDis hpy.clean b n
      have plainTo : ∀ n, (y.withBearer b { x.bearer b with disagreements := n }).Plain := fun n =>
        ⟨hpy.service, hpy.clean.withBearer b (hp.clean.2 b).2 (hp.clean.2 b).1, hpy.errors, hpy.still⟩
      refine ⟨fun hag => ?_, fun hfar hne => ?_, fun hdis hzero => ?_⟩
      · refine compared ?_ (setTo 0) (plainTo 0)
        have hjudge : (x.bearer b).state.judge far a.reference = .agreement ∨ (x.bearer b).state.judge far a.reference = .held := by
          subst hrest hbusy
          rcases hag with h | h | h | h
          · exact .inl (BearerState.judge_agreement (.inl h))
          · exact .inl (BearerState.judge_agreement (.inr (.inl h)))
          · exact .inl (BearerState.judge_agreement (.inr (.inr h)))
          · rw [h]
            exact BearerState.judge_maintenance
        rw [State.compare, hbearer]
        rcases hjudge with h | h <;> rw [h]
      · refine compared ?_ (near.putBearer hpy.clean b .free) (hpy.bearerTo b _)
        rw [State.compare, hbearer, hfar, BearerState.judge_lift hne]
      · refine compared ?_ (setTo 1) (plainTo 1)
        rw [State.compare, hbearer, BearerState.judge_disagreement]
        · dsimp only
          rw [hzero]
          rfl
        · subst hrest hbusy
          exact hdis

/-! ### LINK_CONTROL where no call is torn down (06, R117 and R118) -/

theorem exec_linkFailure (t) (s : State) : exec (.linkFailure t) s = event t (fun s => if s.holdDue then s.failLink else s) s := rfl

/-- A request answered in a state that leaves nothing to do, on a port with room for the reply there. -/
theorem event_replied {α : Type} {t : Time} {s x y : State} {p : Port} {b1 k : Byte} {f : Option α} {a : α} {act : State → α → State}
    {r : Record} (hx : x = s.begin t) (hs : x.Serves p) (hf : f = some a) (hact : act x a = y.replyWith p r) (hw : y.work = {})
    (hq : y.HasRoom p) : event t (fun s => s.request p b1 k f act) s = .next (y.queued p r) := by
  rw [event_eq (State.begin_not_halted hx hs.1), ← hx, State.request_of_serves hs hf, hact]
  exact congrArg _ (State.replyWith_finish hw hq r)

/-- Settles O48: the answer by the link state, and the hold timer before its expiry. -/
theorem linkControlIsAnswered : Obligations.LinkControlIsAnswered := by
  intro t p b1 s x y hx hm hy
  have hwork : x.work = {} := State.work_of_begin hx
  refine ⟨fun hs hdis hroom => ?_, fun hs hne => ?_, fun hs hdis => ⟨?_, ?_⟩, fun hhold => ?_⟩
  · have hhunt : x.beginHunt = y := by
      rw [hy]
      rfl
    have hlocal : y.messages.localQueue.length < 15 := by rw [hy]; exact hroom
    have hsent : x.enableLink = y.queued .localPort (y.linkStateRecord .enabled) := by
      rw [State.enableLink, hdis]
      dsimp only
      rw [hhunt]
      exact State.send_localPort_of_room _ (by omega)
    refine (exec_linkControlEnable ..).trans (event_replied hx hs rfl (congrArg (fun z => z.replyWith p (replyRecord b1 0x27 .done 0)) hsent) ?_ ?_)
    · rw [hy]
      exact hwork
    · cases p with
      | link =>
        have hlink : x.HasRoom .link := hs.room
        rw [hy]
        exact hlink
      | localPort =>
        show (y.messages.localQueue ++ [y.linkStateRecord .enabled]).length < 16
        rw [List.length_append, List.length_singleton]
        omega
  · have hsame : x.enableLink = x := by
      rw [State.enableLink]
      cases h : x.link.state with
      | disabled => exact absurd h hne
      | hunt e | verify e ts | up bad damaged => rfl
    exact (exec_linkControlEnable ..).trans (event_answered hx hs rfl (congrArg (fun z => z.replyWith p (replyRecord b1 0x27 .done 0)) hsame) hwork rfl)
  · have hsame : x.disableLink = x := by rw [State.disableLink, hdis]
    exact (exec_linkControlDisable ..).trans (event_answered hx hs rfl (congrArg (fun z => z.replyWith p (replyRecord b1 0x27 .done 0)) hsame) hwork rfl)
  · exact (exec_linkControlRestart ..).trans (event_answered hx hs rfl (if_pos hdis) hwork rfl)
  · have hnot : x.holdDue = false := by
      rw [State.holdDue]
      cases h : x.link.state.hold? with
      | none => rfl
      | some expiry => exact State.due_of_lt (hhold expiry h)
    refine (exec_linkFailure ..).trans (event_of_idle hx hm ?_ hwork)
    rw [hnot]
    rfl

end Sys2Proof.Machine
end

section
/-! The Test Sequencer: requests, the choice of a line, the measurement, the head timeout and the aborts (10). -/

namespace Sys2Proof.Machine

open Sys2Proof

/-! ### TEST_LINE (10, R164) -/

/-- A line of a state that TEST_LINE may not name. -/
theorem LineState.listable_false {st : LineState} (hi : st ≠ .idle) (hp : ∀ c, st ≠ .parked c) : st.listable = false := by
  cases st with
  | idle => exact absurd rfl hi
  | parked c => exact absurd rfl (hp c)
  | waiting | originating b | ringing b | connected b | lockout c | testing p => rfl

/-- A line that may be listed and is fitted may be tested. -/
theorem LineState.testable_of_listable {st : LineState} (hl : st.listable = true) (hu : st ≠ .parked .unfitted) : st.testable = true := by
  cases st with
  | parked c =>
    cases c with
    | unfitted => exact absurd rfl hu
    | outOfService | fault => rfl
  | idle => rfl
  | waiting | originating b | ringing b | connected b | lockout c | testing p => cases hl

theorem LineState.listable_true {st : LineState} (h : st = .idle ∨ ∃ c, st = .parked c) : st.listable = true := by
  rcases h with rfl | ⟨c, rfl⟩ <;> rfl

section
variable {x : State} {l : LineNo}

theorem State.testRefusal_unfitted (h : (x.line l).state = .parked .unfitted) : x.testRefusal l = some .unfitted := if_pos h

theorem State.testRefusal_headOut (h : (x.line l).state ≠ .parked .unfitted) (hi : x.testing.inService = false) :
    x.testRefusal l = some .headOut := by
  rw [State.testRefusal, if_neg h, hi]
  rfl

variable (hne : (x.line l).state ≠ .parked .unfitted) (hin : x.testing.inService = true)
include hne hin

theorem State.testRefusal_of_fitted : x.testRefusal l = if !(x.line l).state.listable then some .busy
    else if x.testing.demand.any (fun e => e.line == l) then some .duplicate
    else if Config.demandCapacity ≤ x.testing.demand.length then some .listFull else none := by
  rw [State.testRefusal, if_neg hne, hin]
  rfl

theorem State.testRefusal_duplicate (hl : (x.line l).state.listable = true) (h : ∃ e ∈ x.testing.demand, e.line = l) :
    x.testRefusal l = some .duplicate := by
  have hany : x.testing.demand.any (fun e => e.line == l) = true := by simpa using h
  rw [State.testRefusal_of_fitted hne hin, hl, hany]
  rfl

theorem State.testRefusal_unlisted (hl : (x.line l).state.listable = true) (h : ∀ e ∈ x.testing.demand, e.line ≠ l) :
    x.testRefusal l = if Config.demandCapacity ≤ x.testing.demand.length then some .listFull else none := by
  have hany : x.testing.demand.any (fun e => e.line == l) = false := by simpa using h
  rw [State.testRefusal_of_fitted hne hin, hl, hany]
  rfl

end

/-- A list of tests to choose from that starts none. -/
theorem State.chooseTest_withWork {u : State} (hc : u.Clean) (h : u.NoTest) (w : Work) : (u.withWork w).chooseTest = u.withWork w :=
  State.chooseTest_of_noTest (s := u.withWork w) hc h

/-- The state in which a test has been started (10, R165). -/
def State.started (u : State) (l : LineNo) (k : TestKind) : State :=
  { u with testing := { u.testing with test := some { line := l, kind := k, phase := .settling, timer := u.now + ms 200 } } }.lineTo l
    (.testing (u.line l).state.park?)

section
variable {u : State} (hc : u.Clean) (hm : u.unit.mode = .service) (hin : u.testing.inService = true) (htest : u.testing.test = none)
  {l : LineNo}
include hc hm hin htest

/-- The one listed line is tested, and leaves the list (10, R163, step 1). -/
theorem State.chooseTest_listed {p : Port} (hd : u.testing.demand = [{ line := l, port := p }]) (ht : (u.line l).state.testable = true) :
    u.chooseTest = State.started { u with testing := { u.testing with demand := [] } } l (.demand p) := by
  rw [State.chooseTest, if_pos (by rw [State.inService, hm, hin, htest]; rfl), hd, serveDemand_of_testable hc ht]
  exact State.startTest_of_clean (u := { u with testing := { u.testing with demand := [] } }) hc l (.demand p)

/-- With nothing listed the sweep tests the line it chooses (10, R163, step 2). -/
theorem State.chooseTest_sweep (hd : u.testing.demand = []) (hs : u.ring.supply ≠ .reserve) (hl : u.sweepChoice = some l) :
    u.chooseTest = u.started l .routine := by
  have hsupply : ¬ (u.ring.supply == .reserve) = true := by simpa using hs
  rw [State.chooseTest, if_pos (by rw [State.inService, hm, hin, htest]; rfl), hd]
  dsimp only [serveDemand]
  rw [if_neg Bool.false_ne_true, if_neg hsupply, hc.checkParity, hl]
  exact State.startTest_of_clean hc l .routine

end

/-- Settles O44, by the checks in their order. -/
theorem testRequestsAreJudged : Obligations.TestRequestsAreJudged := by
  intro t p line l s x hx hsound hwait hplan hs hl answer hanswer
  have hwork : x.work = {} := State.work_of_begin hx
  have refused : ∀ c, x.testRefusal l = some c → exec (.testLine t p line) s = .next (x.queued p (answer (.refused c))) := by
    intro c hc
    refine (exec_testLine ..).trans (event_answered hx hs hl ?_ hwork rfl)
    rw [State.testLine, hsound.clean.checkParity]
    dsimp only
    rw [hc, hanswer]
    rfl
  have listed : ∀ u v : State, u = { x with testing := { x.testing with demand := x.testing.demand ++ [{ line := l, port := p }] } } →
      v.work = {} → v.messages = x.messages → x.testRefusal l = none → (∀ w, (u.withWork w).chooseTest = v.withWork w) →
      exec (.testLine t p line) s = .next (v.queued p (answer .done)) := by
    intro u v hu hv hm hnone hchoose
    have hbody : x.testLine p line l = u.callChoice.replyWith p (answer .done) := by
      rw [State.testLine, hsound.clean.checkParity]
      dsimp only
      rw [hnone, hanswer, hu]
      rfl
    rw [exec_testLine, event_eq (State.begin_not_halted hx hs.1), ← hx]
    unfold State.takeTestLine
    rw [State.request_of_serves hs hl, hbody]
    exact congrArg _ ((State.round_of_choice (u := u) (v := v) (by rw [hu]; exact hwork) hv hchoose).2 p _ (hs.room.congr hm))
  refine ⟨fun h => refused _ (State.testRefusal_unfitted h), fun h hout => refused _ (State.testRefusal_headOut h hout),
    fun hne hin => ⟨fun hi hp => refused _ ?_, fun hlist => ⟨fun hdup => ?_, fun hfresh hfull => ?_, fun hfresh hroom htest => ?_,
      fun hempty htest => ?_⟩⟩⟩
  · rw [State.testRefusal_of_fitted hne hin, LineState.listable_false hi hp]
    rfl
  · exact refused _ (State.testRefusal_duplicate hne hin (LineState.listable_true hlist) hdup)
  · refine refused _ ?_
    rw [State.testRefusal_unlisted hne hin (LineState.listable_true hlist) hfresh]
    exact if_pos hfull
  · refine listed _ _ rfl hwork rfl ?_ (State.chooseTest_withWork hsound.clean (.inr (.inr (.inl htest))))
    rw [State.testRefusal_unlisted hne hin (LineState.listable_true hlist) hfresh]
    exact if_neg (Nat.not_le.mpr hroom)
  · have htestable := LineState.testable_of_listable (LineState.listable_true hlist) hne
    refine listed _ _ rfl hwork rfl ?_ fun w => ?_
    · rw [State.testRefusal_unlisted hne hin (LineState.listable_true hlist) (by rw [hempty]; exact List.forall_mem_nil _), hempty]
      rfl
    · refine (State.chooseTest_listed (l := l) (p := p) (u := State.withWork { x with testing := { x.testing with
        demand := x.testing.demand ++ [{ line := l, port := p }] } } w) hsound.clean hs.1 hin htest ?_ htestable).trans ?_
      · rw [State.withWork_testing, hempty]
        rfl
      · rw [← hempty]
        rfl

/-! ### The choice of a line and the settle end (10, R163, R165 and R168) -/

theorem exec_testDue (t l) (s : State) : exec (.testDue t l) s = event t (fun s => s.takeTestDue l) s := rfl
theorem exec_settleEnd (t) (s : State) : exec (.settleEnd t) s = event t State.takeSettleEnd s := rfl

theorem allLines_sorted : allLines.Pairwise (· < ·) := by decide

/-- The sweep chooses the eligible line with the earliest due time, the lower number of two (10, R163, step 2). -/
theorem State.sweepChoice_eq {x : State} {l : LineNo} (hl : x.eligible l = true)
    (hmin : ∀ k, k ≠ l → x.eligible k = true →
      (x.line l).testDue < (x.line k).testDue ∨ ((x.line l).testDue = (x.line k).testDue ∧ l < k)) : x.sweepChoice = some l :=
  x.sweepChoice_fold (allLines.filter x.eligible) l (List.mem_filter.mpr ⟨allLines_mem l, hl⟩)
    (allLines_sorted.filter _)
    (fun k hk hne => hmin k hne (List.mem_filter.mp hk).2) none (.inl rfl)

/-- Settles O45: RESUME_TESTS, the sweep, and the settle end. -/
theorem testsAreStarted : Obligations.TestsAreStarted := by
  intro t p b1 l s x hx hsound hwait hplan
  have hwork : x.work = {} := State.work_of_begin hx
  refine ⟨fun hs hempty hnone => ?_, fun hearly => ?_, fun hin htest hempty hsupply hl hdue hmin => ?_, fun r hr => ⟨fun hphase hdue => ?_, fun hwait => ?_⟩⟩
  · have hchoose := State.chooseTest_withWork (u := { x with testing := { x.testing with inService := true, timeoutRun := 0 } }) hsound.clean
      (.inr (.inr (.inr ⟨hempty, hnone⟩)))
    rw [exec_resumeTests, event_eq (State.begin_not_halted hx hs.1), ← hx]
    unfold State.takeResumeTests
    rw [State.request_of_serves hs rfl]
    exact congrArg _ ((State.round_of_choice (u := { x with testing := { x.testing with inService := true, timeoutRun := 0 } })
      (v := { x with testing := { x.testing with inService := true, timeoutRun := 0 } }) hwork hwork hchoose).2 p _ (hs.room.congr rfl))
  · refine (exec_testDue ..).trans (event_of_idle hx hsound.service ?_ hwork)
    exact if_neg (Bool.eq_false_iff.mp (State.due_of_lt hearly))
  · have hchoice : x.sweepChoice = some l := by
      refine State.sweepChoice_eq ?_ fun k hne hk => ?_
      · rw [State.eligible, State.due_of_le hdue, Bool.and_true]
        rcases hl with h | h <;> rw [h] <;> rfl
      · rw [State.eligible, Bool.and_eq_true, Bool.or_eq_true, beq_iff_eq, beq_iff_eq] at hk
        exact hmin k hne hk.1 (of_decide_eq_true hk.2)
    have hchoose : ∀ w, (x.withWork w).chooseTest = (x.started l .routine).withWork w := fun w =>
      State.chooseTest_sweep (u := x.withWork w) hsound.clean hsound.service hin htest hempty hsupply hchoice
    rw [exec_testDue, event_eq (State.begin_not_halted hx hsound.service), ← hx, State.takeTestDue, if_pos (State.due_of_le hdue)]
    exact congrArg _ (State.round_of_choice (u := x) (v := x.started l .routine) hwork hwork hchoose).1
  · refine (exec_settleEnd ..).trans (event_of_idle hx hsound.service ?_ hwork)
    rw [State.takeSettleEnd, hr]
    exact if_pos ⟨hphase, State.due_of_le hdue⟩
  · refine (exec_settleEnd ..).trans (event_of_idle hx hsound.service ?_ hwork)
    rw [State.takeSettleEnd, hr]
    refine if_neg fun ⟨h1, h2⟩ => ?_
    rcases hwait with h | h
    · rw [h] at h1
      cases h1
    · rw [State.due_of_lt h] at h2
      cases h2

/-! ### The measurement (10, R166 and R167) -/

theorem exec_measurement (t o i v) (s : State) :
    exec (.measurement t o i v) s = event t (fun s => s.takeMeasurement (codesOf o i v)) s := rfl

theorem faultCountAfter_outcome (n : Nat) (c : Codes) : faultCountAfter n c.outcome = if c.outcome = .faulty then min 5 (n + 1) else 0 := by
  unfold Codes.outcome
  split
  · rfl
  · split <;> rfl

/-- The state in which a line's record carries the end of its test, but for its state (10, R167, steps 1 and 2). -/
def State.counted (x : State) (l : LineNo) (n : Nat) : State :=
  State.withLine { x with testing := { x.testing with test := none, timeoutRun := 0 } } l { x.line l with faultCount := n }

/-- A measurement's end: the outcome and the next due time written, the result sent, a choice called for (10, R167, steps 3 and 4). -/
theorem State.Near.concludes {z u : State} (h : z.Near u) (hc : u.Clean) (he : u.ErrorsOk) (l : LineNo) (o : TestOutcome) (k : TestKind)
    (r : Record) :
    ((z.updLine l (fun y => { y with lastOutcome := some o, testDue := z.now + hours (z.param .sweepPeriod) })).sendResult k r).callChoice.Near
      ((u.withLine l { u.line l with lastOutcome := some o, testDue := u.now + hours (u.param .sweepPeriod) }).sendResult k r) := by
  have hz : z.now = u.now ∧ z.param .sweepPeriod = u.param .sweepPeriod := by
    obtain ⟨_, w, _, _, rfl⟩ := h
    exact ⟨rfl, rfl⟩
  rw [hz.1, hz.2]
  exact (State.Near.sendResult (h.updLine hc l
    (f := fun y => { y with lastOutcome := some o, testDue := u.now + hours (u.param .sweepPeriod) }) rfl rfl) he k r).callChoice

section
variable {x : State} {l : LineNo} {n : Nat} {o : TestOutcome}

theorem State.counted_line : (x.counted l n).line l = { x.line l with faultCount := n } := State.withLine_line_same ..

theorem State.counted_resultState_parks (hl : (x.line l).state = .testing none) (ho : o = .faulty) (hn : x.param .parkThreshold ≤ n) :
    (x.counted l n).resultState l o = ((x.counted l n).putLine l (.parked .fault)).raise { kind := .lineFault, line := some l } := by
  rw [State.resultState, State.counted_line]
  dsimp only
  rw [hl]
  exact if_pos ⟨ho, hn⟩

theorem State.counted_resultState_idle (hl : (x.line l).state = .testing none) (h : o ≠ .faulty ∨ n < x.param .parkThreshold) :
    (x.counted l n).resultState l o = (x.counted l n).enterIdle l := by
  rw [State.resultState, State.counted_line]
  dsimp only
  rw [hl]
  refine if_neg fun ⟨ho, hn⟩ => ?_
  rcases h with h | h
  · exact h ho
  · exact Nat.not_lt.mpr hn h

theorem State.counted_resultState_fault (hl : (x.line l).state = .testing (some .fault)) :
    (x.counted l n).resultState l o = if o = .faulty then (x.counted l n).putLine l (.parked .fault) else (x.counted l n).enterIdle l := by
  rw [State.resultState, State.counted_line]
  dsimp only
  rw [hl]

theorem State.counted_resultState_out (hl : (x.line l).state = .testing (some .outOfService)) :
    (x.counted l n).resultState l o = (x.counted l n).putLine l (.parked .outOfService) := by
  rw [State.resultState, State.counted_line]
  dsimp only
  rw [hl]

end

/-- A line's record written before its move is lost under a record written after it. -/
theorem State.withLine_lineTo_withLine (s : State) (l : LineNo) (q r : LineRecord) (st : LineState) :
    ((s.withLine l q).lineTo l st).withLine l r = (s.lineTo l st).withLine l r := by
  simp [State.lineTo, State.withLine, State.withConceal]

/-- Settles O46, by the line's prior state and the outcome. -/
theorem measurementEndsTheTest : Obligations.MeasurementEndsTheTest := by
  intro t ohms insulationOhms millivolts count r l c s x left report hx hsound hwait hplan hr hrl hcodes
  have hwork : x.work = {} := State.work_of_begin hx
  subst hcodes
  set c := codesOf ohms insulationOhms millivolts with hc
  refine ⟨fun hphase => ?_, fun hphase hempty hperiod hdue hcount hleft hreport => ?_⟩
  · refine (exec_measurement ..).trans (event_of_idle hx hsound.service ?_ hwork)
    rw [State.takeMeasurement, hr]
    refine if_neg ?_
    rw [hphase]
    exact TestPhase.noConfusion
  · have hcount' : count = faultCountAfter (x.line l).faultCount c.outcome := by rw [hcount, faultCountAfter_outcome]
    have hbody : ∀ z, (x.counted l count).resultState l c.outcome = z → x.takeMeasurement c =
        ((z.updLine l (fun y => { y with lastOutcome := some c.outcome, testDue := z.now + hours (z.param .sweepPeriod) })).sendResult
          r.kind (testResultRecord l c.outcome c.ohms c.insulation c.volts)).callChoice := by
      intro z hz
      rw [State.takeMeasurement, hr]
      dsimp only
      rw [if_pos hphase, State.complete, hsound.clean.checkParity, hrl]
      dsimp only
      rw [State.updLine_of_clean (s := { x with testing := { x.testing with timeoutRun := 0, test := none } }) hsound.clean l rfl rfl]
      rw [← hz, hcount']
      rfl
    have hcounted : (x.counted l count).Clean :=
      State.Clean.withLine (s := { x with testing := { x.testing with test := none, timeoutRun := 0 } }) hsound.clean l
        (hsound.clean.1 l).2 (hsound.clean.1 l).1
    have near : (x.counted l count).Near (x.counted l count) := .refl hwork
    have ended : ∀ z u v, (x.counted l count).resultState l c.outcome = z → z.Near u → u.Clean → u.ErrorsOk →
        u.withLine l { u.line l with lastOutcome := some c.outcome, testDue := u.now + hours (u.param .sweepPeriod) } = v → v.Still →
        exec (.measurement t ohms insulationOhms millivolts) s = .next (report v) := by
      intro z u v hz hn hcu he hv hs
      have hN := hn.concludes hcu he l c.outcome r.kind (testResultRecord l c.outcome c.ohms c.insulation c.volts)
      have hcv : v.Clean := hv ▸ hcu.withLine l (hcu.1 l).2 (hcu.1 l).1
      rw [hv] at hN
      have hreportv : report v = v.sendResult r.kind (testResultRecord l c.outcome c.ohms c.insulation c.volts) := by
        rw [hreport]
        cases r.kind <;> rfl
      rw [hreportv]
      have hsame := State.sendResult_same v r.kind (testResultRecord l c.outcome c.ohms c.insulation c.volts)
      exact (exec_measurement ..).trans (event_of_near hx hsound.service (hbody z hz ▸ hN) (hsame.clean hcv) (hsame.still hs))
    have still : ∀ st, (left st).Still := by
      intro st
      rw [hleft]
      refine ⟨hwait, fun q timer hq => ?_, .inr (.inr (.inr ⟨hempty, hdue.imp_right fun hdue k => ?_⟩))⟩
      · rw [show x.quality.plan = some q from hq] at hplan
        cases hplan
      · rw [State.withLine_line, State.lineTo_line]
        split
        · show x.now < x.now + hours (x.param .sweepPeriod)
          simp only [hours, sec, Time] at *
          omega
        · next hne => exact hdue k hne
    have written : ∀ st, ((x.counted l count).lineTo l st).withLine l { ((x.counted l count).lineTo l st).line l with
        lastOutcome := some c.outcome, testDue := x.now + hours (x.param .sweepPeriod) } = left st := by
      intro st
      rw [hleft, State.lineTo_line_same, State.counted_line, State.counted, State.withLine_lineTo_withLine]
      rfl
    have errors : ∀ st, ((x.counted l count).lineTo l st).ErrorsOk := fun st => hsound.errors.congr rfl
    have hopened : (x.line l).loop = .opened → ((x.counted l count).line l).loop = .opened := fun h => by
      rw [State.counted_line]
      exact h
    refine ⟨fun hl ho hn => ?_, fun hl h hopen => ?_, fun hl ho => ?_, fun hl ho hopen => ?_, fun hl => ?_⟩
    · refine ended _ _ _ (State.counted_resultState_parks hl ho hn)
        ((near.putLine hcounted l _).raise (errors _).overflow ((errors _).quiet .lineFault rfl))
        ((State.raise_same _ _).clean (hcounted.lineTo l _)) ((errors _).raise _) ?_ ((State.raise_same _ _).still (still _))
      have hsame := State.raise_same ((x.counted l count).lineTo l (.parked .fault)) { kind := .lineFault, line := some l }
      have hperiod : State.param (((x.counted l count).lineTo l (.parked .fault)).raise { kind := .lineFault, line := some l }) .sweepPeriod =
          x.param .sweepPeriod := congrArg (fun v : Vector Nat 21 => v[Param.sweepPeriod.index.val]) hsame.params
      rw [State.raise_withLine, hsame.line, hsame.now, hperiod]
      exact congrArg (fun y : State => y.raise _) (written (.parked .fault))
    · exact ended _ _ _ (State.counted_resultState_idle hl h) (near.enterIdle hcounted (hopened hopen)) (hcounted.lineTo l _) (errors _) (written _) (still _)
    · refine ended _ _ _ ((State.counted_resultState_fault hl).trans (if_pos ho)) (near.putLine hcounted l _) (hcounted.lineTo l _) (errors _) (written _) (still _)
    · refine ended _ _ _ ((State.counted_resultState_fault hl).trans (if_neg ho)) (near.enterIdle hcounted (hopened hopen)) (hcounted.lineTo l _) (errors _) (written _) (still _)
    · refine ended _ _ _ (State.counted_resultState_out hl) (near.putLine hcounted l _) (hcounted.lineTo l _) (errors _) (written _) (still _)

end Sys2Proof.Machine
end

section
/-! The end of a line test without a measurement: the head timeout and the seizure indication (10, R168 and R169). -/

namespace Sys2Proof.Machine

open Sys2Proof

theorem exec_headTimeout (t) (s : State) : exec (.headTimeout t) s = event t State.takeHeadTimeout s := rfl
theorem exec_seizureIndication (t) (s : State) : exec (.seizureIndication t) s = event t State.takeSeizure s := rfl

/-! ### The test record beside the errors and the queues -/

/-- The testing block rewritten. -/
def State.withTesting (s : State) (q : Testing) : State := { s with testing := q }

theorem State.raise_withTesting (s : State) (e : ErrorEvent) (q : Testing) : (s.raise e).withTesting q = (s.withTesting q).raise e := by
  have h : SameLocal s (s.withTesting q) := ⟨rfl, rfl, rfl, rfl, rfl⟩
  rw [State.raise_local h]
  conv => lhs; rw [(s.raise_same e).eq_takes]
  rfl

theorem State.send_withTesting (s : State) (p : Port) (r : Record) (q : Testing) : (s.send p r).withTesting q = (s.withTesting q).send p r := by
  have h : SameLocal s (s.withTesting q) := ⟨rfl, rfl, rfl, rfl, rfl⟩
  rw [State.send_local h]
  conv => lhs; rw [(s.send_same p r).eq_takes]
  rfl

theorem State.sendBoth_withTesting (s : State) (r : Record) (q : Testing) : (s.sendBoth r).withTesting q = (s.withTesting q).sendBoth r := by
  have h : SameLocal s (s.withTesting q) := ⟨rfl, rfl, rfl, rfl, rfl⟩
  rw [State.sendBoth_local h]
  conv => lhs; rw [(s.sendBoth_same r).eq_takes]
  rfl

theorem State.sendResult_withTesting (s : State) (k : TestKind) (r : Record) (q : Testing) :
    (s.sendResult k r).withTesting q = (s.withTesting q).sendResult k r := by
  cases k with
  | routine => exact s.sendBoth_withTesting r q
  | demand p => exact s.send_withTesting p r q

/-! ### The head timeout -/

theorem State.Near.congr {z u v : State} (h : z.Near u) (hv : u = v) : z.Near v := hv ▸ h

theorem State.leaveTest_idle {x : State} {l : LineNo} (h : (x.line l).state = .testing none) : x.leaveTest l = x.enterIdle l := by
  rw [State.leaveTest, h]

theorem State.leaveTest_parked {x : State} {l : LineNo} {c : ParkCause} (h : (x.line l).state = .testing (some c)) :
    x.leaveTest l = x.putLine l (.parked c) := by
  rw [State.leaveTest, h]

/-- The line's outcome and the report of a head timeout (10, R168). -/
theorem State.Near.timesOut {z u : State} (h : z.Near u) (hc : u.Clean) (he : u.ErrorsOk) (l : LineNo) (k : TestKind) (r : Record) :
    (State.withTesting (((z.setOutcome l .headTimeout).raise { kind := .testHead, line := some l }).sendResult k r)
        (((z.setOutcome l .headTimeout).raise { kind := .testHead, line := some l }).sendResult k r).testing.timedOut).callChoice.Near
      ((((u.withTesting u.testing.timedOut).withLine l { u.line l with lastOutcome := some .headTimeout }).raise
        { kind := .testHead, line := some l }).sendResult k r) := by
  have he' : (u.withLine l { u.line l with lastOutcome := some .headTimeout }).ErrorsOk := he.congr rfl
  have hsent := State.Near.sendResult ((h.setOutcome hc l .headTimeout).raise he'.overflow (e := { kind := .testHead, line := some l })
    (he'.quiet .testHead rfl)) (he'.raise _) k r
  have htesting := (State.sendResult_same ((u.withLine l { u.line l with lastOutcome := some .headTimeout }).raise
    { kind := .testHead, line := some l }) k r).testing.trans (State.raise_same _ _).testing
  refine ((hsent.map (fun s => s.withTesting s.testing.timedOut) (fun _ _ => rfl)).callChoice).congr ?_
  rw [htesting, State.sendResult_withTesting, State.raise_withTesting]
  rfl

/-- The testing block after a head timeout (10, R168, step 4). -/
theorem Testing.timedOut_eq (q : Testing) : q.timedOut = { q with
    timeoutRun := if 0 < q.timeoutRun then 0 else 1, inService := if 0 < q.timeoutRun then false else q.inService } := by
  unfold Testing.timedOut
  rcases Nat.eq_zero_or_pos q.timeoutRun with h | h
  · rw [if_pos h, if_neg (by omega), if_neg (by omega)]
  · rw [if_neg (by omega), if_pos h, if_pos h]

/-! ### The off-hook arrival of a line given back with its loop CLOSED (01, R18) -/

section
variable {z u : State} (h : z.Near u) (hc : u.Clean) (hm : u.unit.mode = .service) (hw : u.waiting = []) {l : LineNo}
  (hl : (u.line l).loop = .closed)
include h hc hm hw hl

/-- With a bearer to give it is allocated (03, R52). -/
theorem State.Near.enterIdle_given (hq : (u.routing .txOverflow).isQuiet = true) (hu : u.isUp = true) {b : BearerNo}
    (hf : u.lowestFree = some b) : (z.enterIdle l).Near (u.given l (u.line l).cls u.now b) := by
  obtain ⟨w, ho, hr, e⟩ := State.enterIdle_of_closed h hc (by rw [State.inService, hm]; rfl) hl
  have N : ((u.lineTo l .idle).withWork w).Near (u.lineTo l .idle) := ⟨h.1, w, ho, hr, rfl⟩
  rw [e]
  refine (N.offHook_given (hc.lineTo l _) hq hw hu hf l).congr ?_
  rw [State.given_lineTo_idle, State.lineTo_line_same]
  rfl

/-- Without one it waits (03, R54). -/
theorem State.Near.enterIdle_alone (hn : u.isUp = false ∨ u.lowestFree = none) : (z.enterIdle l).Near (u.alone l) := by
  obtain ⟨w, ho, hr, e⟩ := State.enterIdle_of_closed h hc (by rw [State.inService, hm]; rfl) hl
  have N : ((u.lineTo l .idle).withWork w).Near (u.lineTo l .idle) := ⟨h.1, w, ho, hr, rfl⟩
  rw [e]
  exact (N.offHook_alone (hc.lineTo l _) hw hn l).congr (State.alone_lineTo_idle u l)

end

/-- Settles O47: the head timeout, and the seizure of a PARKED and of an IDLE line. -/
theorem testsAreAborted : Obligations.TestsAreAborted := by
  intro t r l s x report hx hsound hwait hplan hr hrl hreport
  have hwork : x.work = {} := State.work_of_begin hx
  have hreport' : ∀ o y, report o y = y.sendResult r.kind (testResultRecord l o 0 0 0) := fun o y => by
    rw [hreport]
    cases r.kind <;> rfl
  refine ⟨fun hearly => ?_, fun hphase hdue hnone left hleft => ?_, fun hnone y record call hy hrecord hcall => ?_⟩
  · refine (exec_headTimeout ..).trans (event_of_idle hx hsound.service ?_ hwork)
    rw [State.takeHeadTimeout, hr]
    refine if_neg fun ⟨h1, h2⟩ => ?_
    rcases hearly with h | h
    · rw [h] at h1
      cases h1
    · rw [State.due_of_lt h] at h2
      cases h2
  · have hdrop : x.dropTest.Clean := hsound.clean
    have near : x.dropTest.Near x.dropTest := .refl hwork
    have ended : ∀ st, (x.dropTest.leaveTest l).Near (x.dropTest.lineTo l st) → exec (.headTimeout t) s = .next
        (report .headTimeout ((left st).raise { kind := .testHead, line := some l })) := by
      intro st hn
      have hbody : x.takeHeadTimeout = x.headTimedOut r := by
        rw [State.takeHeadTimeout, hr]
        exact if_pos ⟨hphase, State.due_of_le hdue⟩
      have hwritten : ((x.dropTest.lineTo l st).withTesting (x.dropTest.lineTo l st).testing.timedOut).withLine l
          { (x.dropTest.lineTo l st).line l with lastOutcome := some .headTimeout } = left st := by
        rw [hleft, State.lineTo_line_same, Testing.timedOut_eq]
        rfl
      have hclean : (left st).Clean := hwritten ▸ State.Clean.withLine (s := (x.dropTest.lineTo l st).withTesting _) (hdrop.lineTo l st) l
        ((hdrop.lineTo l st).1 l).2 ((hdrop.lineTo l st).1 l).1
      have hstill : (left st).Still := by
        rw [hleft]
        refine ⟨hwait, fun q timer hq => ?_, .inr ?_⟩
        · rw [show x.quality.plan = some q from hq] at hplan
          cases hplan
        · rcases hnone with h | ⟨h1, h2⟩
          · exact .inl (if_pos h)
          · refine .inr (.inr ⟨h1, h2.imp_right fun h k => ?_⟩)
            rcases eq_or_ne k l with rfl | hk
            · rw [State.withLine_line_same]
              exact h k
            · rw [State.withLine_line, if_neg hk, State.lineTo_line, if_neg hk]
              exact h k
      have hN := hn.timesOut (hdrop.lineTo l st) (hsound.errors.congr rfl) l r.kind (testResultRecord l .headTimeout 0 0 0)
      rw [hwritten] at hN
      have hsame := (State.raise_same (left st) { kind := .testHead, line := some l }).trans
        (State.sendResult_same _ r.kind (testResultRecord l .headTimeout 0 0 0))
      rw [hreport']
      refine (exec_headTimeout ..).trans (event_of_near hx hsound.service ?_ (hsame.clean hclean) (hsame.still hstill))
      rw [hbody, State.headTimedOut, hsound.clean.checkParity, hrl]
      exact hN
    refine ⟨fun hl ho => ended _ ?_, fun c hl => ended _ ?_⟩
    · rw [State.leaveTest_idle (x := x.dropTest) hl]
      exact near.enterIdle hdrop ho
    · rw [State.leaveTest_parked (x := x.dropTest) hl]
      exact near.putLine hdrop l _
  · have hyclean : y.Clean := hy ▸ hsound.clean
    have hrec : ∃ q : LineRecord, q = { x.line l with loop := .closed, intervalStart := x.now, run := .zero, longOpen := false } := ⟨_, rfl⟩
    obtain ⟨q, hq⟩ := hrec
    have hw : (y.withLine l q).Clean := hyclean.withLine l (by rw [hq]; exact (hsound.clean.1 l).2) (by rw [hq]; exact (hsound.clean.1 l).1)
    have near : (y.withLine l q).Near (y.withLine l q) := .refl (by rw [hy]; exact hwork)
    have hline : (y.withLine l q).line l = q := State.withLine_line_same ..
    have hbody : x.takeSeizure = ((y.withLine l q).leaveTest l).reportAbort r := by
      rw [State.takeSeizure, hr]
      dsimp only
      rw [hsound.clean.checkParity, hrl, State.updLine_of_clean (s := x.dropTest) hsound.clean l rfl rfl, hq, hy]
      rfl
    have hstill : y.Still := by
      rw [hy]
      refine ⟨hwait, fun q timer hq => ?_, .inr (.inr (.inr hnone))⟩
      rw [show x.quality.plan = some q from hq] at hplan
      cases hplan
    have written : ∀ st, ((y.withLine l q).lineTo l st).withLine l { q.moved st with lastOutcome := some .aborted } =
        (y.lineTo l st).withLine l (record st) := fun st => by
      rw [State.withLine_lineTo_withLine, hrecord, hq]
      simp only [LineRecord.moved, ite_self]
    have hwstill : (y.withLine l q).Still := hstill.withLine l (by rw [hq, hy]; rfl)
    have herrors : ∀ {v : State}, v.errors = x.errors → v.ErrorsOk := fun he => hsound.errors.congr he
    have ended : ∀ {u v : State}, ((y.withLine l q).leaveTest l).Near u → u.Clean → u.ErrorsOk →
        u.withLine l { u.line l with lastOutcome := some .aborted } = v →
        x.takeSeizure.Near (report .aborted v) ∧ (report .aborted v).Clean ∧ SameButErrors v (report .aborted v) := by
      intro u v hn hcu he hv
      have hcv : v.Clean := hv ▸ hcu.withLine l (hcu.1 l).2 (hcu.1 l).1
      have hsame := State.sendResult_same v r.kind (testResultRecord l .aborted 0 0 0)
      have hN := hn.reportAbort hcu he r
      rw [← hbody, hrl, hv] at hN
      rw [hreport']
      exact ⟨hN, hsame.clean hcv, hsame⟩
    refine ⟨fun c hl => ?_, fun hl hn => ?_, fun b hl hu hf => ?_⟩
    · have hleave : (y.withLine l q).leaveTest l = (y.withLine l q).putLine l (.parked c) :=
        State.leaveTest_parked (by rw [hline, hq]; exact hl)
      obtain ⟨hN, hcl, hsame⟩ := ended (v := (y.lineTo l (.parked c)).withLine l (record (.parked c)))
        (hleave ▸ near.putLine hw l (.parked c)) (hw.lineTo l _) (herrors (by rw [hy]; rfl))
        (by rw [State.lineTo_line_same, hline]; exact written _)
      refine (exec_seizureIndication ..).trans (event_of_near hx hsound.service hN hcl (hsame.still ?_))
      rw [← written]
      exact (hwstill.lineTo l _).withLine l (by rw [State.lineTo_line_same, hline])
    all_goals
      have hleave : (y.withLine l q).leaveTest l = (y.withLine l q).enterIdle l :=
        State.leaveTest_idle (by rw [hline, hq]; exact hl)
      have hclosed : ((y.withLine l q).line l).loop = .closed := by rw [hline, hq]
      have hlow : (y.withLine l q).lowestFree = x.lowestFree :=
        State.lowestFree_congr (fun k => by rw [hy]; rfl) (by rw [hy]; rfl)
      have hup : (y.withLine l q).isUp = x.isUp := by rw [hy]; rfl
      have hm : (y.withLine l q).unit.mode = .service := by rw [hy]; exact hsound.service
    · have hwait' : ((y.withLine l q).alone l).withLine l { ((y.withLine l q).alone l).line l with lastOutcome := some .aborted } =
          State.withLine { y.lineTo l .waiting with waiting := [{ line := l, cls := (x.line l).cls, joined := x.now }] } l
            (record .waiting) := by
        have hentry : ((y.withLine l q).alone l).line l = q.moved .waiting := (State.lineTo_line_same ..).trans (by rw [hline])
        have h := congrArg (fun z : State => { z with waiting := [{ line := l, cls := (x.line l).cls, joined := x.now }] }) (written .waiting)
        rw [hentry, State.alone, hline, hq, hy]
        rw [hq, hy] at h
        exact h
      obtain ⟨hN, hcl, hsame⟩ := ended (u := (y.withLine l q).alone l) (hleave ▸ near.enterIdle_alone hw hm hwstill.1 hclosed (by rw [hup, hlow]; exact hn))
        (hw.lineTo l .waiting) (herrors (by rw [hy]; rfl)) hwait'
      rw [exec_seizureIndication, event_eq (State.begin_not_halted hx hsound.service), ← hx]
      refine congrArg _ (hN.finish_waiting hcl ?_ ?_ (hsame.noTest ?_))
      · rcases hn with h | h
        · exact .inl (by rw [State.isUp, hsame.link]; exact hup.trans h)
        · exact .inr ((State.lowestFree_congr (x := y.withLine l q) hsame.bearer hsame.limit).trans (hlow.trans h))
      · intro q timer hq
        rw [hsame.quality] at hq
        exact hstill.2.1 q timer hq
      · exact ((hstill.lineTo l .waiting).withLine l (r := record .waiting) (by rw [hrecord, State.lineTo_line_same, hy]; rfl)).2.2
    · have href : (y.withLine l q).nextReference = x.nextReference := by rw [hy]; rfl
      have hgiven : ((y.withLine l q).given l ((y.withLine l q).line l).cls (y.withLine l q).now b).withLine l
          { ((y.withLine l q).given l ((y.withLine l q).line l).cls (y.withLine l q).now b).line l with lastOutcome := some .aborted } =
          ((({ y.bearerTo b (.heldOut call (x.now + sec (x.param .reservationTimeout)) x.now) with
            counter := call.reference + 2 }).lineTo l (.originating b)).withLine l (record (.originating b))).sendCall
          (seizeOutRecord l b call.reference call.cls) := by
        have hcall' : Call.mk l (y.withLine l q).nextReference .outgoing ((y.withLine l q).line l).cls none = call := by
          rw [hcall, href, hline, hq]
        have hput : (y.withLine l q).given l ((y.withLine l q).line l).cls (y.withLine l q).now b =
            ((State.withLine { y.bearerTo b (.heldOut call (x.now + sec (x.param .reservationTimeout)) x.now) with
              counter := call.reference + 2 } l q).lineTo l (.originating b)).sendCall (seizeOutRecord l b call.reference call.cls) := by
          rw [← hcall', hy]
          rfl
        rw [State.given_line, hput, hline, State.sendCall_withLine, State.withLine_lineTo_withLine, hrecord, hq]
        simp only [LineRecord.moved, ite_self]
      obtain ⟨hN, hcl, hsame⟩ := ended (hleave ▸ near.enterIdle_given hw hm hwstill.1 hclosed (herrors (by rw [hy]; rfl)).overflow
        (hup.trans hu) (hlow.trans hf)) ((State.given_served (herrors (by rw [hy]; rfl)).overflow ..).clean hw) ((herrors (by rw [hy]; rfl)).sendCall _) hgiven
      refine (exec_seizureIndication ..).trans (event_of_near hx hsound.service hN hcl (hsame.still ?_))
      rw [← hgiven]
      exact (hwstill.given ..).withLine l rfl

end Sys2Proof.Machine
end

section
/-! The on-intervals of the ring cadence and the supply input (04, R75, R79 and R85 to R88). -/

namespace Sys2Proof.Machine

open Sys2Proof

theorem exec_onIntervalStart (t p) (s : State) :
    exec (.onIntervalStart t p) s = event t (fun s => if s.beginsNow p then s.beginPhase p else s) s := rfl
theorem exec_onIntervalEnd (t p) (s : State) : exec (.onIntervalEnd t p) s = event t (fun s => if s.endsNow p then s.endPhase p else s) s := rfl

/-! ### The on-intervals -/

theorem State.beginsNow_iff {x : State} {p : PhaseNo} : x.beginsNow p = true ↔ x.now % sec 3 = sec p.val := beq_iff_eq

theorem State.endsNow_iff {x : State} {p : PhaseNo} : x.endsNow p = true ↔ x.now % sec 3 = sec (p.val + 1) % sec 3 := beq_iff_eq

/-- The phase at its on-interval's end: the mark removed and every entry rung (04, R75). -/
def State.rungPhase (x : State) (p : PhaseNo) : State := (x.setBegun p false).setPhase p ((x.phase p).map RingEntry.rung)

theorem State.endPhase_eq (x : State) (p : PhaseNo) :
    x.endPhase p = ((x.ringLimitReached p).foldl State.endUnanswered (x.rungPhase p)).serveRings := rfl

/-- A phase table just written reads back. -/
theorem State.setPhase_phase (x : State) (p : PhaseNo) (es : List RingEntry) : (x.setPhase p es).phase p = es := by
  simp [State.setPhase, State.phase]

/-- A call that ends without an answer (04, R79, steps 1 to 4). -/
theorem State.Near.endUnanswered {y : State} (hp : y.Plain) (hw : y.work = {}) {l : LineNo} {b : BearerNo} {c : Call}
    (hl : (y.line l).state = .ringing b) (hb : (y.bearer b).state = .heldIn c) (ho : (y.line l).loop = .opened) :
    (y.endUnanswered l).Near ((((y.removeRing l).sendCall (noAnswerRecord l b c.reference)).guardTo b c).lineTo l .idle) := by
  have hr := State.removeRing_same y l
  have hcr := hr.clean hp.clean
  have her : (y.removeRing l).ErrorsOk := hp.errors.congr rfl
  have hsame := State.sendCall_same (y.removeRing l) (noAnswerRecord l b c.reference)
  have hbearer : (((y.removeRing l).sendCall (noAnswerRecord l b c.reference)).bearer b).state = .heldIn c := by
    rw [hsame.bearer]
    exact hb
  have N := ((((State.Near.refl hw).removeRing l).sendCall her.overflow (noAnswerRecord l b c.reference)).guardCall (hsame.clean hcr) (b := b)
    (c := c) (by rw [hbearer]; rfl)).enterIdle ((hsame.clean hcr).endTo b c _) (l := l) (by
    show (((y.removeRing l).sendCall (noAnswerRecord l b c.reference)).line l).loop = .opened
    rw [hsame.line]
    exact ho)
  have hbody : y.endUnanswered l = (((y.removeRing l).sendCall (noAnswerRecord l b c.reference)).guardCall b).enterIdle l := by
    rw [State.endUnanswered, hl]
    dsimp only
    rw [hcr.checkParity, show ((y.removeRing l).bearer b).state = .heldIn c from hb]
    rfl
  rw [hbody]
  exact N

/-- Settles O59: the starts and ends off their times, the start, the end with no line at the limit and with one. -/
theorem onIntervalsRingTheirPhase : Obligations.OnIntervalsRingTheirPhase := by
  intro t p s x y hx hp hy
  have hwork : x.work = {} := State.work_of_begin hx
  refine ⟨fun hoff => ?_, fun hon => ?_, fun hoff => ?_, fun hon => ⟨fun hnone => ?_, fun e b c hone hl hb ho => ?_⟩⟩
  · exact (exec_onIntervalStart ..).trans (event_of_idle hx hp.service (if_neg (mt State.beginsNow_iff.mp hoff)) hwork)
  · obtain ⟨hframe, hlines⟩ := State.holdSampling_fold ((x.phase p).map (fun e => { e with relay := true }))
      ((x.setBegun p true).setPhase p ((x.phase p).map (fun e => { e with relay := true })))
    have hread := State.setPhase_phase (x.setBegun p true) p ((x.phase p).map (fun e => { e with relay := true }))
    have hbody : x.beginPhase p = ((x.phase p).map (fun e => ({ e with relay := true } : RingEntry))).foldl (fun s e => s.holdSampling e.line)
        ((x.setBegun p true).setPhase p ((x.phase p).map (fun e => { e with relay := true }))) := by
      show (((x.setBegun p true).setPhase p ((x.phase p).map (fun e => ({ e with relay := true } : RingEntry)))).phase p).foldl
        (fun s e => s.holdSampling e.line) ((x.setBegun p true).setPhase p ((x.phase p).map (fun e => { e with relay := true }))) = _
      rw [hread]
    refine ⟨x.beginPhase p, ?_, ?_, fun l => ?_⟩
    · refine (exec_onIntervalStart ..).trans (event_of_idle hx hp.service (if_pos (State.beginsNow_iff.mpr hon)) ?_)
      rw [hbody, hframe]
      exact hwork
    · rw [hbody]
      exact hframe
    · rw [hbody, hlines]
      have hmem : (∃ e ∈ (x.phase p).map (fun e => ({ e with relay := true } : RingEntry)), e.line = l) ↔ ∃ e ∈ x.phase p, e.line = l := by
        simp
      rw [if_congr hmem rfl rfl]
      rfl
  · exact (exec_onIntervalEnd ..).trans (event_of_idle hx hp.service (if_neg (mt State.endsNow_iff.mp hoff)) hwork)
  all_goals
    have hrung : x.rungPhase p = y := by rw [hy]; rfl
    have hpy : y.Plain := by rw [hy]; exact ⟨hp.service, hp.clean, hp.errors, hp.still⟩
    have hwy : y.work = {} := by rw [hy]; exact hwork
    have ended : ∀ {u : State}, ((x.ringLimitReached p).foldl State.endUnanswered y).Near u → u.Clean → u.Still →
        exec (.onIntervalEnd t p) s = .next u.serveRings := fun hn hc hs => by
      refine (exec_onIntervalEnd ..).trans (event_of_near hx hp.service ?_ ((State.serveRings_same _).clean hc) ((State.serveRings_same _).still hs))
      rw [if_pos (State.endsNow_iff.mpr hon), State.endPhase_eq, hrung]
      exact hn.serveRings
  · have hreached : x.ringLimitReached p = [] := by
      rw [State.ringLimitReached, List.map_eq_nil_iff, List.filter_eq_nil_iff]
      intro e he
      rw [Bool.and_eq_true, decide_eq_true_iff, not_and, Nat.not_le]
      exact hnone e he
    exact ended (hreached ▸ .refl hwy) hpy.clean hpy.still
  · have hreached : x.ringLimitReached p = [e.line] := by rw [State.ringLimitReached, hone]; rfl
    have N := State.Near.endUnanswered hpy hwy (l := e.line) (b := b) (c := c) (by rw [hy]; exact hl) (by rw [hy]; exact hb) (by rw [hy]; exact ho)
    have hr := State.removeRing_same y e.line
    have hsame := State.sendCall_same (y.removeRing e.line) (noAnswerRecord e.line b c.reference)
    rw [← List.foldl_nil (f := State.endUnanswered) (b := y.endUnanswered e.line), ← List.foldl_cons, ← hreached] at N
    exact ended N (((hsame.clean (hr.clean hpy.clean)).endTo b c _).lineTo _ _) (((hsame.still (hr.still hpy.still)).endTo b c _).lineTo _ _)

/-! ### The supply input -/

theorem State.onGrid_iff {x : State} {period : Time} : x.onGrid period = true ↔ x.now % period = 0 := beq_iff_eq

/-- The states of higher rank have the greater ring capacity (04, R74 and R85). -/
theorem Supply.rank_lt_iff {c d : Supply} : c.rank < d.rank ↔ c.capacity < d.capacity := by
  cases c <;> cases d <;> decide

/-- A sample on the grid that accepts nothing moves the candidate only (04, R85). -/
theorem State.sampleSupply_waits {x : State} {d : Supply} (hg : x.now % ms 5 = 0) (h : x.accepts d = false) :
    x.sampleSupply d = { x with ring := { x.ring with candidate := x.candidateAfter d } } := by
  rw [State.sampleSupply, if_pos (State.onGrid_iff.mpr hg), h, if_neg Bool.false_ne_true]

theorem State.sampleSupply_accepts {x : State} {d : Supply} (hg : x.now % ms 5 = 0) (h : x.accepts d = true) :
    x.sampleSupply d = x.changeSupply d := by
  rw [State.sampleSupply, if_pos (State.onGrid_iff.mpr hg), if_pos h]

section
variable {x : State} {d : Supply}

theorem State.accepts_eq {c : SupplyCandidate} (hc : x.ring.candidate = some c) (hd : d ≠ x.ring.supply) (hs : c.state = d) :
    x.accepts d = decide (c.since + sec 5 ≤ x.now) := by
  rw [State.accepts, hc]
  dsimp only
  rw [decide_eq_true hd, hs, beq_self_eq_true, Bool.true_and, Bool.true_and]

theorem State.accepts_other (h : ∀ c, x.ring.candidate = some c → c.state ≠ d) : x.accepts d = false := by
  rw [State.accepts]
  split
  · next c hc => rw [beq_eq_false_iff_ne.mpr (h c hc), Bool.and_false, Bool.false_and]
  · rfl

theorem State.accepts_own (hd : d = x.ring.supply) : x.accepts d = false := by
  rw [State.accepts]
  split
  · rw [decide_eq_false (not_not.mpr hd), Bool.false_and, Bool.false_and]
  · rfl

theorem State.candidateAfter_other (hd : d ≠ x.ring.supply) (h : ∀ c, x.ring.candidate = some c → c.state ≠ d) :
    x.candidateAfter d = some { state := d, since := x.now } := by
  rw [State.candidateAfter, if_neg hd]
  split
  · next c hc => exact if_neg (h c hc)
  · rfl

theorem State.candidateAfter_same {c : SupplyCandidate} (hc : x.ring.candidate = some c) (hd : d ≠ x.ring.supply) (hs : c.state = d) :
    x.candidateAfter d = x.ring.candidate := by
  rw [State.candidateAfter, if_neg hd, hc]
  exact if_pos hs

end

/-- A supply state's acceptance, by whether its rank is lower (04, R86 to R88). -/
theorem State.Near.changeSupply {x v : State} {d : Supply} (hw : x.work = {}) (he : x.ErrorsOk)
    (hv : v = if d.rank < x.ring.supply.rank then (x.setSupply d).cutPhases d.capacity else x.setSupply d) :
    (x.changeSupply d).Near (v.serveRings.sendBoth (supplyRecord d x.ring.supply)) := by
  have hwv : v.work = {} ∧ v.errors = x.errors := by
    rw [hv]
    split <;> exact ⟨hw, rfl⟩
  have hev : v.serveRings.errors = x.errors := by
    obtain ⟨ph, q, h⟩ := State.serveRings_same v
    rw [h]
    exact hwv.2
  have N := (State.Near.refl hwv.1).serveRings.sendBoth (he.congr hev).overflow (supplyRecord d x.ring.supply)
  have hbody : x.changeSupply d = if x.ring.supply = .reserve then (v.serveRings.sendBoth (supplyRecord d x.ring.supply)).callChoice
      else v.serveRings.sendBoth (supplyRecord d x.ring.supply) := by
    rw [hv]
    rfl
  rw [hbody]
  split
  · exact N.callChoice
  · exact N

/-- Settles O60: samples that accept nothing, the upgrade and the downgrade. -/
theorem supplyStatesAreAccepted : Obligations.SupplyStatesAreAccepted := by
  intro t a b d s x y hx hp hhead hd hy
  have hwork : x.work = {} := State.work_of_begin hx
  have hd' : supplyOf a b = d := hd.symm
  have sampled : ∀ {v : State}, x.sampleSupply d = v → v.work = {} → exec (.supplySample t a b) s = .next v := fun hv hw =>
    (exec_supplySample ..).trans (event_of_idle hx hp.service (by rw [hd']; exact hv) hw)
  refine ⟨fun hoff => sampled (if_neg (mt State.onGrid_iff.mp hoff)) hwork, fun hon => ⟨fun hown => ?_, fun hne hother => ?_, fun c hc hne hs =>
    ⟨fun hearly => ?_, fun hstood hless => ?_, fun hstood hless => ?_⟩⟩⟩
  · refine sampled ((State.sampleSupply_waits hon (State.accepts_own hown)).trans ?_) hwork
    rw [State.candidateAfter, if_pos hown]
  · refine sampled ((State.sampleSupply_waits hon (State.accepts_other hother)).trans ?_) hwork
    rw [State.candidateAfter_other hne hother]
  · refine sampled ((State.sampleSupply_waits hon ?_).trans ?_) hwork
    · rw [State.accepts_eq hc hne hs, decide_eq_false (Nat.not_le.mpr hearly)]
    · rw [State.candidateAfter_same hc hne hs]
  all_goals
    have haccepts : x.accepts d = true := by rw [State.accepts_eq hc hne hs, decide_eq_true hstood]
    have hnot := State.begin_not_halted hx hp.service
    have accepted : ∀ {v : State}, v = (if d.rank < x.ring.supply.rank then (x.setSupply d).cutPhases d.capacity else x.setSupply d) →
        (x.sampleSupply d).finish = v.serveRings.sendBoth (supplyRecord d x.ring.supply) := by
      intro v hv
      have hstill : v.Clean ∧ v.Still := by
        have hnone : State.NoTest (x.setSupply d) := by
          rcases hhead with h | h | ⟨h1, h2⟩
          · exact .inr (.inl h)
          · exact .inr (.inr (.inl h))
          · exact .inr (.inr (.inr ⟨h1, .inr h2⟩))
        rw [hv]
        split <;> exact ⟨hp.clean, hp.still.1, hp.still.2.1, hnone⟩
      have hsame := State.sendBoth_same v.serveRings (supplyRecord d x.ring.supply)
      have hrings := State.serveRings_same v
      rw [State.sampleSupply_accepts hon haccepts]
      exact (State.Near.changeSupply hwork hp.errors hv).finish (hsame.clean (hrings.clean hstill.1)) (hsame.still (hrings.still hstill.2))
  · have hrank : x.ring.supply.rank < d.rank := Supply.rank_lt_iff.mpr hless
    have hup : exec (.upgrade t a b) s = .next (x.sampleSupply d).finish := by
      rw [exec_upgrade, event_eq hnot, ← hx, hd', haccepts, decide_eq_true hrank]
      rfl
    refine ⟨?_, hup.trans (congrArg _ (accepted ?_))⟩
    · rw [hup, exec_supplySample, event_eq hnot, ← hx, hd']
    · rw [if_neg (by omega), hy]
      rfl
  · have hrank : d.rank < x.ring.supply.rank := Supply.rank_lt_iff.mpr hless
    have hdown : exec (.downgrade t a b) s = .next (x.sampleSupply d).finish := by
      rw [exec_downgrade, event_eq hnot, ← hx, hd', haccepts, decide_eq_true hrank]
      rfl
    obtain ⟨hperm, hsorted⟩ := insertByPlaced_fold (allPhases.flatMap (fun p => (x.phase p).drop d.capacity)) [] .nil
    rw [List.append_nil] at hperm
    refine ⟨?_, _, hperm, hsorted, hdown.trans (congrArg _ (accepted ?_))⟩
    · rw [hdown, exec_supplySample, event_eq hnot, ← hx, hd']
    · have htake : x.ring.phases.map (fun es => es.take d.capacity) = Vector.ofFn (fun p : PhaseNo => (x.phase p).take d.capacity) := by
        ext i hi
        simp [State.phase]
      rw [if_pos hrank, hy, htake]
      rfl

end Sys2Proof.Machine
end

section
/-! The search for sync, the entry to UP and the loss of sync (06, R109 to R115). -/

namespace Sys2Proof.Machine

open Sys2Proof

theorem exec_normalizationWindowEnd (t b r) (s : State) : exec (.normalizationWindowEnd t b r) s =
    event t (fun s => if s.windowReported b then s.endWindow r else s) s := rfl
theorem exec_verifyGiveUp (t b) (s : State) : exec (.verifyGiveUp t b) s = event t (fun s => s.takeGiveUp b) s := rfl

/-! ### The search -/

theorem State.windowReported_iff {x : State} (hm : x.unit.mode = .service) {bits : Nat} :
    x.windowReported bits = true ↔ x.link.window = some bits := by
  rw [State.windowReported, State.inService, hm]
  exact beq_iff_eq

/-- Outside UP the decoder works at the rate of the link record (06, R108). -/
theorem State.decoderRate_of_not_up {x : State} (h : x.isUp = false) : x.decoderRate = x.link.rate := by
  rw [State.decoderRate, h]
  rfl

/-- LINK_NO_SYNC is counted or reported, and leaves nothing to do. -/
theorem State.noSync_finish {z : State} (c : Prop) [Decidable c] {detail : Option Word} (hw : z.work = {}) (he : z.ErrorsOk) :
    (if c then z else z.raise { kind := .linkNoSync, detail := detail }).finish =
      if c then z else z.raise { kind := .linkNoSync, detail := detail } := by
  split
  · exact State.finish_of_idle hw
  · exact State.raise_finish hw he _ he.linkNoSync

/-- Settles O55: the numbering of the candidates, the windows, the give-up and the words. -/
theorem searchFollowsItsWindowsAndWords : Obligations.SearchFollowsItsWindowsAndWords := by
  refine ⟨fun rate => ?_, fun t bits r p F w s x y given hx hs hF hy hgiven => ?_⟩
  · refine ⟨rfl, fun i hi => ?_, fun sense hsense position hposition => ?_⟩
    · rw [Rate.candidates] at hi
      unfold phaseSense puncturePosition candidateAt
      omega
    · unfold phaseSense puncturePosition candidateAt Rate.candidates
      omega
  · have hwork : x.work = {} := State.work_of_begin hx
    have gives : ∀ e, x.isUp = false → x.giveUp e = given e := fun e hup => by
      rw [hgiven e _ rfl]
      exact State.giveUp_of x e _ (congrArg Rate.candidates (State.decoderRate_of_not_up hup)) _ (by rw [hy])
    have given_finish : ∀ e, (given e).finish = given e := fun e => by
      rw [hgiven e _ rfl]
      exact State.noSync_finish _ (by rw [hy]; exact hwork) (hs.errors.congr (by rw [hy]))
    have windowed : ∀ {v : State}, x.link.window = some bits → x.endWindow r = v → v.finish = v →
        exec (.normalizationWindowEnd t bits r) s = .next v := fun hwin hv hf => by
      rw [exec_normalizationWindowEnd, event_eq (State.begin_not_halted hx hs.service), ← hx, if_pos ((State.windowReported_iff hs.service).mpr hwin),
        hv, hf]
    refine ⟨fun hne => ?_, fun hwin => ⟨fun e he => ⟨fun hc => ?_, fun hc hr => ?_, fun hc hr => ?_⟩, fun e ts he => ?_, fun bad n hu => ⟨fun hr => ?_, fun hr hb => ?_⟩⟩,
      fun e ts he => ⟨fun hb => ?_, fun hb => ?_, fun hp => ?_, fun hp expected live after hexp hlive h1 h2 h3 hlt => ?_⟩, fun hne => ⟨?_, ?_⟩⟩
    · exact (exec_normalizationWindowEnd ..).trans (event_of_idle hx hs.service (if_neg (mt (State.windowReported_iff hs.service).mp hne)) hwork)
    · refine windowed hwin ?_ (State.finish_of_idle (by rw [hy]; exact hwork))
      rw [State.endWindow, he]
      dsimp only
      rw [if_pos hc, hy]
      rfl
    · refine windowed hwin ?_ (State.finish_of_idle (by rw [hy]; exact hwork))
      have hpass : x.windowPasses r = true := by
        rw [State.windowPasses, State.decoderRate_of_not_up (by rw [State.isUp, he]; rfl)]
        exact decide_eq_true hr
      rw [State.endWindow, he, hpass]
      dsimp only
      rw [hc, if_neg Bool.false_ne_true, if_pos rfl, hy]
      rfl
    · refine windowed hwin ?_ (given_finish e)
      have hup : x.isUp = false := by rw [State.isUp, he]; rfl
      have hpass : x.windowPasses r = false := by
        rw [State.windowPasses, State.decoderRate_of_not_up hup]
        exact decide_eq_false (Nat.not_le.mpr hr)
      rw [State.endWindow, he, hpass]
      dsimp only
      rw [hc, if_neg Bool.false_ne_true, if_neg Bool.false_ne_true, gives e hup]
    · refine windowed hwin ?_ (State.finish_of_idle (by rw [hy]; exact hwork))
      rw [State.endWindow, he, hy]
      rfl
    · refine windowed hwin ?_ (State.finish_of_idle (by rw [hy]; exact hwork))
      have hpass : x.windowPasses r = true := by
        rw [State.windowPasses, State.decoderRate, State.isUp_of_up hu]
        exact decide_eq_true hr
      rw [State.endWindow, hu, hpass, hy]
      rfl
    · refine windowed hwin ?_ (State.finish_of_idle (by rw [hy]; exact hwork))
      have hpass : x.windowPasses r = false := by
        rw [State.windowPasses, State.decoderRate, State.isUp_of_up hu]
        exact decide_eq_false (Nat.not_le.mpr hr)
      rw [State.endWindow, hu, hpass, hy, hb]
      rfl
    · have hup : x.isUp = false := by rw [State.isUp, he]; rfl
      rw [exec_verifyGiveUp, event_eq (State.begin_not_halted hx hs.service), ← hx, State.takeGiveUp, he]
      dsimp only
      rw [if_pos ⟨by rw [State.spacing, ← hF]; exact hb, by rw [State.inService, hs.service]; rfl⟩, gives e hup, given_finish]
    · refine (exec_verifyGiveUp ..).trans (event_of_idle hx hs.service ?_ hwork)
      rw [State.takeGiveUp, he]
      exact if_neg fun h => Nat.not_lt.mpr h.1 (by rw [State.spacing, ← hF]; exact hb)
    · refine (exec_alignmentWordFound ..).trans (event_of_idle hx hs.service ?_ hwork)
      rw [State.takeWord, he]
      exact if_neg fun h => Nat.not_lt.mpr h.1 (by rw [State.spacing, ← hF]; exact hp)
    · have hexpected : expected = fun q => q.expected F := funext hexp
      subst hexpected
      have hafter : trialsAfter ts x.spacing p (w == Config.alignmentWord) = after := by
        rw [State.spacing, ← hF]
        exact trials_after_word ts after F p w live hlive h1 h2 h3
      have hopen : completed after = false := by
        rw [completed, List.any_eq_false]
        intro q hq
        rw [decide_eq_true_iff, Nat.not_le]
        exact hlt q hq
      refine (exec_alignmentWordFound ..).trans (event_of_idle hx hs.service ?_ hwork)
      rw [State.takeWord, he]
      dsimp only
      rw [if_pos ⟨by rw [State.spacing, ← hF]; exact hp, by rw [State.inService, hs.service]; rfl⟩, hafter, hopen]
      rfl
    · refine (exec_verifyGiveUp ..).trans (event_of_idle hx hs.service ?_ hwork)
      rw [State.takeGiveUp]
      split
      · next e ts he => exact absurd he (hne e ts)
      all_goals rfl
    · refine (exec_alignmentWordFound ..).trans (event_of_idle hx hs.service ?_ hwork)
      rw [State.takeWord]
      split
      · next e ts he => exact absurd he (hne e ts)
      all_goals rfl

/-! ### The entry to UP -/

/-- The expected word of a trial with two confirmations gives the third (06, R112, step 3). -/
theorem completed_trialsAfter {ts : List Trial} {F p : Nat} {q : Trial} (hq : q ∈ ts) (hc : q.confirmations = 2) (hp : q.expected F = p) :
    completed (trialsAfter ts F p true) = true := by
  have hlive : q ∈ ts.filter (fun r => decide (p ≤ r.expected F)) := List.mem_filter.mpr ⟨hq, decide_eq_true hp.ge⟩
  have hany : (ts.filter (fun r => decide (p ≤ r.expected F))).any (fun r => r.expected F == p) = true :=
    List.any_eq_true.mpr ⟨q, hlive, beq_iff_eq.mpr hp⟩
  unfold trialsAfter completed
  dsimp only
  rw [if_pos hany, if_pos rfl]
  refine List.any_eq_true.mpr ⟨_, List.mem_map_of_mem hlive, ?_⟩
  rw [if_pos hp]
  exact decide_eq_true (Nat.succ_le_succ hc.ge)

/-- A plan that is not in DRAIN is not evaluated at a recovery (07, R130). -/
theorem State.resumePlan_of_noDrain {s : State} (h : s.NoDrain) : s.resumePlan = s := by
  rw [State.resumePlan]
  split
  · next q hq =>
    split
    · next expiry hd => exact absurd hd (h q _ hq)
    · next hd => exact absurd hd (h q _ hq)
    · rfl
  · rfl

theorem State.fixedCheck_of_auto {s : State} (h : s.quality.mode = .auto) : s.fixedCheck = s := by
  rw [State.fixedCheck, h]

/-- UNIT_REPORT at the first entry to UP changes nothing but the queues, the errors and the mark (11, R173). -/
theorem State.reportFirstUp_frame (s : State) :
    s.reportFirstUp.waiting = s.waiting ∧ s.reportFirstUp.quality = s.quality := by
  rw [State.reportFirstUp]
  split
  · have h := State.send_same s .link s.unitReport
    exact ⟨h.waiting, h.quality⟩
  · exact ⟨rfl, rfl⟩

/-- The entry to UP where nothing else is due: the reports only (06, R113). -/
theorem State.enterUp_reports {v : State} (hwait : v.waiting = []) (hdrain : v.NoDrain) (hmode : v.quality.mode = .auto) :
    v.enterUp = State.reportFirstUp ((v.setUp v.link.state.hold?.isSome).settlePairs.sendBoth
      (State.linkStateRecord (v.setUp v.link.state.hold?.isSome).settlePairs (if v.link.state.hold?.isSome then .recovered else .found))) := by
  unfold State.enterUp
  dsimp only
  generalize hy : (v.setUp v.link.state.hold?.isSome).settlePairs = y
  generalize hr : y.linkStateRecord (if v.link.state.hold?.isSome then LinkCause.recovered else LinkCause.found) = r
  have hsame := State.sendBoth_same y r
  obtain ⟨hw, hq⟩ := State.reportFirstUp_frame (y.sendBoth r)
  rw [hsame.waiting] at hw
  rw [hsame.quality] at hq
  have hwait' : (y.sendBoth r).reportFirstUp.waiting = [] := hw.trans (by rw [← hy]; exact hwait)
  have hdrain' : (y.sendBoth r).reportFirstUp.NoDrain := fun q timer hp => by
    rw [hq, ← hy] at hp
    exact hdrain q timer hp
  rw [State.serveQueue_of_empty hwait', State.resumePlan_of_noDrain hdrain']
  exact State.fixedCheck_of_auto (by rw [hq, ← hy]; exact hmode)

/-- UNIT_REPORT is computed from the unit's record, the supply state and the test head (11, R173). -/
theorem State.unitReport_congr {s u : State} (hu : u.unit = s.unit) (hr : u.ring = s.ring) (ht : u.testing = s.testing) :
    u.unitReport = s.unitReport := by
  have alone : ∀ v : State, v.unitReport = State.unitReport { State.reset with unit := v.unit, ring := v.ring, testing := v.testing } :=
    fun _ => rfl
  rw [alone u, hu, hr, ht, ← alone s]

/-- Settles O56: the word that completes the trial, and the reports. -/
theorem thirdConfirmationEntersUp : Obligations.ThirdConfirmationEntersUp := by
  intro t p e trials s x y z hx hp hstate hmode hin hthird hy hz
  have hwork : x.work = {} := State.work_of_begin hx
  obtain ⟨q, hq, hconf, hpos⟩ := hthird
  have hcompletes : x.completesAt p = true := by
    rw [State.completesAt, hstate]
    exact List.any_eq_true.mpr ⟨q, hq, by
      rw [Bool.and_eq_true, beq_iff_eq, beq_iff_eq, Trial.expected, hconf]
      exact ⟨rfl, hpos⟩⟩
  have hword : x.takeWord p Config.alignmentWord = z.reportFirstUp := by
    rw [State.takeWord, hstate]
    dsimp only
    rw [if_pos ⟨hin, by rw [State.inService, hp.service]; rfl⟩, beq_self_eq_true,
      completed_trialsAfter hq hconf (by rw [Trial.expected, hconf]; exact hpos), if_pos rfl]
    have hset : (State.setUp { x with link := { x.link with state := .verify e (trialsAfter trials x.spacing p true) } } e.hold.isSome).settlePairs =
        y := by
      rw [hy, ← Option.not_isSome]
      rfl
    refine (State.enterUp_reports (v := { x with link := { x.link with state := .verify e (trialsAfter trials x.spacing p true) } }) hp.still.1
      hp.still.2.1 hmode).trans ?_
    rw [hz]
    exact congrArg (fun w : State => (w.sendBoth (w.linkStateRecord (if e.hold.isSome then .recovered else .found))).reportFirstUp) hset
  have hnot := State.begin_not_halted hx hp.service
  have hentered : exec (.enteringUp t p) s = .next z.reportFirstUp.finish := by
    rw [exec_enteringUp, event_eq hnot, ← hx, if_pos hcompletes, hword]
  have hsame := State.sendBoth_same y (y.linkStateRecord (if e.hold.isSome then .recovered else .found))
  have hyerr : y.ErrorsOk := hp.errors.congr (by rw [hy])
  refine ⟨?_, hentered.trans (congrArg _ ?_)⟩
  · rw [hentered, exec_alignmentWordFound, event_eq hnot, ← hx]
    exact congrArg (fun v : State => Host.Outcome.next v.finish) hword
  · have hquiet : (y.routing .txOverflow).isQuiet = true := hyerr.overflow
    have hzquiet : (z.routing .txOverflow).isQuiet = true := by rw [hz, hsame.routing]; exact hquiet
    have hzwork : z.work = {} := by rw [hz, State.sendBoth_work hquiet, hy]; exact hwork
    have hunit : z.unit = x.unit := by rw [hz, hsame.unit, hy]
    have hreport : z.unitReport = x.unitReport := by
      rw [hz]
      exact State.unitReport_congr (hsame.unit.trans (by rw [hy])) (hsame.ring.trans (by rw [hy])) (hsame.testing.trans (by rw [hy]))
    rw [State.finish_of_idle, State.reportFirstUp, hunit, hreport]
    rw [State.reportFirstUp]
    split
    · exact (State.send_work hzquiet).trans hzwork
    · exact hzwork

end Sys2Proof.Machine
end

section
/-! The loss of sync (06, R114 and R115) and the voice of a damaged frame (05, R101). -/

namespace Sys2Proof.Machine

open Sys2Proof

theorem exec_syncLoss_window (t b r) (s : State) : exec (.syncLoss t (.window b r)) s = event t (fun s => s.takeLosingWindow b r) s := rfl
theorem exec_syncLoss_frame (t f) (s : State) :
    exec (.syncLoss t (.frame f)) s = .next ((s.begin t).takeFrameIf f (fun s => s.frameLoses f)) := rfl

/-! ### The voice of one line -/

theorem deliverBearer_fold_slots (f : RxFrame) (L : List BearerNo) (s : State) : Slots s (L.foldl (State.deliverBearer f) s) := by
  induction L generalizing s with
  | nil => exact .refl s
  | cons k L ih => exact (State.deliverBearer_slots f s k).trans (ih _)

theorem State.deliverBearer_other {f : RxFrame} {s : State} {b : BearerNo} {l : LineNo}
    (h : ∀ c, (s.bearer b).state = .active c → c.line ≠ l) : SameAt s (State.deliverBearer f s b) l := by
  unfold State.deliverBearer
  split
  · next c hc => exact State.deliverLine_other _ _ _ _ (h c hc).symm
  all_goals exact ⟨rfl, rfl, rfl⟩

theorem deliverBearer_fold_other (f : RxFrame) (L : List BearerNo) (s : State) (l : LineNo)
    (h : ∀ b ∈ L, ∀ c, (s.bearer b).state = .active c → c.line ≠ l) : SameAt s (L.foldl (State.deliverBearer f) s) l := by
  induction L generalizing s with
  | nil => exact ⟨rfl, rfl, rfl⟩
  | cons k L ih =>
    refine (State.deliverBearer_other (h k List.mem_cons_self)).trans (ih _ fun b hb c hc => ?_)
    rw [(State.deliverBearer_slots f s k).bearer] at hc
    exact h b (List.mem_cons_of_mem _ hb) c hc

/-- The one ACTIVE bearer of a line is delivered to it, whatever the other bearers' lines are (05, R101). -/
theorem deliverBearer_fold_only (f : RxFrame) (L : List BearerNo) (hn : L.Nodup) (s : State) {b : BearerNo} {c : Call} (hb : b ∈ L)
    (hc : (s.bearer b).state = .active c) (hu : ∀ k d, (s.bearer k).state = .active d → d.line = c.line → k = b) :
    SameAt (s.deliverLine c.line (if damaged f then none else some (s.unitFor f b))) (L.foldl (State.deliverBearer f) s) c.line := by
  induction L generalizing s with
  | nil => cases hb
  | cons k L ih =>
    obtain ⟨hk, hn'⟩ := List.nodup_cons.mp hn
    have S := State.deliverBearer_slots f s k
    rcases eq_or_ne b k with rfl | hne
    · have hbody : State.deliverBearer f s b = s.deliverLine c.line (if damaged f then none else some (s.unitFor f b)) := by
        rw [State.deliverBearer, hc]
      rw [List.foldl_cons, hbody]
      refine deliverBearer_fold_other f L _ c.line fun j hj d hd e => ?_
      rw [(State.deliverLine_slots s c.line _).bearer] at hd
      exact hk (hu j d hd e ▸ hj)
    · have hother : SameAt s (State.deliverBearer f s k) c.line :=
        State.deliverBearer_other fun d hd e => hne (hu k d hd e).symm
      have h := ih hn' (State.deliverBearer f s k) ((List.mem_cons.mp hb).resolve_left hne) (by rw [S.bearer]; exact hc)
        (fun j d hd => by rw [S.bearer] at hd; exact hu j d hd)
      rw [S.unitFor] at h
      exact (State.deliverLine_local _ _ hother).trans h

/-- What a line hears at a delivery to it (05, R101). -/
theorem State.deliverLine_at (s : State) (l : LineNo) (g : Option Block) :
    (s.deliverLine l g).pins.hearing[l.val] = none ∧
    (s.deliverLine l g).pins.voiceOut[l.val] = ((s.coder.conceal[l.val].getD { lastGood := none, run := 0 }).deliver g).1 ∧
    (s.deliverLine l g).coder.conceal[l.val] = some ((s.coder.conceal[l.val].getD { lastGood := none, run := 0 }).deliver g).2 := by
  refine ⟨?_, ?_, ?_⟩ <;> simp [State.deliverLine]

/-! ### The loss -/

theorem SameButErrors.param {s t : State} (h : SameButErrors s t) (p : Param) : t.param p = s.param p :=
  congrArg (fun v : Vector Nat 21 => v[p.index.val]) h.params

/-- The receive side at an unchanged receive rate (05, R102). -/
theorem State.followRate_same {v : State} {f : RxFrame} (h : v.rateAfter f = v.coder.rxRate) :
    v.followRate f = { v with coder := { v.coder with rxCountdown := v.rxCountdownAfter f } } := by
  unfold State.followRate
  dsimp only
  rw [if_pos h]

/-- The fourth damaged frame in a row loses sync (06, R114). -/
theorem State.countDamage_loses {v : State} {f : RxFrame} {bad n : Nat} (h : v.link.state = .up bad n) (hd : damaged f = true) (hn : 3 ≤ n) :
    v.countDamage f = v.loseSync := by
  rw [State.countDamage, h]
  dsimp only
  rw [if_pos hd, if_pos (Nat.succ_le_succ hn)]

/-- The link record rewritten beside the queues. -/
theorem State.send_link (s : State) (p : Port) (r : Record) (k : Link) :
    ({ s.send p r with link := k } : State) = State.send { s with link := k } p r := by
  have h : SameLocal s { s with link := k } := ⟨rfl, rfl, rfl, rfl, rfl⟩
  rw [State.send_local h]
  conv => lhs; rw [(s.send_same p r).eq_takes]
  rfl

/-- Settles O54: the window, the frame, and the voice and number of the frame. -/
theorem syncLossBeginsTheHold : Obligations.SyncLossBeginsTheHold := by
  intro t bad n s x lost hx hm hlost
  have hwork : x.work = {} := State.work_of_begin hx
  refine ⟨fun bits r y hup hrate hy => ⟨fun he hwin hr hbad => ?_, fun h => ?_⟩, fun f v y hv hup hy => ⟨fun hs hd hn hafter hrate => ?_, fun h => ?_⟩,
    fun f b c k u hu hs hup hd hb hone hk => ?_⟩
  · have hlate : x.windowPasses r = false := by
      rw [State.windowPasses, State.decoderRate, State.isUp_of_up hup, if_pos rfl, hrate]
      exact decide_eq_false (Nat.not_le.mpr hr)
    have hloses : (x.windowReported bits && x.windowLoses r) = true := by
      rw [(State.windowReported_iff hm).mpr hwin, State.windowLoses, hup, hlate]
      exact decide_eq_true (Nat.succ_le_succ hbad)
    have hend : x.endWindow r = x.loseSync.beginWindow := by
      rw [State.endWindow, hup, hlate]
      exact congrArg State.beginWindow (if_pos (Nat.succ_le_succ hbad))
    have hbody : x.takeLosingWindow bits r = State.send { y with link := { y.link with
        window := some (x.param .windowLength), carried := false } } .localPort (y.linkStateRecord .lost) := by
      rw [State.takeLosingWindow, if_pos hloses, hend, State.loseSync_of_same_rate x hrate, State.beginWindow, (State.send_same _ _ _).link,
        (State.send_same _ _ _).param, State.send_link, hy, hlost]
      rfl
    have herr : State.ErrorsOk { y with link := { y.link with window := some (x.param .windowLength), carried := false } } :=
      he.congr (by rw [hy, hlost])
    refine (exec_syncLoss_window ..).trans (event_of_idle hx hm hbody ((State.send_work herr.overflow).trans ?_))
    rw [hy, hlost]
    exact hwork
  · have hkeeps : (x.windowReported bits && x.windowLoses r) = false := by
      rw [Bool.and_eq_false_iff]
      rcases h with h | h | h
      · exact .inl (Bool.eq_false_iff.mpr (mt (State.windowReported_iff hm).mp h))
      · right
        rw [State.windowLoses, hup, State.windowPasses, State.decoderRate, State.isUp_of_up hup, if_pos rfl, hrate]
        dsimp only
        rw [decide_eq_true h]
        rfl
      · right
        rw [State.windowLoses, hup, h]
        exact Bool.and_false _
    exact (exec_syncLoss_window ..).trans (event_of_idle hx hm (if_neg (Bool.eq_false_iff.mp hkeeps)) hwork)
  · have hloses : (v.takesFrames && v.frameLoses f) = true := by
      rw [State.takesFrames, State.isUp_of_up hup, State.inService, hs, State.frameLoses, hup, hd]
      exact decide_eq_true (Nat.succ_le_succ hn)
    have htakes : v.takesFrames = true := (Bool.and_eq_true_iff.mp hloses).1
    have hclose : v.closeFrame f = State.send { y with link := { y.link with carried := true } } .localPort (y.linkStateRecord .lost) := by
      have hlosing : (v.followRate f).countDamage f = State.send { y with link := { y.link with carried := true } } .localPort
          (y.linkStateRecord .lost) := by
        rw [State.followRate_same hafter, hy, hlost]
        exact (State.countDamage_loses (v := { v with coder := { v.coder with rxCountdown := v.rxCountdownAfter f } }) hup hd hn).trans
          (State.loseSync_of_same_rate _ hrate)
      have hdown : State.isUp (State.send { y with link := { y.link with carried := true } } .localPort (y.linkStateRecord .lost)) = false := by
        rw [State.isUp, (State.send_same _ _ _).link, hy, hlost]
        rfl
      rw [State.closeFrame, if_pos htakes]
      dsimp only
      rw [hlosing, if_neg fun h => Bool.eq_false_iff.mp hdown h.1]
    rw [exec_syncLoss_frame, ← hx, State.takeFrameIf, ← hv, if_pos hloses, State.takeFrame, ← hv, hclose]
  · have hkeeps : (v.takesFrames && v.frameLoses f) = false := by
      rw [Bool.and_eq_false_iff]
      right
      rw [State.frameLoses, hup]
      rcases h with h | h
      · rw [h]
        rfl
      · exact Bool.and_eq_false_iff.mpr (.inr (decide_eq_false (by omega)))
    rw [exec_syncLoss_frame, ← hx, State.takeFrameIf, ← hv, hkeeps]
    rfl
  · have hopen : u = ({ x with coder := { x.coder with expected := x.coder.expected.map (· + 1) } } : State).deliverFrame f := by
      rw [hu, State.openFrame, State.takesFrames, hup, State.inService, hs.service, hs.clean.checkParity, State.takeNumber, if_pos hd]
      rfl
    have hslots := deliverBearer_fold_slots f allBearers { x with coder := { x.coder with expected := x.coder.expected.map (· + 1) } }
    have hline := deliverBearer_fold_only f allBearers allBearers_nodup
      { x with coder := { x.coder with expected := x.coder.expected.map (· + 1) } } (allBearers_mem b) hb hone
    rw [← State.deliverFrame_eq_fold, ← hopen] at hslots hline
    obtain ⟨h1, h2, h3⟩ := hline
    rw [if_pos hd] at h1 h2 h3
    have hdelivered : ((x.coder.conceal[c.line.val].getD { lastGood := none, run := 0 }).deliver none) =
        (if k.run = 0 then k.lastGood.getD Config.silenceBlock else Config.silenceBlock, { k with run := if k.run = 0 then 1 else 2 }) := by
      rw [hk]
      unfold Conceal.deliver
      dsimp only [Option.getD_some]
      split <;> rfl
    obtain ⟨g1, g2, g3⟩ := State.deliverLine_at { x with coder := { x.coder with expected := x.coder.expected.map (· + 1) } } c.line none
    refine ⟨h1.trans g1, (h2.trans g2).trans (congrArg Prod.fst hdelivered), (h3.trans g3).trans (congrArg (fun d => some (Prod.snd d)) hdelivered), ?_⟩
    · exact congrArg (fun w : State => w.coder.expected) hslots.eq

end Sys2Proof.Machine
end

section
/-! The receive rate (05, R102) and the BER window (07, R122 to R127) of a frame arrival. -/

namespace Sys2Proof.Machine

open Sys2Proof

theorem exec_receiveSwitch (t f) (s : State) : exec (.receiveSwitch t f) s =
    .next ((s.begin t).takeFrameIf f (fun s => decide (s.rateAfter f ≠ s.coder.rxRate))) := rfl
theorem exec_berWindowEnd (t f) (s : State) : exec (.berWindowEnd t f) s = .next ((s.begin t).takeFrameIf f (fun s => s.windowFills f)) := rfl

/-! ### The receive countdown -/

/-- The cabinet's own target (05, R102). -/
theorem State.ownTarget_iff {x : State} {r : Rate} : x.ownTarget r = true ↔
    (∃ a, x.link.announcement = some a ∧ a.next = r) ∨ x.link.switchDue = some r ∨ (x.link.rate = r ∧ x.link.rate ≠ x.coder.rxRate) := by
  rw [State.ownTarget, Bool.or_eq_true, Bool.or_eq_true, Bool.and_eq_true, beq_iff_eq, beq_iff_eq, beq_iff_eq, bne_iff_ne,
    Option.map_eq_some_iff, or_assoc]

section
variable {x : State} {f : RxFrame}

theorem State.switchOverdue_true {k : Nat} (hk : x.coder.sinceSwitch = some k) (h : 16 ≤ k) (hr : x.coder.rxRate ≠ x.link.rate) :
    x.switchOverdue = true := by
  rw [State.switchOverdue, hk]
  dsimp only
  rw [decide_eq_true h, decide_eq_true hr]
  rfl

theorem State.switchOverdue_false (h : x.coder.sinceSwitch = none ∨ (∃ k, x.coder.sinceSwitch = some k ∧ k < 16) ∨ x.coder.rxRate = x.link.rate) :
    x.switchOverdue = false := by
  rw [State.switchOverdue]
  split
  · next n hn =>
    rcases h with h | ⟨k, h, hk⟩ | h
    · rw [h] at hn
      cases hn
    · rw [h] at hn
      cases hn
      rw [decide_eq_false (Nat.not_le.mpr hk), Bool.false_and]
    · rw [decide_eq_false (not_not.mpr h), Bool.and_false]
  · rfl

/-- The rate and the countdown by the frame's countdown, where the switch is not overdue (05, R102, steps 1 to 3). -/
theorem State.rateAfter_of {c : RxCountdown} (h : x.switchOverdue = false) (hc : x.countdownAt f = some c) :
    x.rateAfter f = (if c.count = 1 then c.next else x.coder.rxRate) ∧ x.rxCountdownAfter f = if 2 ≤ c.count then some c else none := by
  rw [State.rateAfter, State.rxCountdownAfter, h, hc]
  exact ⟨rfl, rfl⟩

theorem State.rateAfter_of_none (h : x.switchOverdue = false) (hc : x.countdownAt f = none) :
    x.rateAfter f = x.coder.rxRate ∧ x.rxCountdownAfter f = none := by
  rw [State.rateAfter, State.rxCountdownAfter, h, hc]
  exact ⟨rfl, rfl⟩

/-- The counts of a frame at which the receive rate changes (05, R102; 06, R114; 07, R122). -/
theorem State.closeFrame_of_change {v : State} {bad n : Nat} (hs : v.unit.mode = .service) (hup : v.link.state = .up bad n)
    (hr : v.rateAfter f ≠ v.coder.rxRate) (hd : damaged f = false ∨ n < 3) :
    v.closeFrame f = { v with
      link := { v.link with
        state := .up bad (if damaged f then n + 1 else 0)
        candidate := v.link.candidate % 2
        lastGood := v.link.lastGood % 2
        window := v.link.window.map (fun _ => v.param .windowLength)
        carried := false }
      quality := { v.quality with window := none }
      coder := { v.coder with
        rxRate := v.rateAfter f
        rxCountdown := v.rxCountdownAfter f
        sinceSwitch := if v.rateAfter f = v.link.rate then none else v.coder.sinceSwitch
        relocations := settleIn (v.rateAfter f) false v.coder.relocations } } := by
  have htakes : v.takesFrames = true := by rw [State.takesFrames, State.isUp_of_up hup, State.inService, hs]; rfl
  have hfollow : v.followRate f = State.setRxRate { v with coder := { v.coder with rxCountdown := v.rxCountdownAfter f } } (v.rateAfter f) := by
    unfold State.followRate
    dsimp only
    rw [if_neg hr]
  have hchanged := State.setRxRate_of_ne { v with coder := { v.coder with rxCountdown := v.rxCountdownAfter f } } (R := v.rateAfter f) hr.symm
  have hstill : (v.followRate f).link.state = .up bad n := by
    rw [hfollow, hchanged]
    show v.link.state.restartSearch = _
    rw [hup]
    rfl
  rw [State.closeFrame, if_pos htakes]
  dsimp only
  rw [State.countDamage_of_up hstill hd, hfollow, hchanged]
  exact if_neg fun h => hr h.2

end

/-- Settles O53: the countdown by its cases, the switch, and the pairs that go. -/
theorem receiveRateFollows : Obligations.ReceiveRateFollows := by
  intro t f bad n s x y target announced hx htarget hannounced
  have hown : ∀ r c, announced r c ↔ x.announcedBy f = some { next := r, count := c } := fun r c => by
    rw [hannounced, x.announcedBy_eq_some, State.ownTarget_iff, htarget]
  refine ⟨fun k hk h16 hr => ?_, fun h => ⟨fun r c ha => ?_, fun hno => ⟨fun hnone => ?_, fun k hk => ?_⟩⟩, fun hy hs hup hr hd => ?_, fun r m k => ?_⟩
  · rw [State.rateAfter, State.rxCountdownAfter, State.switchOverdue_true hk h16 hr]
    exact ⟨rfl, rfl⟩
  · exact State.rateAfter_of (c := { next := r, count := c }) (State.switchOverdue_false h) (by rw [State.countdownAt, (hown r c).mp ha])
  · have hnot : x.announcedBy f = none := Option.eq_none_iff_forall_ne_some.mpr fun c hc => hno c.next c.count ((hown _ _).mpr hc)
    exact State.rateAfter_of_none (State.switchOverdue_false h) (by rw [State.countdownAt, hnot, hnone]; rfl)
  · have hnot : x.announcedBy f = none := Option.eq_none_iff_forall_ne_some.mpr fun c hc => hno c.next c.count ((hown _ _).mpr hc)
    obtain ⟨h1, h2⟩ := State.rateAfter_of (c := { k with count := k.count - 1 }) (State.switchOverdue_false h) (by rw [State.countdownAt, hnot, hk]; rfl)
    refine ⟨h1.trans (if_congr ?_ rfl rfl), h2.trans (if_congr ?_ rfl rfl)⟩ <;> (dsimp only; omega)
  · have htakes : y.takesFrames = true := by rw [State.takesFrames, State.isUp_of_up hup, State.inService, hs]; rfl
    rw [exec_receiveSwitch, ← hx, State.takeFrameIf, ← hy, htakes, decide_eq_true hr, State.takeFrame, ← hy,
      State.closeFrame_of_change hs hup hr hd]
    rfl
  · refine ⟨?_, fun hm hk => ?_, fun hm hk => ?_⟩
    · simp [settleIn, and_comm]
    · by_cases hrm : r = m.target
      · simp [settleIn, hm, hk, hrm]
      · by_cases hrk : r = k.target <;> simp [settleIn, hm, hk, hrm, hrk]
    · by_cases hrm : r = m.target
      · simp [settleIn, hm, hk, hrm]
      · by_cases hrk : r = k.target <;> simp [settleIn, hm, hk, hrm, hrk]


/-! ### The decisions -/

theorem State.downCondition_iff {z : State} {r : Rate} : z.downCondition r = true ↔
    (r = .wide ∧ z.param .downW < z.quality.decision) ∨ (r = .standard ∧ z.param .downS < z.quality.decision) := by
  cases r <;> simp [State.downCondition]

theorem State.upCondition_iff {z : State} {r : Rate} : z.upCondition r = true ↔
    (r = .standard ∧ z.quality.decision < z.param .upS) ∨ (r = .robust ∧ z.quality.decision < z.param .upR) := by
  cases r <;> simp [State.upCondition]

theorem State.isCritical_iff {z : State} : z.isCritical = true ↔ z.param .critical < z.quality.decision := decide_eq_true_iff

section
variable {z : State}

/-- While a rate change is in progress or the rate mode is FIXED the runs are 0 (07, R125). -/
theorem State.decideOrHold_holds (h : z.quality.mode ≠ .auto ∨ z.changing = true)
    (hc : z.quality.decision ≤ z.param .critical ∨ z.quality.plan = none) : z.decideOrHold = z.setRuns 0 0 := by
  rw [State.decideOrHold, if_neg]
  · dsimp only
    split
    · next hcrit =>
      have hplan : (z.setRuns 0 0).quality.plan = none := hc.resolve_left (Nat.not_le.mpr (State.isCritical_iff.mp hcrit))
      rw [State.stepPlan, hplan]
    · rfl
  · rintro ⟨h1, h2, _⟩
    rcases h with h | h
    · exact h h1
    · rw [h] at h2
      cases h2

theorem State.decideOrHold_decides (hm : z.quality.mode = .auto) (hc : z.changing = false) (hu : z.isUp = true) :
    z.decideOrHold = z.decideRate := by
  rw [State.decideOrHold, if_pos ⟨hm, by rw [hc]; rfl, hu⟩]

/-- A step-down with no call to move (07, R125, R128 and R129). -/
theorem State.decideRate_down (hu : z.isUp = true) (hc : z.Clean) (hr : z.link.rate ≠ .robust)
    (h : z.param .critical < z.quality.decision ∨ (z.downCondition z.link.rate = true ∧ z.param .downRunLength ≤ z.quality.downRun + 1))
    (hcalls : ∀ b : BearerNo, z.link.rate.below.capacity ≤ b.val → (z.bearer b).state.call? = none) :
    z.decideRate = { z with
      link := { z.link with announcement := some { next := z.link.rate.below, countdown := 8 } }
      quality := { z.quality with
        downRun := 0, upRun := 0, plan := some { target := z.link.rate.below, phase := .countdown [], forced := false } } } := by
  have hplanned : ∀ c, z.stepDown c = _ := fun c => State.createPlan_of_no_calls (z.setRuns 0 0) z.link.rate.below c hu hc hcalls
  unfold State.decideRate
  dsimp only
  by_cases hcrit : z.link.rate ≠ .robust ∧ z.isCritical
  · rw [if_pos hcrit, hplanned]
    rfl
  · obtain ⟨hd, hrun⟩ := h.resolve_left fun h => hcrit ⟨hr, State.isCritical_iff.mpr h⟩
    rw [if_neg hcrit, if_pos hd, if_pos hrun, hplanned]
    rfl

variable (hcalm : z.link.rate = .robust ∨ z.quality.decision ≤ z.param .critical)
include hcalm

theorem State.decideRate_calm : z.decideRate = if z.downCondition z.link.rate then
      if z.param .downRunLength ≤ z.quality.downRun + 1 then z.stepDown false else z.setRuns (z.quality.downRun + 1) 0
    else if z.upCondition z.link.rate then
      if z.param .upRunLength ≤ z.quality.upRun + 1 then z.stepUp else z.setRuns 0 (z.quality.upRun + 1)
    else z.setRuns 0 0 := by
  unfold State.decideRate
  dsimp only
  rw [if_neg]
  rintro ⟨hr, hcrit⟩
  exact Nat.not_lt.mpr (hcalm.resolve_left hr) (State.isCritical_iff.mp hcrit)

end

/-- Settles O57: the window that is full, and its decision. -/
theorem berWindowIsJudged : Obligations.BerWindowIsJudged := by
  intro t f bad n e q d dn up w plan told down better s x y below hx hy hs hup hrate hd hw hfull he hq hdq hdown hbetter hbelow hcases
  have htakes : y.takesFrames = true := by rw [State.takesFrames, State.isUp_of_up hup, State.inService, hs.service]; rfl
  have hwindow : y.windowWith (disagreementsOf y.coder.rxRate f) = w := hw.symm
  have hkeeps : y.frameLoses f = false := by
    rw [State.frameLoses, hup]
    rcases hd with h | h
    · rw [h]
      rfl
    · exact Bool.and_eq_false_iff.mpr (.inr (decide_eq_false (by omega)))
  have hfills : y.windowFills f = true := by
    rw [State.windowFills, hwindow, decide_eq_true hfull, hkeeps, decide_eq_true hrate]
    rfl
  obtain ⟨z, hz⟩ : ∃ z : State, z = { y with
      link := { y.link with state := .up bad (if damaged f then n + 1 else 0) }
      coder := { y.coder with rxCountdown := y.rxCountdownAfter f }
      quality := { y.quality with window := none, firstWindow := false, estimate := e, qNear := q, decision := d } } := ⟨_, rfl⟩
  have hjudged : y.closeFrame f = z.decideOrHold := by
    rw [State.closeFrame_of_up hs.service hup hrate hd, hz, hdq, hq, he]
    exact State.countFrame_of_full _ _ w hwindow hfull
  have hexec : ∀ v, z.decideOrHold = v → exec (.berWindowEnd t f) s = .next v.finish := fun v hv => by
    rw [exec_berWindowEnd, ← hx, State.takeFrameIf, ← hy, htakes, hfills, State.takeFrame, ← hy, hjudged, hv]
    rfl
  refine hexec _ ?_
  have hdecision : z.quality.decision = d := by rw [hz]
  have hrateZ : z.link.rate = y.link.rate := by rw [hz]
  have hdownZ : z.downCondition z.link.rate = true ↔ down := by
    rw [State.downCondition_iff, hdown, hz]
    exact Iff.rfl
  have hbetterZ : z.upCondition z.link.rate = true ↔ better := by
    rw [State.upCondition_iff, hbetter, hz]
    exact Iff.rfl
  rcases hcases with ⟨hbusy, hcalm, rfl, rfl, rfl, rfl⟩ | ⟨hauto, hidle, hcases⟩
  · have hchanging : z.changing = y.changing := by rw [hz]; rfl
    rw [State.decideOrHold_holds (by rw [hchanging, hz]; exact hbusy) (by rw [hz]; exact hcalm), hz]
    rfl
  · have hupZ : z.isUp = true := by rw [hz]; rfl
    have hchanging : z.changing = false := by rw [hz]; exact hidle
    rw [State.decideOrHold_decides (by rw [hz]; exact hauto) hchanging hupZ]
    rw [State.changing, Bool.or_eq_false_iff, Bool.or_eq_false_iff, Option.isSome_eq_false_iff, Option.isSome_eq_false_iff,
      Option.isNone_iff_eq_none, Option.isNone_iff_eq_none] at hidle
    obtain ⟨⟨hnoPlan, hnoTold⟩, -⟩ := hidle
    rcases hcases with ⟨hr, hdrop, hcalls, rfl, rfl, rfl, rfl⟩ | ⟨hcalm, rfl, hcases⟩
    · have hbelowZ : z.link.rate.below = below := by
        rw [hrateZ, hbelow]
        cases h : y.link.rate with
        | robust => exact absurd h hr
        | standard | wide => rfl
      rw [State.decideRate_down hupZ (hz ▸ hs.clean) (hrateZ ▸ hr), hbelowZ, hz]
      · rw [hdownZ, hdecision]
        rw [hz]
        exact hdrop
      · rw [hbelowZ, hz]
        exact hcalls
    · rw [State.decideRate_calm (by rw [hrateZ, hdecision, hz]; exact hcalm)]
      rcases hcases with ⟨hyes, hrun, rfl, rfl, rfl⟩ | ⟨hno, hyes, hrun, rfl, rfl, rfl⟩ | ⟨hno, hyes, hrun, rfl, rfl, rfl⟩ | ⟨hno, hno', rfl, rfl, rfl⟩
      · rw [if_pos (hdownZ.mpr hyes), if_neg (by rw [hz]; exact Nat.not_le.mpr hrun), hz, ← hnoPlan, ← hnoTold]
        rfl
      · rw [if_neg (mt hdownZ.mp hno), if_pos (hbetterZ.mpr hyes), if_neg (by rw [hz]; exact Nat.not_le.mpr hrun), hz, ← hnoPlan, ← hnoTold]
        rfl
      · have habove : z.link.rate.above = if y.link.rate = .robust then .standard else .wide := by
          rw [hrateZ]
          cases y.link.rate <;> rfl
        rw [if_neg (mt hdownZ.mp hno), if_pos (hbetterZ.mpr hyes), if_pos (by rw [hz]; exact hrun), ← habove, hz, ← hnoPlan]
        rfl
      · rw [if_neg (mt hdownZ.mp hno), if_neg (mt hbetterZ.mp hno'), hz, ← hnoPlan, ← hnoTold]
        rfl

end Sys2Proof.Machine
end

section
/-! The frame given to the modem (05, R95 to R97), the transmit switch (05, R103; 07, R134) and the frame taken (05, R98 to R104). -/

namespace Sys2Proof.Machine

open Sys2Proof

/-! ### The frame given to the modem -/

/-- In START and DISABLED a frame is bare (05, R95). -/
theorem State.frameKind_bare {x : State} (h : x.unit.mode = .start ∨ x.link.state = .disabled) : x.frameKind = .bare := by
  rw [State.frameKind]
  rcases h with h | h
  · rw [if_pos h]
  · rw [h]
    exact ite_self _

theorem State.frameKind_full {x : State} (hm : x.unit.mode = .service) (hu : x.isUp = true) : x.frameKind = .full := by
  rw [State.frameKind, if_neg (by rw [hm]; exact UnitMode.noConfusion)]
  rw [State.isUp] at hu
  cases h : x.link.state with
  | up bad n => rfl
  | disabled | hunt e | verify e ts =>
    rw [h] at hu
    cases hu

theorem State.frameKind_searching {x : State} (hm : x.unit.mode = .service) (hu : x.isUp = false) (hd : x.link.state ≠ .disabled) :
    x.frameKind = .searching := by
  rw [State.frameKind, if_neg (by rw [hm]; exact UnitMode.noConfusion)]
  rw [State.isUp] at hu
  cases h : x.link.state with
  | disabled => exact absurd h hd
  | hunt e | verify e ts => rfl
  | up bad n =>
    rw [h] at hu
    cases hu

/-- The info bytes from their parts (05, R90; 08, R140). -/
theorem State.frameInfo_of {y : State} {k : FrameKind} {r : Rate} {control : Byte} {audit : List Byte} {message : Record}
    {payload : BearerNo → Block} (hr : y.frameRate k = r) (hc : y.frameControl k = control) (ha : y.auditSlot k = audit)
    (hm : y.messageSlot k = message) (hp : ∀ b, y.payload k b = payload b) :
    y.frameInfo k = [0xD3, 0x5A, y.coder.txNumber, control] ++ audit ++ recordWire message ++
      (allBearers.filter (fun b => decide (b.val < r.capacity))).flatMap (fun b => blockBytes (payload b)) := by
  subst hr hc ha hm
  obtain rfl : y.payload k = payload := funext hp
  rfl

/-- The voice of an ACTIVE bearer's line, and the idle pattern for another (02, R44 and R45). -/
theorem State.payload_eq {y : State} {k : FrameKind} (hk : k ≠ .bare) (b : BearerNo) : y.payload k b = match (y.bearer b).state with
    | .active c => y.pins.voiceIn[c.line.val]
    | _ => Config.idleBlock := by
  cases k with
  | bare => exact absurd rfl hk
  | searching | full =>
    unfold State.payload
    dsimp only
    cases (y.bearer b).state <;> rfl

/-- Settles O50: a command off the grid, and the frame of each kind. -/
theorem frameIsAssembled : Obligations.FrameIsAssembled := by
  intro t v s x hx hm hc
  have hwork : x.work = {} := State.work_of_begin hx
  have hnot : s.unit.mode ≠ .halted := by rw [hx] at hm; exact hm
  have assembled : exec (.frameAssembly t v) s = .next (x.assemble v).finish := by
    rw [exec_frameAssembly, event_eq hnot, ← hx]
  refine ⟨fun hoff => ?_, fun hon hno r control audit message payload queue info b st hb hst hkind hinfo => ?_⟩
  · rw [assembled, State.assemble, if_neg (mt State.onGrid_iff.mp hoff), State.finish_of_idle hwork]
  · obtain ⟨y, hy⟩ : ∃ y : State, y = { x with pins := { x.pins with voiceIn := v } } := ⟨_, rfl⟩
    have hkindY : y.frameKind = x.frameKind := by rw [hy]; rfl
    have hframe : y.frameRate y.frameKind = r ∧ y.frameInfo y.frameKind = info ∧ y.queueAfterFrame = queue := by
      have hcontrolOf : ∀ k, k ≠ .bare → y.frameControl k = match x.link.announcement with
          | some a => controlByte x.link.rate a.next a.countdown
          | none => controlByte x.link.rate x.link.rate 0 := fun k hk => by
        rw [hy]
        cases k with
        | bare => exact absurd rfl hk
        | searching | full =>
          rfl
      have hpayloadOf : ∀ k, k ≠ .bare → ∀ b, y.payload k b = match (x.bearer b).state with
          | .active c => v[c.line.val]
          | _ => Config.idleBlock := fun k hk b => by
        rw [State.payload_eq hk, hy]
        rfl
      have hnumber : x.coder.txNumber = y.coder.txNumber := by rw [hy]
      rw [hkindY, hinfo, hnumber]
      rcases hkind with ⟨hbare, rfl, rfl, rfl, rfl, rfl, hpay⟩ | ⟨hs, hne, rfl, rfl, hpay, hkind⟩
      · rw [State.queueAfterFrame, hkindY, State.frameKind_bare hbare]
        exact ⟨rfl, State.frameInfo_of rfl rfl rfl rfl fun k => (hpay k).symm, by rw [hy]⟩
      · rcases hkind with ⟨hu, rfl, rfl, rfl⟩ | ⟨hu, rfl, rfl, rfl⟩
        · rw [State.queueAfterFrame, hkindY, State.frameKind_searching hs hu hne]
          refine ⟨by rw [hy]; rfl, State.frameInfo_of (by rw [hy]; rfl) (hcontrolOf _ FrameKind.noConfusion) rfl rfl fun k => ?_, by rw [hy]⟩
          exact (hpayloadOf _ FrameKind.noConfusion k).trans (hpay k).symm
        · rw [State.queueAfterFrame, hkindY, State.frameKind_full hs hu]
          refine ⟨by rw [hy]; rfl, State.frameInfo_of (by rw [hy]; rfl) (hcontrolOf _ FrameKind.noConfusion) ?_ (by rw [hy]; rfl) fun k => ?_, by rw [hy]⟩
          · have hb' : auditedBearer x.coder.txNumber = b := Fin.ext hb.symm
            have hfields : st.auditFields = (lineByteOr (st.call?.map (·.line)), (st.call?.map (·.reference)).getD 0) := by
              unfold BearerState.auditFields
              cases st.call? <;> rfl
            have haudit : y.auditSlot .full = auditBytes (bearerByte (auditedBearer x.coder.txNumber))
                (View.code (x.bearer (auditedBearer x.coder.txNumber)).state.view)
                (x.bearer (auditedBearer x.coder.txNumber)).state.auditFields.1 (x.bearer (auditedBearer x.coder.txNumber)).state.auditFields.2
                (BitVec.ofNat 16 x.quality.qNear) := by
              rw [hy]
              rfl
            rw [haudit, hb', ← hst, hfields]
          · exact (hpayloadOf _ FrameKind.noConfusion k).trans (hpay k).symm
    obtain ⟨hr, hi, hq⟩ := hframe
    have hsent := State.sendFrame_of_no_switch (x := y) (by rw [hy]; exact hc) (by rw [hy]; exact hno)
    have hbody : x.assemble v = y.sendFrame := by
      rw [State.assemble, if_pos (State.onGrid_iff.mpr hon), hy]
      dsimp only
      rw [hno]
      rfl
    refine ⟨?_, ?_⟩
    · rw [← hi, ← hr]
      exact y.frameInfo_length
    · rw [assembled, hbody, hsent, hr, hi, hq, hy]
      exact congrArg _ (State.finish_of_idle hwork)

end Sys2Proof.Machine
end

section
/-! The transmit switch of a link that is UP (05, R103; 07, R134; 02, R30). -/

namespace Sys2Proof.Machine

open Sys2Proof

/-! ### The state after the switch -/

/-- The state in which the switch frame is assembled: the rate, the transfers, the capacity and the end of the plan (07, R134). -/
def State.switched (x : State) (r : Rate) (pairs : List Pair) : State :=
  (State.switchEnded (State.capped (pairs.foldl State.transferred (State.rateTo x r)))).settlePairs

/-- The state a bearer is in under a capacity (02, R30). -/
theorem BearerState.under_eq (st : BearerState) (k : Nat) (b : BearerNo) : st.under k b = if b.val < k then
      (if st = .unavailable true then .blocked .maintenance else if st = .unavailable false then .free else st)
    else .unavailable st.maintenance := by
  unfold BearerState.under
  split
  · cases st with
    | unavailable held => cases held <;> rfl
    | free | heldOut c _ _ | heldIn c | heldMove | active c | guarded r e k | blocked c => rfl
  · cases st with
    | blocked c => cases c <;> rfl
    | unavailable held | free | heldOut c _ _ | heldIn c | heldMove | active c | guarded r e k => rfl

/-- A call that is provided stays (02, R30). -/
theorem BearerState.under_of_call {st : BearerState} {c : Call} {k : Nat} {b : BearerNo} (h : st.call? = some c) (hb : b.val < k) :
    (st.withTarget none).under k b = st.withTarget none := by
  rw [BearerState.under, if_pos hb]
  cases st with
  | heldOut c _ _ | heldIn c | active c => rfl
  | unavailable held | free | heldMove | guarded r e k | blocked c => cases h

section
variable {x : State} {r : Rate} {pairs : List Pair} (hok : PairsOk (State.rateTo x r) r.capacity pairs)
include hok

/-- What the switch changes: the rate, the plan, the relocations, and the records of the bearers and lines of the pairs. -/
theorem State.switched_frame : x.switched r pairs = { x with
    link := { x.link with rate := r, announcement := none, switchDue := none }
    quality := { x.quality with plan := none, window := none, downRun := 0, upRun := 0 }
    coder := { x.coder with
      relocations := settleIn x.coder.rxRate false (x.coder.relocations.map fun m : Relocation => { m with switched := true })
      sinceSwitch := if x.coder.rxRate = r then none else some 0 }
    active := x.active.map (fun b => ((pairs.find? (fun p => p.source == b)).map (·.dest)).getD b)
    bearers := (x.switched r pairs).bearers
    lines := (x.switched r pairs).lines } := by
  have hW := (State.transferred_fold pairs r.capacity (State.rateTo x r) hok).1
  unfold State.switched
  generalize pairs.foldl State.transferred (State.rateTo x r) = W at hW ⊢
  have hV := (State.capped_facts W).1
  generalize State.capped W = V at hV ⊢
  rw [hW] at hV
  rw [hV]
  rfl

theorem State.switched_bearer (b : BearerNo) : (x.switched r pairs).bearer b =
    if ((pairs.foldl State.transferred (State.rateTo x r)).bearer b).state =
        ((pairs.foldl State.transferred (State.rateTo x r)).bearer b).state.under r.capacity b
      then (pairs.foldl State.transferred (State.rateTo x r)).bearer b
      else ((pairs.foldl State.transferred (State.rateTo x r)).bearer b).moved
        (((pairs.foldl State.transferred (State.rateTo x r)).bearer b).state.under r.capacity b) x.now := by
  have hW := (State.transferred_fold pairs r.capacity (State.rateTo x r) hok).1
  unfold State.switched
  generalize pairs.foldl State.transferred (State.rateTo x r) = W at hW ⊢
  have hV := (State.capped_facts W).2 b
  rw [show W.capacity = r.capacity by rw [hW]; rfl, show W.now = x.now by rw [hW]; rfl] at hV
  generalize State.capped W = V at hV ⊢
  exact hV

/-- A destination has its source's call, without its target (07, R134, step 1). -/
theorem State.switched_dest {p : Pair} (hp : p ∈ pairs) :
    (x.switched r pairs).bearer p.dest = (x.bearer p.dest).moved ((x.bearer p.source).state.withTarget none) x.now := by
  obtain ⟨-, hdest, c, hcall, -⟩ := hok.ok p hp
  have hmoved := (State.transferred_fold pairs r.capacity (State.rateTo x r) hok).2.1 p hp
  have hunder : ((x.bearer p.source).state.withTarget none).under r.capacity p.dest = (x.bearer p.source).state.withTarget none :=
    BearerState.under_of_call hcall hdest
  rw [State.switched_bearer hok, hmoved]
  exact if_pos hunder.symm

/-- Another bearer is in the state that the new capacity gives it (02, R30). -/
theorem State.switched_other {b : BearerNo} (hb : ∀ p ∈ pairs, p.dest ≠ b) : (x.switched r pairs).bearer b =
    if (x.bearer b).state = (x.bearer b).state.under r.capacity b then x.bearer b
      else (x.bearer b).moved ((x.bearer b).state.under r.capacity b) x.now := by
  have hkept := (State.transferred_fold pairs r.capacity (State.rateTo x r) hok).2.2.1 b hb
  rw [State.switched_bearer hok, hkept]
  rfl

omit hok in
theorem State.switched_line (l : LineNo) :
    (x.switched r pairs).line l = (pairs.foldl State.transferred (State.rateTo x r)).line l := by
  unfold State.switched
  generalize pairs.foldl State.transferred (State.rateTo x r) = W
  have hV := (State.capped_facts W).1
  generalize State.capped W = V at hV ⊢
  show V.line l = W.line l
  rw [hV]
  rfl

/-- A line's record after the switch: that of a moved call names its destination (07, R134, step 3). -/
theorem State.switched_lines :
    (∀ p ∈ pairs, ∀ c, (x.bearer p.source).state.call? = some c →
      (x.switched r pairs).line c.line = { x.line c.line with state := (x.line c.line).state.withBearer p.dest }) ∧
    ∀ l, (∀ p ∈ pairs, ∀ c, (x.bearer p.source).state.call? = some c → c.line ≠ l) → (x.switched r pairs).line l = x.line l := by
  have hfold := (State.transferred_fold pairs r.capacity (State.rateTo x r) hok).2.2.2
  refine ⟨fun p hp c hc => ?_, fun l hl => ?_⟩
  · rw [State.switched_line]
    exact hfold.1 p hp c hc
  · rw [State.switched_line]
    exact hfold.2 l hl

/-- The test due times stand at a switch. -/
theorem State.switched_testDue (l : LineNo) : ((x.switched r pairs).line l).testDue = (x.line l).testDue := by
  obtain ⟨hmoved, hkept⟩ := State.switched_lines hok
  by_cases h : ∃ p ∈ pairs, ∃ c, (x.bearer p.source).state.call? = some c ∧ c.line = l
  · obtain ⟨p, hp, c, hc, rfl⟩ := h
    rw [hmoved p hp c hc]
  · rw [hkept l fun p hp c hc e => h ⟨p, hp, c, hc, e⟩]

end

/-- The pairs of a plan in COUNTDOWN, and none without a plan. -/
theorem State.planPairs_of {x : State} {r : Rate} {pairs : List Pair} (h : pairs = [] ∧ x.quality.plan = none ∨
    ∃ forced, x.quality.plan = some { target := r, phase := .countdown pairs, forced := forced }) : x.planPairs = pairs := by
  rcases h with ⟨rfl, h⟩ | ⟨forced, h⟩ <;> rw [State.planPairs, h]

/-- A fixed rate that is the link record's asks for nothing (07, R136). -/
theorem State.fixedCheck_of_rate {x : State} (h : x.quality.mode = .auto ∨ x.quality.mode = .fixed x.link.rate) : x.fixedCheck = x := by
  rcases h with h | h
  · exact State.fixedCheck_of_auto h
  · unfold State.fixedCheck
    rw [h]
    simp only [Nat.lt_irrefl, if_false, ite_self]

/-- Settles O51: the switch, then the frame at the new rate. -/
theorem switchMovesTheCalls : Obligations.SwitchMovesTheCalls := by
  intro t v r pairs s x hx hs hidle hup hwait hon hdue hmode hplan hsrc hdst hpairs
  have hwork : x.work = {} := State.work_of_begin hx
  obtain ⟨y, hy⟩ : ∃ y : State, y = { x with pins := { x.pins with voiceIn := v } } := ⟨_, rfl⟩
  have hok : PairsOk (State.rateTo y r) r.capacity pairs := ⟨hsrc, hdst, fun p hp => by rw [hy]; exact hpairs p hp⟩
  obtain ⟨N, hclean, hwaiting⟩ := State.takeSwitch_near (x := y) (r := r) (pairs := pairs) (by rw [hy]; exact hwork) (by rw [hy]; exact hs.clean)
    (by rw [hy]; exact hup) (by rw [hy]; exact hwait) (by rw [hy]; exact hdue) (by rw [hy]; exact State.planPairs_of hplan)
  have hframe := State.switched_frame hok
  obtain ⟨hmoved, hkept⟩ := State.switched_lines hok
  have hdest := fun p hp => State.switched_dest hok (p := p) hp
  have hother := fun b hb => State.switched_other hok (b := b) hb
  have htestDue := State.switched_testDue hok
  have hU : y.switched r pairs = (State.switchEnded (State.capped (pairs.foldl State.transferred (State.rateTo y r)))).settlePairs := rfl
  rw [← hU] at N hclean hwaiting
  generalize y.switched r pairs = U at *
  have hlink : U.link = { x.link with rate := r, announcement := none, switchDue := none } := by rw [hframe, hy]
  have hquality : U.quality = { x.quality with plan := none, window := none, downRun := 0, upRun := 0 } := by rw [hframe, hy]
  have hNsent := N.sendFrame hclean (by rw [hlink])
  have hsent := State.sendFrame_of_no_switch hclean (by rw [hlink])
  have hsentLink : U.sendFrame.link = { x.link with rate := r, announcement := none, switchDue := none } := by
    rw [hsent]
    show State.linkAfterFrame U = _
    rw [State.linkAfterFrame, hlink]
    rfl
  have hsentQuality : U.sendFrame.quality = U.quality := by rw [hsent]
  have hexec : exec (.transmitSwitchFrame t v) s = .next U.sendFrame := by
    have hbody : x.assemble v = (y.takeSwitch.sendFrame).fixedCheck := by
      rw [State.assemble, if_pos (State.onGrid_iff.mpr hon), hy]
      dsimp only
      rw [hdue]
      rfl
    have hcheck : (y.takeSwitch.sendFrame).fixedCheck = y.takeSwitch.sendFrame := by
      obtain ⟨-, w, -, -, e⟩ := hNsent
      refine State.fixedCheck_of_rate ?_
      rw [e]
      show U.sendFrame.quality.mode = .auto ∨ U.sendFrame.quality.mode = .fixed U.sendFrame.link.rate
      rw [hsentQuality, hquality, hsentLink]
      exact hmode
    have hstill : U.sendFrame.Still := by
      refine ⟨?_, fun q timer hq => ?_, hidle.noTest ?_ ?_ ?_ fun l => ?_⟩
      · rw [hsent]
        exact hwaiting
      · rw [hsentQuality, hquality] at hq
        cases hq
      · rw [hsent]
        show U.testing = x.testing
        rw [hframe, hy]
      · rw [hsent]
        show U.ring.supply = x.ring.supply
        rw [hframe, hy]
      · rw [hsent]
        show U.now = x.now
        rw [hframe, hy]
      · rw [hsent]
        show (U.line l).testDue = _
        rw [htestDue, hy]
        rfl
    refine (exec_transmitSwitchFrame ..).trans (event_of_near hx hs.service ?_ (by rw [hsent]; exact hclean) hstill)
    rw [if_pos (by rw [hdue]; rfl), hbody, hcheck]
    exact hNsent
  have hbearerSent : ∀ b, U.sendFrame.bearer b = U.bearer b := fun b => by rw [hsent]; rfl
  have hlineSent : ∀ l, U.sendFrame.line l = U.line l := fun l => by rw [hsent]; rfl
  have hcoder : U.coder.rxRate = x.coder.rxRate ∧ U.coder.sinceSwitch = (if x.coder.rxRate = r then none else some 0) ∧
      U.coder.relocations = settleIn x.coder.rxRate false (x.coder.relocations.map fun m : Relocation => { m with switched := true }) := by
    rw [hframe, hy]
    exact ⟨rfl, rfl, rfl⟩
  refine ⟨U.sendFrame, hexec, hsentLink, hsentQuality.trans hquality, ⟨?_, ?_⟩, fun m hm => ?_, ?_, ?_, fun p hp => ?_, fun b hb st hst => ?_,
    fun p hp c hc => ?_, fun l hl => ?_, ?_⟩
  · rw [hsent]
    exact hcoder.1
  · rw [hsent]
    show U.coder.sinceSwitch.map (fun n => min 16 (n + 1)) = _
    rw [hcoder.2.1]
    split <;> rfl
  · rw [hsent]
    show U.coder.relocations = _
    rw [hcoder.2.2, hm]
    simp [settleIn]
  · have hrate : U.frameRate U.frameKind = r := by
      rw [State.frameKind_full (by rw [hframe, hy]; exact hs.service) (by rw [State.isUp, hlink]; exact hup), State.frameRate, hlink]
    rw [hsent]
    exact ⟨_, rfl, hrate, U.frameInfo_length.trans (congrArg Rate.infoBits hrate)⟩
  · rw [hsent]
    show U.active = _
    rw [hframe, hy]
  · rw [hbearerSent, hdest p hp, hy]
    rfl
  · rw [hbearerSent, hother b hb, hst, ← BearerState.under_eq, hy]
    rfl
  · rw [hlineSent, hmoved p hp c (by rw [hy]; exact hc), hy]
    rfl
  · rw [hlineSent, hkept l (by rw [hy]; exact hl), hy]
    rfl
  · rw [hsent]
    refine ⟨hwaiting, ?_, ?_, ?_, ?_, ?_⟩
    · show U.ring = _
      rw [hframe, hy]
    · show U.errors = _
      rw [hframe, hy]
    · show U.testing = _
      rw [hframe, hy]
    · show U.unit = _
      rw [hframe, hy]
    · show U.params = _
      rw [hframe, hy]

end Sys2Proof.Machine
end

section
/-! O52: the frame arrival in its parts. -/

namespace Sys2Proof.Machine

open Sys2Proof

/-! ### A link that is not heard -/

theorem State.part_of_same {x : State} (hwork : x.work = {}) {body : State → State} (hbody : body x = x) : x.part body = x := by
  rw [State.part, hbody, State.pause_of_idle hwork, ite_self]

section
variable {x : State} (h : x.hears .link = false)
include h

theorem State.request_unheard {α : Type} (b1 kind : Byte) (fields : Option α) (act : State → α → State) :
    x.request .link b1 kind fields act = x := by simp [State.request, h]

theorem State.callControl_unheard {α : Type} (b1 kind : Byte) (fields : Option α) (act : State → α → State) :
    x.callControl .link b1 kind fields act = x := by simp [State.callControl, h]

theorem State.notAccepted_unheard (r : Record) : x.notAccepted .link r = x := by simp [State.notAccepted, h]

theorem State.query_unheard {α : Type} (index : Byte) (range : Option α) (reads : α → List RecordId) (answer : State → α → Record) :
    x.query .link index range reads answer = x := State.request_unheard h _ _ _ _

theorem State.takeQuery_unheard (r : Record) : x.takeQuery .link r = x := by
  unfold State.takeQuery
  simp only [State.takeQueryLine, State.takeQueryBearer, State.takeQueryLink, State.takeQueryQueue, State.takeQueryErrors,
    State.takeQueryParam, State.takeQueryUnit, State.query_unheard h, State.notAccepted_unheard h]
  split <;> rfl

theorem State.takeRateMode_unheard (r : Record) : x.takeRateMode .link r = x := by
  unfold State.takeRateMode
  simp only [State.takeRateAuto, State.takeRateFixed, State.request_unheard h, State.notAccepted_unheard h]
  split <;> rfl

theorem State.takeLinkControl_unheard (r : Record) : x.takeLinkControl .link r = x := by
  unfold State.takeLinkControl
  simp only [State.takeEnable, State.takeDisable, State.takeRestartLink, State.request_unheard h, State.notAccepted_unheard h]
  split <;> rfl

theorem State.receive_unheard (r : Record) : x.receive .link r = x := by
  unfold State.receive
  simp only [State.takeSeizeIn, State.takeAccept, State.takeRelease, State.takeLockout, State.takeProvision, State.takeBlock,
    State.takeUnblock, State.takeSetParam, State.takeTestLine, State.takeResumeTests, State.takeRestartUnit, State.takeClearErrors,
    State.takeRateMode_unheard h, State.takeLinkControl_unheard h, State.takeQuery_unheard h, State.callControl_unheard h,
    State.request_unheard h, State.notAccepted_unheard h]
  split <;> rfl

/-- No part of a frame is taken where the link is not UP or the unit not in SERVICE (05, R94 and R98). -/
theorem State.takeWhole_unheard (bytes : List Byte) : x.takeWhole .link bytes = x := by
  have hsource : x.hearsSource (portSource .link) = false := h
  unfold State.takeWhole
  split
  · dsimp only
    rw [State.receive_unheard h, State.takeMismatch, hsource, if_neg Bool.false_ne_true, ite_self]
  · rfl

theorem State.takeAuditSlot_unheard (f : RxFrame) : x.takeAuditSlot f = x := by
  have haudit : (x.isUp && x.inService) = false := h
  have hsource : x.hearsSource .linkAudit = false := h
  unfold State.takeAuditSlot
  split
  · simp only [State.takeAudit, State.takeMismatch, haudit, hsource, Bool.false_eq_true, if_false, ite_self]
  · rfl

theorem State.takeFrame_unheard (hwork : x.work = {}) (f : RxFrame) : x.takeFrame f = x := by
  have hframes : x.takesFrames = false := h
  have hnot : ¬ x.takesFrames = true := by rw [hframes]; exact Bool.false_ne_true
  have hopen : x.openFrame f = x := if_neg hnot
  have hclose : x.closeFrame f = x := if_neg hnot
  have hbefore : x.beforeClose f = x := by
    rw [State.beforeClose, State.part_of_same (body := (·.openFrame f)) hwork hopen, State.part_of_same hwork (State.takeAuditSlot_unheard h f),
      State.part_of_same hwork (State.takeWhole_unheard h (slotOf f 12))]
  rw [State.takeFrame, hbefore, hclose, State.finish_of_idle hwork]

end

/-! ### A part of an arrival as a command of its own -/

/-- A part after which nothing waits is what the command of its record does (05, R99; log 16). -/
theorem event_of_part {u v : State} {t : Time} {slot body : State → State} (ht : t ≤ u.now) (hu : u.work = {}) (hpart : v = u.part slot)
    (hslot : slot u = body u) (hv : v.work = {}) : event t body u = .next v := by
  have hbegin : u.begin t = u := by
    show ({ u with now := max u.now t, work := {} } : State) = u
    rw [Nat.max_eq_left ht, ← hu]
  rw [State.part, hslot] at hpart
  rw [event, hbegin]
  by_cases hm : u.unit.mode = .halted
  · rw [if_pos hm] at hpart ⊢
    rw [hpart]
  · rw [if_neg hm] at hpart ⊢
    rw [hpart] at hv ⊢
    rw [State.finish_of_paused hv]

/-! ### The positions of relocated calls (05, R104) -/

/-- A pair is found by the bearer that the table names for its call. -/
theorem Relocation.pairOf_of_mem {m : Relocation} {q : Pair} {b : BearerNo} (hn : (m.pairs.map m.bearerOf).Nodup) (hq : q ∈ m.pairs)
    (hb : m.bearerOf q = b) : m.pairOf b = some q := by
  have hfound : (m.pairOf b).isSome := List.find?_isSome.mpr ⟨q, hq, beq_iff_eq.mpr hb⟩
  obtain ⟨p, hp⟩ := Option.isSome_iff_exists.mp hfound
  have hpb : m.bearerOf p = b := beq_iff_eq.mp (List.find?_some (p := fun x => m.bearerOf x == b) hp)
  rw [hp, List.inj_on_of_nodup_map hn (List.mem_of_find?_eq_some hp) hq (hpb.trans hb.symm)]

theorem Relocation.pairOf_eq_none {m : Relocation} {b : BearerNo} (h : ∀ q ∈ m.pairs, m.bearerOf q ≠ b) : m.pairOf b = none :=
  List.find?_eq_none.mpr fun q hq => by simpa using h q hq

theorem positionIn_of_none (rx : Rate) {L : List Relocation} {b : BearerNo} (h : ∀ m ∈ L, ∀ q ∈ m.pairs, m.bearerOf q ≠ b) :
    positionIn rx L b = b := by
  induction L with
  | nil => rfl
  | cons m L ih =>
    rw [positionIn, Relocation.pairOf_eq_none (h m List.mem_cons_self)]
    exact ih fun n hn => h n (List.mem_cons_of_mem _ hn)

theorem positionIn_of_pair {rx : Rate} {m : Relocation} {L : List Relocation} {q : Pair} {b : BearerNo}
    (hn : (m.pairs.map m.bearerOf).Nodup) (hq : q ∈ m.pairs) (hb : m.bearerOf q = b) :
    positionIn rx (m :: L) b = if rx = m.target then q.dest else positionIn rx L q.source := by
  rw [positionIn, Relocation.pairOf_of_mem hn hq hb]

/-- The position from which a call is delivered, by the step-downs whose receive switch is to come (05, R104; log 17, log 52). -/
theorem State.positionOf_of {x : State} {b k : BearerNo} (hn : ∀ m ∈ x.coder.relocations, (m.pairs.map m.bearerOf).Nodup)
    (hk : ((∀ m ∈ x.coder.relocations, ∀ q ∈ m.pairs, m.bearerOf q ≠ b) ∧ k = b) ∨
      (∃ m older, x.coder.relocations = m :: older ∧ x.coder.rxRate = m.target ∧ ∃ q ∈ m.pairs, m.bearerOf q = b ∧ k = q.dest) ∨
      (∃ m, x.coder.relocations = [m] ∧ x.coder.rxRate ≠ m.target ∧ ∃ q ∈ m.pairs, m.bearerOf q = b ∧ k = q.source) ∨
      (∃ m n, x.coder.relocations = [m, n] ∧ x.coder.rxRate ≠ m.target ∧ ∃ q ∈ m.pairs, m.bearerOf q = b ∧
        ∃ r ∈ n.pairs, n.bearerOf r = q.source ∧ k = if x.coder.rxRate = n.target then r.dest else r.source)) :
    x.positionOf b = k := by
  rw [State.positionOf]
  rcases hk with ⟨hnone, rfl⟩ | ⟨m, older, hm, hr, q, hq, hb, rfl⟩ | ⟨m, hm, hr, q, hq, hb, rfl⟩ | ⟨m, n, hm, hr, q, hq, hb, r, hr2, hb2, rfl⟩
  · exact positionIn_of_none _ hnone
  all_goals rw [hm] at hn ⊢
  · rw [positionIn_of_pair (hn m (by simp)) hq hb, if_pos hr]
  · rw [positionIn_of_pair (hn m (by simp)) hq hb, if_neg hr]
    rfl
  · rw [positionIn_of_pair (hn m (by simp)) hq hb, if_neg hr, positionIn_of_pair (hn n (by simp)) hr2 hb2]
    rfl

/-! ### The coding disagreements (05, R94) -/

theorem count_zip_differences (L M : List Bool) (h : L.length = M.length) :
    ((L.zip M).filter (fun x => x.1 != x.2)).length = ((List.range M.length).filter (fun i => decide (L[i]? ≠ M[i]?))).length := by
  induction L generalizing M with
  | nil => cases M with
    | nil => rfl
    | cons b M => cases h
  | cons a L ih =>
    cases M with
    | nil => cases h
    | cons b M =>
      have hrest := ih M (Nat.succ.inj h)
      rw [List.length_cons, List.range_succ_eq_map, List.zip_cons_cons]
      simp only [List.filter_cons, List.filter_map, List.getElem?_cons_zero, Function.comp_def, List.getElem?_cons_succ]
      by_cases hab : a = b <;> simp [hab, hrest]

/-- The disagreements are the coded positions at which the re-encoded bits differ from the hard decision. -/
theorem disagreementsOf_eq {r : Rate} {f : RxFrame} {coded : List Bool}
    (h : coded = (encodeBits r 0 f.before ((List.range r.infoBits).map f.bits.getMsbD)).1) :
    disagreementsOf r f = ((List.range 1920).filter (fun i => decide (coded[i]? ≠ some (f.hard.getMsbD i)))).length := by
  have hlen : ((List.range r.infoBits).map f.bits.getMsbD).length = r.infoBits := by rw [List.length_map, List.length_range]
  have hsize : (hardDecisions f).length = 1920 := List.length_map _ |>.trans List.length_range
  have hcoded : coded.length = (hardDecisions f).length := by
    rw [h, encodeBits_length_of_periods r _ (by rw [hlen]; exact r.infoBits_mod_period), hlen, r.infoBits_add_periods, hsize]
  rw [disagreementsOf, decodedBits, ← h, count_zip_differences _ _ hcoded, hsize]
  refine congrArg List.length (List.filter_congr fun i hi => ?_)
  have hin : (List.range Config.codedBits)[i]? = some i := List.getElem?_range (List.mem_range.mp hi)
  rw [hardDecisions, List.getElem?_map, hin]
  rfl

/-! ### O52 -/

theorem exec_frameArrival_eq (t f) (s : State) : exec (.frameArrival t f) s = .next ((s.begin t).takeFrame f) := rfl

theorem State.beforeClose_now (x : State) (f : RxFrame) : (x.beforeClose f).now = x.now := (State.moved_beforeClose x f).now

theorem toWord_hiByte_loByte (w : Word) : toWord (hiByte w) (loByte w) = w := by
  refine BitVec.eq_of_getLsbD_eq fun i hi => ?_
  rw [toWord, hiByte, loByte, BitVec.getLsbD_append, BitVec.getLsbD_extractLsb', BitVec.getLsbD_extractLsb']
  by_cases h : i < 8
  · simp [h]
  · have hsub : i - 8 < 8 := by omega
    simp [h, hsub, Nat.add_sub_cancel' (Nat.le_of_not_lt h)]

theorem State.takeAuditSlot_of {u : State} {f : RxFrame} {a : AuditSlot} {check : Byte}
    (h : slotOf f 4 = [a.index, a.view, a.line, hiByte a.reference, loByte a.reference, hiByte a.quality, loByte a.quality, check]) :
    u.takeAuditSlot f = if checkByte ((slotOf f 4).take 7) = check then u.takeAudit a else u.takeMismatch .linkAudit a.index := by
  rw [State.takeAuditSlot, h]
  simp only [toWord_hiByte_loByte]
  rfl

theorem State.takeMessageSlot_of {v : State} {f : RxFrame} {r : Record} {check : Byte}
    (h : slotOf f 12 = [r.kind, r.b1, r.b2, r.b3, r.b4, r.b5, r.b6, check]) :
    v.takeMessageSlot f = if checkByte ((slotOf f 12).take 7) = check then v.receive .link r else v.takeMismatch .linkMessage r.kind := by
  rw [State.takeMessageSlot, h]
  rfl

/-- Settles O52: where no frame is taken, the frame as its last part, its parts before that, and its counts. -/
theorem frameIsTaken : Obligations.FrameIsTaken := by
  refine ⟨fun t f s x hx hnone => ?_, fun t f s x hx hup hm => ?_, ?_, fun z hz => State.finish_of_idle hz, ?_⟩
  · have hunheard : x.hears .link = false := by
      show (x.isUp && x.inService) = false
      rcases hnone with hup | hm
      · rw [hup]; rfl
      · rw [State.inService, beq_eq_false_iff_ne.mpr hm, Bool.and_false]
    rw [exec_frameArrival_eq, ← hx, State.takeFrame_unheard hunheard (State.work_of_begin hx)]
  · rw [exec_frameArrival_eq, ← hx]
    rfl
  · intro t f s x y u v w hx hsound hup hu hv hw hsame hslip hlines
    have hwork : x.work = {} := State.work_of_begin hx
    have htime : t ≤ x.now := by rw [hx]; exact Nat.le_max_right _ _
    have hy : SameButErrors x y ∧ y.work = {} := by
      by_cases hs : damaged f = true ∨ x.coder.expected = none ∨ x.coder.expected = some (frameNumberOf f)
      · rw [hsame hs]
        exact ⟨.refl x, hwork⟩
      · push Not at hs
        obtain ⟨hd, hn, he⟩ := hs
        obtain ⟨e, hex⟩ := Option.ne_none_iff_exists'.mp hn
        rw [hslip e (by simpa using hd) hex (fun h => he (by rw [hex, h]))]
        exact ⟨x.raise_same _, (State.raise_work hsound.errors.frameSlip hsound.errors.overflow).trans hwork⟩
    have hmode : ¬ x.unit.mode = .halted := by rw [hsound.service]; exact UnitMode.noConfusion
    have htakes : x.takesFrames = true := by rw [State.takesFrames, hup, State.inService, hsound.service]; rfl
    obtain ⟨z, hz⟩ : ∃ z : State, z = { y with coder := { x.coder with
        expected := if damaged f then x.coder.expected.map (· + 1) else some (frameNumberOf f + 1)
        lastGoodNumber := if damaged f then x.coder.lastGoodNumber else some (frameNumberOf f) } } := ⟨_, rfl⟩
    have hopen : x.openFrame f = allBearers.foldl (State.deliverBearer f) z := by
      rw [State.openFrame, if_pos htakes, hsound.clean.checkParity, State.takeNumber_of hsame hslip, ← hz, State.deliverFrame_eq_fold]
    have hbearer : ∀ b, z.bearer b = x.bearer b := fun b => by
      rw [hz]
      exact hy.1.bearer b
    have hpins : z.pins = x.pins := by
      rw [hz]
      exact hy.1.pins
    obtain ⟨hslots, hothers, hcalls⟩ := State.deliverBearer_fold f allBearers allBearers_nodup z fun b k c d hb hk => by
      rw [hbearer] at hb hk
      exact hlines b k c d hb hk
    rw [← hopen] at hslots hothers hcalls
    have huopen : u = x.openFrame f := by
      have hidle : (x.openFrame f).work = {} := by
        rw [hslots.eq, hz]
        exact hy.2
      rw [hu, State.part, if_neg hmode, State.pause_of_idle hidle]
    rw [← huopen] at hslots hothers hcalls
    have hunow : t ≤ u.now := by
      rw [hslots.eq, hz]
      exact hy.1.now ▸ htime
    have huwork : u.work = {} := by
      rw [hslots.eq, hz]
      exact hy.2
    have hvnow : t ≤ v.now := by
      rw [hv, (State.moved_part u _ (State.moved_takeAuditSlot u f)).now]
      exact hunow
    have hunit : ∀ b, z.unitFor f b = x.unitFor f b := fun b => by
      rw [hz, State.unitFor, State.unitFor]
      rw [show y.now = x.now from hy.1.now]
      rfl
    have hconceal : z.coder.conceal = x.coder.conceal := by rw [hz]
    refine ⟨?_, ?_, ?_, fun a check hslot hvwork own hown => ?_, fun r check hslot hvwork hwwork own hown => ?_,
      fun b c hb => ?_, fun l hl => ?_⟩
    · rw [exec_frameArrival_eq, ← hx, hw, hv, hu]
      rfl
    · rw [hw, hv, hu]
      rfl
    · have := hslots.eq
      rw [hpins] at this
      generalize u.pins.voiceOut = vo at *
      generalize u.pins.hearing = he at *
      generalize u.coder.conceal = co at *
      rw [this, hz]
    · have hjudge := State.takeAuditSlot_of (u := u) hslot
      rw [← hown] at hjudge
      refine ⟨fun h => ?_, fun h => ?_⟩
      · rw [if_pos h.symm] at hjudge
        exact event_of_part (body := fun s => s.takeAudit a) hunow huwork hv hjudge hvwork
      · rw [if_neg (Ne.symm h)] at hjudge
        exact event_of_part (body := fun s => s.takeMismatch .linkAudit a.index) hunow huwork hv hjudge hvwork
    · have hjudge := State.takeMessageSlot_of (v := v) hslot
      rw [← hown] at hjudge
      refine ⟨fun h => ?_, fun h => ?_⟩
      · rw [if_pos h.symm] at hjudge
        exact event_of_part (body := fun s => s.receive .link r) hvnow hvwork hw hjudge hwwork
      · rw [if_neg (Ne.symm h)] at hjudge
        exact event_of_part (body := fun s => s.takeMismatch .linkMessage r.kind) hvnow hvwork hw hjudge hwwork
    · obtain ⟨hheard, hvoice, hrecord⟩ := hcalls b (allBearers_mem b) c (by rw [hbearer]; exact hb)
      obtain ⟨hheard', hvoice', hrecord'⟩ := State.deliverLine_at z c.line (if damaged f then none else some (z.unitFor f b))
      rw [hheard'] at hheard
      rw [hvoice', hunit, hconceal] at hvoice
      rw [hrecord', hunit, hconceal] at hrecord
      refine ⟨hheard, fun hgood k hk hnodup hpos => ?_, fun hbad k hk => ?_⟩
      · have hposition := State.positionOf_of hnodup hpos
        have hof : x.unitFor f b = unitOf f k := by
          rw [State.unitFor, hposition]
          exact if_pos hk
        rw [hgood, if_neg Bool.false_ne_true, hof] at hvoice hrecord
        exact ⟨hvoice, hrecord⟩
      · rw [hbad, if_pos rfl, hk] at hvoice hrecord
        rw [hvoice, hrecord]
        by_cases hrun : k.run = 0 <;> simp [Conceal.deliver, hrun]
    · obtain ⟨hheard, hvoice, hrecord⟩ := hothers l fun b _ c hb => hl b c (by rw [← hbearer]; exact hb)
      rw [hpins] at hheard hvoice
      rw [hconceal] at hrecord
      exact ⟨hheard, hvoice, hrecord⟩
  · intro t f bad n differing w s x y hx hy
    have hexec : exec (.frameArrival t f) s = .next (y.closeFrame f).finish := by
      rw [exec_frameArrival_eq, ← hx, State.takeFrame, ← hy]
    refine ⟨fun hno => ?_, fun hm hl hrate hd hdis hw hfull => ?_⟩
    · rw [hexec, State.closeFrame, if_neg (by rw [hno]; exact Bool.false_ne_true)]
    · have hcount : disagreementsOf y.coder.rxRate f = differing := (disagreementsOf_eq rfl).trans (hdis _ _ rfl rfl).symm
      rw [hexec, State.closeFrame_of_up hm hl hrate hd, hcount]
      congr 2
      generalize hz : ({ y with
        link := { y.link with state := .up bad (if damaged f then n + 1 else 0) }
        coder := { y.coder with rxCountdown := y.rxCountdownAfter f } } : State) = z
      have hwin : z.windowWith differing = w := by
        rw [hw, ← hz]
        rfl
      rw [State.countFrame, hwin, if_neg (Nat.not_le.mpr hfull), ← hz]

end Sys2Proof.Machine
end

section
/-! O49: the link taken down with every call. -/

namespace Sys2Proof.Machine

open Sys2Proof

/-! ### A bearer and a line at a teardown (02, R47; 01, R26) -/

theorem BearerState.tornDown_eq (st : BearerState) (b : BearerNo) : st.tornDown b = if b.val < 5 then
    (if (∃ held, st = .unavailable held) then st else if st.maintenance = true then .blocked .maintenance else .free)
    else .unavailable st.maintenance := by
  unfold BearerState.tornDown
  by_cases hb : b.val < 5
  · rw [if_pos (by exact hb), if_pos hb]
    cases st with
    | unavailable held => rw [if_pos ⟨held, rfl⟩]
    | blocked k => cases k <;> simp [BearerState.maintenance]
    | guarded => simp only [reduceCtorEq, exists_false, if_false]; rfl
    | free | heldOut | heldIn | heldMove | active => simp [BearerState.maintenance]
  · rw [if_neg (by exact hb), if_neg hb]
    cases st with
    | blocked k => cases k <;> rfl
    | unavailable | free | heldOut | heldIn | heldMove | active | guarded => rfl

/-! ### The link down -/

/-- The state in which DISABLE, RESTART and link failure leave the part, but for the reply: the link queue empty, every call torn down, and
LINK_STATE on the local port (06, R117 and R118). -/
def State.downed (y : State) (cause : LinkCause) : State :=
  y.emptyLinkQueue.tornTo.queued .localPort (y.linkStateRecord cause)

section
variable {x y : State} {cause : LinkCause}

theorem State.downed_frame (y : State) (cause : LinkCause) : y.downed cause = { y with
    bearers := (y.downed cause).bearers, lines := (y.downed cause).lines, active := []
    ring := { y.ring with phases := Vector.replicate 3 [], queue := [] }
    coder := { y.coder with conceal := (y.downed cause).coder.conceal }
    messages := { y.messages with linkQueue := [], localQueue := y.messages.localQueue ++ [y.linkStateRecord cause] } } := by
  have h := State.tornTo_frame y.emptyLinkQueue
  unfold State.downed
  generalize y.emptyLinkQueue.tornTo = v at h ⊢
  rw [h]
  rfl

theorem State.downed_lineRecord (y : State) (cause : LinkCause) (l : LineNo) : (y.downed cause).line l = y.emptyLinkQueue.tornTo.line l := by
  rw [State.downed, State.queued_line]

theorem State.downed_bearerRecord (y : State) (cause : LinkCause) (b : BearerNo) :
    (y.downed cause).bearer b = y.emptyLinkQueue.tornTo.bearer b := by
  rw [State.downed, State.queued_bearer]

theorem State.downed_conceal (y : State) (cause : LinkCause) : (y.downed cause).coder.conceal = y.emptyLinkQueue.tornTo.coder.conceal := by
  rw [State.downed, State.queued_coder]

/-- The reports of the end: what `restartLink`, `disableLink` and `failLink` do once the link record is set. -/
theorem State.tearDown_reports (hw : y.work = {}) (hc : y.Clean) (he : y.ErrorsOk) (hr : ∀ l b, (y.line l).state = .ringing b → (y.line l).loop = .opened)
    (hroom : y.HasRoom .localPort) :
    (y.emptyLinkQueue.tearDown.send .localPort (y.emptyLinkQueue.tearDown.linkStateRecord cause)).Near (y.downed cause) ∧
      (y.downed cause).Clean := by
  have hnear : y.emptyLinkQueue.Near y.emptyLinkQueue := .refl hw
  obtain ⟨htorn, hclean⟩ := hnear.tearDown hc hr
  have hframe := State.tornTo_frame y.emptyLinkQueue
  rw [State.downed]
  generalize y.emptyLinkQueue.tornTo = v at htorn hclean hframe ⊢
  generalize y.emptyLinkQueue.tearDown = z at htorn ⊢
  have hrecord : z.linkStateRecord cause = y.linkStateRecord cause := by
    have hlink : z.link = y.link := by
      obtain ⟨-, w, -, -, rfl⟩ := htorn
      rw [hframe]
      rfl
    rw [State.linkStateRecord, hlink]
    rfl
  have hquiet : (v.routing .txOverflow).isQuiet = true := by
    rw [hframe]
    exact he.overflow
  have hroom' : v.HasRoom .localPort := by
    rw [hframe]
    exact hroom
  rw [hrecord, ← State.send_of_room hroom']
  refine ⟨htorn.send hquiet _ _, ?_⟩
  rw [State.send_of_room hroom']
  exact hclean

/-- Nothing follows the end of the link: the queue is not served while it is not UP, no plan is left, and no test is due. -/
theorem State.downed_rests (hx : x.HeadIdle) (hnow : y.now = x.now) (htest : y.testing = x.testing) (hring : y.ring = x.ring)
    (hlines : y.lines = x.lines) (hplan : y.quality.plan = none) (hup : y.isUp = false) :
    (y.downed cause).isUp = false ∧ (y.downed cause).NoDrain ∧ (y.downed cause).NoTest := by
  have hframe := State.downed_frame y cause
  have hdue : ∀ l, ((y.downed cause).line l).testDue = (x.line l).testDue := fun l => by
    have h : ((y.downed cause).line l).testDue = (y.line l).testDue := by
      rw [State.downed_lineRecord, State.tornTo_testDue]
      rfl
    rw [h, State.line, hlines]
    rfl
  generalize y.downed cause = v at hframe hdue ⊢
  refine ⟨?_, ?_, ?_⟩
  · rw [hframe]
    exact hup
  · intro p timer hp
    rw [hframe] at hp
    exact absurd (hplan.symm.trans hp) (by simp)
  · refine hx.noTest ?_ ?_ ?_ hdue
    all_goals rw [hframe]
    · exact htest
    · exact congrArg (·.supply) hring
    · exact hnow

theorem State.downed_bearer (b : BearerNo) : (y.downed cause).bearer b =
    if (y.bearer b).state = (y.bearer b).state.tornDown b then y.bearer b else (y.bearer b).moved ((y.bearer b).state.tornDown b) y.now := by
  rw [State.downed_bearerRecord, State.tornTo_bearer]
  rfl

theorem State.downed_line (l : LineNo) :
    ((y.line l).state.bearer?.isSome = true → (y.downed cause).coder.conceal[l.val] = none ∧
      (y.downed cause).line l = (y.line l).moved (if (y.line l).loop = .closed then .lockout .linkLost else .idle)) ∧
    ((y.line l).state.bearer? = none → (y.downed cause).line l = y.line l ∧
      (y.downed cause).coder.conceal[l.val] = y.coder.conceal[l.val]) := by
  obtain ⟨hmoved, hkept⟩ := State.tornTo_line y.emptyLinkQueue l
  rw [State.downed_lineRecord, State.downed_conceal]
  generalize y.emptyLinkQueue.tornTo = v at hmoved hkept ⊢
  have hrecord : y.emptyLinkQueue.line l = y.line l := rfl
  have hconceal : y.emptyLinkQueue.coder = y.coder := rfl
  rw [hrecord, hconceal] at hkept
  rw [hrecord] at hmoved
  refine ⟨fun h => ?_, fun h => hkept ?_⟩
  · obtain ⟨hline, hslot⟩ := hmoved _ (if_pos h)
    refine ⟨hslot.trans ?_, hline⟩
    by_cases hloop : (y.line l).loop = .closed
    · rw [if_pos hloop]
      rfl
    · rw [if_neg hloop]
      rfl
  · rw [LineRecord.torn, h]
    rfl

end

/-! ### O49 -/

/-- The state after the reply, if there is one. -/
def State.answered (u : State) (p : Port) (answer : Option Record) : State :=
  match answer with
  | some r => u.queued p r
  | none => u

theorem State.answered_downed_frame (y : State) (cause : LinkCause) (p : Port) (answer : Option Record) :
    (y.downed cause).answered p answer = { y with
      lines := (y.downed cause).lines
      bearers := (y.downed cause).bearers
      active := []
      ring := { y.ring with phases := Vector.replicate 3 [], queue := [] }
      coder := { y.coder with conceal := (y.downed cause).coder.conceal }
      messages := { y.messages with
        linkQueue := if p = .link then answer.toList else []
        localQueue := y.messages.localQueue ++ [y.linkStateRecord cause] ++ if p = .link then [] else answer.toList } } := by
  have hframe := State.downed_frame y cause
  generalize y.downed cause = v at hframe ⊢
  cases answer with
  | none =>
    rw [State.answered, hframe]
    cases p <;> simp
  | some r =>
    rw [State.answered, hframe]
    cases p <;> simp [State.queued]

/-- Settles O49: the three ways in which the link is taken down come to one state. -/
theorem linkIsTakenDown : Obligations.LinkIsTakenDown := by
  intro t p b1 s x z y i cause answer hx hsound hidle hring hz hcases hroom
  have hwork : x.work = {} := State.work_of_begin hx
  have hy : y.work = {} ∧ y.now = x.now ∧ y.testing = x.testing ∧ y.ring = x.ring ∧ y.lines = x.lines ∧ y.bearers = x.bearers ∧
      y.coder = z.coder ∧ y.quality.plan = none ∧ y.isUp = false ∧ y.ErrorsOk := by
    rcases hcases with ⟨-, -, -, -, -, hy⟩ | ⟨-, -, -, -, -, hy⟩ | ⟨-, hquiet, -, -, -, hy⟩
    · rw [hy, hz]
      exact ⟨hwork, rfl, rfl, rfl, rfl, rfl, rfl, rfl, rfl, hsound.errors⟩
    · rw [hy, hz]
      exact ⟨hwork, rfl, rfl, rfl, rfl, rfl, rfl, rfl, rfl, hsound.errors⟩
    · have herrors : z.ErrorsOk := by rw [hz]; exact hsound.errors
      have hzquiet : (z.routing .linkLost).isQuiet = true := by rw [hz]; exact hquiet.isQuiet
      have hzw : z.work = {} := by rw [hz]; exact hwork
      have hsame : SameButErrors z y := by rw [hy]; exact z.raise_same _
      refine ⟨?_, ?_, ?_, ?_, ?_, ?_, ?_, ?_, ?_, ?_⟩
      · rw [hy]
        exact (State.raise_work hzquiet herrors.overflow).trans hzw
      · rw [hsame.now, hz]
      · rw [hsame.testing, hz]
      · rw [hsame.ring, hz]
      · rw [hsame.lines, hz]
      · rw [hsame.bearers, hz]
      · rw [hsame.coder]
      · rw [hsame.quality, hz]
      · rw [State.isUp, hsame.link, hz]
        rfl
      · rw [hy]
        exact (State.moved_raise z _).errors herrors
  obtain ⟨hyw, hnow, htest, hyring, hlines, hbearers, hcoder, hplan, hup, herrors⟩ := hy
  have hclean : y.Clean := by
    refine ⟨fun l => ?_, fun b => ?_⟩
    · rw [State.line, hlines]
      exact hsound.clean.1 l
    · rw [State.bearer, hbearers]
      exact hsound.clean.2 b
  have hline : ∀ l, y.line l = x.line l := fun l => by rw [State.line, hlines]; rfl
  have hbearer : ∀ b, y.bearer b = x.bearer b := fun b => by rw [State.bearer, hbearers]; rfl
  have hroomLocal : y.HasRoom .localPort := Nat.lt_trans hroom (by decide)
  obtain ⟨hnear, hdclean⟩ := State.tearDown_reports (cause := cause) hyw hclean herrors (fun l b => by rw [hline]; exact hring l b) hroomLocal
  obtain ⟨hdup, hdplan, hdtest⟩ := State.downed_rests (cause := cause) hidle hnow htest hyring hlines hplan hup
  have hanswer : ∀ r, answer = some r → (y.downed cause).HasRoom p := fun r _ => by
    have hframe := State.downed_frame y cause
    generalize y.downed cause = v at hframe ⊢
    rw [hframe]
    cases p with
    | link => exact (by decide : 0 < Config.queueCapacity)
    | localPort =>
      show (y.messages.localQueue ++ [y.linkStateRecord cause]).length < Config.queueCapacity
      rw [List.length_append]
      exact Nat.succ_lt_succ hroom
  have hfinish := hnear.finish_waiting hdclean (.inl hdup) hdplan hdtest
  have hreply : ∀ r, (y.downed cause).HasRoom p → _ := fun r h => hnear.finish_reply_waiting hdclean (.inl hdup) hdplan hdtest (p := p) (r := r) h
  have hhunt : ∀ v, v = z → x.dropLink.beginHunt = v := fun v hv => by
    rw [hv, hz]
    have hphase : phaseSense x.dropLink.link.lastGood = x.link.lastGood % 2 := Nat.mod_mod _ _
    rw [State.beginHunt, hphase]
    rfl
  refine ⟨(y.downed cause).answered p answer, ?_, ?_, fun b st hst => ?_, fun l => ?_⟩
  · rcases hcases with ⟨rfl, hs, hlink, rfl, rfl, hy⟩ | ⟨rfl, hs, hlink, rfl, rfl, hy⟩ | ⟨rfl, hquiet, ⟨expiry, hhold, hdue⟩, rfl, rfl, hy⟩
    · have hbody : x.disableLink = y.emptyLinkQueue.tearDown.send .localPort (y.emptyLinkQueue.tearDown.linkStateRecord .disabled) := by
        have hstop : x.dropLink.stopLink = y := by
          rw [hy, hz]
          rfl
        rw [← hstop, State.disableLink]
        cases hstate : x.link.state with
        | disabled => exact absurd hstate hlink
        | hunt | verify | up => rfl
      rw [exec_linkControlDisable, event_eq (State.begin_not_halted hx hsound.service), ← hx, State.takeDisable,
        State.request_of_serves hs rfl, hbody]
      exact congrArg _ (hreply _ (hanswer _ rfl))
    · have hbody : x.restartLink = y.emptyLinkQueue.tearDown.send .localPort (y.emptyLinkQueue.tearDown.linkStateRecord .restarted) := by
        rw [← hhunt y hy]
        rfl
      rw [exec_linkControlRestart, event_eq (State.begin_not_halted hx hsound.service), ← hx, State.takeRestartLink,
        State.request_of_serves hs rfl, if_neg hlink, hbody]
      exact congrArg _ (hreply _ (hanswer _ rfl))
    · have hbody : x.failLink = y.emptyLinkQueue.tearDown.send .localPort (y.emptyLinkQueue.tearDown.linkStateRecord .failed) := by
        rw [hy, ← hhunt z rfl]
        rfl
      have hover : x.holdDue = true := by
        rw [State.holdDue, hhold]
        exact decide_eq_true hdue
      rw [exec_linkFailure, event_eq (State.begin_not_halted hx hsound.service), ← hx, if_pos hover, hbody]
      exact congrArg _ hfinish
  · have hframe := State.answered_downed_frame y cause p answer
    have hl : ((y.downed cause).answered p answer).lines = (y.downed cause).lines := by rw [hframe]
    have hb : ((y.downed cause).answered p answer).bearers = (y.downed cause).bearers := by rw [hframe]
    have hco : ((y.downed cause).answered p answer).coder.conceal = (y.downed cause).coder.conceal := by rw [hframe]
    rw [hl, hb, hco]
    exact hframe
  · have hkept : ((y.downed cause).answered p answer).bearer b = (y.downed cause).bearer b := by
      cases answer with
      | none => rfl
      | some r => exact State.queued_bearer _ p r b
    rw [← BearerState.tornDown_eq] at hst
    rw [hkept, State.downed_bearer, hbearer, hnow, hst]
    simp only [eq_comm]
  · have hkept : ((y.downed cause).answered p answer).line l = (y.downed cause).line l ∧
        ((y.downed cause).answered p answer).coder = (y.downed cause).coder := by
      cases answer with
      | none => exact ⟨rfl, rfl⟩
      | some r => exact ⟨State.queued_line _ p r l, State.queued_coder _ p r⟩
    have hconceal : y.coder.conceal = x.coder.conceal := by rw [hcoder, hz]
    have h := State.downed_line (y := y) (cause := cause) l
    rw [hline, hconceal] at h
    rw [hkept.1, hkept.2]
    exact h

end Sys2Proof.Machine
end

section
/-! O43: a disagreement resolved by the two views. -/

namespace Sys2Proof.Machine

open Sys2Proof

/-! ### A call taken away (02, R37; 09, R157) -/

section
variable {y z : State} {b : BearerNo} {c : Call}

/-- A call being set up or connected is taken away: its line is locked out or IDLE by its loop. -/
theorem State.Near.takeCall_line (hn : z.Near y) (hc : y.Clean) (st : BearerState) (cause : LockoutCause)
    (hb : (∃ e r, (y.bearer b).state = .heldOut c e r) ∨ (y.bearer b).state = .active c) :
    (z.takeCall b st cause).Near ((y.endTo b c st).lineTo c.line (if (y.line c.line).loop = .closed then .lockout cause else .idle)) := by
  have hcall : (y.bearer b).state.call? = some c := by
    rcases hb with ⟨e, r, hb⟩ | hb <;> rw [hb] <;> rfl
  have htaken : z.takeCall b st cause = (z.endCall b st).dropLine c.line cause := by
    rw [State.takeCall, hn.bearer]
    rcases hb with ⟨e, r, hb⟩ | hb <;> rw [hb]
  rw [htaken]
  exact (hn.endCall hc st hcall).dropLine (hc.endTo b c st) c.line cause

/-- A call that rings is taken away, with the line's loop OPEN: the line leaves the Ring Scheduler. -/
theorem State.Near.takeCall_ring (hn : z.Near y) (hc : y.Clean) (st : BearerState) (cause : LockoutCause)
    (hb : (y.bearer b).state = .heldIn c) (ho : (y.line c.line).loop = .opened) :
    (z.takeCall b st cause).Near ((((y.endTo b c st).removeRing c.line).serveRings).lineTo c.line .idle) := by
  have hcall : (y.bearer b).state.call? = some c := by rw [hb]; rfl
  have htaken : z.takeCall b st cause = ((z.endCall b st).removeRing c.line).serveRings.enterIdle c.line := by
    rw [State.takeCall, hn.bearer, hb]
  rw [htaken]
  have hremoved := State.removeRing_same (y.endTo b c st) c.line
  have hserved := State.serveRings_same ((y.endTo b c st).removeRing c.line)
  have hclean := hc.endTo b c st
  refine (((hn.endCall hc st hcall).removeRing c.line).serveRings).enterIdle (hserved.clean (hremoved.clean hclean)) ?_
  rw [hserved.line, hremoved.line]
  exact ho

theorem State.endTo_disagreements (s : State) (b : BearerNo) (c : Call) (st : BearerState) :
    ((s.endTo b c st).bearer b).disagreements = 0 := by
  rw [State.endTo_bearer]
  split
  · rfl
  · rw [State.bearerTo_bearer_same]
    rfl

end

theorem State.Plain.sendCall {y : State} (h : y.Plain) (r : Record) : (y.sendCall r).Plain :=
  have hsame := y.sendCall_same r
  ⟨hsame.unit ▸ h.service, hsame.clean h.clean, h.errors.sendCall r, hsame.still h.still⟩

theorem State.Plain.butRings {y u : State} (h : y.Plain) (hsame : SameButRings y u) : u.Plain := by
  obtain ⟨phases, queue, rfl⟩ := hsame
  exact ⟨h.service, h.clean, h.errors, h.still⟩

theorem State.sendCall_withBearer (y : State) (r : Record) (b : BearerNo) (rec : BearerRecord) :
    (y.sendCall r).withBearer b rec = (y.withBearer b rec).sendCall r := by
  have hlocal : SameLocal y (y.withBearer b rec) := ⟨rfl, rfl, rfl, rfl, rfl⟩
  rw [State.sendCall_local hlocal rfl]
  conv => lhs; rw [(y.sendCall_same r).eq_takes]
  rfl

/-! ### The second disagreement (09, R155 and R156) -/

section
variable {t : Time} {a : AuditSlot} {b : BearerNo} {far : View} {s x y : State} (hx : x = s.begin t) (hp : x.Plain) (hup : x.isUp = true)
  (hq : x.Quietly .auditConflict) (hb : bearerOf a.index = some b) (hf : viewOf a.view = some far) (hl : a.line = 0xFF ∨ a.line.toNat < 24)
  (hsettled : (x.bearer b).entered + ms 200 ≤ x.now) (hsecond : 1 ≤ (x.bearer b).disagreements)
  (hy : y = { x with quality := { x.quality with qFar := a.quality.toNat } })
include hx hp hup hq hb hf hl hsettled hsecond hy

/-- The resolution of the disagreement by an action near u. -/
theorem exec_auditRecord_resolves {u : State} {line : Option LineNo}
    (hjudge : (x.bearer b).state.judge far a.reference = .disagreement) (hmove : (x.bearer b).state ≠ .heldMove)
    (hline : (x.bearer b).state.call?.map (·.line) = line) (hact : (y.actOn b far a.reference).Near u) (hu : u.Plain)
    (hrouting : u.routing .auditConflict = x.routing .auditConflict) (hlast : u.coder.lastGoodNumber = x.coder.lastGoodNumber) :
    exec (.auditRecord t a) s = .next ((u.withBearer b { u.bearer b with disagreements := 0 }).raise
      { kind := .auditConflict, line := line, bearer := some b, frame := x.coder.lastGoodNumber, detail := some a.reference }) := by
  have hbearer : y.bearer b = x.bearer b := by rw [hy]; rfl
  have hgood := State.takeAudit_good hp.service hup a hp.clean hb hf (auditLineOk_iff.mpr hl)
  rw [show x.takeQuality a.quality = y from hy.symm] at hgood
  have hcompared : y.compared b = true := by
    rw [State.compared, hbearer, show y.now = x.now by rw [hy], decide_eq_true (p := (x.bearer b).entered + settleTime ≤ x.now) hsettled,
      Bool.and_true]
    exact bne_iff_ne.mpr hmove
  have hcompare : y.compare b far a.reference = y.resolve b far a.reference := by
    rw [State.compare, hbearer, hjudge]
    exact if_pos (Nat.succ_le_succ hsecond)
  have htorn : y.tornLine b = line := by
    rw [State.tornLine, hbearer]
    exact hline
  rw [hcompared, if_pos rfl, hcompare] at hgood
  rw [exec_auditRecord, event_eq (State.begin_not_halted hx hp.service), ← hx, hgood]
  exact congrArg _ (State.Near.resolve_finish htorn hact hu.clean hu.still hu.errors (hrouting ▸ hq.isQuiet) _ hlast)

/-- The resolution of a disagreement on a call of the cabinet's, whose teardown leaves v: the call ends, a far call with another reference is
released, and a far block is taken (09, R157 to R159). -/
theorem exec_auditRecord_ends {c : Call} {v : BearerState → State} {guard : BearerState} {release : Record}
    (hview : (x.bearer b).state.view = .busy) (hcall : (x.bearer b).state.call? = some c)
    (href : (x.bearer b).state.reference? = some c.reference) (htaken : ∀ st, (y.takeCall b st .audit).Near (v st))
    (hv : ∀ st, (v st).Plain ∧ (v st).routing .auditConflict = x.routing .auditConflict ∧ (v st).coder.lastGoodNumber = x.coder.lastGoodNumber ∧
      ((v st).bearer b).disagreements = 0) (hguard : guard = y.guardOf c) (hrelease : release = releaseRecord none b a.reference .audit)
    {e : ErrorEvent}
    (he : e = ⟨.auditConflict, some c.line, some b, x.coder.lastGoodNumber, some a.reference⟩) :
    (far = .idle ∨ far = .unavailable → exec (.auditRecord t a) s = .next ((v guard).raise e)) ∧
      (far = .busy → c.reference ≠ a.reference → exec (.auditRecord t a) s = .next (((v guard).sendCall release).raise e)) ∧
      (far = .blocked → exec (.auditRecord t a) s = .next ((v (.blocked .far)).raise e)) := by
  have hbearer : y.bearer b = x.bearer b := by rw [hy]; rfl
  have resolves := fun u => exec_auditRecord_resolves (u := u) (line := some c.line) hx hp hup hq hb hf hl hsettled hsecond hy
  have hmove : (x.bearer b).state ≠ .heldMove := fun h => by
    rw [h] at hcall
    cases hcall
  have hline : (x.bearer b).state.call?.map (·.line) = some c.line := by rw [hcall]; rfl
  have htear : y.tearToGuard b = y.takeCall b guard .audit := by
    rw [State.tearToGuard, hbearer, hcall, hguard]
  obtain ⟨hplain, hrouting, hlast, hzero⟩ := hv guard
  refine ⟨fun hfar => ?_, fun hfar hne => ?_, fun hfar => ?_⟩
  · have hact : y.actOn b far a.reference = y.takeCall b guard .audit := by
      unfold State.actOn
      rw [hbearer, hview]
      rcases hfar with rfl | rfl <;> exact htear
    have hjudge : (x.bearer b).state.judge far a.reference = .disagreement :=
      BearerState.judge_disagreement (.inr ⟨hview, fun h => by rcases hfar with rfl | rfl <;> cases h.2.1⟩)
    rw [resolves (v guard) hjudge hmove hline (hact ▸ htaken guard) hplain hrouting hlast, State.withBearer_no_disagreements hzero, he]
  · have hsent := (v guard).sendCall_same release
    have hact : y.actOn b far a.reference = (y.takeCall b guard .audit).sendCall release := by
      unfold State.actOn
      rw [hbearer, hview, hfar]
      show (y.tearToGuard b).releaseFar b a.reference = _
      rw [htear, hrelease]
      rfl
    have hjudge : (x.bearer b).state.judge far a.reference = .disagreement :=
      BearerState.judge_disagreement (.inr ⟨hview, fun h => hne (Option.some.inj (href.symm.trans h.2.2))⟩)
    have hzero' : (((v guard).sendCall release).bearer b).disagreements = 0 := by
      rw [hsent.bearer]
      exact hzero
    rw [resolves ((v guard).sendCall release) hjudge hmove hline (hact ▸ (htaken guard).sendCall hplain.errors.overflow release)
      (hplain.sendCall release) ((hsent.routing _).trans hrouting) (by rw [hsent.coder, hlast]),
      State.withBearer_no_disagreements hzero', he]
  · obtain ⟨hplain, hrouting, hlast, hzero⟩ := hv (.blocked .far)
    have hact : y.actOn b far a.reference = y.takeCall b (.blocked .far) .audit := by
      unfold State.actOn
      rw [hbearer, hview, hfar]
      show y.blockFar b = _
      rw [State.blockFar, hbearer]
      cases hstate : (x.bearer b).state with
      | heldOut | heldIn | active => rfl
      | unavailable | free | heldMove | guarded | blocked => rw [hstate] at hcall; cases hcall
    have hjudge : (x.bearer b).state.judge far a.reference = .disagreement :=
      BearerState.judge_disagreement (.inr ⟨hview, fun h => by rw [hfar] at h; cases h.2.1⟩)
    rw [resolves (v (.blocked .far)) hjudge hmove hline (hact ▸ htaken _) hplain hrouting hlast, State.withBearer_no_disagreements hzero, he]

end

/-! ### O43 -/

/-- Settles O43, by the local view: none of the cabinet's calls, one that is up, one that rings. -/
theorem auditDisagreementIsResolved : Obligations.AuditDisagreementIsResolved := by
  intro t a b far s x y z e hx hp hup hq hb hf hl hsettled hsecond hy hz he release hrelease
  have hworkX : x.work = {} := State.work_of_begin hx
  have hwork : y.work = {} := by rw [hy]; exact hworkX
  have near : y.Near y := .refl hwork
  have hpy : y.Plain := by rw [hy]; exact hp.withQFar _
  have hbearer : y.bearer b = x.bearer b := by rw [hy]; rfl
  have hlines : ∀ l, y.line l = x.line l := fun l => by rw [hy]; rfl
  have hrouting : y.routing .auditConflict = x.routing .auditConflict := by rw [hy]; rfl
  have hcoder : y.coder = x.coder := by rw [hy]
  have resolves := fun u line => exec_auditRecord_resolves (u := u) (line := line) hx hp hup hq hb hf hl hsettled hsecond hy
  have blocked : ∀ st, (x.bearer b).state.view = .idle → (x.bearer b).state.call? = none → (x.bearer b).state ≠ .heldMove →
      y.blockFar b = y.putBearer b st → far = .blocked → exec (.auditRecord t a) s = .next ((y.bearerTo b st).raise e) := by
    intro st hview hnone hmove hblock hfar
    have hact : y.actOn b far a.reference = y.putBearer b st := by
      unfold State.actOn
      rw [hbearer, hfar, hview]
      exact hblock
    have hzero : ((y.bearerTo b st).bearer b).disagreements = 0 := by
      rw [State.bearerTo_bearer_same]
      rfl
    have h := resolves (y.bearerTo b st) none (BearerState.judge_disagreement (.inl ⟨.inl hview, .inr hfar⟩)) hmove (by rw [hnone]; rfl)
      (hact ▸ near.putBearer hpy.clean b st) (hpy.bearerTo b st) hrouting (congrArg (·.lastGoodNumber) hcoder)
    rw [h, State.withBearer_no_disagreements hzero, he]
  refine ⟨fun hrest hfar => ?_, fun hfree hfar => ?_, fun hguard hfar => ?_, fun hun hfar => ?_, fun c k l hcall hcl hk => ?_,
    fun c l hheld hcl hopen => ?_⟩
  · have hsent := y.sendCall_same release
    have hview : ((x.bearer b).state.view = .idle ∨ (x.bearer b).state.view = .unavailable) ∧ (x.bearer b).state.call? = none ∧
        (x.bearer b).state ≠ .heldMove := by
      rcases hrest with h | ⟨r, u, k, h⟩ | ⟨k, h⟩ <;> rw [h] <;> simp [BearerState.view, BearerState.call?]
    obtain ⟨hview, hnone, hmove⟩ := hview
    have hact : y.actOn b far a.reference = y.sendCall release := by
      unfold State.actOn
      rw [hbearer, hfar, hrelease]
      rcases hview with h | h <;> rw [h] <;> rfl
    have h := resolves (y.sendCall release) none (BearerState.judge_disagreement (.inl ⟨hview, .inl hfar⟩)) hmove (by rw [hnone]; rfl)
      (hact ▸ near.sendCall hpy.errors.overflow release) (hpy.sendCall release) ((hsent.routing _).trans hrouting)
      (by rw [hsent.coder, hcoder])
    rw [h, hsent.bearer, State.sendCall_withBearer, hbearer, ← hz, he]
  · have hview : (x.bearer b).state.view = .idle ∧ (x.bearer b).state.call? = none ∧ (x.bearer b).state ≠ .heldMove ∧
        y.blockFar b = y.putBearer b (.blocked .far) := by
      unfold State.blockFar
      rw [hbearer]
      rcases hfree with h | ⟨r, u, h⟩ <;> rw [h] <;> simp [BearerState.view, BearerState.call?]
    obtain ⟨hview, hnone, hmove, hblock⟩ := hview
    exact blocked _ hview hnone hmove hblock hfar
  · obtain ⟨r, u, hb'⟩ := hguard
    refine blocked _ ?_ ?_ ?_ ?_ hfar
    · rw [hb']
      rfl
    · rw [hb']
      rfl
    · rw [hb']
      exact BearerState.noConfusion
    · unfold State.blockFar
      rw [hbearer, hb']
  · obtain ⟨k, hb'⟩ := hun
    have hact : y.actOn b far a.reference = y := by
      unfold State.actOn
      rw [hbearer, hfar, hb']
      rfl
    have h := resolves y none (BearerState.judge_disagreement (.inl ⟨.inr (by rw [hb']; rfl), .inr hfar⟩)) (by rw [hb']; exact BearerState.noConfusion)
      (by rw [hb']; rfl) (by rw [hact]; exact near) hpy hrouting (by rw [hcoder])
    rw [h, hbearer, ← hz, he]
  · have hstate : (x.bearer b).state.view = .busy ∧ (x.bearer b).state.call? = some c ∧ (x.bearer b).state.reference? = some c.reference := by
      rcases hcall with ⟨u, r, h⟩ | h <;> rw [h] <;> simp [BearerState.view, BearerState.call?, BearerState.reference?]
    obtain ⟨hview, hsome, href⟩ := hstate
    have htaken : ∀ st, (y.takeCall b st .audit).Near ((y.endTo b c st).lineTo l k) := fun st => by
      have h := near.takeCall_line hpy.clean st .audit (b := b) (c := c) (by rw [hbearer]; exact hcall)
      rw [hlines, ← hcl, ← hk] at h
      exact h
    refine exec_auditRecord_ends (v := fun st => (y.endTo b c st).lineTo l k) hx hp hup hq hb hf hl hsettled hsecond hy hview hsome href htaken
      (fun st => ⟨(hpy.endTo b c st).lineTo l k, hrouting, congrArg (·.lastGoodNumber) hcoder, y.endTo_disagreements b c st⟩) rfl hrelease ?_
    rw [he, hcl]
  · have htaken : ∀ st, (y.takeCall b st .audit).Near ((((y.endTo b c st).removeRing l).serveRings).lineTo l .idle) := fun st => by
      have h := near.takeCall_ring hpy.clean st .audit (b := b) (c := c) (by rw [hbearer]; exact hheld) (by rw [hlines, ← hcl]; exact hopen)
      rw [← hcl] at h
      exact h
    refine exec_auditRecord_ends (v := fun st => (((y.endTo b c st).removeRing l).serveRings).lineTo l .idle) hx hp hup hq hb hf hl hsettled
      hsecond hy (by rw [hheld]; rfl) (by rw [hheld]; rfl) (by rw [hheld]; rfl) htaken (fun st => ?_) rfl hrelease ?_
    · have hrings := (State.removeRing_same (y.endTo b c st) l).trans (State.serveRings_same _)
      obtain ⟨phases, queue, hserved⟩ := hrings
      rw [hserved]
      exact ⟨⟨hpy.service, hpy.clean.endTo b c st |>.lineTo l _, hpy.errors, (hpy.still.endTo b c st).lineTo l _⟩, hrouting,
        congrArg (·.lastGoodNumber) hcoder, y.endTo_disagreements b c st⟩
    · rw [he, hcl]

end Sys2Proof.Machine
end

section
/-! O58: a step-down planned with room, drained without it, and forced. -/

namespace Sys2Proof.Machine

open Sys2Proof

theorem exec_setRateModeFixed_eq (t p b1 rate) (s : State) :
    exec (.setRateModeFixed t p b1 rate) s = event t (fun s => s.takeRateFixed p b1 rate) s := rfl
theorem exec_drainTimerExpiry_eq (t) (s : State) : exec (.drainTimerExpiry t) s = event t (fun s => s.takeDrainExpiry) s := rfl

/-! ### The counts of R129 and R131 -/

theorem State.countG_eq_length (x : State) (k : Nat) :
    x.countG k = (allBearers.filter (fun b => (x.bearer b).state.isClearing && decide (b.val < k))).length := rfl

theorem State.countU_eq (x : State) (k : Nat) :
    x.countU k = k - (allBearers.filter (fun b => (x.bearer b).state.isLost && decide (b.val < k))).length := rfl

theorem State.countB_eq_length (x : State) : x.countB = (allBearers.filter (fun b => (x.bearer b).state.call?.isSome)).length := rfl

theorem State.relocationPairs_eq (x : State) (k : Nat) : x.relocationPairs k =
    ((allBearers.filter (fun b => (x.bearer b).state.call?.isSome && decide (k ≤ b.val))).zip
      (allBearers.filter (fun b => decide ((x.bearer b).state = .free) && decide (b.val < k)))).map (fun m => { source := m.1, dest := m.2 }) := by
  unfold State.relocationPairs isSource isRoom
  rfl

/-- Each source stands at or above K', each destination below it, and none twice. -/
theorem State.relocationPairs_sides {x : State} {k : Nat} {pairs : List Pair} (h : pairs = x.relocationPairs k) :
    (pairs.map (·.source)).Nodup ∧ (pairs.map (·.dest)).Nodup ∧ ∀ m ∈ pairs, k ≤ m.source.val ∧ m.dest.val < k := by
  rw [State.relocationPairs_eq] at h
  refine ⟨?_, ?_, fun m hm => ?_⟩
  · rw [h, List.map_map]
    exact nodup_zip_fst _ _ (allBearers_nodup.filter _)
  · rw [h, List.map_map]
    exact nodup_zip_snd _ _ (allBearers_nodup.filter _)
  · rw [h] at hm
    obtain ⟨⟨i, j⟩, hij, rfl⟩ := List.mem_map.mp hm
    obtain ⟨hi, hj⟩ := List.of_mem_zip hij
    rw [List.mem_filter, Bool.and_eq_true, decide_eq_true_iff] at hi
    rw [List.mem_filter, Bool.and_eq_true, decide_eq_true_iff] at hj
    exact ⟨hi.2.2, of_decide_eq_true hj.2.2⟩

/-! ### The plan evaluated (07, R129) -/

section
variable {x : State} {p : StepPlan} {k : Nat}

/-- A plan in DRAIN, with the link UP, is given the table's counts. -/
theorem State.stepPlan_of_drain (hp : x.quality.plan = some p) {timer : Option Time} (hph : p.phase = .drain timer) (hu : x.isUp = true)
    (hc : x.Clean) (force : Bool) : x.stepPlan force = x.stepDrain p force := by
  unfold State.stepPlan
  rw [hp]
  dsimp only
  rw [hph]
  dsimp only
  rw [if_pos hu, hc.checkParity]

theorem State.stepDrain_of_room (hk : p.target.capacity = k) (h : x.countA k ≤ x.countF k) (force : Bool) :
    x.stepDrain p force = x.relocate p := by
  subst hk
  exact if_pos h

theorem State.stepDrain_waits (hk : p.target.capacity = k) (h : x.countF k < x.countA k) (hforced : p.forced = false) :
    x.stepDrain p false = x := by
  subst hk
  unfold State.stepDrain
  dsimp only
  rw [if_neg (Nat.not_le.mpr h), hforced]
  rfl

theorem State.stepDrain_clears (hk : p.target.capacity = k) (h : x.countF k < x.countA k) (hg : x.countA k ≤ x.countF k + x.countG k) :
    x.stepDrain p true = x.markForced p := by
  subst hk
  unfold State.stepDrain
  dsimp only
  rw [if_neg (Nat.not_le.mpr h), if_pos (Bool.true_or _), if_pos (Nat.sub_le_iff_le_add'.mpr hg)]

/-- One call is preempted, and the plan still waits for the room (07, R131). -/
theorem State.stepDrain_preempts {b : BearerNo} (hk : p.target.capacity = k) (h : x.countF k < x.countA k)
    (hg : x.countF k + x.countG k < x.countA k) (hb : x.preemptionOrder.take (x.countB - x.countU k) = [b])
    (hafter : ((x.preempt b).markForced p).countF k < ((x.preempt b).markForced p).countA k) :
    x.stepDrain p true = (x.preempt b).markForced p := by
  subst hk
  unfold State.stepDrain
  dsimp only
  rw [if_neg (Nat.not_le.mpr h), if_pos (Bool.true_or _), if_neg (by omega), hb]
  exact if_neg (Nat.not_le.mpr hafter)

end

/-- A reply does not wake a plan in COUNTDOWN. -/
theorem Rests.countdown_queued {v w : State} (hc : v.Clean) (hw : v.waiting = []) (ht : v.NoTest) {r : Rate} {pairs : List Pair} {f : Bool}
    (hp : v.quality.plan = some { target := r, phase := .countdown pairs, forced := f }) {p : Port} {rec : Record}
    (h : w = v ∨ w = v.queued p rec) : Rests w := by
  rcases h with rfl | rfl
  · exact .countdown hc hw ht hp
  · cases p with
    | link => exact .countdown hc hw ht hp
    | localPort => exact .countdown hc hw ht hp

/-! ### One call preempted (07, R131 and R132) -/

section
variable {x u : State} {b : BearerNo} {c : Call} {k : Nat}

/-- A call in a bearer that enters GUARD is one call fewer, and gives no bearer and takes none. -/
theorem State.counts_after_guard {r : Word} {e : Time} (hb : (u.bearer b).state = .guarded r e false) (hx : (x.bearer b).state = .active c)
    (hothers : ∀ j, j ≠ b → u.bearer j = x.bearer j) :
    u.countF k = x.countF k ∧ (b.val < k → u.countA k = x.countA k) ∧ x.countA k ≤ u.countA k + 1 ∧ u.countB + 1 = x.countB ∧
      u.countU k = x.countU k := by
  have hsame : ∀ f : BearerNo → BearerState → Bool, f b (u.bearer b).state = f b (x.bearer b).state → u.countBearers f = x.countBearers f := by
    intro f hf
    refine congrArg List.length (List.filter_congr fun j _ => ?_)
    by_cases hj : j = b
    · rw [hj, hf]
    · rw [hothers j hj]
  have hfewer : ∀ f : BearerNo → BearerState → Bool, f b (x.bearer b).state = true → f b (u.bearer b).state = false →
      u.countBearers f + 1 = x.countBearers f := fun f h1 h2 =>
    length_filter_drop allBearers allBearers_nodup b (allBearers_mem b) _ _ (fun j hj => by rw [hothers j hj]) h1 h2
  have hbelow : b.val < k → u.countA k = x.countA k := fun h => hsame (isSource k) (by
    rw [hb, hx]
    simp [isSource, Nat.not_le.mpr h])
  refine ⟨hsame (isRoom k) (by rw [hb, hx]; rfl), hbelow, ?_, hfewer (fun _ st => st.call?.isSome) (by rw [hx]; rfl) (by rw [hb]; rfl),
    congrArg (k - ·) (hsame (fun b st => st.isLost && decide (b.val < k)) (by rw [hb, hx]; rfl))⟩
  by_cases h : b.val < k
  · rw [hbelow h]
    exact Nat.le_succ _
  · rw [show x.countA k = u.countA k + 1 from (hfewer (isSource k) (by rw [hx]; simp [isSource, BearerState.call?, Nat.not_lt.mp h])
      (by rw [hb]; rfl)).symm]

theorem State.guardTo_bearer (ht : c.target = none) :
    ((x.guardTo b c).bearer b).state = .guarded c.reference (x.now + ms (x.param .guardTime)) false ∧
      ∀ j, j ≠ b → (x.guardTo b c).bearer j = x.bearer j := by
  refine ⟨?_, fun j hj => ?_⟩
  · rw [State.endTo_bearer, ht, if_neg (by simp), State.bearerTo_bearer_same]
    rfl
  · rw [State.endTo_bearer, ht, if_neg (by simp), State.bearerTo_other _ _ _ _ hj]

/-- The state after the preemption of an ACTIVE call (07, R132). -/
def State.preempted (x : State) (b : BearerNo) (c : Call) : State :=
  (((x.guardTo b c).lineTo c.line (if (x.line c.line).loop = .closed then .lockout .capacity else .idle)).sendCall
    (releaseRecord (some c.line) b c.reference .capacity)).raise
    { kind := .capacityPreempt, line := some c.line, bearer := some b, detail := some c.reference }

theorem State.preempted_same (x : State) (b : BearerNo) (c : Call) :
    SameButErrors ((x.guardTo b c).lineTo c.line (if (x.line c.line).loop = .closed then .lockout .capacity else .idle)) (x.preempted b c) :=
  (State.sendCall_same _ _).trans (State.raise_same _ _)

theorem State.preempt_near (hw : x.work = {}) (hc : x.Clean) (he : x.ErrorsOk) (hb : (x.bearer b).state = .active c) :
    (x.preempt b).Near (x.preempted b c) := by
  have hcall : (x.bearer b).state.call? = some c := by rw [hb]; rfl
  have hpreempt : x.preempt b = ((x.takeCall b (x.guardOf c) .capacity).sendCall (releaseRecord (some c.line) b c.reference .capacity)).raise
      { kind := .capacityPreempt, line := some c.line, bearer := some b, detail := some c.reference } := by
    rw [State.preempt, hcall]
  have htaken := (State.Near.refl hw).takeCall_line hc (x.guardOf c) .capacity (.inr hb)
  have herrors : ((x.guardTo b c).lineTo c.line (if (x.line c.line).loop = .closed then .lockout .capacity else .idle)).ErrorsOk := he
  rw [hpreempt]
  exact (htaken.sendCall herrors.overflow _).raise (herrors.sendCall _).overflow (herrors.sendCall _).capacityPreempt

/-- A plan in DRAIN is not read by the end of a call. -/
theorem State.guardTo_withPlan {q : StepPlan} (hq : q.phase = .drain none) : (x.withPlan q).guardTo b c = (x.guardTo b c).withPlan q := by
  have hplan : ({ q with phase := match q.phase with
      | .drain timer => .drain timer
      | .countdown pairs => .countdown (pairs.filter (fun m => m.source != b)) } : StepPlan) = q := by
    cases q
    cases hq
    rfl
  have hends : (x.withPlan q).guardTo b c = (x.guardTo b c).withPlan { q with phase := match q.phase with
      | .drain timer => .drain timer
      | .countdown pairs => .countdown (pairs.filter (fun m => m.source != b)) } := by
    unfold State.guardTo State.endTo
    cases c.target <;> rfl
  rw [hends, hplan]

theorem State.preempted_withPlan {q : StepPlan} (hq : q.phase = .drain none) :
    (x.withPlan q).preempted b c = (x.preempted b c).withPlan q := by
  unfold State.preempted
  rw [← State.raise_withPlan, ← State.sendCall_withPlan, State.guardTo_withPlan hq]
  rfl

end

/-- A plan in DRAIN whose timer expires with one call too many ends that call, and waits in DRAIN for the bearers in GUARD (07, R131). -/
theorem State.takeDrainExpiry_preempts {x : State} {b : BearerNo} {c : Call} {k : Nat} {r : Rate} {expiry : Time} {forced : Bool} {before after : List BearerNo}
    (hwork : x.work = {}) (hsound : x.Sound) (hidle : x.HeadIdle) (hwaiting : x.waiting = []) (hup : x.isUp = true)
    (hplan : x.quality.plan = some { target := r, phase := .drain (some expiry), forced := forced }) (hdue : x.drainDue = true)
    (hk : k = r.capacity) (hfew : x.countF k < x.countA k) (hshort : x.countF k + x.countG k < x.countA k)
    (hhigh : b.val < k ∨ x.countF k + 1 < x.countA k) (hsetup : ∀ i : BearerNo, (x.bearer i).state.isSetup = false)
    (hactive : x.active = before ++ b :: after) (hb : (x.bearer b).state = .active c) (hcls : c.cls = .ordinary)
    (hafter : ∀ i ∈ after, ∃ c, (x.bearer i).state = .active c ∧ c.cls = .priority) (htarget : c.target = none)
    (hone : x.countB = x.countU k + 1) :
    x.takeDrainExpiry.finish = (x.preempted b c).withPlan { target := r, phase := .drain none, forced := true } := by
  have hnear := State.preempt_near hwork hsound.clean hsound.errors hb
  have hsame := x.preempted_same b c
  generalize x.preempted b c = v at hnear hsame ⊢
  obtain ⟨q, hq⟩ : ∃ q : StepPlan, q = { target := r, phase := .drain none, forced := true } := ⟨_, rfl⟩
  obtain ⟨u, hu⟩ : ∃ u : State, u = v.withPlan q := ⟨_, rfl⟩
  have hnearU : ((x.preempt b).markForced { target := r, phase := .drain (some expiry), forced := forced }).Near u := by
    rw [hu, hq]
    exact hnear.map (fun v => v.withPlan _) (fun _ _ => rfl)
  have hbearerU : ∀ j, u.bearer j = (x.guardTo b c).bearer j := fun j => by
    rw [hu]
    exact hsame.bearer j
  obtain ⟨hguarded, hothers⟩ := x.guardTo_bearer (b := b) htarget
  obtain ⟨hFu, hbelow, hAu, hBu, hUu⟩ := State.counts_after_guard (x := x) (u := u) (k := k) (by rw [hbearerU]; exact hguarded) hb
    fun j hj => (hbearerU j).trans (hothers j hj)
  have hwait : u.countF k < u.countA k := by
    rw [hFu]
    rcases hhigh with hlow | hmany
    · rw [hbelow hlow]
      exact hfew
    · omega
  have hforce : x.takeDrainExpiry = (x.preempt b).markForced { target := r, phase := .drain (some expiry), forced := forced } := by
    refine (if_pos hdue).trans ((State.stepPlan_of_drain hplan rfl hup hsound.clean true).trans ?_)
    refine State.stepDrain_preempts hk.symm hfew hshort ?_ ?_
    · rw [hone, Nat.add_sub_cancel_left]
      exact State.preemptOrder_head hsetup hactive hb hcls hafter
    · obtain ⟨-, w, -, -, hz⟩ := hnearU
      rw [hz]
      exact hwait
  have hclean : ((x.guardTo b c).lineTo c.line (if (x.line c.line).loop = .closed then .lockout .capacity else .idle)).Clean :=
    (hsound.clean.endTo b c _).lineTo c.line _
  have hrests : Rests u := by
    refine Rests.forced (r := r) ?_ ?_ ?_ ?_ (by rw [hu, hq]; rfl) (hk ▸ hwait) (.inr ?_)
    · rw [hu]
      exact hsame.clean hclean
    · rw [hu]
      exact hsame.waiting.trans hwaiting
    · rw [hu]
      refine hidle.noTest hsame.testing (congrArg (·.supply) hsame.ring) hsame.now fun l => ?_
      rw [show (v.withPlan q).line l = v.line l from rfl, hsame.line, State.lineTo_line]
      split
      · next h => rw [h]; rfl
      · rfl
    · rw [hu]
      exact (congrArg (fun k : Link => k.state.isUp) hsame.link).trans hup
    · rw [← hk]
      omega
  rw [hforce, hrests.finish hnearU, hu, hq]

/-! ### O58 -/

/-- Settles O58: the plan made by FIXED, with room or without, and the expiry of its drain timer. -/
theorem stepDownIsPlannedAndForced : Obligations.StepDownIsPlannedAndForced := by
  intro t r k sources room clearing lost s x hx hsound hidle hwaiting hup hk hsources hroom hclearing hlost
  have hwork : x.work = {} := State.work_of_begin hx
  have hA : x.countA k = sources.length := by rw [hsources]; rfl
  have hF : x.countF k = room.length := by rw [hroom, State.countF_eq_length]
  have hG : x.countG k = clearing.length := by rw [hclearing]; rfl
  have hU : x.countU k = k - lost.length := by rw [hlost]; rfl
  refine ⟨fun p b1 y hs hplan hann hdue hlower hy => ?_, fun expiry forced y hplan hy => ⟨fun hearly => ?_, fun hover hfew => ⟨fun hclears => ?_, ?_⟩⟩⟩
  · obtain ⟨d, hd⟩ : ∃ d : StepPlan, d = { target := r, phase := .drain (some (x.now + sec (x.param .drainLimit))), forced := false } := ⟨_, rfl⟩
    have hdk : d.target.capacity = k := by rw [hd, hk]
    have hcode : Rate.ofCode (byte r.code).toNat = some r := by cases r <;> rfl
    have hcreate : ((x.setMode (.fixed r)).setRuns 0 0).fixedCheck = (y.withPlan d).stepPlan (x.param .drainLimit == 0) := by
      have hset : (x.setMode (.fixed r)).setRuns 0 0 = y := by rw [hy]; rfl
      rw [hset, State.fixedCheck_of_lower (r := r) (by rw [hy]) (by rw [hy]; exact hup) (by rw [hy]; exact hplan) (by rw [hy]; exact hann)
        (by rw [hy]; exact hdue) (by rw [hy]; exact hlower), State.createPlan_eq_step, hd, hy]
      rfl
    have hdrain := State.stepPlan_of_drain (x := y.withPlan d) (p := d) rfl (by rw [hd]) (by rw [hy]; exact hup) (by rw [hy]; exact hsound.clean)
      (x.param .drainLimit == 0)
    have hAd : (y.withPlan d).countA k = sources.length := by rw [← hA, hy]; rfl
    have hFd : (y.withPlan d).countF k = room.length := by rw [← hF, hy]; rfl
    refine ⟨fun hfew hlimit => ?_, fun hfits pairs hpairs hlink => ?_⟩
    · have hzero : (x.param .drainLimit == 0) = false := beq_eq_false_iff_ne.mpr hlimit
      rw [hzero, State.stepDrain_waits hdk (by rw [hAd, hFd]; exact hfew) (by rw [hd])] at hdrain
      rw [hzero, hdrain] at hcreate
      refine (exec_setRateModeFixed_eq ..).trans ((event_replied hx hs hcode
        (congrArg (fun v => v.replyWith p (replyRecord b1 0x26 .done 0)) hcreate) ?_ ?_).trans ?_)
      · rw [hy]; exact hwork
      · rw [hy]; exact hs.2.2
      · rw [hd]
        rfl
    · rw [State.stepDrain_of_room hdk (by rw [hAd, hFd]; exact hfits)] at hdrain
      have hyp : (y.withPlan d).relocationPairs r.capacity = pairs := by
        rw [hpairs, hsources, hroom, ← hk, hy]
        exact State.relocationPairs_eq x k
      obtain ⟨hsrc, hdst, hsides⟩ := State.relocationPairs_sides hyp.symm
      obtain ⟨v, hnear, hv, hvclean, hmoved, hkept⟩ := State.relocate_of_room (u := y.withPlan d) (r := r) (p := d) (by rw [hd]) hyp hsrc hdst hsides
        (by rw [hy]; exact hwork) (by rw [hy]; exact hsound.clean) (by rw [hy]; exact hup) (by rw [hy]; exact hsound.errors.overflow)
        (by rw [hy]; exact hlink)
      have hbearerD : ∀ i, (y.withPlan d).bearer i = x.bearer i := fun i => by rw [hy]; rfl
      have hmoves : pairs.filterMap (y.withPlan d).moveOf =
          pairs.filterMap (fun m => (x.bearer m.source).state.call?.map (fun c => moveRecord c.line m.source c.reference m.dest)) := by
        refine List.filterMap_congr fun m _ => ?_
        rw [State.moveOf, hbearerD]
      rw [hmoves] at hv
      have hplanV : v.quality.plan = some { target := r, phase := .countdown pairs, forced := false } := by
        rw [hv, hd]
      have hvroom : v.HasRoom p := by
        have hcount := List.length_filterMap_le (fun m : Pair => (x.bearer m.source).state.call?.map fun c =>
          moveRecord c.line m.source c.reference m.dest) pairs
        rw [hv]
        cases p with
        | link =>
          show (y.messages.linkQueue ++ _).length < 16
          rw [List.length_append, show y.messages.linkQueue = x.messages.linkQueue by rw [hy]]
          omega
        | localPort =>
          show y.messages.localQueue.length < 16
          rw [hy]
          exact hs.2.2
      have hdue : ∀ l, (v.line l).testDue = (x.line l).testDue := fun l => by
        rw [hv, hy]
        rfl
      have hsup : v.testing = x.testing ∧ v.ring.supply = x.ring.supply ∧ v.now = x.now ∧ v.waiting = [] := by
        rw [hv, hy]
        exact ⟨rfl, rfl, rfl, hwaiting⟩
      obtain ⟨htesting, hsupply, hnow, hempty⟩ := hsup
      have hrests : ∀ w : State, w = v ∨ w = v.queued p (replyRecord b1 0x26 .done 0) → Rests w := fun w hw =>
        Rests.countdown_queued hvclean hempty (hidle.noTest htesting hsupply hnow hdue) hplanV hw
      have hfinish := (hrests v (.inl rfl)).finish_reply hnear (hrests _ (.inr rfl)) hvroom
      refine ⟨v.queued p (replyRecord b1 0x26 .done 0), ?_, ?_, fun m hm => ?_, fun i hi => ?_⟩
      · rw [exec_setRateModeFixed_eq, event_eq (State.begin_not_halted hx hsound.service), ← hx, State.takeRateFixed_of_serves r hs, hcreate,
          hdrain]
        exact congrArg _ hfinish
      · rw [State.queued_bearers]
        conv => lhs; rw [hv]
        rw [hd, hy]
        rfl
      · rw [State.queued_bearer, State.queued_bearer, (hmoved m hm).1, (hmoved m hm).2, hbearerD, hbearerD]
        rw [hy]
        exact ⟨rfl, rfl⟩
      · rw [State.queued_bearer, hkept i hi, hbearerD]
  · have hnot : x.takeDrainExpiry = x := by
      rw [State.takeDrainExpiry, State.drainDue, hplan]
      exact if_neg (by simpa [State.due] using hearly)
    exact (exec_drainTimerExpiry_eq ..).trans (event_of_idle hx hsound.service hnot hwork)
  · have hforce : x.takeDrainExpiry = x.stepPlan true := by
      rw [State.takeDrainExpiry, State.drainDue, hplan]
      exact if_pos (decide_eq_true hover)
    have hclear := State.stepDrain_clears (x := x) (p := { target := r, phase := .drain (some expiry), forced := forced }) (k := k) hk.symm
      (by rw [hA, hF]; exact hfew) (by rw [hA, hF, hG]; exact hclears)
    rw [State.stepPlan_of_drain hplan rfl hup hsound.clean, hclear] at hforce
    refine (exec_drainTimerExpiry_eq ..).trans ((event_of_idle hx hsound.service hforce hwork).trans ?_)
    rw [hy]
    rfl
  · intro b c before after hshort hhigh hsetup hactive hb hcls hother hafter htarget hcount
    have hB : x.countB + lost.length = k + 1 := hcount
    have hpos : 0 < x.countB := List.length_pos_of_mem (a := b) (List.mem_filter.mpr ⟨allBearers_mem b, by rw [hb]; rfl⟩)
    have hdue : x.drainDue = true := by
      rw [State.drainDue, hplan]
      exact decide_eq_true hover
    have hforced := State.takeDrainExpiry_preempts hwork hsound hidle hwaiting hup hplan hdue hk (by rw [hA, hF]; exact hfew)
      (by rw [hA, hF, hG]; exact hshort) (by rw [hA, hF]; exact hhigh) hsetup hactive hb hcls hafter htarget (by rw [hU]; omega)
    rw [exec_drainTimerExpiry_eq, event_eq (State.begin_not_halted hx hsound.service), ← hx, hforced, ← State.preempted_withPlan rfl, hy]
    rfl

end Sys2Proof.Machine
end

section
/-! O18: the records that join the queues, and their layouts. -/

namespace Sys2Proof.Machine

open Sys2Proof

/-! ### A full queue (08, R147 and R148) -/

theorem dropYoungestReport_none {q : List Record} (h : ∀ r ∈ q, isReport r.kind = false) : dropYoungestReport q = none := by
  induction q with
  | nil => rfl
  | cons a q ih =>
    obtain ⟨ha, hq⟩ := List.forall_mem_cons.mp h
    rw [dropYoungestReport, ih hq, ha]
    rfl

section
variable {s : State} {r : Record}

/-- The new record is lost at a full local queue. -/
theorem State.push_localPort_full (h : ¬ s.HasRoom .localPort) : s.push .localPort r = (s, [overflowError 1 r.kind]) := by
  have hfull : pushLocalQueue s.messages.localQueue r = (s.messages.localQueue, some r.kind) := if_neg h
  rw [State.push]
  dsimp only
  rw [hfull]
  rfl

/-- The new record is lost at a full link queue, if it is a report or no report stands in the queue. -/
theorem State.push_link_full (h : ¬ s.HasRoom .link) (hr : isReport r.kind = true ∨ ∀ q ∈ s.messages.linkQueue, isReport q.kind = false) :
    s.push .link r = (s, [overflowError 0 r.kind]) := by
  have hfull : pushLinkQueue s.messages.linkQueue r = (s.messages.linkQueue, some r.kind) := by
    rw [pushLinkQueue, if_neg (show ¬ s.messages.linkQueue.length < Config.queueCapacity from h)]
    split
    · rfl
    · next hk => rw [dropYoungestReport_none (hr.resolve_left hk)]
  rw [State.push]
  dsimp only
  rw [hfull]
  rfl

/-- The youngest report makes way for a call-control record. -/
theorem State.push_link_drops {before after : List Record} {q : Record} (h : ¬ s.HasRoom .link) (hr : isReport r.kind = false)
    (hq : s.messages.linkQueue = before ++ q :: after) (hk : isReport q.kind = true) (ha : ∀ a ∈ after, isReport a.kind = false) :
    s.push .link r = ({ s with messages := { s.messages with linkQueue := before ++ after ++ [r] } }, [overflowError 0 q.kind]) := by
  have hfull : pushLinkQueue s.messages.linkQueue r = (before ++ after ++ [r], some q.kind) := by
    rw [pushLinkQueue, if_neg (show ¬ s.messages.linkQueue.length < Config.queueCapacity from h), hr, if_neg Bool.false_ne_true, hq,
      dropYoungestReport_split before after q hk ha]
  rw [State.push]
  dsimp only
  rw [hfull]
  rfl

theorem State.push_of_room {p : Port} (h : s.HasRoom p) : s.push p r = (s.queued p r, []) := by
  cases p with
  | link =>
    have hroom : pushLinkQueue s.messages.linkQueue r = (s.messages.linkQueue ++ [r], none) := if_pos h
    rw [State.push]
    dsimp only
    rw [hroom]
    rfl
  | localPort =>
    have hroom : pushLocalQueue s.messages.localQueue r = (s.messages.localQueue ++ [r], none) := if_pos h
    rw [State.push]
    dsimp only
    rw [hroom]
    rfl

/-- Both copies are placed before the loss of either is recorded (08, R146). -/
theorem State.sendBoth_of_push {u v : State} {e d : List ErrorEvent} (h : s.push .link r = (u, e)) (k : u.push .localPort r = (v, d)) :
    s.sendBoth r = v.raiseAll (e ++ d) := by
  rw [State.sendBoth, State.pushBoth]
  dsimp only
  rw [h]
  dsimp only
  rw [k]

theorem State.send_of_push {p : Port} {u : State} {e : List ErrorEvent} (h : s.push p r = (u, e)) : s.send p r = u.raiseAll e := by
  rw [State.send, h]

end

/-! ### Layouts (08, R139 and R141) -/

theorem hiByte_eq (w : Word) : hiByte w = byte (w.toNat / 256) := by
  rw [← hiByte_ofNat, BitVec.ofNat_toNat, BitVec.setWidth_eq]

theorem loByte_eq (w : Word) : loByte w = byte w.toNat := by
  rw [← loByte_ofNat, BitVec.ofNat_toNat, BitVec.setWidth_eq]

theorem callRecord_eq (kind b1 b2 : Byte) (w v : Word) (h : v.toNat < 256) :
    callRecord kind b1 b2 w v = ⟨kind, b1, b2, byte (w.toNat / 256), byte w.toNat, 0, loByte v⟩ := by
  rw [callRecord, hiByte_eq w, loByte_eq w, hiByte_eq v, Nat.div_eq_of_lt h]
  rfl

theorem toNat_ofNat_lt {n : Nat} (h : n < 256) : (BitVec.ofNat 16 n).toNat < 256 := by
  rw [BitVec.toNat_ofNat, Nat.mod_eq_of_lt (Nat.lt_trans h (by decide))]
  exact h

theorem ClearCause.code_lt (c : ClearCause) : c.code.toNat < 256 := by cases c <;> decide

/-- Settles O18: the queues with room and full, and the layouts of the records sent. -/
theorem recordsJoinTheirQueues : Obligations.RecordsJoinTheirQueues := by
  refine ⟨fun s r => ⟨fun p h => State.send_of_room h, fun h => State.send_of_push (State.push_localPort_full h), fun h hr =>
    State.send_of_push (State.push_link_full h hr), fun before q after h hr hq hk ha => State.send_of_push (State.push_link_drops h hr hq hk ha),
    fun h k => ?_, fun hr h k => ?_, fun h k => ?_, fun hr h k => ?_, fun h => if_pos h, fun h => State.sendCall_of_not_up h⟩,
    fun l b k w line bearer hi lo hline hbearer hhi hlo => ?_⟩
  · exact State.sendBoth_of_push (State.push_of_room h) (State.push_of_room (s := s.queued .link r) k)
  · exact State.sendBoth_of_push (State.push_link_full h (.inl hr)) (State.push_of_room k)
  · exact State.sendBoth_of_push (State.push_of_room h) (State.push_localPort_full (s := s.queued .link r) k)
  · exact State.sendBoth_of_push (State.push_link_full h (.inl hr)) (State.push_localPort_full k)
  · subst hline hbearer hhi hlo
    have hzero : (0 : Word).toNat < 256 := by decide
    refine ⟨fun c => ?_, callRecord_eq _ _ _ w 0 hzero, fun c => ⟨callRecord_eq _ _ _ w _ c.code_lt, callRecord_eq _ _ _ w _ c.code_lt,
      callRecord_eq _ _ _ w _ c.code_lt⟩, rfl, fun v hv => ?_, callRecord_eq _ _ _ w 0 hzero, callRecord_eq _ _ _ w 0 hzero, ?_,
      fun b1 kind st => ?_, rfl, fun e placed he => ?_, fun e placed he => ?_, fun o i v => ?_, fun new old => ?_, fun s c => ?_⟩
    · rw [seizeOutRecord, callRecord_eq _ _ _ w _ (by cases c <;> decide)]
      cases c <;> rfl
    · rw [digitRecord, callRecord_eq _ _ _ w _ (toNat_ofNat_lt hv), loByte_ofNat]
      rfl
    · rw [moveRecord, callRecord_eq _ _ _ w _ (toNat_ofNat_lt (Nat.lt_trans k.isLt (by decide))), loByte_ofNat]
      rfl
    · rw [replyRecord, hiByte_eq, loByte_eq]
      cases st <;> rfl
    · rw [alarmRecord, he, Option.getD_some, hiByte_eq, loByte_eq]
      cases e.line <;> cases e.bearer <;> rfl
    · rw [alarmRecord, he]
      cases e.line <;> cases e.bearer <;> rfl
    · rw [testResultRecord, hiByte_ofNat, loByte_ofNat]
      cases o <;> rfl
    · cases new <;> cases old <;> rfl
    · rw [State.linkStateRecord]
      have hstate : byte s.link.state.code =
          (match s.link.state with | .disabled => 0 | .hunt _ => 1 | .verify _ _ => 2 | .up _ _ => 3) := by
        cases s.link.state <;> rfl
      have hrate : byte s.link.rate.code = (match s.link.rate with | .robust => 0 | .standard => 1 | .wide => 2) := by
        cases s.link.rate <;> rfl
      have hhold : byte (bit s.link.state.hold?.isSome) = (if s.link.state.hold?.isSome then 1 else 0) := by
        cases s.link.state.hold?.isSome <;> rfl
      rw [hstate, hrate, hhold]
      cases c <;> rfl

end Sys2Proof.Machine
end

section
/-! O17: the taking of an error, and the restarts that an error orders. -/

namespace Sys2Proof.Machine

open Sys2Proof

/-! ### One error (11, R175 and R176) -/

section
variable {s : State} {e : ErrorEvent}

/-- Steps 1 and 2 of R175, and where the error was placed. -/
theorem State.recordError_eq (s : State) (e : ErrorEvent) : s.recordError e =
    (s.recorded e, { placed := if s.errors.first.isNone then 1 else 2, fresh := s.isNew e }) := by
  unfold State.recordError State.placeError State.countError State.recorded State.isNew State.isFirst State.inNext
  dsimp only
  cases hfirst : s.errors.first with
  | none => simp
  | some f => simp

theorem State.takeError_eq (s : State) (e : ErrorEvent) : s.takeError e =
    match s.routing e.kind with
    | .count => (s.recorded e, [])
    | .report => if s.isNew e = true then (s.recorded e).pushBoth (s.alarm e) else (s.recorded e, [])
    | .restartLink => ((s.recorded e).withWork { s.work with ordered :=
        s.work.ordered ++ [{ unit := false, kind := e.kind, alarm := if s.isNew e = true then some (s.alarm e) else none }] }, [])
    | .restartUnit => ((s.recorded e).withWork { s.work with ordered :=
        s.work.ordered ++ [{ unit := true, kind := e.kind, alarm := if s.isNew e = true then some (s.alarm e) else none }] }, []) := by
  unfold State.takeError
  rw [State.recordError_eq]
  cases s.routing e.kind <;> cases hnew : s.isNew e <;> simp [alarmFor, State.alarm, State.withWork, State.recorded]

/-- An error whose taking raises no other. -/
theorem State.raise_of_take {v : State} (h : s.takeError e = (v, [])) : s.raise e = v := by
  rw [State.raise, h]
  rfl

theorem State.pushBoth_of_room {r : Record} (h : s.HasRoom .link) (k : s.HasRoom .localPort) : s.pushBoth r = (s.queuedBoth r, []) := by
  rw [State.pushBoth, State.push_of_room h]
  dsimp only
  rw [State.push_of_room (s := s.queued .link r) (p := .localPort) k]
  rfl

theorem State.raise_recorded (h : s.routing e.kind = .count ∨ (s.routing e.kind = .report ∧ s.isNew e = false)) : s.raise e = s.recorded e := by
  refine State.raise_of_take ?_
  rw [State.takeError_eq]
  rcases h with h | ⟨h, hold⟩ <;> rw [h]
  dsimp only
  rw [hold, if_neg Bool.false_ne_true]

theorem State.raise_reported (h : s.routing e.kind = .report) (hl : s.HasRoom .link) (hp : s.HasRoom .localPort) :
    s.raise e = s.withAlarm e (s.recorded e) := by
  refine State.raise_of_take ?_
  rw [State.takeError_eq, h, State.withAlarm]
  dsimp only
  split
  · exact State.pushBoth_of_room (s := s.recorded e) hl hp
  · rfl

/-- The state with a restart ordered, and the ALARM that waits on it (11, R177). -/
theorem State.raise_orders {unit : Bool} (h : (s.routing e.kind = .restartLink ∧ unit = false) ∨ (s.routing e.kind = .restartUnit ∧ unit = true)) :
    s.raise e = (s.recorded e).withWork { s.work with ordered :=
      s.work.ordered ++ [{ unit := unit, kind := e.kind, alarm := if s.isNew e = true then some (s.alarm e) else none }] } := by
  refine State.raise_of_take ?_
  rw [State.takeError_eq]
  rcases h with ⟨h, rfl⟩ | ⟨h, rfl⟩ <;> rw [h]

end

/-! ### A record that reads back wrong -/

section
variable {x : State} {id : RecordId}

/-- The read of one record that mismatches. -/
theorem State.checkParity_bad (h : x.parityBad id = true) (hw : x.work = {}) :
    x.checkParity [id] = (x.withWork { found := [id] }).raise (parityError id) := by
  have hbad : [id].filter x.newMismatch = [id] := by
    rw [List.filter_cons_of_pos (by rw [State.newMismatch, h, hw]; rfl)]
    rfl
  rw [State.checkParity, State.readParity]
  dsimp only
  rw [hbad, hw]
  rfl

end

/-- A reply at the end of an event that has found mismatches and left nothing else to do. -/
theorem State.finish_reply_found {u : State} (hw : u.work = {}) {p : Port} {r : Record} (hroom : u.HasRoom p) (found : List RecordId) :
    ((u.withWork { found := found }).replyWith p r).finish = u.queued p r := by
  have hreply : ((u.withWork { found := found }).replyWith p r).round = (u.queued p r).withWork { found := found } := by
    have hsend : (u.withWork { found := found }).send p r = (u.queued p r).withWork { found := found } := by
      rw [State.send_of_room (by cases p <;> exact hroom)]
      cases p <;> rfl
    exact hsend
  have hagain : ∀ v : State, (v.withWork { found := found }).round = v.withWork { found := found } := fun v => rfl
  rw [State.finish, hreply, hagain, hagain]
  have hq : (u.queued p r).work = {} := by rw [State.queued_work]; exact hw
  exact State.withWork_of_idle hq

theorem SameButErrors.bearerStatus {s u : State} (h : SameButErrors s u) (b : BearerNo) : u.bearerStatus b = s.bearerStatus b := by
  rw [State.bearerStatus, h.bearer]
  rfl

theorem SameButErrors.lineStatus {s u : State} (h : SameButErrors s u) (l : LineNo) : u.lineStatus l = s.lineStatus l := by
  rw [State.lineStatus, h.line, h.now]
  rfl

/-! ### A query of a record that reads back wrong -/

section
variable {t : Time} {p : Port} {b1 : Byte} {s x : State} {α : Type} {fields : Option α} {a : α} {reads : α → List RecordId} {id : RecordId}
  {answer : State → α → Record} (hx : x = s.begin t) (hm : x.unit.mode = .service) (hp : x.hears p = true) (hf : fields = some a)
  (hreads : reads a = [id]) (hbad : x.parityBad id = true)
include hx hm hp hf hreads hbad

/-- The query goes on with the value read (01, R1; 02, R27). -/
theorem event_query_bad : event t (fun s => s.query p b1 fields reads answer) s = .next (State.finish
    (((x.withWork { found := [id] }).raise (parityError id)).replyWith p (answer ((x.withWork { found := [id] }).raise (parityError id)) a))) := by
  have hread := State.checkParity_bad hbad (State.work_of_begin hx)
  have hserved : ∀ act : State → α → State, x.request p b1 0x2A fields act = act x a := fun act => by
    unfold State.request
    rw [if_pos hp, hf]
    exact if_neg (by rw [hm]; exact UnitMode.noConfusion)
  rw [event_eq (State.begin_not_halted hx hm), ← hx, State.query, hserved, hreads, hread]

/-- The mismatch is reported, and the query answered. -/
theorem event_query_reports {y : State} (he : x.ErrorsOk) (hroute : x.routing .tableParity = .report) (hy : y = x.raise (parityError id))
    (hroom : y.HasRoom p) {r : Record} (hanswer : answer (y.withWork { found := [id] }) a = r) :
    event t (fun s => s.query p b1 fields reads answer) s = .next (y.queued p r) := by
  have hkind : (parityError id).kind = .tableParity := by cases id <;> rfl
  have hquiet : (x.routing (parityError id).kind).isQuiet = true := by rw [hkind, hroute]; rfl
  have hraise : (x.withWork { found := [id] }).raise (parityError id) = y.withWork { found := [id] } := by
    rw [State.raise_withWork hquiet he.overflow, hy]
  have hyw : y.work = {} := by
    rw [hy, State.raise_work hquiet he.overflow]
    exact State.work_of_begin hx
  rw [event_query_bad hx hm hp hf hreads hbad, hraise, hanswer, State.finish_reply_found hyw hroom]

end

/-! ### The unit restart that an error orders (11, R177) -/

/-- The strap step on a line reads the straps, the time and the settings. -/
theorem State.strapLine_congr {u v : State} (hpins : v.pins = u.pins) (hnow : v.now = u.now) (hparams : v.params = u.params) :
    v.strapLine = u.strapLine := by
  funext l r
  unfold State.strapLine State.straps State.param
  rw [hpins, hnow, hparams]

/-- A unit restart of sound records: START is entered from the restart values and what follows them. -/
theorem State.unitRestart_of_sound {s y : State} {c : RestartCause} {follow : State → State} (hbad : ∀ id, s.newMismatch id = false)
    (hfollow : follow (s.restartValues c) = y) (hl : ∀ l : LineNo, (y.line l).stuck = false) (hb : ∀ b : BearerNo, (y.bearer b).stuck = false)
    (hroom : y.messages.localQueue.length < 16) (hm : y.unit.mode = .start) :
    ∃ u, s.unitRestart c follow = u ∧ u = { y with
      unit := { y.unit with strapMask := y.straps, startSteps := true }
      lines := u.lines
      messages := { y.messages with localQueue := y.messages.localQueue ++ [u.unitReport] } } ∧
      ∀ l, u.line l = (y.strapLine l (y.line l)).sealed := by
  obtain ⟨u, hu, hframe, hlines⟩ := State.enterStart_of_sound hl hb hroom
  refine ⟨u, ?_, hframe, hlines⟩
  have hmode : u.unit.mode ≠ .halted := by
    rw [hframe]
    show y.unit.mode ≠ .halted
    rw [hm]
    exact UnitMode.noConfusion
  have hnone : everyRecord.filter s.newMismatch = [] := List.filter_eq_nil_iff.mpr fun id _ => by rw [hbad]; exact Bool.false_ne_true
  unfold State.unitRestart
  dsimp only
  rw [hfollow, hu, if_neg hmode, hnone]
  rfl

/-- The state after the restart values, with the two tables of records and the records queued since. -/
def State.reborn (z : State) (c : RestartCause) (lines : Vector LineRecord 24) (bearers : Vector BearerRecord 8) (links locals : List Record) : State :=
  let v := z.restartRest c lines bearers
  { v with messages := { v.messages with linkQueue := links, localQueue := locals } }

/-- What START gives a state with the restart values. -/
theorem State.reborn_starts {z : State} {lines : Vector LineRecord 24} {bearers : Vector BearerRecord 8}
    (hlines : ∀ l : LineNo, lines[l.val].stuck = false) (hbearers : ∀ b : BearerNo, bearers[b.val].stuck = false)
    (c : RestartCause) (links locals : List Record) (hroom : locals.length < 16) {s : State} {d : RestartCause}
    {follow : State → State} (hbad : ∀ id, s.newMismatch id = false) {w : Work}
    (hfollow : follow (s.restartValues d) = (z.reborn c lines bearers links locals).withWork w) :
    ∃ u, s.unitRestart d follow = u ∧ u = { z.reborn c lines bearers links locals with
      unit := { (z.reborn c lines bearers links locals).unit with strapMask := z.straps, startSteps := true }
      lines := Vector.ofFn fun l : LineNo => (z.strapLine l lines[l.val]).sealed
      messages := { (z.reborn c lines bearers links locals).messages with localQueue := locals ++ [u.unitReport] }
      work := w } := by
  obtain ⟨u, hu, hframe, hul⟩ := State.unitRestart_of_sound hbad hfollow hlines hbearers hroom rfl
  refine ⟨u, hu, ?_⟩
  have hall : u.lines = Vector.ofFn fun l : LineNo => (z.strapLine l lines[l.val]).sealed := by
    refine Vector.ext fun i hi => ?_
    rw [Vector.getElem_ofFn]
    refine (hul ⟨i, hi⟩).trans ?_
    rw [State.strapLine_congr (u := z) rfl rfl rfl]
    rfl
  rw [hall] at hframe
  exact hframe

/-- A command taken at a time that the state has passed, with nothing left of the event before it. -/
theorem State.begin_again {s x y : State} {t : Time} (hx : x = s.begin t) (hnow : y.now = x.now) (hw : y.work = {}) : y.begin t = y := by
  have htime : max y.now t = y.now := Nat.max_eq_left (by rw [hnow, hx]; exact Nat.le_max_right _ _)
  show ({ y with now := max y.now t, work := {} } : State) = y
  rw [htime, ← hw]

/-- The event's end takes the restart that waits, after which nothing is left (11, R177). -/
theorem State.finish_restarts {v u : State} {k : ErrorKind} {alarm : Option Record} {found : List RecordId} {rep : Option (Port × Record)}
    (hm : v.unit.mode = .service)
    (hu : (v.withWork { found := found, reply := rep }).unitRestart (.error k) (fun s => s.flushReply.sendAlarm alarm) = u)
    (huw : u.work = { found := found }) :
    (v.withWork { found := found, reply := rep, ordered := [{ unit := true, kind := k, alarm := alarm }] }).finish = u.withWork {} := by
  have hround : (v.withWork { found := found, reply := rep, ordered := [{ unit := true, kind := k, alarm := alarm }] }).round = u := by
    show (v.withWork { found := found, reply := rep }).takeOrdered { unit := true, kind := k, alarm := alarm } = u
    unfold State.takeOrdered
    rw [show (v.withWork { found := found, reply := rep }).unit.mode = .service from hm]
    exact hu
  have hself : u = u.withWork { found := found } := by rw [← huw]; rfl
  have hagain : u.round = u := by
    rw [hself]
    rfl
  rw [State.finish, hround, hagain, hagain]

section
variable {t : Time} {p : Port} {b1 index : Byte} {l : LineNo} {s x z : State} {e : ErrorEvent} (hx : x = s.begin t) (hm : x.unit.mode = .service)
  (hp : x.hears p = true) (hl : lineOf index = some l) (hbad : (x.line l).parityBad = true) (hroute : x.routing .tableParity = .restartUnit)
  (he : e = parityError (.line l)) (hz : z = (x.recorded e).withLine l { x.line l with parityBad := false }) (hc : z.Clean)
include hx hm hp hl hbad hroute he hz hc

/-- The restart that a mismatch orders is the one that RESTART_UNIT takes, with its cause, and with the answer and the ALARM in place of the
reply. -/
theorem event_query_restarts : ∃ v w, exec (.restartUnit t p b1) z = .next v ∧
    w = { v with unit := { v.unit with cause := .error .tableParity } } ∧
    exec (.queryLine t p index) s = .next { w with messages := { w.messages with
      linkQueue := (if p = .link then [x.lineStatus l] else []) ++ if x.isNew e = true then [x.alarm e] else []
      localQueue := (if p = .link then [] else [x.lineStatus l]) ++ (if x.isNew e = true then [x.alarm e] else []) ++ [w.unitReport] } } := by
  have hwork : x.work = {} := State.work_of_begin hx
  have hzw : z.work = {} := by rw [hz]; exact hwork
  have hzm : z.unit.mode = .service := by rw [hz]; exact hm
  have hzline : ∀ k, k ≠ l → z.line k = x.line k := fun k hk => by
    rw [hz, State.withLine_line, if_neg hk]
    rfl
  have hzbad : ∀ id, z.newMismatch id = false := fun id => by rw [State.newMismatch, hc.parityBad]; rfl
  obtain ⟨lines, hlines⟩ : ∃ v : Vector LineRecord 24, v = Vector.ofFn (fun k => (z.line k).restarted.sealed) := ⟨_, rfl⟩
  obtain ⟨bearers, hbearers⟩ : ∃ v : Vector BearerRecord 8, v = Vector.ofFn (fun b =>
      ({ z.bearer b with state := (z.bearer b).state.restarted b, entered := z.now, disagreements := 0 } : BearerRecord).sealed) := ⟨_, rfl⟩
  have hls : ∀ k : LineNo, lines[k.val].stuck = false := fun k => by
    rw [hlines, Vector.getElem_ofFn]
    exact (hc.1 k).2
  have hbs : ∀ b : BearerNo, bearers[b.val].stuck = false := fun b => by
    rw [hbearers, Vector.getElem_ofFn]
    exact (hc.2 b).2
  have hvalues : z.restartValues .requested = z.restartRest .requested lines bearers := by rw [hlines, hbearers, State.restartValues_eq]
  have hroom : ∀ c, (z.restartRest c lines bearers).HasRoom p := fun c => by cases p <;> exact Nat.zero_lt_succ _
  have hrequested : (z.restartValues .requested).send p (replyRecord b1 0x28 .done 0) = (z.reborn .requested lines bearers
      (if p = .link then [replyRecord b1 0x28 .done 0] else []) (if p = .link then [] else [replyRecord b1 0x28 .done 0])).withWork {} := by
    rw [hvalues, State.send_of_room (hroom _)]
    have hidle : (z.reborn .requested lines bearers (if p = .link then [replyRecord b1 0x28 .done 0] else [])
      (if p = .link then [] else [replyRecord b1 0x28 .done 0])).work = {} := hzw
    rw [State.withWork_of_idle hidle]
    cases p <;> rfl
  have hlen : (if p = .link then [] else [replyRecord b1 0x28 .done 0]).length < 16 := by
    split <;> exact Nat.lt_of_sub_eq_succ rfl
  obtain ⟨v, hv, hvframe⟩ := State.reborn_starts (z := z) hls hbs .requested _ _ hlen hzbad
    (follow := fun s => s.send p (replyRecord b1 0x28 .done 0)) hrequested
  obtain ⟨r, hr⟩ : ∃ r, r = x.lineStatus l := ⟨_, rfl⟩
  obtain ⟨alarm, halarm⟩ : ∃ a, a = if x.isNew e = true then some (x.alarm e) else none := ⟨_, rfl⟩
  obtain ⟨y, hy⟩ : ∃ y : State, y = (x.recorded e).withWork { found := [.line l], reply := some (p, r) } := ⟨_, rfl⟩
  have hybad : ∀ id, y.newMismatch id = false := by
    intro id
    cases id with
    | line k =>
      by_cases hk : k = l
      · rw [State.newMismatch, hy, hk]
        simp [State.withWork]
      · have hsound : y.parityBad (.line k) = false := by
          rw [hy, ← (hc.1 k).1, hzline k hk]
          rfl
        rw [State.newMismatch, hsound]
        rfl
    | bearer b =>
      have hsound : y.parityBad (.bearer b) = false := by
        rw [hy, ← (hc.2 b).1, hz]
        rfl
      rw [State.newMismatch, hsound]
      rfl
  have hyvalues : y.restartValues (.error .tableParity) =
      (z.restartRest (.error .tableParity) lines bearers).withWork { found := [.line l], reply := some (p, r) } := by
    have hsame : (Vector.ofFn fun k => (y.line k).restarted.sealed) = lines := by
      rw [hlines]
      refine congrArg Vector.ofFn (funext fun k => ?_)
      by_cases hk : k = l
      · rw [hk, hz, State.withLine_line, if_pos rfl, hy]
        rfl
      · rw [hzline k hk, hy]
        rfl
    rw [State.restartValues_eq, hsame, hbearers, hy, hz]
    rfl
  have hordered : (y.restartValues (.error .tableParity)).flushReply.sendAlarm alarm = (z.reborn (.error .tableParity) lines bearers
      ((if p = .link then [r] else []) ++ alarm.toList) ((if p = .link then [] else [r]) ++ alarm.toList)).withWork { found := [.line l] } := by
    have hflush : (y.restartValues (.error .tableParity)).flushReply =
        ((z.restartRest (.error .tableParity) lines bearers).queued p r).withWork { found := [.line l] } := by
      rw [hyvalues]
      refine Eq.trans (State.send_of_room (s := (z.restartRest (.error .tableParity) lines bearers).withWork { found := [.line l] }) (p := p) (r := r) ?_) ?_
      · cases p <;> exact Nat.zero_lt_succ _
      · cases p <;> rfl
    rw [hflush]
    cases alarm with
    | none => cases p <;> rfl
    | some a =>
      have hsent := State.sendBoth_of_push (State.push_of_room (s := ((z.restartRest (.error .tableParity) lines bearers).queued p r).withWork
        { found := [.line l] }) (p := .link) (r := a) (by cases p <;> exact Nat.lt_of_sub_eq_succ rfl))
        (State.push_of_room (p := .localPort) (r := a) (by cases p <;> exact Nat.lt_of_sub_eq_succ rfl))
      refine hsent.trans ?_
      cases p <;> rfl
  have hlen' : ((if p = .link then [] else [r]) ++ alarm.toList).length < 16 := by
    cases alarm <;> split <;> exact Nat.lt_of_sub_eq_succ rfl
  obtain ⟨u, hu, huframe⟩ := State.reborn_starts (z := z) hls hbs (.error .tableParity) _ _ hlen' hybad (follow := fun s => s.flushReply.sendAlarm alarm) hordered
  have hbegin : z.begin t = z := State.begin_again hx (by rw [hz]; rfl) hzw
  have hzp : z.hears p = true := by
    rw [hz]
    exact hp
  have hvw : v.work = {} := by rw [hvframe]
  have hrestart : exec (.restartUnit t p b1) z = .next v := by
    have hserved : z.takeRestartUnit p b1 = z.unitRestart .requested (fun s => s.send p (replyRecord b1 0x28 .done 0)) := by
      unfold State.takeRestartUnit State.request
      rw [if_pos hzp]
      exact if_neg (by rw [hzm]; exact UnitMode.noConfusion)
    rw [exec_restartUnit, event_eq (by rw [hzm]; exact UnitMode.noConfusion), hbegin, hserved, hv, State.finish_of_idle hvw]
  have hquery : exec (.queryLine t p index) s = .next (u.withWork {}) := by
    have hraised : (x.withWork { found := [.line l] }).raise (parityError (.line l)) = (x.recorded e).withWork
        { found := [.line l], ordered := [{ unit := true, kind := .tableParity, alarm := alarm }] } := by
      rw [State.raise_orders (unit := true) (.inr ⟨hroute, rfl⟩), halarm, he]
      rfl
    refine (exec_queryLine ..).trans ((event_query_bad (id := .line l) hx hm hp hl rfl hbad).trans (congrArg _ ?_))
    rw [hraised]
    refine Eq.trans ?_ (State.finish_restarts (v := x.recorded e) (found := [.line l]) (rep := some (p, r)) hm (hy ▸ hu) (by rw [huframe]))
    rw [hr]
    rfl
  refine ⟨v, _, hrestart, rfl, ?_⟩
  have hreport : u.unitReport = ({ v with unit := { v.unit with cause := .error .tableParity } } : State).unitReport :=
    State.unitReport_congr (by rw [huframe, hvframe]; rfl) (by rw [huframe, hvframe]; rfl) (by rw [huframe, hvframe]; rfl)
  have hone : (if x.isNew e = true then [x.alarm e] else []) = alarm.toList := by
    rw [halarm]
    split <;> rfl
  rw [hquery, ← hreport, hone, ← hr]
  generalize u.unitReport = reportU at huframe
  generalize v.unitReport = reportV at hvframe
  rw [huframe, hvframe]
  rfl

end

/-! ### The restart of the link that an error orders (11, R177) -/

/-- The event's end takes the restart of the link that waits; two rounds are left. -/
theorem State.round_relinks {y : State} {k : ErrorKind} {alarm : Option Record} (hm : y.unit.mode = .service) (hw : y.work = {}) :
    (y.withWork { ordered := [{ unit := false, kind := k, alarm := alarm }] }).round = y.restartByError alarm := by
  show (y.withWork {}).takeOrdered { unit := false, kind := k, alarm := alarm } = _
  rw [State.withWork_of_idle hw]
  unfold State.takeOrdered
  rw [hm]
  rfl

/-- A state with the link down rests, lines waiting or not. -/
theorem Rests.down {u : State} (hc : u.Clean) (hup : u.isUp = false) (hp : u.NoDrain) (ht : u.NoTest) : Rests u where
  serve := fun w => State.serveQueue_of_no_free (s := u.withWork w) hc (.inl hup)
  plan := fun w => State.stepPlan_of_noDrain (s := u.withWork w) hp false
  test := fun w => State.chooseTest_of_noTest (s := u.withWork w) hc ht

/-- Two rounds are enough for an effect near a resting state. -/
theorem Rests.rounds {z u : State} (r : Rests u) (h : z.Near u) : z.round.round.withWork {} = u := by
  obtain ⟨hu, w, h1, h2, rfl⟩ := h
  rw [r.round w h1 h2, r.round w.lowered h1 h2]
  exact State.withWork_of_idle hu

section
variable {s x y : State} {t : Time} {src : Source} {kind : Byte} {e : ErrorEvent} (hx : x = s.begin t) (hsound : x.Sound)
  (hheard : x.hearsSource src = true) (hroute : x.routing .msgCheck = .restartLink) (hy : y = x.recorded e)
  (he : e = ⟨.msgCheck, none, none, if src = .localPort then none else x.coder.lastGoodNumber, some (toWord (Source.code src) kind)⟩)
include hx hsound hheard hroute hy he

/-- A check byte that does not match orders the restart of the link, with the ALARM after it. -/
theorem exec_checkByteMismatch_orders : exec (.checkByteMismatch t src kind) s =
    .next ((y.restartByError (if x.isNew e = true then some (x.alarm e) else none)).round.round.withWork {}) := by
  have hfault : x.recordFault .msgCheck src kind = x.raise e := by
    rw [State.recordFault, he]
    cases src <;> rfl
  have hkind : e.kind = .msgCheck := by rw [he]
  have hordered : x.takeMismatch src kind =
      y.withWork { ordered := [{ unit := false, kind := e.kind, alarm := if x.isNew e = true then some (x.alarm e) else none }] } := by
    rw [State.takeMismatch, if_pos hheard, hfault, State.raise_orders (unit := false) (.inl ⟨hkind ▸ hroute, rfl⟩), State.work_of_begin hx, hy]
    rfl
  have hwork : x.work = {} := State.work_of_begin hx
  have hyw : y.work = {} := by
    rw [hy]
    exact hwork
  have hym : y.unit.mode = .service := by
    rw [hy]
    exact hsound.service
  rw [exec_checkByteMismatch, event_eq (State.begin_not_halted hx hsound.service), ← hx, hordered, State.finish, State.round_relinks hym hyw]

theorem exec_checkByteMismatch_disabled (hlink : x.link.state = .disabled) (hl : x.HasRoom .link) (hp : x.HasRoom .localPort) :
    exec (.checkByteMismatch t src kind) s = .next (x.withAlarm e y) := by
  have hwork : x.work = {} := State.work_of_begin hx
  have hyw : y.work = {} := by
    rw [hy]
    exact hwork
  have hnothing : y.restartAction = (y, []) := if_neg fun h => h.2 (by rw [hy]; exact hlink)
  have hsent : y.sendAlarm (if x.isNew e = true then some (x.alarm e) else none) = x.withAlarm e y := by
    rw [State.withAlarm]
    split
    · have hpush := State.pushBoth_of_room (s := y) (r := x.alarm e) (by rw [hy]; exact hl) (by rw [hy]; exact hp)
      show y.sendBoth (x.alarm e) = _
      rw [State.sendBoth, hpush]
      rfl
    · rfl
  have hidle : (x.withAlarm e y).work = {} := by
    rw [State.withAlarm]
    split
    · exact hyw
    · exact hyw
  rw [exec_checkByteMismatch_orders hx hsound hheard hroute hy he, State.restartByError_of_quiet hnothing, hsent, State.round_of_idle hidle,
    State.round_of_idle hidle, State.withWork_of_idle hidle]

theorem exec_checkByteMismatch_restarts {p : Port} {b1 : Byte} (hup : x.isUp = true) (hidle : x.HeadIdle)
    (hring : ∀ l b, (x.line l).state = .ringing b → (x.line l).loop = .opened) (hroom : x.messages.localQueue.length < 14) :
    ∃ v, exec (.linkControlRestart t p b1) y = .next (v.queued p (replyRecord b1 0x27 .done 0)) ∧
      exec (.checkByteMismatch t src kind) s = .next (x.withAlarm e v) := by
  have hwork : x.work = {} := State.work_of_begin hx
  have hyw : y.work = {} := by
    rw [hy]
    exact hwork
  have hym : y.unit.mode = .service := by
    rw [hy]
    exact hsound.service
  have herrors : y.ErrorsOk := by
    have h := (State.moved_raise x e).errors hsound.errors
    rw [State.raise_orders (unit := false) (.inl ⟨by rw [he]; exact hroute, rfl⟩), ← hy] at h
    exact h
  obtain ⟨d, hd⟩ : ∃ d : State, d = y.dropLink.beginHunt := ⟨_, rfl⟩
  have hdw : d.work = {} := by rw [hd]; exact hyw
  have hdc : d.Clean := by
    rw [hd, hy]
    exact hsound.clean
  have hdroom : d.messages.localQueue.length < 14 := by
    rw [hd, hy]
    exact hroom
  obtain ⟨hnear, hclean⟩ := State.tearDown_reports (cause := .restarted) hdw hdc (by rw [hd]; exact herrors)
    (fun l b => by rw [hd, hy]; exact hring l b) (Nat.lt_trans hdroom (by decide))
  obtain ⟨hdown, hplan, htest⟩ := State.downed_rests (x := x) (cause := .restarted) (y := d) hidle (by rw [hd, hy]; rfl) (by rw [hd, hy]; rfl)
    (by rw [hd, hy]; rfl) (by rw [hd, hy]; rfl) (by rw [hd]; rfl) (by rw [hd]; rfl)
  have hrestart : y.restartLink = d.emptyLinkQueue.tearDown.send .localPort (d.emptyLinkQueue.tearDown.linkStateRecord .restarted) := by
    rw [hd]
    rfl
  have hframe := State.downed_frame d .restarted
  have hrehunt : y.rehunt.HasRoom .localPort := by
    have htorn := ((State.Near.refl (s := d.emptyLinkQueue) hdw).tearDown hdc fun l b => by
      rw [hd, hy]
      exact hring l b).1
    have hkept := State.tornTo_frame d.emptyLinkQueue
    generalize d.emptyLinkQueue.tornTo = v at htorn hkept
    rw [show y.rehunt = d.emptyLinkQueue.tearDown by rw [hd]; rfl]
    generalize d.emptyLinkQueue.tearDown = w at htorn
    obtain ⟨-, f, -, -, rfl⟩ := htorn
    show v.messages.localQueue.length < 16
    rw [hkept]
    exact Nat.lt_trans hdroom (by decide)
  generalize d.downed .restarted = v at hnear hclean hdown hplan htest hframe
  have hlocal : v.messages.localQueue.length < 15 := by
    rw [hframe]
    show (d.messages.localQueue ++ [d.linkStateRecord .restarted]).length < 15
    rw [List.length_append]
    exact Nat.succ_lt_succ hdroom
  have hlinks : v.HasRoom .link := by
    rw [hframe]
    exact Nat.zero_lt_succ _
  have hlocals : v.HasRoom .localPort := Nat.lt_trans hlocal (by decide)
  rw [← hrestart] at hnear
  have hlive : y.link.state ≠ .disabled := by
    rw [hy]
    intro h
    rw [State.isUp, show x.link.state = .disabled from h] at hup
    cases hup
  refine ⟨v, ?_, ?_⟩
  · have hserved : y.takeRestartLink p b1 = y.restartLink.replyWith p (replyRecord b1 0x27 .done 0) := by
      have hheardY : y.hears p = true := by
        cases p with
        | link =>
          show (y.isUp && y.inService) = true
          rw [State.inService, hym, show y.isUp = true by rw [hy]; exact hup]
          rfl
        | localPort => rfl
      unfold State.takeRestartLink State.request
      rw [if_pos hheardY]
      refine (if_neg (by rw [hym]; exact UnitMode.noConfusion)).trans (if_neg hlive)
    rw [exec_linkControlRestart, event_eq (by rw [hym]; exact UnitMode.noConfusion), State.begin_again hx (by rw [hy]; rfl) hyw, hserved]
    exact congrArg _ (hnear.finish_reply_waiting hclean (.inl hdown) hplan htest (by cases p <;> assumption))
  · have haction : y.restartAction = (y.restartLink, []) := by
      have hyclean : y.Clean := by
        rw [hy]
        exact hsound.clean
      refine (if_pos ⟨?_, hlive⟩).trans (State.restartLinkQuietly_of_clean hyclean hrehunt)
      rw [State.inService, hym]
      rfl
    have hquiet : (v.routing .txOverflow).isQuiet = true := by
      rw [hframe, hd]
      exact herrors.overflow
    have halarm : (y.restartLink.sendAlarm (if x.isNew e = true then some (x.alarm e) else none)).Near (x.withAlarm e v) := by
      rw [State.withAlarm]
      split
      · have hboth := State.pushBoth_of_room (r := x.alarm e) hlinks hlocals
        have hsent : v.sendBoth (x.alarm e) = v.queuedBoth (x.alarm e) := by
          rw [State.sendBoth, hboth]
          rfl
        rw [← hsent]
        exact hnear.sendBoth hquiet _
      · exact hnear
    have hrests : Rests (x.withAlarm e v) := by
      rw [State.withAlarm]
      split
      · exact Rests.down (u := v.queuedBoth (x.alarm e)) hclean hdown hplan htest
      · exact Rests.down hclean hdown hplan htest
    rw [exec_checkByteMismatch_orders hx hsound hheard hroute hy he, State.restartByError_of_quiet haction, hrests.rounds halarm]

end

/-! ### HALTED (11, R178) -/

/-- In START the restart that waits is a halt. -/
theorem State.finish_halts {v : State} {k : ErrorKind} {alarm : Option Record} {found : List RecordId} (hm : v.unit.mode = .start)
    (hw : v.work = { found := found, ordered := [{ unit := true, kind := k, alarm := alarm }] }) :
    v.finish = (v.halt k).withWork {} := by
  have hself : v = v.withWork { found := found, ordered := [{ unit := true, kind := k, alarm := alarm }] } := by rw [← hw]; rfl
  have hround : v.round = (v.halt k).withWork { found := found } := by
    rw [hself]
    show (v.withWork { found := found }).takeOrdered { unit := true, kind := k, alarm := alarm } = _
    unfold State.takeOrdered
    rw [show (v.withWork { found := found }).unit.mode = .start from hm]
    rfl
  rw [State.finish, hround]
  rfl

/-- In START a sample moves the debounce and nothing else. -/
theorem State.sampleLine_starting {x : State} {l : LineNo} {level : Loop} (hs : x.samples l = true) {v : State}
    (hread : x.checkParity [.line l] = v) (hv : v.unit.mode = .start) :
    ∃ u, x.sampleLine l level = u ∧ u.work = v.work ∧ u.unit.mode = .start := by
  refine ⟨v.debounceLine l level, ?_, ?_, ?_⟩
  · have hservice : (v.debounceLine l level).inService = false := by
      rw [State.inService]
      unfold State.debounceLine
      split
      · exact congrArg (· == UnitMode.service) hv
      · exact congrArg (· == UnitMode.service) hv
    have hjudge : ∀ ended, (v.debounceLine l level).judgeTransition l ended = v.debounceLine l level := fun ended => by
      unfold State.judgeTransition
      rw [hservice]
      cases ended with
      | none => rfl
      | some d => exact if_neg fun h => Bool.false_ne_true h.1
    have hthreshold : (v.debounceLine l level).judgeThresholds l = v.debounceLine l level := by
      unfold State.judgeThresholds
      dsimp only
      rw [hservice]
      rfl
    unfold State.sampleLine
    dsimp only
    rw [if_pos hs, hread, hjudge, hthreshold]
  · unfold State.debounceLine
    split <;> rfl
  · unfold State.debounceLine
    split <;> exact hv

/-- Settles O17: one error, a read that mismatches, the restart of the link, and the halt in START. -/
theorem errorIsRecorded : Obligations.ErrorIsRecorded := by
  refine ⟨fun s e => ⟨State.raise_recorded, State.raise_reported, fun unit => State.raise_orders⟩,
    fun t p index b1 s x hx hm herrors hp => ⟨fun b y hb hbad hroute hy hroom => ?_, fun l y z e hl hbad he => ⟨fun hroute hy hroom => ?_,
      fun hroute hz hc => event_query_restarts hx hm hp hl hbad hroute he hz hc⟩⟩,
    fun t src kind b1 p s x y e hx hsound hheard hroute hy he => ⟨exec_checkByteMismatch_disabled hx hsound hheard hroute hy he,
      exec_checkByteMismatch_restarts hx hsound hheard hroute hy he⟩,
    fun t l level s x hx hm hroute hbad hheld hgrid => ?_⟩
  · exact (exec_queryBearer ..).trans (event_query_reports (id := .bearer b) hx hm hp hb rfl hbad herrors hroute hy hroom
      (by rw [hy]; exact (State.raise_same x _).bearerStatus b))
  · subst he
    exact (exec_queryLine ..).trans (event_query_reports (id := .line l) hx hm hp hl rfl hbad herrors hroute hy hroom
      (by rw [hy]; exact (State.raise_same x _).lineStatus l))
  · have hwork : x.work = {} := State.work_of_begin hx
    have hsamples : x.samples l = true := by
      rw [State.samples, hheld, State.onGrid_iff.mpr hgrid]
      rfl
    have hread := State.checkParity_bad (id := .line l) hbad hwork
    rw [State.raise_orders (unit := true) (.inr ⟨hroute, rfl⟩)] at hread
    obtain ⟨v, hv, hvwork, hvm⟩ := State.sampleLine_starting (level := level) hsamples hread hm
    refine ⟨(v.halt .tableParity).withWork {}, ?_, rfl, rfl, rfl⟩
    have hnot : s.unit.mode ≠ .halted := fun h => UnitMode.noConfusion (hm.symm.trans ((congrArg (·.unit.mode) hx).trans h))
    rw [exec_loopSample, event_eq hnot, ← hx, hv, State.finish_halts hvm hvwork]
    rfl

end Sys2Proof.Machine
end
